-- ==== Sys2Proof/Word.lean ====
section
/-! DEFINITION. The word types of the core and their plainest arithmetic (00_scope.md R6, R7). -/

namespace Sys2Proof

/-- A Word: an unsigned 32-bit value whose `+` and `-` wrap modulo 2^32 (R6, R7). -/
abbrev Word := BitVec 32

/-- A Byte: 8 bits (R6). -/
abbrev Byte := BitVec 8

end Sys2Proof
end

