-- ==== Sys2Proof/Config.lean ====
section
/-! DEFINITION. What one core fixes: the byte-order tag and the OPEN parameters of 00_scope.md R4.
The spec makes each OPEN parameter "a named argument of the model"; they stand together in one
structure, which State carries as plain data and no step writes (DESIGN CHOICE, assumption 1).
The model needs no free value: no rule leaves an instruction's result open. -/

namespace Sys2Proof

/-- The byte order of the RAM, for data and fetch alike (20_memory.md R47). -/
inductive Endian where
  | little
  | big
  deriving DecidableEq, Repr

/-- The OPEN parameters of R4 (ENDIAN stands in State: it is set by a load). The three argument
registers are r0 to r12, which are the same in every mode (60_exceptions.md R166). -/
structure Params where
  /-- `MEM_SIZE`: RAM capacity in bytes. -/
  memSize : Nat
  /-- `SWI_PUTC`: number of the character-output service. -/
  swiPutc : BitVec 24
  /-- `SWI_READLINE`: number of the line-input service. -/
  swiReadline : BitVec 24
  /-- `PUTC_REG`: register whose low byte is output. -/
  putcReg : Fin 13
  /-- `READLINE_ADDR_REG`: register with the buffer address. -/
  readlineAddrReg : Fin 13
  /-- `READLINE_MAX_REG`: register with `max_bytes`. -/
  readlineMaxReg : Fin 13
  /-- `KBD_ADDR`: loads from it return the last input character. -/
  kbdAddr : Word
  /-- `DISPLAY_ADDR`: stores to it go to character output. -/
  displayAddr : Word
  /-- `INITIAL_SP`: value the loader writes to r13. -/
  initialSp : Word
  /-- `TRACE_ALL_MODES`: trace every mode, not only System. -/
  traceAllModes : Bool
  deriving DecidableEq, Repr

end Sys2Proof
end

