-- ==== Sys2Proof/Syntax.lean ====
section
/-! DEFINITION. The instructions as syntax: one constructor per row of opcode_table.json, with the
fields of its row (30_encoding.md R62 to R79). A field the spec ignores but the row lists (Rn of
MOV, Rd of TST, S of LDM) is kept, so that an encoded word loses no bit of it. -/

namespace Sys2Proof

/-- A register field: r0 to r15 (10_state.md R13). -/
abbrev Reg := Fin 16

/-- The condition field (40_execution_cycle.md R98); `nv` is the sixteenth value 0b1111, which
never passes (R99). -/
inductive Cond where
  | eq | ne | cs | cc | mi | pl | vs | vc | hi | ls | ge | lt | gt | le | al | nv
  deriving DecidableEq, Repr

/-- The shift type `sh` (30_encoding.md R63). -/
inductive ShiftType where
  | lsl | lsr | asr | ror
  deriving DecidableEq, Repr

/-- The sixteen data-processing operations (30_encoding.md R67). -/
inductive DpOp where
  | and | eor | sub | rsb | add | adc | sbc | rsc
  | tst | teq | cmp | cmn | orr | mov | bic | mvn
  deriving DecidableEq, Repr

/-- Fields of `DpImm` (R64). -/
structure DpImmArgs where
  s : Bool
  rn : Reg
  rd : Reg
  rot : BitVec 4
  imm8 : BitVec 8
  deriving DecidableEq, Repr

/-- Fields of `DpImmShift` (R65). -/
structure DpShiftArgs where
  s : Bool
  rn : Reg
  rd : Reg
  shiftImm : BitVec 5
  sh : ShiftType
  rm : Reg
  deriving DecidableEq, Repr

/-- Fields of `DpRegShift` (R66). -/
structure DpRegArgs where
  s : Bool
  rn : Reg
  rd : Reg
  rs : Reg
  sh : ShiftType
  rm : Reg
  deriving DecidableEq, Repr

/-- Fields of `Multiply` (R68): the destination is bits 19:16, the accumulator bits 15:12. -/
structure MulArgs where
  s : Bool
  rd : Reg
  rn : Reg
  rs : Reg
  rm : Reg
  deriving DecidableEq, Repr

/-- Fields of `LsImmPre` and `LsImmPost` (R69). -/
structure LsImmArgs where
  p : Bool
  u : Bool
  w : Bool
  rn : Reg
  rd : Reg
  offset12 : BitVec 12
  deriving DecidableEq, Repr

/-- Fields of `LsRegPre` and `LsRegPost` (R70). -/
structure LsRegArgs where
  p : Bool
  u : Bool
  w : Bool
  rn : Reg
  rd : Reg
  rm : Reg
  deriving DecidableEq, Repr

/-- Fields of `LsScaledPre` and `LsScaledPost` (R70). -/
structure LsScaledArgs where
  p : Bool
  u : Bool
  w : Bool
  rn : Reg
  rd : Reg
  shiftImm : BitVec 5
  sh : ShiftType
  rm : Reg
  deriving DecidableEq, Repr

/-- Fields of `HwImmPre` and `HwImmPost` (R71). -/
structure HwImmArgs where
  p : Bool
  u : Bool
  w : Bool
  rn : Reg
  rd : Reg
  immH : BitVec 4
  immL : BitVec 4
  deriving DecidableEq, Repr

/-- Fields of `HwRegPre` and `HwRegPost` (R72). -/
structure HwRegArgs where
  p : Bool
  u : Bool
  w : Bool
  rn : Reg
  rd : Reg
  rm : Reg
  deriving DecidableEq, Repr

/-- Fields of `Block` (R73); `s` is ignored by every rule. -/
structure BlockArgs where
  p : Bool
  u : Bool
  s : Bool
  w : Bool
  rn : Reg
  list : BitVec 16
  deriving DecidableEq, Repr

/-- Fields of `MsrReg` (R78); `spsr` is R. -/
structure MsrRegArgs where
  spsr : Bool
  mask : BitVec 4
  rm : Reg
  deriving DecidableEq, Repr

/-- Fields of `MsrImm` (R79); `spsr` is R. -/
structure MsrImmArgs where
  spsr : Bool
  mask : BitVec 4
  rot : BitVec 4
  imm8 : BitVec 8
  deriving DecidableEq, Repr

/-- One instruction: the rows of opcode_table.json in the table's order. -/
inductive Instr where
  /-- The word 0: the driver halts on it (R89, R94). -/
  | zeroWord
  /-- R160. -/
  | swi (c : Cond) (n : BitVec 24)
  /-- R152. -/
  | b (c : Cond) (off : BitVec 24)
  /-- R153. -/
  | bl (c : Cond) (off : BitVec 24)
  /-- R151. -/
  | stm (c : Cond) (a : BlockArgs)
  /-- R150. -/
  | ldm (c : Cond) (a : BlockArgs)
  /-- Coprocessor space (R88, R161). -/
  | nopCoprocessor (c : Cond)
  /-- Single-transfer undefined space (R88, R161). -/
  | nopUndefined (c : Cond)
  /-- R139. -/
  | strImm (c : Cond) (a : LsImmArgs)
  /-- R138. -/
  | ldrImm (c : Cond) (a : LsImmArgs)
  /-- R141. -/
  | strbImm (c : Cond) (a : LsImmArgs)
  /-- R140. -/
  | ldrbImm (c : Cond) (a : LsImmArgs)
  /-- R139. -/
  | strReg (c : Cond) (a : LsRegArgs)
  /-- R138. -/
  | ldrReg (c : Cond) (a : LsRegArgs)
  /-- R141. -/
  | strbReg (c : Cond) (a : LsRegArgs)
  /-- R140. -/
  | ldrbReg (c : Cond) (a : LsRegArgs)
  /-- R139. -/
  | strScaled (c : Cond) (a : LsScaledArgs)
  /-- R138. -/
  | ldrScaled (c : Cond) (a : LsScaledArgs)
  /-- R141. -/
  | strbScaled (c : Cond) (a : LsScaledArgs)
  /-- R140. -/
  | ldrbScaled (c : Cond) (a : LsScaledArgs)
  /-- R159. -/
  | msrImm (c : Cond) (a : MsrImmArgs)
  /-- S = 0 compare space, immediate (R88, R161). -/
  | nopCompareImm (c : Cond)
  /-- R116. -/
  | andImm (c : Cond) (a : DpImmArgs)
  /-- R117. -/
  | eorImm (c : Cond) (a : DpImmArgs)
  /-- R118. -/
  | subImm (c : Cond) (a : DpImmArgs)
  /-- R119. -/
  | rsbImm (c : Cond) (a : DpImmArgs)
  /-- R120. -/
  | addImm (c : Cond) (a : DpImmArgs)
  /-- R121. -/
  | adcImm (c : Cond) (a : DpImmArgs)
  /-- R122. -/
  | sbcImm (c : Cond) (a : DpImmArgs)
  /-- R123. -/
  | rscImm (c : Cond) (a : DpImmArgs)
  /-- R124. -/
  | tstImm (c : Cond) (a : DpImmArgs)
  /-- R125. -/
  | teqImm (c : Cond) (a : DpImmArgs)
  /-- R126. -/
  | cmpImm (c : Cond) (a : DpImmArgs)
  /-- R127. -/
  | cmnImm (c : Cond) (a : DpImmArgs)
  /-- R128. -/
  | orrImm (c : Cond) (a : DpImmArgs)
  /-- R129. -/
  | movImm (c : Cond) (a : DpImmArgs)
  /-- R130. -/
  | bicImm (c : Cond) (a : DpImmArgs)
  /-- R131. -/
  | mvnImm (c : Cond) (a : DpImmArgs)
  /-- R133. -/
  | mul (c : Cond) (a : MulArgs)
  /-- R134. -/
  | mla (c : Cond) (a : MulArgs)
  /-- Long multiply, swap and the other words with 1001 in bits 7:4 (R88, R161). -/
  | nopMultiplySpace (c : Cond)
  /-- Double-word load and store space (R88, R147). -/
  | nopDoubleWord (c : Cond)
  /-- R144. -/
  | strhImm (c : Cond) (a : HwImmArgs)
  /-- R143. -/
  | ldrhImm (c : Cond) (a : HwImmArgs)
  /-- R145. -/
  | ldrsbImm (c : Cond) (a : HwImmArgs)
  /-- R146. -/
  | ldrshImm (c : Cond) (a : HwImmArgs)
  /-- R144. -/
  | strhReg (c : Cond) (a : HwRegArgs)
  /-- R143. -/
  | ldrhReg (c : Cond) (a : HwRegArgs)
  /-- R145. -/
  | ldrsbReg (c : Cond) (a : HwRegArgs)
  /-- R146. -/
  | ldrshReg (c : Cond) (a : HwRegArgs)
  /-- R156. -/
  | mrs (c : Cond) (spsr : Bool) (rd : Reg)
  /-- R154. -/
  | bx (c : Cond) (rm : Reg)
  /-- R158. -/
  | msrReg (c : Cond) (a : MsrRegArgs)
  /-- S = 0 compare space, register (R88, R161). -/
  | nopCompareReg (c : Cond)
  /-- R116. -/
  | andShift (c : Cond) (a : DpShiftArgs)
  /-- R117. -/
  | eorShift (c : Cond) (a : DpShiftArgs)
  /-- R118. -/
  | subShift (c : Cond) (a : DpShiftArgs)
  /-- R119. -/
  | rsbShift (c : Cond) (a : DpShiftArgs)
  /-- R120. -/
  | addShift (c : Cond) (a : DpShiftArgs)
  /-- R121. -/
  | adcShift (c : Cond) (a : DpShiftArgs)
  /-- R122. -/
  | sbcShift (c : Cond) (a : DpShiftArgs)
  /-- R123. -/
  | rscShift (c : Cond) (a : DpShiftArgs)
  /-- R124. -/
  | tstShift (c : Cond) (a : DpShiftArgs)
  /-- R125. -/
  | teqShift (c : Cond) (a : DpShiftArgs)
  /-- R126. -/
  | cmpShift (c : Cond) (a : DpShiftArgs)
  /-- R127. -/
  | cmnShift (c : Cond) (a : DpShiftArgs)
  /-- R128. -/
  | orrShift (c : Cond) (a : DpShiftArgs)
  /-- R129. -/
  | movShift (c : Cond) (a : DpShiftArgs)
  /-- R130. -/
  | bicShift (c : Cond) (a : DpShiftArgs)
  /-- R131. -/
  | mvnShift (c : Cond) (a : DpShiftArgs)
  /-- R116. -/
  | andRegShift (c : Cond) (a : DpRegArgs)
  /-- R117. -/
  | eorRegShift (c : Cond) (a : DpRegArgs)
  /-- R118. -/
  | subRegShift (c : Cond) (a : DpRegArgs)
  /-- R119. -/
  | rsbRegShift (c : Cond) (a : DpRegArgs)
  /-- R120. -/
  | addRegShift (c : Cond) (a : DpRegArgs)
  /-- R121. -/
  | adcRegShift (c : Cond) (a : DpRegArgs)
  /-- R122. -/
  | sbcRegShift (c : Cond) (a : DpRegArgs)
  /-- R123. -/
  | rscRegShift (c : Cond) (a : DpRegArgs)
  /-- R124. -/
  | tstRegShift (c : Cond) (a : DpRegArgs)
  /-- R125. -/
  | teqRegShift (c : Cond) (a : DpRegArgs)
  /-- R126. -/
  | cmpRegShift (c : Cond) (a : DpRegArgs)
  /-- R127. -/
  | cmnRegShift (c : Cond) (a : DpRegArgs)
  /-- R128. -/
  | orrRegShift (c : Cond) (a : DpRegArgs)
  /-- R129. -/
  | movRegShift (c : Cond) (a : DpRegArgs)
  /-- R130. -/
  | bicRegShift (c : Cond) (a : DpRegArgs)
  /-- R131. -/
  | mvnRegShift (c : Cond) (a : DpRegArgs)
  deriving DecidableEq, Repr

/-- The condition of an instruction; the word 0 has none (30_encoding.md R84, R90). -/
def Instr.cond? : Instr → Option Cond
  | .zeroWord => none
  | .swi c _ => some c
  | .b c _ => some c
  | .bl c _ => some c
  | .stm c _ => some c
  | .ldm c _ => some c
  | .nopCoprocessor c => some c
  | .nopUndefined c => some c
  | .strImm c _ => some c
  | .ldrImm c _ => some c
  | .strbImm c _ => some c
  | .ldrbImm c _ => some c
  | .strReg c _ => some c
  | .ldrReg c _ => some c
  | .strbReg c _ => some c
  | .ldrbReg c _ => some c
  | .strScaled c _ => some c
  | .ldrScaled c _ => some c
  | .strbScaled c _ => some c
  | .ldrbScaled c _ => some c
  | .msrImm c _ => some c
  | .nopCompareImm c => some c
  | .andImm c _ => some c
  | .eorImm c _ => some c
  | .subImm c _ => some c
  | .rsbImm c _ => some c
  | .addImm c _ => some c
  | .adcImm c _ => some c
  | .sbcImm c _ => some c
  | .rscImm c _ => some c
  | .tstImm c _ => some c
  | .teqImm c _ => some c
  | .cmpImm c _ => some c
  | .cmnImm c _ => some c
  | .orrImm c _ => some c
  | .movImm c _ => some c
  | .bicImm c _ => some c
  | .mvnImm c _ => some c
  | .mul c _ => some c
  | .mla c _ => some c
  | .nopMultiplySpace c => some c
  | .nopDoubleWord c => some c
  | .strhImm c _ => some c
  | .ldrhImm c _ => some c
  | .ldrsbImm c _ => some c
  | .ldrshImm c _ => some c
  | .strhReg c _ => some c
  | .ldrhReg c _ => some c
  | .ldrsbReg c _ => some c
  | .ldrshReg c _ => some c
  | .mrs c _ _ => some c
  | .bx c _ => some c
  | .msrReg c _ => some c
  | .nopCompareReg c => some c
  | .andShift c _ => some c
  | .eorShift c _ => some c
  | .subShift c _ => some c
  | .rsbShift c _ => some c
  | .addShift c _ => some c
  | .adcShift c _ => some c
  | .sbcShift c _ => some c
  | .rscShift c _ => some c
  | .tstShift c _ => some c
  | .teqShift c _ => some c
  | .cmpShift c _ => some c
  | .cmnShift c _ => some c
  | .orrShift c _ => some c
  | .movShift c _ => some c
  | .bicShift c _ => some c
  | .mvnShift c _ => some c
  | .andRegShift c _ => some c
  | .eorRegShift c _ => some c
  | .subRegShift c _ => some c
  | .rsbRegShift c _ => some c
  | .addRegShift c _ => some c
  | .adcRegShift c _ => some c
  | .sbcRegShift c _ => some c
  | .rscRegShift c _ => some c
  | .tstRegShift c _ => some c
  | .teqRegShift c _ => some c
  | .cmpRegShift c _ => some c
  | .cmnRegShift c _ => some c
  | .orrRegShift c _ => some c
  | .movRegShift c _ => some c
  | .bicRegShift c _ => some c
  | .mvnRegShift c _ => some c

end Sys2Proof
end

