-- ==== Sys2Proof/WellFormed.lean ====
section
/-! DEFINITION. Which terms of Instr are instructions. Most fields are well formed by their type;
three checks are left, each with a name. -/

namespace Sys2Proof

/-- Why a term of Instr has no encoding of its own. -/
inductive IllFormed where
  /-- TST, TEQ, CMP or CMN with S = 0: that word is not the comparison (30_encoding.md R85, 41_data_processing.md R124). -/
  | compareWithoutS
  /-- A scaled register offset of LSL #0: that word is the plain register offset (R70). -/
  | scaledIsPlain
  /-- AND of the zero word's fields: that word is the row of word 0 (R89, R90). -/
  | zeroWordAnd
  deriving DecidableEq, Repr

/-- Comparisons exist with S = 1 only (R85). -/
def checkCompare (s : Bool) : Option IllFormed :=
  if s then none else some .compareWithoutS

/-- The scaled forms have bits 11:4 not all zero (R70). -/
def LsScaledArgs.check (a : LsScaledArgs) : Option IllFormed :=
  if a.shiftImm = 0#5 ∧ a.sh = .lsl then some .scaledIsPlain else none

/-- The fields `decode(0)` gives to AND (R89). -/
def DpShiftArgs.zero : DpShiftArgs := ⟨false, 0, 0, 0#5, .lsl, 0⟩

/-- The check of each instruction, by name. -/
def Instr.illFormed : Instr → Option IllFormed
  | .zeroWord => none
  | .swi _ _ => none
  | .b _ _ => none
  | .bl _ _ => none
  | .stm _ _ => none
  | .ldm _ _ => none
  | .nopCoprocessor _ => none
  | .nopUndefined _ => none
  | .strImm _ _ => none
  | .ldrImm _ _ => none
  | .strbImm _ _ => none
  | .ldrbImm _ _ => none
  | .strReg _ _ => none
  | .ldrReg _ _ => none
  | .strbReg _ _ => none
  | .ldrbReg _ _ => none
  | .strScaled _ a => a.check
  | .ldrScaled _ a => a.check
  | .strbScaled _ a => a.check
  | .ldrbScaled _ a => a.check
  | .msrImm _ _ => none
  | .nopCompareImm _ => none
  | .andImm _ _ => none
  | .eorImm _ _ => none
  | .subImm _ _ => none
  | .rsbImm _ _ => none
  | .addImm _ _ => none
  | .adcImm _ _ => none
  | .sbcImm _ _ => none
  | .rscImm _ _ => none
  | .tstImm _ a => checkCompare a.s
  | .teqImm _ a => checkCompare a.s
  | .cmpImm _ a => checkCompare a.s
  | .cmnImm _ a => checkCompare a.s
  | .orrImm _ _ => none
  | .movImm _ _ => none
  | .bicImm _ _ => none
  | .mvnImm _ _ => none
  | .mul _ _ => none
  | .mla _ _ => none
  | .nopMultiplySpace _ => none
  | .nopDoubleWord _ => none
  | .strhImm _ _ => none
  | .ldrhImm _ _ => none
  | .ldrsbImm _ _ => none
  | .ldrshImm _ _ => none
  | .strhReg _ _ => none
  | .ldrhReg _ _ => none
  | .ldrsbReg _ _ => none
  | .ldrshReg _ _ => none
  | .mrs _ _ _ => none
  | .bx _ _ => none
  | .msrReg _ _ => none
  | .nopCompareReg _ => none
  | .andShift c a => if c = .eq ∧ a = DpShiftArgs.zero then some .zeroWordAnd else none
  | .eorShift _ _ => none
  | .subShift _ _ => none
  | .rsbShift _ _ => none
  | .addShift _ _ => none
  | .adcShift _ _ => none
  | .sbcShift _ _ => none
  | .rscShift _ _ => none
  | .tstShift _ a => checkCompare a.s
  | .teqShift _ a => checkCompare a.s
  | .cmpShift _ a => checkCompare a.s
  | .cmnShift _ a => checkCompare a.s
  | .orrShift _ _ => none
  | .movShift _ _ => none
  | .bicShift _ _ => none
  | .mvnShift _ _ => none
  | .andRegShift _ _ => none
  | .eorRegShift _ _ => none
  | .subRegShift _ _ => none
  | .rsbRegShift _ _ => none
  | .addRegShift _ _ => none
  | .adcRegShift _ _ => none
  | .sbcRegShift _ _ => none
  | .rscRegShift _ _ => none
  | .tstRegShift _ a => checkCompare a.s
  | .teqRegShift _ a => checkCompare a.s
  | .cmpRegShift _ a => checkCompare a.s
  | .cmnRegShift _ a => checkCompare a.s
  | .orrRegShift _ _ => none
  | .movRegShift _ _ => none
  | .bicRegShift _ _ => none
  | .mvnRegShift _ _ => none

/-- An instruction that the encoder packs into a word of its own row. -/
abbrev Instr.WellFormed (i : Instr) : Prop := i.illFormed = none

end Sys2Proof
end

