-- ==== Sys2Proof/Decode.lean ====
section
/-! DEFINITION. The decoder of 30_encoding.md R85, total on every 32-bit word, and after it the
encoder, written from the same layouts (R64 to R79). -/

namespace Sys2Proof

/-- `w[lo+n-1 : lo]` (00_scope.md R6). -/
abbrev field (w : Word) (lo n : Nat) : BitVec n := w.extractLsb' lo n

/-- `w[i]` (00_scope.md R6). -/
abbrev flag (w : Word) (i : Nat) : Bool := w.getLsbD i

/-- A 4-bit register field (R63). -/
def Reg.ofBits (b : BitVec 4) : Reg := ⟨b.toNat, b.isLt⟩

def Reg.toBits (r : Reg) : BitVec 4 := ⟨r.val, r.isLt⟩

/-- The condition field values (40_execution_cycle.md R98). -/
def Cond.toBits : Cond → BitVec 4
  | .eq => 0b0000#4
  | .ne => 0b0001#4
  | .cs => 0b0010#4
  | .cc => 0b0011#4
  | .mi => 0b0100#4
  | .pl => 0b0101#4
  | .vs => 0b0110#4
  | .vc => 0b0111#4
  | .hi => 0b1000#4
  | .ls => 0b1001#4
  | .ge => 0b1010#4
  | .lt => 0b1011#4
  | .gt => 0b1100#4
  | .le => 0b1101#4
  | .al => 0b1110#4
  | .nv => 0b1111#4

def Cond.ofBits (b : BitVec 4) : Cond :=
  match b.toNat with
  | 0 => .eq
  | 1 => .ne
  | 2 => .cs
  | 3 => .cc
  | 4 => .mi
  | 5 => .pl
  | 6 => .vs
  | 7 => .vc
  | 8 => .hi
  | 9 => .ls
  | 10 => .ge
  | 11 => .lt
  | 12 => .gt
  | 13 => .le
  | 14 => .al
  | _ => .nv

/-- The shift types (R63). -/
def ShiftType.toBits : ShiftType → BitVec 2
  | .lsl => 0b00#2
  | .lsr => 0b01#2
  | .asr => 0b10#2
  | .ror => 0b11#2

def ShiftType.ofBits (b : BitVec 2) : ShiftType :=
  match b.toNat with
  | 0 => .lsl
  | 1 => .lsr
  | 2 => .asr
  | _ => .ror

/-- The opcode numbers (R67). -/
def DpOp.toBits : DpOp → BitVec 4
  | .and => 0b0000#4
  | .eor => 0b0001#4
  | .sub => 0b0010#4
  | .rsb => 0b0011#4
  | .add => 0b0100#4
  | .adc => 0b0101#4
  | .sbc => 0b0110#4
  | .rsc => 0b0111#4
  | .tst => 0b1000#4
  | .teq => 0b1001#4
  | .cmp => 0b1010#4
  | .cmn => 0b1011#4
  | .orr => 0b1100#4
  | .mov => 0b1101#4
  | .bic => 0b1110#4
  | .mvn => 0b1111#4

def DpOp.ofBits (b : BitVec 4) : DpOp :=
  match b.toNat with
  | 0 => .and
  | 1 => .eor
  | 2 => .sub
  | 3 => .rsb
  | 4 => .add
  | 5 => .adc
  | 6 => .sbc
  | 7 => .rsc
  | 8 => .tst
  | 9 => .teq
  | 10 => .cmp
  | 11 => .cmn
  | 12 => .orr
  | 13 => .mov
  | 14 => .bic
  | _ => .mvn

/-! ## Fields of each shape -/

def condOf (w : Word) : Cond := Cond.ofBits (field w 28 4)

def DpImmArgs.ofWord (w : Word) : DpImmArgs :=
  ⟨flag w 20, Reg.ofBits (field w 16 4), Reg.ofBits (field w 12 4), field w 8 4, field w 0 8⟩

def DpShiftArgs.ofWord (w : Word) : DpShiftArgs :=
  ⟨flag w 20, Reg.ofBits (field w 16 4), Reg.ofBits (field w 12 4), field w 7 5,
    ShiftType.ofBits (field w 5 2), Reg.ofBits (field w 0 4)⟩

def DpRegArgs.ofWord (w : Word) : DpRegArgs :=
  ⟨flag w 20, Reg.ofBits (field w 16 4), Reg.ofBits (field w 12 4), Reg.ofBits (field w 8 4),
    ShiftType.ofBits (field w 5 2), Reg.ofBits (field w 0 4)⟩

def MulArgs.ofWord (w : Word) : MulArgs :=
  ⟨flag w 20, Reg.ofBits (field w 16 4), Reg.ofBits (field w 12 4), Reg.ofBits (field w 8 4),
    Reg.ofBits (field w 0 4)⟩

def LsImmArgs.ofWord (w : Word) : LsImmArgs :=
  ⟨flag w 24, flag w 23, flag w 21, Reg.ofBits (field w 16 4), Reg.ofBits (field w 12 4),
    field w 0 12⟩

def LsRegArgs.ofWord (w : Word) : LsRegArgs :=
  ⟨flag w 24, flag w 23, flag w 21, Reg.ofBits (field w 16 4), Reg.ofBits (field w 12 4),
    Reg.ofBits (field w 0 4)⟩

def LsScaledArgs.ofWord (w : Word) : LsScaledArgs :=
  ⟨flag w 24, flag w 23, flag w 21, Reg.ofBits (field w 16 4), Reg.ofBits (field w 12 4),
    field w 7 5, ShiftType.ofBits (field w 5 2), Reg.ofBits (field w 0 4)⟩

def HwImmArgs.ofWord (w : Word) : HwImmArgs :=
  ⟨flag w 24, flag w 23, flag w 21, Reg.ofBits (field w 16 4), Reg.ofBits (field w 12 4),
    field w 8 4, field w 0 4⟩

/-- Bits 11:8 are should-be-zero and ignored (R72). -/
def HwRegArgs.ofWord (w : Word) : HwRegArgs :=
  ⟨flag w 24, flag w 23, flag w 21, Reg.ofBits (field w 16 4), Reg.ofBits (field w 12 4),
    Reg.ofBits (field w 0 4)⟩

def BlockArgs.ofWord (w : Word) : BlockArgs :=
  ⟨flag w 24, flag w 23, flag w 22, flag w 21, Reg.ofBits (field w 16 4), field w 0 16⟩

def MsrRegArgs.ofWord (w : Word) : MsrRegArgs :=
  ⟨flag w 22, field w 16 4, Reg.ofBits (field w 0 4)⟩

def MsrImmArgs.ofWord (w : Word) : MsrImmArgs :=
  ⟨flag w 22, field w 16 4, field w 8 4, field w 0 8⟩

/-! ## The decoder -/

/-- The rotated-immediate row of an operation. -/
def Instr.dpImm (op : DpOp) (c : Cond) (a : DpImmArgs) : Instr :=
  match op with
  | .and => .andImm c a
  | .eor => .eorImm c a
  | .sub => .subImm c a
  | .rsb => .rsbImm c a
  | .add => .addImm c a
  | .adc => .adcImm c a
  | .sbc => .sbcImm c a
  | .rsc => .rscImm c a
  | .tst => .tstImm c a
  | .teq => .teqImm c a
  | .cmp => .cmpImm c a
  | .cmn => .cmnImm c a
  | .orr => .orrImm c a
  | .mov => .movImm c a
  | .bic => .bicImm c a
  | .mvn => .mvnImm c a

/-- The immediate-shift row of an operation. -/
def Instr.dpShift (op : DpOp) (c : Cond) (a : DpShiftArgs) : Instr :=
  match op with
  | .and => .andShift c a
  | .eor => .eorShift c a
  | .sub => .subShift c a
  | .rsb => .rsbShift c a
  | .add => .addShift c a
  | .adc => .adcShift c a
  | .sbc => .sbcShift c a
  | .rsc => .rscShift c a
  | .tst => .tstShift c a
  | .teq => .teqShift c a
  | .cmp => .cmpShift c a
  | .cmn => .cmnShift c a
  | .orr => .orrShift c a
  | .mov => .movShift c a
  | .bic => .bicShift c a
  | .mvn => .mvnShift c a

/-- The register-shift row of an operation. -/
def Instr.dpRegShift (op : DpOp) (c : Cond) (a : DpRegArgs) : Instr :=
  match op with
  | .and => .andRegShift c a
  | .eor => .eorRegShift c a
  | .sub => .subRegShift c a
  | .rsb => .rsbRegShift c a
  | .add => .addRegShift c a
  | .adc => .adcRegShift c a
  | .sbc => .sbcRegShift c a
  | .rsc => .rscRegShift c a
  | .tst => .tstRegShift c a
  | .teq => .teqRegShift c a
  | .cmp => .cmpRegShift c a
  | .cmn => .cmnRegShift c a
  | .orr => .orrRegShift c a
  | .mov => .movRegShift c a
  | .bic => .bicRegShift c a
  | .mvn => .mvnRegShift c a

/-- `w[27:26] = 0b01`: single transfers and their undefined space (R69, R70, R85). -/
def decodeSingle (c : Cond) (w : Word) : Instr :=
  if flag w 25 && flag w 4 then .nopUndefined c
  else if !flag w 25 then
    match flag w 20, flag w 22 with
    | false, false => .strImm c (.ofWord w)
    | true, false => .ldrImm c (.ofWord w)
    | false, true => .strbImm c (.ofWord w)
    | true, true => .ldrbImm c (.ofWord w)
  else if field w 4 8 = 0#8 then
    match flag w 20, flag w 22 with
    | false, false => .strReg c (.ofWord w)
    | true, false => .ldrReg c (.ofWord w)
    | false, true => .strbReg c (.ofWord w)
    | true, true => .ldrbReg c (.ofWord w)
  else
    match flag w 20, flag w 22 with
    | false, false => .strScaled c (.ofWord w)
    | true, false => .ldrScaled c (.ofWord w)
    | false, true => .strbScaled c (.ofWord w)
    | true, true => .ldrbScaled c (.ofWord w)

/-- TST, TEQ, CMP and CMN with S = 0 (R85). -/
def inCompareSpace (w : Word) : Bool := field w 23 2 = 0b10#2 && !flag w 20

/-- `w[27:25] = 0b001`: rotated immediates and MSR immediate (R64, R79, R85). -/
def decodeImmediate (c : Cond) (w : Word) : Instr :=
  if inCompareSpace w then
    if flag w 21 && field w 12 4 = 0b1111#4 then .msrImm c (.ofWord w) else .nopCompareImm c
  else .dpImm (DpOp.ofBits (field w 21 4)) c (.ofWord w)

/-- `w[7] = w[4] = 1` under `w[27:25] = 0b000`: multiply and half-word transfers (R68, R71, R72, R85).
After the double-word test L = 0 leaves SH = 0b01 alone. -/
def decodeExtra (c : Cond) (w : Word) : Instr :=
  if field w 5 2 = 0b00#2 then
    if field w 22 6 = 0b000000#6 then
      if flag w 21 then .mla c (.ofWord w) else .mul c (.ofWord w)
    else .nopMultiplySpace c
  else if !flag w 20 && flag w 6 then .nopDoubleWord c
  else if flag w 22 then
    match flag w 20, flag w 6, flag w 5 with
    | false, _, _ => .strhImm c (.ofWord w)
    | true, false, _ => .ldrhImm c (.ofWord w)
    | true, true, false => .ldrsbImm c (.ofWord w)
    | true, true, true => .ldrshImm c (.ofWord w)
  else
    match flag w 20, flag w 6, flag w 5 with
    | false, _, _ => .strhReg c (.ofWord w)
    | true, false, _ => .ldrhReg c (.ofWord w)
    | true, true, false => .ldrsbReg c (.ofWord w)
    | true, true, true => .ldrshReg c (.ofWord w)

/-- The S = 0 compare space under `w[27:25] = 0b000`: MRS, BX, MSR register (R75, R77, R78, R85, R87). -/
def decodeStatus (c : Cond) (w : Word) : Instr :=
  if !flag w 21 && field w 16 4 = 0b1111#4 && field w 0 12 = 0#12 then
    .mrs c (flag w 22) (Reg.ofBits (field w 12 4))
  else if field w 21 2 = 0b01#2 && field w 8 12 = 0xFFF#12 && field w 4 4 = 0b0001#4 then
    .bx c (Reg.ofBits (field w 0 4))
  else if flag w 21 && field w 12 4 = 0b1111#4 && field w 4 8 = 0#8 then .msrReg c (.ofWord w)
  else .nopCompareReg c

/-- `w[27:25] = 0b000` (R85). -/
def decodeRegister (c : Cond) (w : Word) : Instr :=
  if flag w 7 && flag w 4 then decodeExtra c w
  else if inCompareSpace w then decodeStatus c w
  else if !flag w 4 then .dpShift (DpOp.ofBits (field w 21 4)) c (.ofWord w)
  else .dpRegShift (DpOp.ofBits (field w 21 4)) c (.ofWord w)

/-- The decoder of R85: every word gives one record; the condition takes no part (R84, R86).
`decode(0)` of the presentation layer is this function's (R89). -/
def decodeShape (w : Word) : Instr :=
  let c := condOf w
  if field w 24 4 = 0b1111#4 then .swi c (field w 0 24)
  else if field w 25 3 = 0b101#3 then
    if flag w 24 then .bl c (field w 0 24) else .b c (field w 0 24)
  else if field w 25 3 = 0b100#3 then
    if flag w 20 then .ldm c (.ofWord w) else .stm c (.ofWord w)
  else if field w 26 2 = 0b11#2 then .nopCoprocessor c
  else if field w 26 2 = 0b01#2 then decodeSingle c w
  else if field w 25 3 = 0b001#3 then decodeImmediate c w
  else decodeRegister c w

/-- The decoder by opcode_table.json (R90): its first row is the word 0, on which the driver halts;
every other word is R85's. -/
def decode (w : Word) : Instr := if w = 0#32 then .zeroWord else decodeShape w

/-! ## Bytes -/

/-- Why bytes are no instruction: fewer than the four bytes of a word (R61). -/
inductive DecodeError where
  | truncated (present : Nat)
  deriving DecidableEq, Repr

/-- A word from its four bytes in address order (20_memory.md R45). -/
def wordOfBytes (e : Endian) (b0 b1 b2 b3 : Byte) : Word :=
  match e with
  | .little => b3 ++ b2 ++ b1 ++ b0
  | .big => b0 ++ b1 ++ b2 ++ b3

/-- The four bytes of a word in address order (20_memory.md R46). -/
def bytesOfWord (e : Endian) (w : Word) : List Byte :=
  match e with
  | .little => [field w 0 8, field w 8 8, field w 16 8, field w 24 8]
  | .big => [field w 24 8, field w 16 8, field w 8 8, field w 0 8]

/-- Decoding of bytes in address order: the instruction and the rest. Total; too few bytes are
rejected by name. -/
def decodeBytes (e : Endian) : List Byte → Except DecodeError (Instr × List Byte)
  | b0 :: b1 :: b2 :: b3 :: rest => .ok (decode (wordOfBytes e b0 b1 b2 b3), rest)
  | bs => .error (.truncated bs.length)

/-- The instruction the decoder reads from the table's word `w`: its four bytes are laid out in
`Little` order (either order reads the same word back) and given to `decodeBytes`. -/
def decodeTableWord (nbits w : Nat) : Option Instr :=
  match decodeBytes .little (bytesOfWord .little (BitVec.ofNat 32 (w % 2 ^ nbits))) with
  | .ok (i, _) => some i
  | .error _ => none

/-! ## The encoder

A no-op space has many words for one constructor; the encoder packs one of them (assumption 11). -/

/-- One bit. -/
abbrev bit1 (b : Bool) : BitVec 1 := BitVec.ofBool b

def DpImmArgs.toWord (c : Cond) (op : DpOp) (a : DpImmArgs) : Word :=
  c.toBits ++ 0b001#3 ++ op.toBits ++ bit1 a.s ++ a.rn.toBits ++ a.rd.toBits ++ a.rot ++ a.imm8

def DpShiftArgs.toWord (c : Cond) (op : DpOp) (a : DpShiftArgs) : Word :=
  c.toBits ++ 0b000#3 ++ op.toBits ++ bit1 a.s ++ a.rn.toBits ++ a.rd.toBits ++ a.shiftImm ++
    a.sh.toBits ++ 0b0#1 ++ a.rm.toBits

def DpRegArgs.toWord (c : Cond) (op : DpOp) (a : DpRegArgs) : Word :=
  c.toBits ++ 0b000#3 ++ op.toBits ++ bit1 a.s ++ a.rn.toBits ++ a.rd.toBits ++ a.rs.toBits ++
    0b0#1 ++ a.sh.toBits ++ 0b1#1 ++ a.rm.toBits

def MulArgs.toWord (c : Cond) (acc : Bool) (a : MulArgs) : Word :=
  c.toBits ++ 0b000000#6 ++ bit1 acc ++ bit1 a.s ++ a.rd.toBits ++ a.rn.toBits ++ a.rs.toBits ++
    0b1001#4 ++ a.rm.toBits

def LsImmArgs.toWord (c : Cond) (byte load : Bool) (a : LsImmArgs) : Word :=
  c.toBits ++ 0b010#3 ++ bit1 a.p ++ bit1 a.u ++ bit1 byte ++ bit1 a.w ++ bit1 load ++
    a.rn.toBits ++ a.rd.toBits ++ a.offset12

def LsRegArgs.toWord (c : Cond) (byte load : Bool) (a : LsRegArgs) : Word :=
  c.toBits ++ 0b011#3 ++ bit1 a.p ++ bit1 a.u ++ bit1 byte ++ bit1 a.w ++ bit1 load ++
    a.rn.toBits ++ a.rd.toBits ++ 0b00000000#8 ++ a.rm.toBits

def LsScaledArgs.toWord (c : Cond) (byte load : Bool) (a : LsScaledArgs) : Word :=
  c.toBits ++ 0b011#3 ++ bit1 a.p ++ bit1 a.u ++ bit1 byte ++ bit1 a.w ++ bit1 load ++
    a.rn.toBits ++ a.rd.toBits ++ a.shiftImm ++ a.sh.toBits ++ 0b0#1 ++ a.rm.toBits

def HwImmArgs.toWord (c : Cond) (load : Bool) (sh : BitVec 2) (a : HwImmArgs) : Word :=
  c.toBits ++ 0b000#3 ++ bit1 a.p ++ bit1 a.u ++ 0b1#1 ++ bit1 a.w ++ bit1 load ++
    a.rn.toBits ++ a.rd.toBits ++ a.immH ++ 0b1#1 ++ sh ++ 0b1#1 ++ a.immL

def HwRegArgs.toWord (c : Cond) (load : Bool) (sh : BitVec 2) (a : HwRegArgs) : Word :=
  c.toBits ++ 0b000#3 ++ bit1 a.p ++ bit1 a.u ++ 0b0#1 ++ bit1 a.w ++ bit1 load ++
    a.rn.toBits ++ a.rd.toBits ++ 0b0000#4 ++ 0b1#1 ++ sh ++ 0b1#1 ++ a.rm.toBits

def BlockArgs.toWord (c : Cond) (load : Bool) (a : BlockArgs) : Word :=
  c.toBits ++ 0b100#3 ++ bit1 a.p ++ bit1 a.u ++ bit1 a.s ++ bit1 a.w ++ bit1 load ++
    a.rn.toBits ++ a.list

def MsrRegArgs.toWord (c : Cond) (a : MsrRegArgs) : Word :=
  c.toBits ++ 0b00010#5 ++ bit1 a.spsr ++ 0b10#2 ++ a.mask ++ 0b1111#4 ++ 0b00000000#8 ++
    a.rm.toBits

def MsrImmArgs.toWord (c : Cond) (a : MsrImmArgs) : Word :=
  c.toBits ++ 0b00110#5 ++ bit1 a.spsr ++ 0b10#2 ++ a.mask ++ 0b1111#4 ++ a.rot ++ a.imm8

/-- The word of an instruction, from the layouts of R64 to R79 and the no-op spaces of R88. -/
def encode : Instr → Word
  | .zeroWord => 0#32
  | .swi c n => c.toBits ++ 0b1111#4 ++ n
  | .b c off => c.toBits ++ 0b101#3 ++ 0b0#1 ++ off
  | .bl c off => c.toBits ++ 0b101#3 ++ 0b1#1 ++ off
  | .stm c a => a.toWord c false
  | .ldm c a => a.toWord c true
  | .nopCoprocessor c => c.toBits ++ 0xC000000#28
  | .nopUndefined c => c.toBits ++ 0x6000010#28
  | .strImm c a => a.toWord c false false
  | .ldrImm c a => a.toWord c false true
  | .strbImm c a => a.toWord c true false
  | .ldrbImm c a => a.toWord c true true
  | .strReg c a => a.toWord c false false
  | .ldrReg c a => a.toWord c false true
  | .strbReg c a => a.toWord c true false
  | .ldrbReg c a => a.toWord c true true
  | .strScaled c a => a.toWord c false false
  | .ldrScaled c a => a.toWord c false true
  | .strbScaled c a => a.toWord c true false
  | .ldrbScaled c a => a.toWord c true true
  | .msrImm c a => a.toWord c
  | .nopCompareImm c => c.toBits ++ 0x3000000#28
  | .andImm c a => a.toWord c .and
  | .eorImm c a => a.toWord c .eor
  | .subImm c a => a.toWord c .sub
  | .rsbImm c a => a.toWord c .rsb
  | .addImm c a => a.toWord c .add
  | .adcImm c a => a.toWord c .adc
  | .sbcImm c a => a.toWord c .sbc
  | .rscImm c a => a.toWord c .rsc
  | .tstImm c a => a.toWord c .tst
  | .teqImm c a => a.toWord c .teq
  | .cmpImm c a => a.toWord c .cmp
  | .cmnImm c a => a.toWord c .cmn
  | .orrImm c a => a.toWord c .orr
  | .movImm c a => a.toWord c .mov
  | .bicImm c a => a.toWord c .bic
  | .mvnImm c a => a.toWord c .mvn
  | .mul c a => a.toWord c false
  | .mla c a => a.toWord c true
  | .nopMultiplySpace c => c.toBits ++ 0x0800090#28
  | .nopDoubleWord c => c.toBits ++ 0x00000D0#28
  | .strhImm c a => a.toWord c false 0b01#2
  | .ldrhImm c a => a.toWord c true 0b01#2
  | .ldrsbImm c a => a.toWord c true 0b10#2
  | .ldrshImm c a => a.toWord c true 0b11#2
  | .strhReg c a => a.toWord c false 0b01#2
  | .ldrhReg c a => a.toWord c true 0b01#2
  | .ldrsbReg c a => a.toWord c true 0b10#2
  | .ldrshReg c a => a.toWord c true 0b11#2
  | .mrs c spsr rd =>
    c.toBits ++ 0b00010#5 ++ bit1 spsr ++ 0b00#2 ++ 0b1111#4 ++ rd.toBits ++ 0b000000000000#12
  | .bx c rm => c.toBits ++ 0b00010010#8 ++ 0xFFF#12 ++ 0b0001#4 ++ rm.toBits
  | .msrReg c a => a.toWord c
  | .nopCompareReg c => c.toBits ++ 0x1000000#28
  | .andShift c a => a.toWord c .and
  | .eorShift c a => a.toWord c .eor
  | .subShift c a => a.toWord c .sub
  | .rsbShift c a => a.toWord c .rsb
  | .addShift c a => a.toWord c .add
  | .adcShift c a => a.toWord c .adc
  | .sbcShift c a => a.toWord c .sbc
  | .rscShift c a => a.toWord c .rsc
  | .tstShift c a => a.toWord c .tst
  | .teqShift c a => a.toWord c .teq
  | .cmpShift c a => a.toWord c .cmp
  | .cmnShift c a => a.toWord c .cmn
  | .orrShift c a => a.toWord c .orr
  | .movShift c a => a.toWord c .mov
  | .bicShift c a => a.toWord c .bic
  | .mvnShift c a => a.toWord c .mvn
  | .andRegShift c a => a.toWord c .and
  | .eorRegShift c a => a.toWord c .eor
  | .subRegShift c a => a.toWord c .sub
  | .rsbRegShift c a => a.toWord c .rsb
  | .addRegShift c a => a.toWord c .add
  | .adcRegShift c a => a.toWord c .adc
  | .sbcRegShift c a => a.toWord c .sbc
  | .rscRegShift c a => a.toWord c .rsc
  | .tstRegShift c a => a.toWord c .tst
  | .teqRegShift c a => a.toWord c .teq
  | .cmpRegShift c a => a.toWord c .cmp
  | .cmnRegShift c a => a.toWord c .cmn
  | .orrRegShift c a => a.toWord c .orr
  | .movRegShift c a => a.toWord c .mov
  | .bicRegShift c a => a.toWord c .bic
  | .mvnRegShift c a => a.toWord c .mvn

/-- The bytes of an instruction in address order. -/
def encodeBytes (e : Endian) (i : Instr) : List Byte := bytesOfWord e (encode i)

end Sys2Proof
end

