-- ==== Sys2Proof/Machine/Parameters.lean ====
section
/-! DEFINITION. The fixed parameters of 00_scope.md R4, the check on the OPEN ones, and the values the
reset core takes for them. -/

namespace Sys2Proof.Machine

/-- `SWI_EXIT` (R4, 48_software_interrupt.md R160): matched on the whole 24-bit number. -/
def swiExit : BitVec 24 := 0x11#24

/-- `SWI_VECTOR` (R4, R165). -/
def swiVector : Word := 0x08#32

/-- `IRQ_VECTOR` (R4, R169). -/
def irqVector : Word := 0x18#32

/-- What R4, R41 and R160 say of the OPEN parameters: the RAM lies in the 32-bit address space and
the three SWI numbers are distinct. -/
abbrev ParamsWf (p : Params) : Prop :=
  p.memSize ≤ 2 ^ 32 ∧ p.swiPutc ≠ swiExit ∧ p.swiReadline ≠ swiExit ∧ p.swiPutc ≠ p.swiReadline

/-- DESIGN CHOICE (assumption 1): the test assignment of 95_test_vectors.md section 0. The spec leaves
every one of these OPEN. -/
def testParams : Params where
  memSize := 32768
  swiPutc := 0x0#24
  swiReadline := 0x6A#24
  putcReg := 0
  readlineAddrReg := 1
  readlineMaxReg := 2
  kbdAddr := 0x100000#32
  displayAddr := 0x100004#32
  initialSp := 0x7000#32
  traceAllModes := false

end Sys2Proof.Machine
end

