-- ==== Sys2Proof/Machine/State.lean ====
section
/-! DEFINITION. The complete state of the core (10_state.md R13 to R40), why a step can stop, and the
state after reset. -/

namespace Sys2Proof.Machine

/-- Why the core is halted (00_scope.md R10). -/
inductive HaltReason where
  /-- F is in the breakpoint set (R93, R103). -/
  | breakpoint
  /-- The fetched word is 0 (R94). -/
  | zeroWord
  /-- The exit SWI (R96). -/
  | exit
  /-- `run` found `keep_running` clear (R102). -/
  | stopped
  deriving DecidableEq, Repr

/-- One trace line (10_state.md R39): `regs` is r0 to r14 as the mode sees them; `none` where the mode
has no such register (assumption 12). -/
structure TraceLine where
  step : Nat
  pc : Word
  checksum : Word
  n : Bool
  z : Bool
  c : Bool
  v : Bool
  mode : BitVec 5
  regs : List (Option Word)
  deriving DecidableEq, Repr

/-- The whole state. Reset values: R40. -/
structure State where
  /-- The OPEN parameters (R4); no step writes them (assumption 1). -/
  params : Params
  /-- r0 to r12, one bank in every mode (R13, R17). -/
  regs : Vector Word 13
  /-- r13 and r14 of User and System mode (R14, R15). -/
  r13Usr : Word
  r14Usr : Word
  /-- r13 and r14 of Supervisor mode. -/
  r13Svc : Word
  r14Svc : Word
  /-- r13 and r14 of IRQ mode. -/
  r13Irq : Word
  r14Irq : Word
  /-- r15, 8 ahead of the instruction being executed (R18, R19). -/
  r15 : Word
  /-- The current program status register (R22). -/
  cpsr : Word
  /-- The two saved status registers (R29). -/
  spsrSvc : Word
  spsrIrq : Word
  /-- The RAM's bytes that are not 0, addresses rising (R41, R180). -/
  mem : List Host.Cell
  /-- The RAM's byte order (R47). -/
  endian : Endian
  /-- The IRQ latch (R32). -/
  pendingIrq : Bool
  /-- The last delivered input byte (R33). -/
  lastChar : Byte
  /-- The breakpoint set, as a rising list (R31, R103). -/
  breakpoints : List Word
  /-- The halted mark with its reason (R10, R31). -/
  halted : Option HaltReason
  /-- The step is inside the line-input service, waiting for the host (R11, R166; assumption 5). -/
  waitingLine : Bool
  /-- An image has been loaded (R40, R181). -/
  loaded : Bool
  /-- `keep_running`, read by `run` (R34, R102). -/
  keepRunning : Bool
  /-- The trace flag and step counter (R31). -/
  traceEnabled : Bool
  traceCount : Nat
  /-- The trace lines appended so far, oldest first (R39). -/
  trace : List TraceLine
  /-- The bytes handed to `emit_character_output` so far, oldest first (R36). -/
  output : List Byte
  /-- The lines the host will answer to `request_line_input`, next first (R37; assumption 5). -/
  inputLines : List (List Byte)
  deriving DecidableEq, Repr

/-- Why an instruction is fatal (00_scope.md R10, 60_exceptions.md R163), before F is attached. -/
inductive Reason where
  /-- Raised by any fetch, load, store or line-input write outside the RAM (20_memory.md R43). Safe: the spec stops there too. -/
  | memBounds
  /-- Raised by a CPSR write of an invalid mode code and by r13/r14 under one (10_state.md R15, R25). Safe. -/
  | invalidMode
  /-- Raised by r13/r14 in FIQ, Abort or Undefined mode (R15). Safe. -/
  | unbankedMode
  /-- Raised by MRS and MSR of the SPSR in a mode without one (R30). Safe. -/
  | noSpsr
  /-- Raised by LDM and STM with register list 0 (45_block_transfer.md R149). Safe. -/
  | emptyRegList
  deriving DecidableEq, Repr

/-- A fatal step: "the model reports the reason and F" (60_exceptions.md R164), F being the address of
the instruction. The state the instruction left is not kept (assumption 7). -/
inductive Fault where
  /-- An access outside the RAM by fetch, load, store, block transfer or line input (R43). Safe. -/
  | memBounds (f : Word)
  /-- An invalid mode code met by MSR, the MOVS restore or an r13/r14 access (R15, R25). Safe. -/
  | invalidMode (f : Word)
  /-- An r13/r14 access in FIQ, Abort or Undefined mode (R15). Safe. -/
  | unbankedMode (f : Word)
  /-- MRS or MSR of an SPSR the mode does not have (R30). Safe. -/
  | noSpsr (f : Word)
  /-- LDM or STM with register list 0 (R149). Safe. -/
  | emptyRegList (f : Word)
  deriving DecidableEq, Repr

/-- Why a step has no meaning. -/
inductive Refusal where
  /-- Raised by exec's arm of an instruction that has no meaning yet; none is left. Safe. -/
  | notModelled (mnemonic : String)
  /-- Raised by the line-input service when the host breaks its duty with a line longer than
  `max_bytes`: "the model must not truncate or guess" (93_implementation_defined.md B7). Safe. -/
  | hostLineTooLong
  deriving DecidableEq, Repr

/-- The core right after reset (R40, R180): all zero, not loaded. `params`, `endian`, `keepRunning` and
the trace and host-queue fields are the model's choices (assumptions 1, 2, 3, 5). -/
def State.reset : State where
  params := testParams
  regs := Vector.replicate 13 0#32
  r13Usr := 0#32
  r14Usr := 0#32
  r13Svc := 0#32
  r14Svc := 0#32
  r13Irq := 0#32
  r14Irq := 0#32
  r15 := 0#32
  cpsr := 0#32
  spsrSvc := 0#32
  spsrIrq := 0#32
  mem := []
  endian := .little
  pendingIrq := false
  lastChar := 0#8
  breakpoints := []
  halted := none
  waitingLine := false
  loaded := false
  keepRunning := true
  traceEnabled := false
  traceCount := 0
  trace := []
  output := []
  inputLines := []

end Sys2Proof.Machine
end

