-- ==== Sys2Proof/Machine/Flags.lean ====
section
/-! DEFINITION. The status-register fields (10_state.md R22 to R29), the condition test
(40_execution_cycle.md R98), and every flag computation of the ALU (41_data_processing.md R110 to R113). -/

namespace Sys2Proof.Machine

/-! ## Modes -/

/-- The seven modes (R23). -/
inductive Mode where
  | user | fiq | irq | supervisor | abort | undefined | system
  deriving DecidableEq, Repr

/-- The mode codes (R23). -/
def Mode.toBits : Mode → BitVec 5
  | .user => 0b10000#5
  | .fiq => 0b10001#5
  | .irq => 0b10010#5
  | .supervisor => 0b10011#5
  | .abort => 0b10111#5
  | .undefined => 0b11011#5
  | .system => 0b11111#5

/-- The mode of a code; `none` for a code outside R23's seven (R25). -/
def Mode.ofBits (m : BitVec 5) : Option Mode :=
  match m.toNat with
  | 0b10000 => some .user
  | 0b10001 => some .fiq
  | 0b10010 => some .irq
  | 0b10011 => some .supervisor
  | 0b10111 => some .abort
  | 0b11011 => some .undefined
  | 0b11111 => some .system
  | _ => none

/-! ## Fields of a status word (R22), each with its read and write accessor (R27) -/

/-- Bit `k` of a word set to `b`, every other bit kept. -/
def setBit (w : Word) (k : Nat) (b : Bool) : Word :=
  if b then w ||| (1#32 <<< k) else w &&& ~~~(1#32 <<< k)

def psrN (p : Word) : Bool := p.getLsbD 31
def psrZ (p : Word) : Bool := p.getLsbD 30
def psrC (p : Word) : Bool := p.getLsbD 29
def psrV (p : Word) : Bool := p.getLsbD 28
def psrI (p : Word) : Bool := p.getLsbD 7
def psrF (p : Word) : Bool := p.getLsbD 6
def psrT (p : Word) : Bool := p.getLsbD 5
def psrMode (p : Word) : BitVec 5 := p.extractLsb' 0 5

def withN (p : Word) (b : Bool) : Word := setBit p 31 b
def withZ (p : Word) (b : Bool) : Word := setBit p 30 b
def withC (p : Word) (b : Bool) : Word := setBit p 29 b
def withV (p : Word) (b : Bool) : Word := setBit p 28 b
def withI (p : Word) (b : Bool) : Word := setBit p 7 b
def withT (p : Word) (b : Bool) : Word := setBit p 5 b

/-- `set_cpsr_mode`: the five mode bits rewritten, the rest kept (R26). -/
def withMode (p : Word) (m : Mode) : Word :=
  (p &&& 0xFFFFFFE0#32) ||| m.toBits.setWidth 32

/-- The mode a status word names, if its code is valid. -/
def psrModeOf (p : Word) : Option Mode := Mode.ofBits (psrMode p)

/-! ## Conditions -/

/-- `CondPassed` (R98); 0b1111 never passes (R99). -/
def condPassed (c : Cond) (p : Word) : Bool :=
  match c with
  | .eq => psrZ p
  | .ne => !psrZ p
  | .cs => psrC p
  | .cc => !psrC p
  | .mi => psrN p
  | .pl => !psrN p
  | .vs => psrV p
  | .vc => !psrV p
  | .hi => psrC p && !psrZ p
  | .ls => !psrC p || psrZ p
  | .ge => psrN p == psrV p
  | .lt => psrN p != psrV p
  | .gt => !psrZ p && psrN p == psrV p
  | .le => psrZ p || psrN p != psrV p
  | .al => true
  | .nv => false

/-! ## The ALU -/

/-- What the ALU answers: the result, the carry that C takes, and the overflow that V takes; `none`
leaves V unchanged (R112, R113). -/
structure AluResult where
  value : Word
  carry : Bool
  overflow : Option Bool
  deriving DecidableEq, Repr

/-- `AddWithCarry` (R110). -/
def addWithCarry (a b : Word) (cin : Bool) : AluResult :=
  let sum := a.toNat + b.toNat + cin.toNat
  let res := BitVec.ofNat 32 sum
  { value := res
    carry := decide (2 ^ 32 ≤ sum)
    overflow := some (a.msb == b.msb && res.msb != a.msb) }

/-- A logical opcode: C takes the shifter's carry-out and V is unchanged (R112). -/
def logical (res : Word) (shifterCarry : Bool) : AluResult :=
  { value := res, carry := shifterCarry, overflow := none }

/-- The sixteen opcodes (R110, R116 to R131): `a` is Rn, `b` operand 2, `sc` the shifter's carry-out,
`cin` CPSR.C before the instruction. -/
def alu (op : DpOp) (a b : Word) (sc cin : Bool) : AluResult :=
  match op with
  | .and => logical (a &&& b) sc
  | .eor => logical (a ^^^ b) sc
  | .sub => addWithCarry a (~~~b) true
  | .rsb => addWithCarry b (~~~a) true
  | .add => addWithCarry a b false
  | .adc => addWithCarry a b cin
  | .sbc => addWithCarry a (~~~b) cin
  | .rsc => addWithCarry b (~~~a) cin
  | .tst => logical (a &&& b) sc
  | .teq => logical (a ^^^ b) sc
  | .cmp => addWithCarry a (~~~b) true
  | .cmn => addWithCarry a b false
  | .orr => logical (a ||| b) sc
  | .mov => logical b sc
  | .bic => logical (a &&& ~~~b) sc
  | .mvn => logical (~~~b) sc

/-- The write-result opcodes; the others only compare (R111). -/
def opWritesRd : DpOp → Bool
  | .tst | .teq | .cmp | .cmn => false
  | .and | .eor | .sub | .rsb | .add | .adc | .sbc | .rsc | .orr | .mov | .bic | .mvn => true

/-- MOV and MVN do not read Rn (R67, R111). -/
def opReadsRn : DpOp → Bool
  | .mov | .mvn => false
  | .and | .eor | .sub | .rsb | .add | .adc | .sbc | .rsc | .tst | .teq | .cmp | .cmn | .orr
  | .bic => true

/-- N and Z from a result (R112, R113, R132). -/
def flagsNZ (p : Word) (res : Word) : Word := withZ (withN p res.msb) (decide (res = 0#32))

/-- N, Z, C and, for an arithmetic opcode, V (R112, R113). -/
def flagsOf (p : Word) (r : AluResult) : Word :=
  let q := withC (flagsNZ p r.value) r.carry
  match r.overflow with
  | none => q
  | some v => withV q v

end Sys2Proof.Machine
end

