-- ==== Sys2Proof/Machine/Memory.lean ====
section
/-! DEFINITION. The RAM (20_memory.md R41 to R48, R53): its bytes as a list in one canonical form, and
MemRead and MemWrite with their bounds, alignment and byte-order rules. -/

namespace Sys2Proof.Machine

/-! ## Bytes by address -/

/-- What a byte that nothing has written reads as: the reset contents of the RAM (10_state.md R40,
70_reset_and_hazards.md R180). -/
abbrev unwritten : Byte := 0#8

/-- The canonical form: addresses strictly rising, no entry equal to what an unlisted address reads as. -/
abbrev Memory.wf (m : List Host.Cell) : Prop :=
  m.Pairwise (fun x y => x.1 < y.1) ∧ ∀ c ∈ m, c.2 ≠ unwritten

/-- The byte at an address. -/
def readCell : List Host.Cell → Nat → Byte
  | [], _ => unwritten
  | (k, b) :: rest, a => if k = a then b else readCell rest a

/-- The list without address `a`. -/
def eraseCell : List Host.Cell → Nat → List Host.Cell
  | [], _ => []
  | (k, b) :: rest, a => if k = a then eraseCell rest a else (k, b) :: eraseCell rest a

/-- The list with `(a, v)` put before the first address above `a`. -/
def insertCell : List Host.Cell → Nat → Byte → List Host.Cell
  | [], a, v => [(a, v)]
  | (k, b) :: rest, a, v =>
    if a < k then (a, v) :: (k, b) :: rest else (k, b) :: insertCell rest a v

/-- One byte written; writing what an unlisted address reads as removes the entry. -/
def writeCell (m : List Host.Cell) (a : Nat) (v : Byte) : List Host.Cell :=
  if v = unwritten then eraseCell m a else insertCell (eraseCell m a) a v

/-! ## Widths and byte order -/

/-- The access widths (R49). -/
inductive Width where
  | byte | half | word
  deriving DecidableEq, Repr

/-- n of R43: the bytes of an access. -/
def Width.bytes : Width → Nat
  | .byte => 1
  | .half => 2
  | .word => 4

/-- The value of the bytes `b 0`, `b 1`, … in address order, zero-extended (R45). -/
def assemble (e : Endian) (n : Width) (b : Nat → Byte) : Word :=
  match n, e with
  | .byte, _ => (b 0).setWidth 32
  | .half, .little => (b 1 ++ b 0).setWidth 32
  | .half, .big => (b 0 ++ b 1).setWidth 32
  | .word, .little => b 3 ++ b 2 ++ b 1 ++ b 0
  | .word, .big => b 0 ++ b 1 ++ b 2 ++ b 3

/-- The byte at offset `k` of a stored value: the inverse of `assemble` (R46). A width narrower than a
register stores the low bits (R49). -/
def splitByte (e : Endian) (n : Width) (v : Word) (k : Nat) : Byte :=
  match e with
  | .little => v.extractLsb' (8 * k) 8
  | .big => v.extractLsb' (8 * (n.bytes - 1 - k)) 8

/-- Bytes written to successive addresses from `a`. -/
def writeCells (m : List Host.Cell) (a : Nat) : List Byte → List Host.Cell
  | [] => m
  | v :: vs => writeCells (writeCell m a v) (a + 1) vs

/-- The bytes of a stored value in address order (R46). -/
def splitBytes (e : Endian) (n : Width) (v : Word) : List Byte :=
  (List.range n.bytes).map (splitByte e n v)

/-! ## Accesses -/

/-- The byte of the RAM at an address. -/
def State.byteAt (s : State) (a : Nat) : Byte := readCell s.mem a

/-- The access lies inside the RAM (R43). -/
abbrev State.inRam (s : State) (addr : Word) (n : Width) : Prop :=
  addr.toNat + n.bytes ≤ s.params.memSize

/-- The address is a multiple of the width (R44). -/
abbrev aligned (addr : Word) (n : Width) : Prop := addr.toNat % n.bytes = 0

/-- `MemRead` (R43, R44, R45), zero-extended to a Word: bounds first, then 0 for a misaligned address. -/
def memRead (s : State) (addr : Word) (n : Width) : Except Reason Word :=
  if ¬ s.inRam addr n then .error .memBounds
  else if ¬ aligned addr n then .ok 0#32
  else .ok (assemble s.endian n fun k => s.byteAt (addr.toNat + k))

/-- `MemWrite` (R43, R44, R46): bounds first, then a misaligned write is dropped. -/
def memWrite (s : State) (addr : Word) (n : Width) (v : Word) : Except Reason State :=
  if ¬ s.inRam addr n then .error .memBounds
  else if ¬ aligned addr n then .ok s
  else .ok { s with mem := writeCells s.mem addr.toNat (splitBytes s.endian n v) }

/-! ## The named operations of R42 -/

def readWord (s : State) (addr : Word) : Except Reason Word := memRead s addr .word
def readHalfWord (s : State) (addr : Word) : Except Reason Word := memRead s addr .half
def readByte (s : State) (addr : Word) : Except Reason Word := memRead s addr .byte
def writeWord (s : State) (addr v : Word) : Except Reason State := memWrite s addr .word v
def writeHalfWord (s : State) (addr v : Word) : Except Reason State := memWrite s addr .half v
def writeByte (s : State) (addr v : Word) : Except Reason State := memWrite s addr .byte v

/-- `clear()`: every byte zero. -/
def clearRam (s : State) : State := { s with mem := [] }

/-- `extract_bits(word, lo, hi)`: bits `hi` down to `lo` (00_scope.md R6). -/
def extractBits (w : Word) (lo hi : Nat) : Word := (w.extractLsb' lo (hi + 1 - lo)).setWidth 32

/-- `test_flag(addr, bit)`: a bit of the word at `addr` (DEDUCED, assumption 14). -/
def testFlag (s : State) (addr : Word) (bit : Nat) : Except Reason Bool := do
  let w ← readWord s addr
  pure (w.getLsbD bit)

/-- `set_flag(addr, bit, value)`: a bit of the word at `addr` (DEDUCED, assumption 14). -/
def setFlag (s : State) (addr : Word) (bit : Nat) (value : Bool) : Except Reason State := do
  let w ← readWord s addr
  writeWord s addr (setBit w bit value)

/-! ## The checksum (R53) -/

/-- The sum of `b[a] EOR a` over the addresses below a bound. -/
def checksumBelow (m : List Host.Cell) : Nat → Nat
  | 0 => 0
  | a + 1 => checksumBelow m a + (((readCell m a).setWidth 32 : Word) ^^^ BitVec.ofNat 32 a).toNat

/-- The RAM's checksum: the 32-bit sum over the whole RAM. -/
def checksum (s : State) : Word := BitVec.ofNat 32 (checksumBelow s.mem s.params.memSize)

end Sys2Proof.Machine
end

