-- ==== Sys2Proof/Machine/Registers.lean ====
section
/-! DEFINITION. The register file: the bank map of 10_state.md R15 and the reads and writes through it. -/

namespace Sys2Proof.Machine

/-- The physical slots behind the visible registers (R14). -/
inductive Slot where
  | low (i : Fin 13)
  | r13Usr | r14Usr | r13Svc | r14Svc | r13Irq | r14Irq
  | r15
  deriving DecidableEq, Repr

/-- Register index translation: a pure function of the index and the mode code (R15, R17, R18). -/
def slot (i : Reg) (m : BitVec 5) : Except Reason Slot :=
  if h : i.val < 13 then .ok (.low ⟨i.val, h⟩)
  else if i = 15 then .ok .r15
  else
    match Mode.ofBits m with
    | some .user | some .system => .ok (if i = 13 then .r13Usr else .r14Usr)
    | some .supervisor => .ok (if i = 13 then .r13Svc else .r14Svc)
    | some .irq => .ok (if i = 13 then .r13Irq else .r14Irq)
    | some .fiq | some .abort | some .undefined => .error .unbankedMode
    | none => .error .invalidMode

/-- The word a slot holds. -/
def State.getSlot (s : State) : Slot → Word
  | .low i => s.regs[i]
  | .r13Usr => s.r13Usr
  | .r14Usr => s.r14Usr
  | .r13Svc => s.r13Svc
  | .r14Svc => s.r14Svc
  | .r13Irq => s.r13Irq
  | .r14Irq => s.r14Irq
  | .r15 => s.r15

/-- The state with one slot written. -/
def State.setSlot (s : State) (sl : Slot) (v : Word) : State :=
  match sl with
  | .low i => { s with regs := s.regs.set i v }
  | .r13Usr => { s with r13Usr := v }
  | .r14Usr => { s with r14Usr := v }
  | .r13Svc => { s with r13Svc := v }
  | .r14Svc => { s with r14Svc := v }
  | .r13Irq => { s with r13Irq := v }
  | .r14Irq => { s with r14Irq := v }
  | .r15 => { s with r15 := v }

/-- `R[i]` (00_scope.md R8). During an instruction r15 reads as F + 8, which is what it holds (R19,
40_execution_cycle.md R100). -/
def readReg (s : State) (i : Reg) : Except Reason Word :=
  match slot i (psrMode s.cpsr) with
  | .ok sl => .ok (s.getSlot sl)
  | .error r => .error r

/-- `R[i] <- v` through the bank map. -/
def writeReg (s : State) (i : Reg) (v : Word) : Except Reason State :=
  match slot i (psrMode s.cpsr) with
  | .ok sl => .ok (s.setSlot sl v)
  | .error r => .error r

/-- `current_mode_has_spsr()` and which one: Supervisor and IRQ mode only (R29). -/
def State.currentSpsr (s : State) : Option Word :=
  match psrModeOf s.cpsr with
  | some .supervisor => some s.spsrSvc
  | some .irq => some s.spsrIrq
  | some .user | some .fiq | some .abort | some .undefined | some .system | none => none

/-- The current mode's SPSR written; unchanged in a mode without one. -/
def State.setCurrentSpsr (s : State) (v : Word) : State :=
  match psrModeOf s.cpsr with
  | some .supervisor => { s with spsrSvc := v }
  | some .irq => { s with spsrIrq := v }
  | some .user | some .fiq | some .abort | some .undefined | some .system | none => s

/-- The current executing address `F = R[15] - 8` (R19). -/
def State.execAddr (s : State) : Word := s.r15 - 8#32

/-- `inc_pc` and `dec_pc` (R21). -/
def State.incPc (s : State) : State := { s with r15 := s.r15 + 4#32 }
def State.decPc (s : State) : State := { s with r15 := s.r15 - 4#32 }

/-- A privileged mode is any mode but User (R24); an invalid code is not User (assumption 16). -/
def privileged (p : Word) : Bool := psrModeOf p != some .user

end Sys2Proof.Machine
end

