-- ==== Sys2Proof/Machine/Trace.lean ====
section
/-! DEFINITION. The trace output (10_state.md R31, R39): non-architectural, read by no rule. -/

namespace Sys2Proof.Machine

/-- A visible register for the trace; `none` where the mode has no such register (assumption 12). -/
def traceReg (s : State) (i : Reg) : Option Word :=
  match readReg s i with
  | .ok v => some v
  | .error _ => none

/-- The trace line of a state (R39); the program-counter value is r15 (assumption 12). -/
def traceLine (s : State) : TraceLine where
  step := s.traceCount
  pc := s.r15
  checksum := checksum s
  n := psrN s.cpsr
  z := psrZ s.cpsr
  c := psrC s.cpsr
  v := psrV s.cpsr
  mode := psrMode s.cpsr
  regs := [0, 1, 2, 3, 4, 5, 6, 7, 8, 9, 10, 11, 12, 13, 14].map (traceReg s)

/-- A step that starts in this state is traced when the flag is on and it is executed in System mode, or every
mode is traced (R39). -/
def State.traced (s : State) : Bool :=
  s.traceEnabled && (s.params.traceAllModes || psrModeOf s.cpsr == some .system)

/-- "if tracing: append trace line" (40_execution_cycle.md R93), `traced` saying whether the step is traced. -/
def State.recordTrace (s : State) (traced : Bool) : State :=
  if traced then { s with trace := s.trace ++ [traceLine s], traceCount := s.traceCount + 1 }
  else s

end Sys2Proof.Machine
end

