-- ==== Sys2Proof/Machine/Ops.lean ====
section
/-! DEFINITION. The named operations the meanings share: an instruction in flight and its r15 writes,
the sentinel accesses, taking an exception and the return from one, the MSR write, and the frame every
instruction runs in (condition, handler, advance). -/

namespace Sys2Proof.Machine

/-! ## An instruction in flight -/

/-- The working state of a handler and the value it wrote to r15, if any: `next_pc` of
40_execution_cycle.md R93. The state's own r15 stays F + 8 until the driver advances it (R101). -/
structure Work where
  st : State
  nextPc : Option Word
  deriving DecidableEq, Repr

/-- A handler's start: no r15 write yet. -/
def Work.start (s : State) : Work := ⟨s, none⟩

/-- `pc <- v` (R101): the last write wins. -/
def Work.setPc (w : Work) (v : Word) : Work := { w with nextPc := some v }

/-- `R[i] <- v`, a write to r15 being `pc <- v` (R101). -/
def Work.setReg (w : Work) (i : Reg) (v : Word) : Except Reason Work :=
  if i = 15 then .ok (w.setPc v)
  else
    match writeReg w.st i v with
    | .ok s => .ok { w with st := s }
    | .error r => .error r

/-- The CPSR replaced. -/
def State.setCpsr (s : State) (p : Word) : State := { s with cpsr := p }

/-- N, Z, C and V as an ALU result sets them (41_data_processing.md R112, R113). -/
def Work.setFlags (w : Work) (r : AluResult) : Work :=
  { w with st := w.st.setCpsr (flagsOf w.st.cpsr r) }

/-- N and Z alone (42_multiply.md R132). -/
def Work.setFlagsNZ (w : Work) (res : Word) : Work :=
  { w with st := w.st.setCpsr (flagsNZ w.st.cpsr res) }

/-! ## The sentinel accesses (20_memory.md R52) -/

/-- `emit_character_output` (10_state.md R36). -/
def State.emit (s : State) (b : Byte) : State := { s with output := s.output ++ [b] }

/-- `SingleLoad`: the keyboard sentinel is recognised before the RAM. -/
def singleLoad (s : State) (addr : Word) (n : Width) : Except Reason Word :=
  if addr = s.params.kbdAddr then .ok (s.lastChar.setWidth 32) else memRead s addr n

/-- `SingleStore`: the display sentinel is recognised before the RAM. -/
def singleStore (s : State) (addr : Word) (n : Width) (v : Word) : Except Reason State :=
  if addr = s.params.displayAddr then .ok (s.emit (v.extractLsb' 0 8)) else memWrite s addr n v

/-! ## Exceptions -/

/-- The two exceptions of the core (60_exceptions.md R163). -/
inductive Exception where
  | swi | irq
  deriving DecidableEq, Repr

/-- The mode an exception enters (R165, R169). -/
def Exception.mode : Exception → Mode
  | .swi => .supervisor
  | .irq => .irq

/-- The fixed vector address of an exception (R165, R169). -/
def Exception.vector : Exception → Word
  | .swi => swiVector
  | .irq => irqVector

/-- The CPSR after an entry: the mode switched, T cleared, I set, F and the flags kept (R165, R169). -/
def entryStatus (p : Word) (m : Mode) : Word := withI (withT (withMode p m) false) true

/-- TAKING AN EXCEPTION (R165, R169): the return address and the CPSR go to the entered mode's r14 and
SPSR, the status changes, and r15 is the vector plus 8. IRQ entry also clears the latch. -/
def takeException (k : Exception) (ret : Word) (s : State) : State :=
  let entered := { s with cpsr := entryStatus s.cpsr k.mode, r15 := k.vector + 8#32 }
  match k with
  | .swi => { entered with r14Svc := ret, spsrSvc := s.cpsr }
  | .irq => { entered with r14Irq := ret, spsrIrq := s.cpsr, pendingIrq := false }

/-- The return from an exception (R170, 41_data_processing.md R114): the saved status becomes the CPSR,
whole; an invalid mode code in it is fatal. -/
def restoreCpsr (w : Work) (saved : Word) : Except Reason Work :=
  match psrModeOf saved with
  | some _ => .ok { w with st := w.st.setCpsr saved }
  | none => .error .invalidMode

/-- The test at the end of a step (R168): N is the next instruction to fetch. -/
def State.takeIrq (s : State) : State :=
  if s.pendingIrq && !psrI s.cpsr then takeException .irq (s.r15 - 8#32) s else s

/-! ## MSR (47_status_register.md R157) -/

/-- `lanes(fm)`: mask bit k gates bits 8k+7 : 8k. -/
def lanes (fm : BitVec 4) : Word :=
  (if fm.getLsbD 0 then 0x000000FF#32 else 0#32) ||| (if fm.getLsbD 1 then 0x0000FF00#32 else 0#32) |||
  (if fm.getLsbD 2 then 0x00FF0000#32 else 0#32) ||| (if fm.getLsbD 3 then 0xFF000000#32 else 0#32)

/-- `allowed(R, mode)`: the positions MSR may write. -/
def allowedBits (spsr : Bool) (p : Word) : Word :=
  if spsr then 0xF00000FF#32 else if privileged p then 0xF00000DF#32 else 0xF0000000#32

/-- The bits of `old` under the mask replaced by those of `v`. -/
def merge (old v mask : Word) : Word := (old &&& ~~~mask) ||| (v &&& mask)

/-- `MsrWrite`: a CPSR write that would leave an invalid mode code is fatal and an SPSR write needs an
SPSR. -/
def msrWrite (s : State) (spsr : Bool) (fm : BitVec 4) (v : Word) : Except Reason State :=
  let mask := lanes fm &&& allowedBits spsr s.cpsr
  if spsr then
    match s.currentSpsr with
    | some old => .ok (s.setCurrentSpsr (merge old v mask))
    | none => .error .noSpsr
  else
    let new := merge s.cpsr v mask
    match psrModeOf new with
    | some _ => .ok (s.setCpsr new)
    | none => .error .invalidMode

/-! ## The frame of an instruction -/

/-- The fault a reason becomes at the instruction's address F (60_exceptions.md R164). -/
def Reason.at (r : Reason) (f : Word) : Fault :=
  match r with
  | .memBounds => .memBounds f
  | .invalidMode => .invalidMode f
  | .unbankedMode => .unbankedMode f
  | .noSpsr => .noSpsr f
  | .emptyRegList => .emptyRegList f

/-- Advance-PC (40_execution_cycle.md R95), by `inc_pc` (10_state.md R21): F + 12 when the instruction wrote no r15, else the written
value plus 8. The core is then running: not halted, not waiting. -/
def State.moveOn (s : State) (nextPc : Option Word) : State :=
  let r15 := match nextPc with
    | none => s.incPc.r15
    | some v => v + 8#32
  { s with r15 := r15, halted := none, waitingLine := false }

/-- Advance-PC, then Trace (R93) of a step that is `traced` or not: the mode it was executed in says so
(10_state.md R39). -/
def State.advance (s : State) (nextPc : Option Word) (traced : Bool) : State :=
  (s.moveOn nextPc).recordTrace traced

/-- The step ends halted (00_scope.md R10). -/
def State.halt (s : State) (r : HaltReason) : State :=
  { s with halted := some r, waitingLine := false }

/-- Condition, then the handler or the skip, then Advance-PC and Trace (R93, R97): the whole step of an
instruction whose handler returns Continue. -/
def runHandler (c : Cond) (handler : State → Except Reason Work) (s : State) :
    Host.Outcome State Fault Refusal :=
  if condPassed c s.cpsr then
    match handler s with
    | .ok w => .next (w.st.advance w.nextPc s.traced)
    | .error r => .fault (r.at s.execAddr)
  else .next (s.advance none s.traced)

end Sys2Proof.Machine
end

