-- ==== Sys2Proof/Machine/Operands.lean ====
section
/-! DEFINITION. Every operand form: the barrel shifter, operand 2 of data processing, the addressing of
single, half-word and block transfers (41_data_processing.md R106 to R109, 43_load_store.md R135,
44_halfword_load_store.md R142, 45_block_transfer.md R148). -/

namespace Sys2Proof.Machine

/-! ## Barrel shifter -/

/-- The word of a sign: all ones or zero. -/
def signFill (v : Word) : Word := if v.msb then 0xFFFFFFFF#32 else 0#32

/-- `ShiftImm` (R106): the result and the carry-out; amount 0 is LSL #0, LSR #32, ASR #32 or RRX. -/
def shiftImm (v : Word) (sh : ShiftType) (n : BitVec 5) (c : Bool) : Word × Bool :=
  let k := n.toNat
  match sh with
  | .lsl => if k = 0 then (v, c) else (v <<< k, v.getLsbD (32 - k))
  | .lsr => if k = 0 then (0#32, v.getLsbD 31) else (v >>> k, v.getLsbD (k - 1))
  | .asr => if k = 0 then (signFill v, v.getLsbD 31) else (v.sshiftRight k, v.getLsbD (k - 1))
  | .ror =>
    if k = 0 then (((BitVec.ofBool c).setWidth 32 <<< 31) ||| (v >>> 1), v.getLsbD 0)
    else (v.rotateRight k, v.getLsbD (k - 1))

/-- `ShiftReg` (R107): the amount is 0 to 255. -/
def shiftReg (v : Word) (sh : ShiftType) (n : Byte) (c : Bool) : Word × Bool :=
  let k := n.toNat
  if k = 0 then (v, c)
  else
    match sh with
    | .lsl =>
      if k < 32 then (v <<< k, v.getLsbD (32 - k))
      else if k = 32 then (0#32, v.getLsbD 0) else (0#32, false)
    | .lsr =>
      if k < 32 then (v >>> k, v.getLsbD (k - 1))
      else if k = 32 then (0#32, v.getLsbD 31) else (0#32, false)
    | .asr =>
      if k < 32 then (v.sshiftRight k, v.getLsbD (k - 1)) else (signFill v, v.getLsbD 31)
    | .ror =>
      if k % 32 = 0 then (v, v.getLsbD 31) else (v.rotateRight (k % 32), v.getLsbD (k % 32 - 1))

/-- The rotated immediate (30_encoding.md R80): `imm8` rotated right by `2 * rot`. -/
def rotatedImm (rot : BitVec 4) (imm8 : Byte) : Word :=
  (imm8.setWidth 32 : Word).rotateRight (2 * rot.toNat)

/-- Its carry-out (R108). -/
def rotatedCarry (rot : BitVec 4) (imm8 : Byte) (c : Bool) : Bool :=
  if rot = 0#4 then c else (rotatedImm rot imm8).getLsbD 31

/-! ## Operand 2 (R83, R109) -/

/-- The operand forms of data processing. -/
inductive Operand where
  | imm (rot : BitVec 4) (imm8 : Byte)
  | shiftedImm (rm : Reg) (sh : ShiftType) (n : BitVec 5)
  | shiftedReg (rm : Reg) (sh : ShiftType) (rs : Reg)
  deriving DecidableEq, Repr

/-- `Operand2`: the value and the shifter's carry-out. -/
def operand2 (o : Operand) (s : State) : Except Reason (Word × Bool) :=
  match o with
  | .imm rot imm8 => .ok (rotatedImm rot imm8, rotatedCarry rot imm8 (psrC s.cpsr))
  | .shiftedImm rm sh n => do
    let v ← readReg s rm
    pure (shiftImm v sh n (psrC s.cpsr))
  | .shiftedReg rm sh rs => do
    let v ← readReg s rm
    let n ← readReg s rs
    pure (shiftReg v sh (n.extractLsb' 0 8) (psrC s.cpsr))

/-! ## Single and half-word transfer addressing -/

/-- The offset of a transfer: an immediate, or a register shifted by an immediate (R82, R83). A plain
register is shifted by LSL #0 (R70), a half-word's register is unshifted (R142). -/
inductive Offset where
  | imm (v : Word)
  | reg (rm : Reg)
  | scaled (rm : Reg) (sh : ShiftType) (n : BitVec 5)
  deriving DecidableEq, Repr

/-- The offset's value; the shifter's carry-out is discarded (R135). -/
def offsetValue (o : Offset) (s : State) : Except Reason Word :=
  match o with
  | .imm v => .ok v
  | .reg rm => readReg s rm
  | .scaled rm sh n => do
    let v ← readReg s rm
    pure (shiftImm v sh n (psrC s.cpsr)).1

/-- The indexing bits of a transfer: pre-indexed, add, writeback (R63). -/
structure Indexing where
  p : Bool
  u : Bool
  w : Bool
  deriving DecidableEq, Repr

/-- What addressing answers (R135, R142): the accessed address, the base plus or minus the offset, and
whether that is written back. -/
structure Address where
  addr : Word
  offaddr : Word
  wb : Bool
  deriving DecidableEq, Repr

/-- `LsAddress` and `HwAddress` on values (R135, R142). -/
def addressOf (ix : Indexing) (base off : Word) : Address :=
  let offaddr := if ix.u then base + off else base - off
  { addr := if ix.p then offaddr else base
    offaddr := offaddr
    wb := !ix.p || ix.w }

/-- `LsAddress` and `HwAddress` (R135, R142): Rn = 15 reads F + 8. -/
def transferAddress (ix : Indexing) (rn : Reg) (o : Offset) (s : State) : Except Reason Address := do
  let base ← readReg s rn
  let off ← offsetValue o s
  pure (addressOf ix base off)

/-! ## Block transfer addressing (R148) -/

/-- r0 to r15 in order. -/
def allRegs : List Reg := [0, 1, 2, 3, 4, 5, 6, 7, 8, 9, 10, 11, 12, 13, 14, 15]

/-- The listed registers, lowest first. -/
def listedRegs (list : BitVec 16) : List Reg := allRegs.filter fun i => list.getLsbD i.val

/-- `BitCount(register_list)`. -/
def listCount (list : BitVec 16) : Nat := (listedRegs list).length

/-- `BlockAddress`: the first address and the writeback value, of IA, IB, DA or DB as (P, U) say. -/
def blockAddress (p u : Bool) (base : Word) (n : Nat) : Word × Word :=
  let size := BitVec.ofNat 32 (4 * n)
  match p, u with
  | false, true => (base, base + size)
  | true, true => (base + 4#32, base + size)
  | false, false => (base - size + 4#32, base - size)
  | true, false => (base - size, base - size)

/-- `end` of `BlockAddress`: the last address a non-empty list touches. -/
def blockEnd (start : Word) (n : Nat) : Word := start + BitVec.ofNat 32 (4 * n) - 4#32

end Sys2Proof.Machine
end

