-- ==== Sys2Proof/Machine/Block.lean ====
section
/-! DEFINITION. Block transfer (45_block_transfer.md R148 to R151); the S bit is ignored (R73). -/

namespace Sys2Proof.Machine

/-- The loop of LDM: registers low to high, r15 with bits 1:0 cleared (R150). -/
def loadRegs : List Reg → Word → Work → Except Reason Work
  | [], _, w => .ok w
  | i :: is, addr, w => do
    let v ← memRead w.st addr .word
    let w ← w.setReg i (if i = 15 then v &&& 0xFFFFFFFC#32 else v)
    loadRegs is (addr + 4#32) w

/-- The loop of STM: registers low to high, r15 stores F + 8 (R151). -/
def storeRegs : List Reg → Word → State → Except Reason State
  | [], _, s => .ok s
  | i :: is, addr, s => do
    let v ← readReg s i
    let s ← memWrite s addr .word v
    storeRegs is (addr + 4#32) s

/-- The writeback after all transfers (R150, R151). -/
def blockWriteback (a : BlockArgs) (wbval : Word) (w : Work) : Except Reason Work :=
  if a.w then w.setReg a.rn wbval else .ok w

/-- LDM; an empty list faults before any access (R149, R150). -/
def loadMultiple (a : BlockArgs) (s : State) : Except Reason Work :=
  if a.list = 0#16 then .error .emptyRegList
  else do
    let base ← readReg s a.rn
    let (start, wbval) := blockAddress a.p a.u base (listCount a.list)
    let w ← loadRegs (listedRegs a.list) start (Work.start s)
    blockWriteback a wbval w

/-- STM; an empty list faults before any access (R149, R151). -/
def storeMultiple (a : BlockArgs) (s : State) : Except Reason Work :=
  if a.list = 0#16 then .error .emptyRegList
  else do
    let base ← readReg s a.rn
    let (start, wbval) := blockAddress a.p a.u base (listCount a.list)
    let t ← storeRegs (listedRegs a.list) start s
    blockWriteback a wbval (Work.start t)

/-- LDM (R150). -/
def execLdm (c : Cond) (a : BlockArgs) (s : State) : Host.Outcome State Fault Refusal :=
  runHandler c (loadMultiple a) s

/-- STM (R151). -/
def execStm (c : Cond) (a : BlockArgs) (s : State) : Host.Outcome State Fault Refusal :=
  runHandler c (storeMultiple a) s

end Sys2Proof.Machine
end

