-- ==== Sys2Proof/Machine/Branch.lean ====
section
/-! DEFINITION. Branch and branch-exchange (46_branch.md R152 to R155). -/

namespace Sys2Proof.Machine

/-- The branch target: F + 8 plus the 24-bit offset, sign-extended and times 4 (30_encoding.md R81,
R152); r15 holds F + 8 (10_state.md R19). -/
def branchTarget (off : BitVec 24) (s : State) : Word :=
  s.execAddr + 8#32 + (off ++ 0b00#2).signExtend 32

/-- B: `pc <- target`. -/
def branch (off : BitVec 24) (s : State) : Except Reason Work :=
  .ok ((Work.start s).setPc (branchTarget off s))

/-- BL: r14 of the current mode's bank, then the branch. -/
def branchLink (off : BitVec 24) (s : State) : Except Reason Work := do
  let w ← (Work.start s).setReg 14 (s.execAddr + 4#32)
  pure (w.setPc (branchTarget off s))

/-- BX: bit 0 to T and cleared from the target. -/
def branchExchange (rm : Reg) (s : State) : Except Reason Work := do
  let v ← readReg s rm
  pure ((Work.start (s.setCpsr (withT s.cpsr (v.getLsbD 0)))).setPc (v &&& 0xFFFFFFFE#32))

/-- B (R152). -/
def execB (c : Cond) (off : BitVec 24) (s : State) : Host.Outcome State Fault Refusal :=
  runHandler c (branch off) s

/-- BL (R153). -/
def execBl (c : Cond) (off : BitVec 24) (s : State) : Host.Outcome State Fault Refusal :=
  runHandler c (branchLink off) s

/-- BX (R154). -/
def execBx (c : Cond) (rm : Reg) (s : State) : Host.Outcome State Fault Refusal :=
  runHandler c (branchExchange rm) s

end Sys2Proof.Machine
end

