-- ==== Sys2Proof/Machine/DataProcessing.lean ====
section
/-! DEFINITION. Data processing (41_data_processing.md R111 to R131): 16 operations in 3 operand forms. -/

namespace Sys2Proof.Machine

/-- The status part of R111 with S = 1: MOV to r15 in a mode with an SPSR restores the CPSR (R114); every
other case sets the flags (R112, R113, R115). -/
def dpStatus (op : DpOp) (rd : Reg) (r : AluResult) (w : Work) : Except Reason Work :=
  if rd = 15 ∧ op = .mov then
    match w.st.currentSpsr with
    | some saved => restoreCpsr w saved
    | none => .ok (w.setFlags r)
  else .ok (w.setFlags r)

/-- Rn as R111 reads it: MOV and MVN do not read it (R67). -/
def dpFirst (op : DpOp) (rn : Reg) (s : State) : Except Reason Word :=
  if opReadsRn op then readReg s rn else .ok 0#32

/-- The result part of R111: a write-result opcode stores into Rd, a compare-only one does not. -/
def dpResult (op : DpOp) (rd : Reg) (r : AluResult) (s : State) : Except Reason Work :=
  if opWritesRd op then (Work.start s).setReg rd r.value else .ok (Work.start s)

/-- The status part runs when S = 1 (R111). -/
def dpFinish (op : DpOp) (sbit : Bool) (rd : Reg) (r : AluResult) (w : Work) : Except Reason Work :=
  if sbit then dpStatus op rd r w else .ok w

/-- `DataProcessing` (R111). -/
def dataProcessing (op : DpOp) (sbit : Bool) (rn rd : Reg) (o : Operand) (s : State) :
    Except Reason Work := do
  let b ← operand2 o s
  let a ← dpFirst op rn s
  let w ← dpResult op rd (alu op a b.1 b.2 (psrC s.cpsr)) s
  dpFinish op sbit rd (alu op a b.1 b.2 (psrC s.cpsr)) w

/-- The rotated-immediate form (R64). -/
def dpImmForm (op : DpOp) (a : DpImmArgs) : State → Except Reason Work :=
  dataProcessing op a.s a.rn a.rd (.imm a.rot a.imm8)

/-- The immediate-shift form (R65). -/
def dpShiftForm (op : DpOp) (a : DpShiftArgs) : State → Except Reason Work :=
  dataProcessing op a.s a.rn a.rd (.shiftedImm a.rm a.sh a.shiftImm)

/-- The register-shift form (R66). -/
def dpRegForm (op : DpOp) (a : DpRegArgs) : State → Except Reason Work :=
  dataProcessing op a.s a.rn a.rd (.shiftedReg a.rm a.sh a.rs)

/-! ## The 48 meanings -/

/-- AND, rotated immediate (R116). -/
def execAndImm (c : Cond) (a : DpImmArgs) (s : State) : Host.Outcome State Fault Refusal :=
  runHandler c (dpImmForm .and a) s

/-- EOR, rotated immediate (R117). -/
def execEorImm (c : Cond) (a : DpImmArgs) (s : State) : Host.Outcome State Fault Refusal :=
  runHandler c (dpImmForm .eor a) s

/-- SUB, rotated immediate (R118). -/
def execSubImm (c : Cond) (a : DpImmArgs) (s : State) : Host.Outcome State Fault Refusal :=
  runHandler c (dpImmForm .sub a) s

/-- RSB, rotated immediate (R119). -/
def execRsbImm (c : Cond) (a : DpImmArgs) (s : State) : Host.Outcome State Fault Refusal :=
  runHandler c (dpImmForm .rsb a) s

/-- ADD, rotated immediate (R120). -/
def execAddImm (c : Cond) (a : DpImmArgs) (s : State) : Host.Outcome State Fault Refusal :=
  runHandler c (dpImmForm .add a) s

/-- ADC, rotated immediate (R121). -/
def execAdcImm (c : Cond) (a : DpImmArgs) (s : State) : Host.Outcome State Fault Refusal :=
  runHandler c (dpImmForm .adc a) s

/-- SBC, rotated immediate (R122). -/
def execSbcImm (c : Cond) (a : DpImmArgs) (s : State) : Host.Outcome State Fault Refusal :=
  runHandler c (dpImmForm .sbc a) s

/-- RSC, rotated immediate (R123). -/
def execRscImm (c : Cond) (a : DpImmArgs) (s : State) : Host.Outcome State Fault Refusal :=
  runHandler c (dpImmForm .rsc a) s

/-- TST, rotated immediate (R124). -/
def execTstImm (c : Cond) (a : DpImmArgs) (s : State) : Host.Outcome State Fault Refusal :=
  runHandler c (dpImmForm .tst a) s

/-- TEQ, rotated immediate (R125). -/
def execTeqImm (c : Cond) (a : DpImmArgs) (s : State) : Host.Outcome State Fault Refusal :=
  runHandler c (dpImmForm .teq a) s

/-- CMP, rotated immediate (R126). -/
def execCmpImm (c : Cond) (a : DpImmArgs) (s : State) : Host.Outcome State Fault Refusal :=
  runHandler c (dpImmForm .cmp a) s

/-- CMN, rotated immediate (R127). -/
def execCmnImm (c : Cond) (a : DpImmArgs) (s : State) : Host.Outcome State Fault Refusal :=
  runHandler c (dpImmForm .cmn a) s

/-- ORR, rotated immediate (R128). -/
def execOrrImm (c : Cond) (a : DpImmArgs) (s : State) : Host.Outcome State Fault Refusal :=
  runHandler c (dpImmForm .orr a) s

/-- MOV, rotated immediate (R129). -/
def execMovImm (c : Cond) (a : DpImmArgs) (s : State) : Host.Outcome State Fault Refusal :=
  runHandler c (dpImmForm .mov a) s

/-- BIC, rotated immediate (R130). -/
def execBicImm (c : Cond) (a : DpImmArgs) (s : State) : Host.Outcome State Fault Refusal :=
  runHandler c (dpImmForm .bic a) s

/-- MVN, rotated immediate (R131). -/
def execMvnImm (c : Cond) (a : DpImmArgs) (s : State) : Host.Outcome State Fault Refusal :=
  runHandler c (dpImmForm .mvn a) s

/-- AND, immediate shift (R116). -/
def execAndShift (c : Cond) (a : DpShiftArgs) (s : State) : Host.Outcome State Fault Refusal :=
  runHandler c (dpShiftForm .and a) s

/-- EOR, immediate shift (R117). -/
def execEorShift (c : Cond) (a : DpShiftArgs) (s : State) : Host.Outcome State Fault Refusal :=
  runHandler c (dpShiftForm .eor a) s

/-- SUB, immediate shift (R118). -/
def execSubShift (c : Cond) (a : DpShiftArgs) (s : State) : Host.Outcome State Fault Refusal :=
  runHandler c (dpShiftForm .sub a) s

/-- RSB, immediate shift (R119). -/
def execRsbShift (c : Cond) (a : DpShiftArgs) (s : State) : Host.Outcome State Fault Refusal :=
  runHandler c (dpShiftForm .rsb a) s

/-- ADD, immediate shift (R120). -/
def execAddShift (c : Cond) (a : DpShiftArgs) (s : State) : Host.Outcome State Fault Refusal :=
  runHandler c (dpShiftForm .add a) s

/-- ADC, immediate shift (R121). -/
def execAdcShift (c : Cond) (a : DpShiftArgs) (s : State) : Host.Outcome State Fault Refusal :=
  runHandler c (dpShiftForm .adc a) s

/-- SBC, immediate shift (R122). -/
def execSbcShift (c : Cond) (a : DpShiftArgs) (s : State) : Host.Outcome State Fault Refusal :=
  runHandler c (dpShiftForm .sbc a) s

/-- RSC, immediate shift (R123). -/
def execRscShift (c : Cond) (a : DpShiftArgs) (s : State) : Host.Outcome State Fault Refusal :=
  runHandler c (dpShiftForm .rsc a) s

/-- TST, immediate shift (R124). -/
def execTstShift (c : Cond) (a : DpShiftArgs) (s : State) : Host.Outcome State Fault Refusal :=
  runHandler c (dpShiftForm .tst a) s

/-- TEQ, immediate shift (R125). -/
def execTeqShift (c : Cond) (a : DpShiftArgs) (s : State) : Host.Outcome State Fault Refusal :=
  runHandler c (dpShiftForm .teq a) s

/-- CMP, immediate shift (R126). -/
def execCmpShift (c : Cond) (a : DpShiftArgs) (s : State) : Host.Outcome State Fault Refusal :=
  runHandler c (dpShiftForm .cmp a) s

/-- CMN, immediate shift (R127). -/
def execCmnShift (c : Cond) (a : DpShiftArgs) (s : State) : Host.Outcome State Fault Refusal :=
  runHandler c (dpShiftForm .cmn a) s

/-- ORR, immediate shift (R128). -/
def execOrrShift (c : Cond) (a : DpShiftArgs) (s : State) : Host.Outcome State Fault Refusal :=
  runHandler c (dpShiftForm .orr a) s

/-- MOV, immediate shift (R129). -/
def execMovShift (c : Cond) (a : DpShiftArgs) (s : State) : Host.Outcome State Fault Refusal :=
  runHandler c (dpShiftForm .mov a) s

/-- BIC, immediate shift (R130). -/
def execBicShift (c : Cond) (a : DpShiftArgs) (s : State) : Host.Outcome State Fault Refusal :=
  runHandler c (dpShiftForm .bic a) s

/-- MVN, immediate shift (R131). -/
def execMvnShift (c : Cond) (a : DpShiftArgs) (s : State) : Host.Outcome State Fault Refusal :=
  runHandler c (dpShiftForm .mvn a) s

/-- AND, register shift (R116). -/
def execAndRegShift (c : Cond) (a : DpRegArgs) (s : State) : Host.Outcome State Fault Refusal :=
  runHandler c (dpRegForm .and a) s

/-- EOR, register shift (R117). -/
def execEorRegShift (c : Cond) (a : DpRegArgs) (s : State) : Host.Outcome State Fault Refusal :=
  runHandler c (dpRegForm .eor a) s

/-- SUB, register shift (R118). -/
def execSubRegShift (c : Cond) (a : DpRegArgs) (s : State) : Host.Outcome State Fault Refusal :=
  runHandler c (dpRegForm .sub a) s

/-- RSB, register shift (R119). -/
def execRsbRegShift (c : Cond) (a : DpRegArgs) (s : State) : Host.Outcome State Fault Refusal :=
  runHandler c (dpRegForm .rsb a) s

/-- ADD, register shift (R120). -/
def execAddRegShift (c : Cond) (a : DpRegArgs) (s : State) : Host.Outcome State Fault Refusal :=
  runHandler c (dpRegForm .add a) s

/-- ADC, register shift (R121). -/
def execAdcRegShift (c : Cond) (a : DpRegArgs) (s : State) : Host.Outcome State Fault Refusal :=
  runHandler c (dpRegForm .adc a) s

/-- SBC, register shift (R122). -/
def execSbcRegShift (c : Cond) (a : DpRegArgs) (s : State) : Host.Outcome State Fault Refusal :=
  runHandler c (dpRegForm .sbc a) s

/-- RSC, register shift (R123). -/
def execRscRegShift (c : Cond) (a : DpRegArgs) (s : State) : Host.Outcome State Fault Refusal :=
  runHandler c (dpRegForm .rsc a) s

/-- TST, register shift (R124). -/
def execTstRegShift (c : Cond) (a : DpRegArgs) (s : State) : Host.Outcome State Fault Refusal :=
  runHandler c (dpRegForm .tst a) s

/-- TEQ, register shift (R125). -/
def execTeqRegShift (c : Cond) (a : DpRegArgs) (s : State) : Host.Outcome State Fault Refusal :=
  runHandler c (dpRegForm .teq a) s

/-- CMP, register shift (R126). -/
def execCmpRegShift (c : Cond) (a : DpRegArgs) (s : State) : Host.Outcome State Fault Refusal :=
  runHandler c (dpRegForm .cmp a) s

/-- CMN, register shift (R127). -/
def execCmnRegShift (c : Cond) (a : DpRegArgs) (s : State) : Host.Outcome State Fault Refusal :=
  runHandler c (dpRegForm .cmn a) s

/-- ORR, register shift (R128). -/
def execOrrRegShift (c : Cond) (a : DpRegArgs) (s : State) : Host.Outcome State Fault Refusal :=
  runHandler c (dpRegForm .orr a) s

/-- MOV, register shift (R129). -/
def execMovRegShift (c : Cond) (a : DpRegArgs) (s : State) : Host.Outcome State Fault Refusal :=
  runHandler c (dpRegForm .mov a) s

/-- BIC, register shift (R130). -/
def execBicRegShift (c : Cond) (a : DpRegArgs) (s : State) : Host.Outcome State Fault Refusal :=
  runHandler c (dpRegForm .bic a) s

/-- MVN, register shift (R131). -/
def execMvnRegShift (c : Cond) (a : DpRegArgs) (s : State) : Host.Outcome State Fault Refusal :=
  runHandler c (dpRegForm .mvn a) s

end Sys2Proof.Machine
end

