-- ==== Sys2Proof/Machine/LoadStore.lean ====
section
/-! DEFINITION. Single-register load and store (43_load_store.md R135 to R141). -/

namespace Sys2Proof.Machine

/-- `R[Rn] <- offaddr` when the form writes back (R135, R136). -/
def Work.writeback (w : Work) (rn : Reg) (ad : Address) : Except Reason Work :=
  if ad.wb then w.setReg rn ad.offaddr else .ok w

/-- The part of a load after the access: the writeback, then Rd, which wins when Rd = Rn (R136). -/
def finishLoad (rn rd : Reg) (ad : Address) (val : Word) (s : State) : Except Reason Work := do
  let w ← (Work.start s).writeback rn ad
  w.setReg rd val

/-- LDR and LDRB (R138, R140). -/
def loadSingle (n : Width) (ix : Indexing) (rn rd : Reg) (o : Offset) (s : State) :
    Except Reason Work := do
  let ad ← transferAddress ix rn o s
  let val ← singleLoad s ad.addr n
  finishLoad rn rd ad val s

/-- STR and STRB: Rd is read before the writeback (R136, R139, R141). -/
def storeSingle (n : Width) (ix : Indexing) (rn rd : Reg) (o : Offset) (s : State) :
    Except Reason Work := do
  let ad ← transferAddress ix rn o s
  let v ← readReg s rd
  let t ← singleStore s ad.addr n v
  (Work.start t).writeback rn ad

/-- The offset and indexing of each form (30_encoding.md R69, R70, R82). -/
def lsImmOffset (a : LsImmArgs) : Offset := .imm (a.offset12.setWidth 32)
def lsImmIndexing (a : LsImmArgs) : Indexing := ⟨a.p, a.u, a.w⟩
def lsRegIndexing (a : LsRegArgs) : Indexing := ⟨a.p, a.u, a.w⟩
def lsScaledOffset (a : LsScaledArgs) : Offset := .scaled a.rm a.sh a.shiftImm
def lsScaledIndexing (a : LsScaledArgs) : Indexing := ⟨a.p, a.u, a.w⟩

/-- STR, immediate offset (R139). -/
def execStrImm (c : Cond) (a : LsImmArgs) (s : State) : Host.Outcome State Fault Refusal :=
  runHandler c (storeSingle .word (lsImmIndexing a) a.rn a.rd (lsImmOffset a)) s

/-- LDR, immediate offset (R138). -/
def execLdrImm (c : Cond) (a : LsImmArgs) (s : State) : Host.Outcome State Fault Refusal :=
  runHandler c (loadSingle .word (lsImmIndexing a) a.rn a.rd (lsImmOffset a)) s

/-- STRB, immediate offset (R141). -/
def execStrbImm (c : Cond) (a : LsImmArgs) (s : State) : Host.Outcome State Fault Refusal :=
  runHandler c (storeSingle .byte (lsImmIndexing a) a.rn a.rd (lsImmOffset a)) s

/-- LDRB, immediate offset (R140). -/
def execLdrbImm (c : Cond) (a : LsImmArgs) (s : State) : Host.Outcome State Fault Refusal :=
  runHandler c (loadSingle .byte (lsImmIndexing a) a.rn a.rd (lsImmOffset a)) s

/-- STR, register offset (R139). -/
def execStrReg (c : Cond) (a : LsRegArgs) (s : State) : Host.Outcome State Fault Refusal :=
  runHandler c (storeSingle .word (lsRegIndexing a) a.rn a.rd (.reg a.rm)) s

/-- LDR, register offset (R138). -/
def execLdrReg (c : Cond) (a : LsRegArgs) (s : State) : Host.Outcome State Fault Refusal :=
  runHandler c (loadSingle .word (lsRegIndexing a) a.rn a.rd (.reg a.rm)) s

/-- STRB, register offset (R141). -/
def execStrbReg (c : Cond) (a : LsRegArgs) (s : State) : Host.Outcome State Fault Refusal :=
  runHandler c (storeSingle .byte (lsRegIndexing a) a.rn a.rd (.reg a.rm)) s

/-- LDRB, register offset (R140). -/
def execLdrbReg (c : Cond) (a : LsRegArgs) (s : State) : Host.Outcome State Fault Refusal :=
  runHandler c (loadSingle .byte (lsRegIndexing a) a.rn a.rd (.reg a.rm)) s

/-- STR, scaled register offset (R139). -/
def execStrScaled (c : Cond) (a : LsScaledArgs) (s : State) : Host.Outcome State Fault Refusal :=
  runHandler c (storeSingle .word (lsScaledIndexing a) a.rn a.rd (lsScaledOffset a)) s

/-- LDR, scaled register offset (R138). -/
def execLdrScaled (c : Cond) (a : LsScaledArgs) (s : State) : Host.Outcome State Fault Refusal :=
  runHandler c (loadSingle .word (lsScaledIndexing a) a.rn a.rd (lsScaledOffset a)) s

/-- STRB, scaled register offset (R141). -/
def execStrbScaled (c : Cond) (a : LsScaledArgs) (s : State) : Host.Outcome State Fault Refusal :=
  runHandler c (storeSingle .byte (lsScaledIndexing a) a.rn a.rd (lsScaledOffset a)) s

/-- LDRB, scaled register offset (R140). -/
def execLdrbScaled (c : Cond) (a : LsScaledArgs) (s : State) : Host.Outcome State Fault Refusal :=
  runHandler c (loadSingle .byte (lsScaledIndexing a) a.rn a.rd (lsScaledOffset a)) s

end Sys2Proof.Machine
end

