-- ==== Sys2Proof/Machine/HalfWord.lean ====
section
/-! DEFINITION. Half-word and signed load and store (44_halfword_load_store.md R142 to R147). These forms
do not recognise the sentinel addresses (R142). -/

namespace Sys2Proof.Machine

/-- How a loaded value becomes a register's (R143, R145, R146). -/
inductive Extend where
  | zero | sign
  deriving DecidableEq, Repr

/-- The loaded value zero- or sign-extended from its width. -/
def extendFrom (x : Extend) (n : Width) (v : Word) : Word :=
  match x, n with
  | .zero, _ => v
  | .sign, .byte => (v.setWidth 8).signExtend 32
  | .sign, .half => (v.setWidth 16).signExtend 32
  | .sign, .word => v

/-- LDRH, LDRSB and LDRSH. -/
def loadHalf (n : Width) (x : Extend) (ix : Indexing) (rn rd : Reg) (o : Offset) (s : State) :
    Except Reason Work := do
  let ad ← transferAddress ix rn o s
  let raw ← memRead s ad.addr n
  finishLoad rn rd ad (extendFrom x n raw) s

/-- STRH. -/
def storeHalf (ix : Indexing) (rn rd : Reg) (o : Offset) (s : State) : Except Reason Work := do
  let ad ← transferAddress ix rn o s
  let v ← readReg s rd
  let t ← memWrite s ad.addr .half v
  (Work.start t).writeback rn ad

/-- The offset and indexing of each form (30_encoding.md R71, R72, R82). -/
def hwImmOffset (a : HwImmArgs) : Offset := .imm ((a.immH ++ a.immL).setWidth 32)
def hwImmIndexing (a : HwImmArgs) : Indexing := ⟨a.p, a.u, a.w⟩
def hwRegIndexing (a : HwRegArgs) : Indexing := ⟨a.p, a.u, a.w⟩

/-- STRH, immediate offset (R144). -/
def execStrhImm (c : Cond) (a : HwImmArgs) (s : State) : Host.Outcome State Fault Refusal :=
  runHandler c (storeHalf (hwImmIndexing a) a.rn a.rd (hwImmOffset a)) s

/-- LDRH, immediate offset (R143). -/
def execLdrhImm (c : Cond) (a : HwImmArgs) (s : State) : Host.Outcome State Fault Refusal :=
  runHandler c (loadHalf .half .zero (hwImmIndexing a) a.rn a.rd (hwImmOffset a)) s

/-- LDRSB, immediate offset (R145). -/
def execLdrsbImm (c : Cond) (a : HwImmArgs) (s : State) : Host.Outcome State Fault Refusal :=
  runHandler c (loadHalf .byte .sign (hwImmIndexing a) a.rn a.rd (hwImmOffset a)) s

/-- LDRSH, immediate offset (R146). -/
def execLdrshImm (c : Cond) (a : HwImmArgs) (s : State) : Host.Outcome State Fault Refusal :=
  runHandler c (loadHalf .half .sign (hwImmIndexing a) a.rn a.rd (hwImmOffset a)) s

/-- STRH, register offset (R144). -/
def execStrhReg (c : Cond) (a : HwRegArgs) (s : State) : Host.Outcome State Fault Refusal :=
  runHandler c (storeHalf (hwRegIndexing a) a.rn a.rd (.reg a.rm)) s

/-- LDRH, register offset (R143). -/
def execLdrhReg (c : Cond) (a : HwRegArgs) (s : State) : Host.Outcome State Fault Refusal :=
  runHandler c (loadHalf .half .zero (hwRegIndexing a) a.rn a.rd (.reg a.rm)) s

/-- LDRSB, register offset (R145). -/
def execLdrsbReg (c : Cond) (a : HwRegArgs) (s : State) : Host.Outcome State Fault Refusal :=
  runHandler c (loadHalf .byte .sign (hwRegIndexing a) a.rn a.rd (.reg a.rm)) s

/-- LDRSH, register offset (R146). -/
def execLdrshReg (c : Cond) (a : HwRegArgs) (s : State) : Host.Outcome State Fault Refusal :=
  runHandler c (loadHalf .half .sign (hwRegIndexing a) a.rn a.rd (.reg a.rm)) s

end Sys2Proof.Machine
end

