-- ==== Sys2Proof/Machine/Multiply.lean ====
section
/-! DEFINITION. Multiply (42_multiply.md R132 to R134). -/

namespace Sys2Proof.Machine

/-- The product, with the accumulator when there is one, modulo 2^32 (R132, R133, R134). -/
def product (x y acc : Word) : Word := BitVec.ofNat 32 (x.toNat * y.toNat + acc.toNat)

/-- The accumulator of MLA; MUL ignores its Rn field (R68). -/
def mulAccumulator (accumulate : Bool) (rn : Reg) (s : State) : Except Reason Word :=
  if accumulate then readReg s rn else .ok 0#32

/-- MUL and MLA: N and Z when S = 1, C and V never (R132). -/
def multiply (accumulate : Bool) (a : MulArgs) (s : State) : Except Reason Work := do
  let x ← readReg s a.rm
  let y ← readReg s a.rs
  let z ← mulAccumulator accumulate a.rn s
  let w ← (Work.start s).setReg a.rd (product x y z)
  pure (if a.s then w.setFlagsNZ (product x y z) else w)

/-- MUL (R133). -/
def execMul (c : Cond) (a : MulArgs) (s : State) : Host.Outcome State Fault Refusal :=
  runHandler c (multiply false a) s

/-- MLA (R134). -/
def execMla (c : Cond) (a : MulArgs) (s : State) : Host.Outcome State Fault Refusal :=
  runHandler c (multiply true a) s

end Sys2Proof.Machine
end

