-- ==== Sys2Proof/Machine/SoftwareInterrupt.lean ====
section
/-! DEFINITION. Software interrupt, no-op and the word 0 (48_software_interrupt.md R160 to R162,
60_exceptions.md R165, R166, 40_execution_cycle.md R94, R96). -/

namespace Sys2Proof.Machine

/-- What a handler returns (00_scope.md R9). -/
inductive HandlerOutcome where
  | proceed | halt | softwareInterrupt
  deriving DecidableEq, Repr

/-- The SWI handler (R160): it changes no state. -/
def swiOutcome (p : Params) (n : BitVec 24) : HandlerOutcome :=
  if n = swiExit then .halt
  else if n = p.swiPutc ∨ n = p.swiReadline then .softwareInterrupt
  else .proceed

/-- The exit halt (R96): after Advance-PC r15 goes back by one instruction, to F + 8. -/
def exitHalt (s : State) : State := ((s.advance none s.traced).decPc).halt .exit

/-- The SWI entry (R165): after Advance-PC, return address F + 4. -/
def swiEntry (s : State) : State := takeException .swi (s.execAddr + 4#32) (s.advance none s.traced)

/-- The bytes of a line: a carriage return if room remains under `max`, then the null (R166). -/
def lineBytes (max : Nat) (line : List Byte) : List Byte :=
  (if line.length < max then line ++ [0x0D#8] else line) ++ [0x00#8]

/-- The line written byte by byte; the display sentinel is not recognised (R166). -/
def writeLine : State → Word → List Byte → Except Reason State
  | s, _, [] => .ok s
  | s, addr, b :: bs => do
    let s ← memWrite s addr .byte (b.setWidth 32)
    writeLine s (addr + 1#32) bs

/-- The line-input service (R166) in the entered state, for the SWI at `f`. With no line from the host the
step does not end: the core keeps the entered state, marked as waiting (R11; assumption 5). A line
longer than `max_bytes` breaks the host's duty and is refused (93_implementation_defined.md B7). -/
def serviceReadline (entered : State) (f : Word) : Host.Outcome State Fault Refusal :=
  match entered.inputLines with
  | [] => .next { entered with waitingLine := true }
  | line :: rest =>
    let addr := entered.regs[entered.params.readlineAddrReg]
    let max := entered.regs[entered.params.readlineMaxReg].toNat
    if max < line.length then .refused .hostLineTooLong
    else
      match writeLine { entered with inputLines := rest, waitingLine := false } addr (lineBytes max line) with
      | .ok t => .next t
      | .error r => .fault (r.at f)

/-- A step inside the line-input service goes on where it waits (R11): the service once more, for the SWI
whose return address F + 4 the entry left in r14 (R165). -/
def resumeReadline (s : State) : Host.Outcome State Fault Refusal := serviceReadline s (s.r14Svc - 4#32)

/-- The character-output service (R166). -/
def servicePutc (entered : State) : State :=
  entered.emit (entered.regs[entered.params.putcReg].extractLsb' 0 8)

/-- `SwiService` after the entry, in Supervisor mode (R166). -/
def swiService (n : BitVec 24) (s : State) : Host.Outcome State Fault Refusal :=
  if n = s.params.swiPutc then .next (servicePutc (swiEntry s))
  else serviceReadline (swiEntry s) s.execAddr

/-- SWI (R160) with the driver's part (R93, R96, R165, R166). -/
def execSwi (c : Cond) (n : BitVec 24) (s : State) : Host.Outcome State Fault Refusal :=
  if condPassed c s.cpsr then
    match swiOutcome s.params n with
    | .proceed => .next (s.advance none s.traced)
    | .halt => .next (exitHalt s)
    | .softwareInterrupt => swiService n s
  else .next (s.advance none s.traced)

/-- The word 0: "a hard halt", r15 unchanged (R94). It has no condition. -/
def execZeroWord (s : State) : Host.Outcome State Fault Refusal := .next (s.halt .zeroWord)

/-- The no-op handler (R161). -/
def noOperation (s : State) : Except Reason Work := .ok (Work.start s)

/-- No-op: coprocessor space (30_encoding.md R88, 48_software_interrupt.md R161). -/
def execNopCoprocessor (c : Cond) (s : State) : Host.Outcome State Fault Refusal := runHandler c noOperation s

/-- No-op: single-transfer undefined space (30_encoding.md R88, 48_software_interrupt.md R161). -/
def execNopUndefined (c : Cond) (s : State) : Host.Outcome State Fault Refusal := runHandler c noOperation s

/-- No-op: S = 0 compare space, immediate (30_encoding.md R88, 48_software_interrupt.md R161). -/
def execNopCompareImm (c : Cond) (s : State) : Host.Outcome State Fault Refusal := runHandler c noOperation s

/-- No-op: 1001 space: long multiply, swap and others (30_encoding.md R88, 48_software_interrupt.md R161). -/
def execNopMultiplySpace (c : Cond) (s : State) : Host.Outcome State Fault Refusal := runHandler c noOperation s

/-- No-op: double-word space (30_encoding.md R88, 48_software_interrupt.md R161). -/
def execNopDoubleWord (c : Cond) (s : State) : Host.Outcome State Fault Refusal := runHandler c noOperation s

/-- No-op: S = 0 compare space, register (30_encoding.md R88, 48_software_interrupt.md R161). -/
def execNopCompareReg (c : Cond) (s : State) : Host.Outcome State Fault Refusal := runHandler c noOperation s

end Sys2Proof.Machine
end

