-- ==== Sys2Proof/Machine/Status.lean ====
section
/-! DEFINITION. Status-register transfer (47_status_register.md R156 to R159). -/

namespace Sys2Proof.Machine

/-- What MRS reads: the CPSR at the start of the instruction, or the current mode's SPSR (R156). -/
def statusSource (spsr : Bool) (s : State) : Except Reason Word :=
  if spsr then
    match s.currentSpsr with
    | some v => .ok v
    | none => .error .noSpsr
  else .ok s.cpsr

/-- MRS; Rd = 15 is a jump (R156). -/
def moveFromStatus (spsr : Bool) (rd : Reg) (s : State) : Except Reason Work := do
  let v ← statusSource spsr s
  (Work.start s).setReg rd v

/-- MSR, register source (R158). -/
def moveToStatusReg (a : MsrRegArgs) (s : State) : Except Reason Work := do
  let v ← readReg s a.rm
  let t ← msrWrite s a.spsr a.mask v
  pure (Work.start t)

/-- MSR, immediate source; the rotate's carry-out is not written (R159). -/
def moveToStatusImm (a : MsrImmArgs) (s : State) : Except Reason Work := do
  let t ← msrWrite s a.spsr a.mask (rotatedImm a.rot a.imm8)
  pure (Work.start t)

/-- MRS (R156). -/
def execMrs (c : Cond) (spsr : Bool) (rd : Reg) (s : State) : Host.Outcome State Fault Refusal :=
  runHandler c (moveFromStatus spsr rd) s

/-- MSR, register (R158). -/
def execMsrReg (c : Cond) (a : MsrRegArgs) (s : State) : Host.Outcome State Fault Refusal :=
  runHandler c (moveToStatusReg a) s

/-- MSR, immediate (R159). -/
def execMsrImm (c : Cond) (a : MsrImmArgs) (s : State) : Host.Outcome State Fault Refusal :=
  runHandler c (moveToStatusImm a) s

end Sys2Proof.Machine
end

