-- ==== Sys2Proof/Machine/Dispatch.lean ====
section
/-! DEFINITION. One arm per instruction, in the order of opcode_table.json. -/

namespace Sys2Proof.Machine

/-- The whole step of one instruction but the fetch before it and the IRQ test after it: condition,
handler, Advance-PC, Trace, exit halt, SWI entry and service (40_execution_cycle.md R93). -/
def exec (i : Instr) (s : State) : Host.Outcome State Fault Refusal :=
  match i with
  | .zeroWord => Sys2Proof.Machine.execZeroWord s
  | .swi c n => Sys2Proof.Machine.execSwi c n s
  | .b c off => Sys2Proof.Machine.execB c off s
  | .bl c off => Sys2Proof.Machine.execBl c off s
  | .stm c a => Sys2Proof.Machine.execStm c a s
  | .ldm c a => Sys2Proof.Machine.execLdm c a s
  | .nopCoprocessor c => Sys2Proof.Machine.execNopCoprocessor c s
  | .nopUndefined c => Sys2Proof.Machine.execNopUndefined c s
  | .strImm c a => Sys2Proof.Machine.execStrImm c a s
  | .ldrImm c a => Sys2Proof.Machine.execLdrImm c a s
  | .strbImm c a => Sys2Proof.Machine.execStrbImm c a s
  | .ldrbImm c a => Sys2Proof.Machine.execLdrbImm c a s
  | .strReg c a => Sys2Proof.Machine.execStrReg c a s
  | .ldrReg c a => Sys2Proof.Machine.execLdrReg c a s
  | .strbReg c a => Sys2Proof.Machine.execStrbReg c a s
  | .ldrbReg c a => Sys2Proof.Machine.execLdrbReg c a s
  | .strScaled c a => Sys2Proof.Machine.execStrScaled c a s
  | .ldrScaled c a => Sys2Proof.Machine.execLdrScaled c a s
  | .strbScaled c a => Sys2Proof.Machine.execStrbScaled c a s
  | .ldrbScaled c a => Sys2Proof.Machine.execLdrbScaled c a s
  | .msrImm c a => Sys2Proof.Machine.execMsrImm c a s
  | .nopCompareImm c => Sys2Proof.Machine.execNopCompareImm c s
  | .andImm c a => Sys2Proof.Machine.execAndImm c a s
  | .eorImm c a => Sys2Proof.Machine.execEorImm c a s
  | .subImm c a => Sys2Proof.Machine.execSubImm c a s
  | .rsbImm c a => Sys2Proof.Machine.execRsbImm c a s
  | .addImm c a => Sys2Proof.Machine.execAddImm c a s
  | .adcImm c a => Sys2Proof.Machine.execAdcImm c a s
  | .sbcImm c a => Sys2Proof.Machine.execSbcImm c a s
  | .rscImm c a => Sys2Proof.Machine.execRscImm c a s
  | .tstImm c a => Sys2Proof.Machine.execTstImm c a s
  | .teqImm c a => Sys2Proof.Machine.execTeqImm c a s
  | .cmpImm c a => Sys2Proof.Machine.execCmpImm c a s
  | .cmnImm c a => Sys2Proof.Machine.execCmnImm c a s
  | .orrImm c a => Sys2Proof.Machine.execOrrImm c a s
  | .movImm c a => Sys2Proof.Machine.execMovImm c a s
  | .bicImm c a => Sys2Proof.Machine.execBicImm c a s
  | .mvnImm c a => Sys2Proof.Machine.execMvnImm c a s
  | .mul c a => Sys2Proof.Machine.execMul c a s
  | .mla c a => Sys2Proof.Machine.execMla c a s
  | .nopMultiplySpace c => Sys2Proof.Machine.execNopMultiplySpace c s
  | .nopDoubleWord c => Sys2Proof.Machine.execNopDoubleWord c s
  | .strhImm c a => Sys2Proof.Machine.execStrhImm c a s
  | .ldrhImm c a => Sys2Proof.Machine.execLdrhImm c a s
  | .ldrsbImm c a => Sys2Proof.Machine.execLdrsbImm c a s
  | .ldrshImm c a => Sys2Proof.Machine.execLdrshImm c a s
  | .strhReg c a => Sys2Proof.Machine.execStrhReg c a s
  | .ldrhReg c a => Sys2Proof.Machine.execLdrhReg c a s
  | .ldrsbReg c a => Sys2Proof.Machine.execLdrsbReg c a s
  | .ldrshReg c a => Sys2Proof.Machine.execLdrshReg c a s
  | .mrs c spsr rd => Sys2Proof.Machine.execMrs c spsr rd s
  | .bx c rm => Sys2Proof.Machine.execBx c rm s
  | .msrReg c a => Sys2Proof.Machine.execMsrReg c a s
  | .nopCompareReg c => Sys2Proof.Machine.execNopCompareReg c s
  | .andShift c a => Sys2Proof.Machine.execAndShift c a s
  | .eorShift c a => Sys2Proof.Machine.execEorShift c a s
  | .subShift c a => Sys2Proof.Machine.execSubShift c a s
  | .rsbShift c a => Sys2Proof.Machine.execRsbShift c a s
  | .addShift c a => Sys2Proof.Machine.execAddShift c a s
  | .adcShift c a => Sys2Proof.Machine.execAdcShift c a s
  | .sbcShift c a => Sys2Proof.Machine.execSbcShift c a s
  | .rscShift c a => Sys2Proof.Machine.execRscShift c a s
  | .tstShift c a => Sys2Proof.Machine.execTstShift c a s
  | .teqShift c a => Sys2Proof.Machine.execTeqShift c a s
  | .cmpShift c a => Sys2Proof.Machine.execCmpShift c a s
  | .cmnShift c a => Sys2Proof.Machine.execCmnShift c a s
  | .orrShift c a => Sys2Proof.Machine.execOrrShift c a s
  | .movShift c a => Sys2Proof.Machine.execMovShift c a s
  | .bicShift c a => Sys2Proof.Machine.execBicShift c a s
  | .mvnShift c a => Sys2Proof.Machine.execMvnShift c a s
  | .andRegShift c a => Sys2Proof.Machine.execAndRegShift c a s
  | .eorRegShift c a => Sys2Proof.Machine.execEorRegShift c a s
  | .subRegShift c a => Sys2Proof.Machine.execSubRegShift c a s
  | .rsbRegShift c a => Sys2Proof.Machine.execRsbRegShift c a s
  | .addRegShift c a => Sys2Proof.Machine.execAddRegShift c a s
  | .adcRegShift c a => Sys2Proof.Machine.execAdcRegShift c a s
  | .sbcRegShift c a => Sys2Proof.Machine.execSbcRegShift c a s
  | .rscRegShift c a => Sys2Proof.Machine.execRscRegShift c a s
  | .tstRegShift c a => Sys2Proof.Machine.execTstRegShift c a s
  | .teqRegShift c a => Sys2Proof.Machine.execTeqRegShift c a s
  | .cmpRegShift c a => Sys2Proof.Machine.execCmpRegShift c a s
  | .cmnRegShift c a => Sys2Proof.Machine.execCmnRegShift c a s
  | .orrRegShift c a => Sys2Proof.Machine.execOrrRegShift c a s
  | .movRegShift c a => Sys2Proof.Machine.execMovRegShift c a s
  | .bicRegShift c a => Sys2Proof.Machine.execBicRegShift c a s
  | .mvnRegShift c a => Sys2Proof.Machine.execMvnRegShift c a s

end Sys2Proof.Machine
end

