-- ==== Sys2Proof/Machine/Load.lean ====
section
/-! DEFINITION. Reset and the binary load contract (70_reset_and_hazards.md R180, R181). -/

namespace Sys2Proof.Machine

/-- Reset of a core with its parameters: creation, or `clear()` of both Memory Units (R180). -/
def hardReset (p : Params) : State := { State.reset with params := p }

/-- A program-header segment as the loader hands it over (R181). -/
structure Segment where
  paddr : Word
  bytes : List Byte
  size : Nat
  endian : Endian
  deriving DecidableEq, Repr

/-- An image: its segments, entry point and byte order (R181). -/
structure Image where
  segments : List Segment
  entry : Word
  endian : Endian
  deriving DecidableEq, Repr

/-- A segment's bytes, zero-filled to its declared size (R181). -/
def Segment.contents (g : Segment) : List Byte :=
  (List.range g.size).map fun k => g.bytes.getD k 0#8

/-- Every segment fits in the RAM and has the image's byte order; an image that breaks this is a load failure
(R181). R181 gives no test for fitting: the model's is `paddr + size ≤ MEM_SIZE`, by which an empty segment (declared
size 0) whose `paddr` lies above MEM_SIZE fails the load, though its loop would write no byte. R181 makes a malformed
image a failure too and does not say which images are malformed: the model counts no other image as malformed (both
DESIGN CHOICE, assumption 19). -/
def loadable (p : Params) (img : Image) : Bool :=
  img.segments.all fun g => decide (g.paddr.toNat + g.size ≤ p.memSize) && decide (g.endian = img.endian)

/-- The segments written in order. -/
def writeSegments (m : List Host.Cell) : List Segment → List Host.Cell
  | [] => m
  | g :: gs => writeSegments (writeCells m g.paddr.toNat g.contents) gs

/-- N, Z, C, V cleared and the mode set to System; I, F, T kept (R181). -/
def loadedStatus (p : Word) : Word :=
  withMode (withV (withC (withZ (withN p false) false) false) false) .system

/-- The register part of a load (R181). -/
def State.loadRegisters (s : State) (entry : Word) : State :=
  { s with
    r15 := entry + 8#32
    r13Usr := s.params.initialSp
    cpsr := loadedStatus s.cpsr
    loaded := true }

/-- `Load` (R181); a failed load changes only `loaded`. -/
def State.load (s : State) (img : Image) : State :=
  if loadable s.params img then
    { s with endian := img.endian, mem := writeSegments s.mem img.segments }.loadRegisters img.entry
  else { s with loaded := false }

end Sys2Proof.Machine
end

