-- ==== Sys2Proof/Machine/HostPort.lean ====
section
/-! DEFINITION. What the host may do between steps: the input ports, the breakpoint set and the preview
(10_state.md R32 to R38, 40_execution_cycle.md R103, R104). No step calls these. -/

namespace Sys2Proof.Machine

/-- The host raises the IRQ latch (R32). -/
def State.raiseIrq (s : State) : State := { s with pendingIrq := true }

/-- The host delivers an input character (R33). -/
def State.deliverChar (s : State) (b : Byte) : State := { s with lastChar := b }

/-- The host sets or clears `keep_running` (R34). -/
def State.setKeepRunning (s : State) (b : Bool) : State := { s with keepRunning := b }

/-- The host's answer to a line request, waiting in the port (R37; assumption 5). -/
def State.supplyLine (s : State) (line : List Byte) : State :=
  { s with inputLines := s.inputLines ++ [line] }

/-- The host switches the trace (R31). -/
def State.setTrace (s : State) (b : Bool) : State := { s with traceEnabled := b }

/-- A word put into a rising list, once. -/
def insertBreakpoint : List Word → Word → List Word
  | [], a => [a]
  | b :: bs, a =>
    if a.toNat < b.toNat then a :: b :: bs else if a = b then b :: bs else b :: insertBreakpoint bs a

/-- `add_breakpoint`, `remove_breakpoint`, `is_breakpoint` (R103). -/
def State.addBreakpoint (s : State) (a : Word) : State :=
  { s with breakpoints := insertBreakpoint s.breakpoints a }
def State.removeBreakpoint (s : State) (a : Word) : State :=
  { s with breakpoints := s.breakpoints.filter (· ≠ a) }
def State.isBreakpoint (s : State) (a : Word) : Bool := s.breakpoints.contains a

/-- The breakpoint list holds each address once, rising. -/
abbrev Breakpoints.wf (bs : List Word) : Prop := bs.Pairwise (fun x y => x.toNat < y.toNat)

/-- The preview of fetch and decode: no breakpoint test, no halt, no change (R35, R104). Out of bounds is
a host error, answered by the reason. -/
def previewFetch (s : State) (addr : Word) : Except Reason Word := memRead s addr .word
def previewDecode (w : Word) : Instr := decodeShape w

end Sys2Proof.Machine
end

