-- ==== Sys2Proof/Machine/Driver.lean ====
section
/-! DEFINITION. The CPU Driver: one step, the run loop, and how a word comes to be the next one fetched
(40_execution_cycle.md R93, R94, R102). -/

namespace Sys2Proof.Machine

/-- The end of a step: a halted or waiting step ends before the IRQ test (R93, R168, R172). -/
def endOfStep (o : Host.Outcome State Fault Refusal) : Host.Outcome State Fault Refusal :=
  match o with
  | .next t => if t.halted.isSome || t.waitingLine then .next t else .next t.takeIrq
  | .fault r => .fault r
  | .refused r => .refused r

/-- One step (R93): breakpoint, fetch, then the decoded instruction and the end of the step. The halted
mark of an earlier step does not stop it: the host ends a halt by calling `step` again (60_exceptions.md
R179). A core that waits for a line is inside a step and begins no other: it only goes on waiting, or ends
that step when the line is there (00_scope.md R11; assumption 5). -/
def driverStep (s : State) : Host.Outcome State Fault Refusal :=
  if s.waitingLine then endOfStep (resumeReadline s)
  else if s.isBreakpoint s.execAddr then .next (s.halt .breakpoint)
  else
    match memRead s s.execAddr .word with
    | .error r => .fault (r.at s.execAddr)
    | .ok raw => endOfStep (exec (decode raw) s)

/-- `run` (R102), at most `fuel` steps: `keep_running` is read once before each step, and not inside the one
that waits for a line, which no flag ends (00_scope.md R11). -/
def run : Nat → State → Host.Outcome State Fault Refusal
  | 0, s => .next s
  | fuel + 1, s =>
    if s.waitingLine || s.keepRunning then
      match driverStep s with
      | .next t => if t.halted.isSome then .next t else run fuel t
      | .fault r => .fault r
      | .refused r => .refused r
    else .next (s.halt .stopped)

/-- Where a word is placed to be fetched next: at F when a fetch there can give it, else at 0x1000
(assumption 4). -/
def fetchSlot (s : State) : Word :=
  if s.inRam s.execAddr .word ∧ aligned s.execAddr .word then s.execAddr else 0x1000#32

/-- The state whose next fetch reads the word `w` (assumption 4). Where F can be fetched from, only the
four bytes there and a breakpoint on them change. Elsewhere r15 moves to the slot, and on a core that was
never loaded the register part of the load contract is done (R181). A wait for a line is given up, so that the
next step fetches. -/
def placeFetchWord (s : State) (nbits w : Nat) : State :=
  let slot := fetchSlot s
  let t :=
    if slot = s.execAddr then s
    else if s.loaded then { s with r15 := slot + 8#32 }
    else s.loadRegisters slot
  { t.removeBreakpoint slot with
    waitingLine := false
    mem := writeCells t.mem slot.toNat (bytesOfWord t.endian (BitVec.ofNat 32 (w % 2 ^ nbits))) }

end Sys2Proof.Machine
end

