-- ==== Sys2Proof/Machine/Step.lean ====
section
/-! DEFINITION. The machine's step (40_execution_cycle.md R93) and the state whose next step runs a given
word. -/

namespace Sys2Proof.Machine

/-- One step of the core (R93). -/
def step (s : State) : Host.Outcome State Fault Refusal := driverStep s

/-- `s` with the word `w` where `step` fetches next (assumption 4). -/
def State.withFetchWord (s : State) (nbits w : Nat) : State := placeFetchWord s nbits w

end Sys2Proof.Machine
end

