-- ==== Sys2Proof/Safety.lean ====
section
/-! DEFINITION. What claims call a well-formed state and a safe step. -/

namespace Sys2Proof.Machine

/-- The reserved bits 27:8 of a status word (10_state.md R22, R28). -/
def psrReserved (p : Word) : BitVec 20 := p.extractLsb' 8 20

/-- The state's invariant: it holds at reset and every step keeps it. A core that was never loaded has an
invalid mode code (R25), so the mode clause is about a loaded one. -/
structure State.Inv (s : State) : Prop where
  /-- The OPEN parameters are as R4, R41 and R160 say. -/
  params : ParamsWf s.params
  /-- The RAM's list is in canonical form. -/
  memory : Memory.wf s.mem
  /-- Every listed byte lies in the RAM (R41). -/
  ram : ∀ c ∈ s.mem, c.1 < s.params.memSize
  /-- The mode code is one of R23's seven (R25). -/
  mode : s.loaded = true → (psrModeOf s.cpsr).isSome = true
  /-- Bits 27:8 read 0 in the CPSR and both SPSRs (R28). -/
  cpsrReserved : psrReserved s.cpsr = 0#20
  spsrSvcReserved : psrReserved s.spsrSvc = 0#20
  spsrIrqReserved : psrReserved s.spsrIrq = 0#20
  /-- The breakpoint list is a set in rising order. -/
  breakpoints : Breakpoints.wf s.breakpoints
  /-- A core is not halted and waiting at once (R10, R11). -/
  oneMark : s.halted = none ∨ s.waitingLine = false

/-- The core is running: neither halted nor waiting for a line. -/
def State.running (s : State) : Bool := s.halted.isNone && !s.waitingLine

/-- A step that neither faults nor is refused. -/
def stepsSafely (s : State) : Prop := ∃ t, step s = .next t

/-- The bytes of RAM outside a range read the same in two states. -/
def sameBytesOutside (s t : State) (lo n : Nat) : Prop :=
  ∀ a, (a < lo ∨ lo + n ≤ a) → t.byteAt a = s.byteAt a

/-- Every byte of RAM reads the same in two states. -/
def sameBytes (s t : State) : Prop := ∀ a, t.byteAt a = s.byteAt a

end Sys2Proof.Machine
end

