-- ==== Sys2Proof/Certificates/Slice0/Obligations.lean ====
section
/-! DEFINITION. What the model claims: one definition per obligation, after the vocabulary they share. -/

namespace Sys2Proof.Machine

/-! ## Registers as an instruction names them -/

/-- The mode has r13 and r14: every mode but FIQ, Abort and Undefined (10_state.md R15). -/
def banked (s : State) : Prop :=
  psrModeOf s.cpsr = some .user ∨ psrModeOf s.cpsr = some .system ∨
    psrModeOf s.cpsr = some .supervisor ∨ psrModeOf s.cpsr = some .irq

/-- Register `i` can be named in the mode (10_state.md R13, R15). -/
def accessible (s : State) (i : Reg) : Prop := (i ≠ 13 ∧ i ≠ 14) ∨ banked s

/-- The word an accessible register holds. -/
def reg (s : State) (i : Reg) : Word :=
  match readReg s i with
  | .ok v => v
  | .error _ => 0#32

/-- After an instruction that wrote `v` to register `i`: r15 is then 8 ahead of `v` (40_execution_cycle.md
R95, R101). -/
def written (t : State) (i : Reg) (v : Word) : Prop :=
  if i = 15 then t.r15 = v + 8#32 else readReg t i = .ok v

/-- Every physical register but r15 is unchanged, except those the listed indices name in the mode. -/
def registersBut (s t : State) (ws : List Reg) : Prop :=
  ∀ sl, sl ≠ .r15 → (∀ i ∈ ws, slot i (psrMode s.cpsr) ≠ .ok sl) → t.getSlot sl = s.getSlot sl

/-- r15 after an instruction that wrote none of its registers 15 (40_execution_cycle.md R95): F + 12. -/
def nextInstruction (s t : State) : Prop := t.r15 = s.execAddr + 12#32

/-! ## The rest of the state -/

/-- What only the host, the loader and an exception write, and the marks of a running core: an instruction that
runs clears what an earlier halt or wait left there (log entry 8). -/
structure RestKept (s t : State) : Prop where
  params : t.params = s.params
  endian : t.endian = s.endian
  pendingIrq : t.pendingIrq = s.pendingIrq
  lastChar : t.lastChar = s.lastChar
  breakpoints : t.breakpoints = s.breakpoints
  loaded : t.loaded = s.loaded
  keepRunning : t.keepRunning = s.keepRunning
  traceEnabled : t.traceEnabled = s.traceEnabled
  inputLines : t.inputLines = s.inputLines
  running : t.running = true

/-- Both SPSRs are unchanged. -/
def spsrsKept (s t : State) : Prop := t.spsrSvc = s.spsrSvc ∧ t.spsrIrq = s.spsrIrq

/-- No byte of RAM changed and nothing was output. -/
def nothingStored (s t : State) : Prop := sameBytes s t ∧ t.output = s.output

/-- The state an instruction leaves when it writes nothing but r15: the rest is `s`, running (log entry 8), and
the trace, which no rule reads. -/
def onlyR15 (s t : State) (r15 : Word) : Prop :=
  t = { s with r15 := r15, halted := none, waitingLine := false, trace := t.trace, traceCount := t.traceCount }

/-! ## Data processing -/

/-- `MOVS pc` in a mode with an SPSR, the one form that restores the CPSR (41_data_processing.md R114). -/
def restores (s : State) (op : DpOp) (sbit : Bool) (rd : Reg) : Prop :=
  op = .mov ∧ sbit = true ∧ rd = 15 ∧ s.currentSpsr.isSome = true

/-- What a data-processing instruction with first operand `a`, operand 2 `b` and shifter carry `sc` leaves
(41_data_processing.md R111, R112, R113, R115). -/
def dpOutcome (op : DpOp) (sbit : Bool) (rd : Reg) (a b : Word) (sc : Bool) (s t : State) : Prop :=
  (opWritesRd op = true → written t rd (alu op a b sc (psrC s.cpsr)).value) ∧
  (opWritesRd op = false ∨ rd ≠ 15 → nextInstruction s t) ∧
  t.cpsr = (if sbit then flagsOf s.cpsr (alu op a b sc (psrC s.cpsr)) else s.cpsr) ∧
  registersBut s t (if opWritesRd op then [rd] else []) ∧ spsrsKept s t ∧ nothingStored s t ∧ RestKept s t

/-- What `MOVS pc` with result `v` and shifter carry `sc` does (41_data_processing.md R114). -/
def movsPcOutcome (i : Instr) (s : State) (v : Word) (sc : Bool) : Prop :=
  (∀ saved, s.currentSpsr = some saved → (psrModeOf saved).isSome = true →
    ∃ t, exec i s = .next t ∧ t.r15 = v + 8#32 ∧ t.cpsr = saved ∧ registersBut s t [] ∧ spsrsKept s t ∧
      nothingStored s t ∧ RestKept s t) ∧
  (∀ saved, s.currentSpsr = some saved → psrModeOf saved = none →
    exec i s = .fault (.invalidMode s.execAddr)) ∧
  (s.currentSpsr = none →
    ∃ t, exec i s = .next t ∧ t.r15 = v + 8#32 ∧ t.cpsr = flagsOf s.cpsr ⟨v, sc, none⟩ ∧
      registersBut s t [] ∧ spsrsKept s t ∧ nothingStored s t ∧ RestKept s t)

/-! ## Transfers -/

/-- A single or half-word transfer as data (43_load_store.md R135, 44_halfword_load_store.md R142). -/
structure Transfer where
  load : Bool
  n : Width
  x : Extend
  ix : Indexing
  rn : Reg
  rd : Reg
  o : Offset
  deriving DecidableEq, Repr

/-- The single-register transfers (30_encoding.md R69, R70, R82): LDR, STR, LDRB and STRB. -/
def Instr.single? : Instr → Option (Cond × Transfer)
  | .strImm c a => some (c, ⟨false, .word, .zero, ⟨a.p, a.u, a.w⟩, a.rn, a.rd, .imm (a.offset12.setWidth 32)⟩)
  | .ldrImm c a => some (c, ⟨true, .word, .zero, ⟨a.p, a.u, a.w⟩, a.rn, a.rd, .imm (a.offset12.setWidth 32)⟩)
  | .strbImm c a => some (c, ⟨false, .byte, .zero, ⟨a.p, a.u, a.w⟩, a.rn, a.rd, .imm (a.offset12.setWidth 32)⟩)
  | .ldrbImm c a => some (c, ⟨true, .byte, .zero, ⟨a.p, a.u, a.w⟩, a.rn, a.rd, .imm (a.offset12.setWidth 32)⟩)
  | .strReg c a => some (c, ⟨false, .word, .zero, ⟨a.p, a.u, a.w⟩, a.rn, a.rd, .reg a.rm⟩)
  | .ldrReg c a => some (c, ⟨true, .word, .zero, ⟨a.p, a.u, a.w⟩, a.rn, a.rd, .reg a.rm⟩)
  | .strbReg c a => some (c, ⟨false, .byte, .zero, ⟨a.p, a.u, a.w⟩, a.rn, a.rd, .reg a.rm⟩)
  | .ldrbReg c a => some (c, ⟨true, .byte, .zero, ⟨a.p, a.u, a.w⟩, a.rn, a.rd, .reg a.rm⟩)
  | .strScaled c a =>
    some (c, ⟨false, .word, .zero, ⟨a.p, a.u, a.w⟩, a.rn, a.rd, .scaled a.rm a.sh a.shiftImm⟩)
  | .ldrScaled c a =>
    some (c, ⟨true, .word, .zero, ⟨a.p, a.u, a.w⟩, a.rn, a.rd, .scaled a.rm a.sh a.shiftImm⟩)
  | .strbScaled c a =>
    some (c, ⟨false, .byte, .zero, ⟨a.p, a.u, a.w⟩, a.rn, a.rd, .scaled a.rm a.sh a.shiftImm⟩)
  | .ldrbScaled c a =>
    some (c, ⟨true, .byte, .zero, ⟨a.p, a.u, a.w⟩, a.rn, a.rd, .scaled a.rm a.sh a.shiftImm⟩)
  | _ => none

/-- The half-word and signed transfers (30_encoding.md R71, R72, R82): LDRH, STRH, LDRSB and LDRSH. -/
def Instr.half? : Instr → Option (Cond × Transfer)
  | .strhImm c a => some (c, ⟨false, .half, .zero, ⟨a.p, a.u, a.w⟩, a.rn, a.rd, .imm ((a.immH ++ a.immL).setWidth 32)⟩)
  | .ldrhImm c a => some (c, ⟨true, .half, .zero, ⟨a.p, a.u, a.w⟩, a.rn, a.rd, .imm ((a.immH ++ a.immL).setWidth 32)⟩)
  | .ldrsbImm c a => some (c, ⟨true, .byte, .sign, ⟨a.p, a.u, a.w⟩, a.rn, a.rd, .imm ((a.immH ++ a.immL).setWidth 32)⟩)
  | .ldrshImm c a => some (c, ⟨true, .half, .sign, ⟨a.p, a.u, a.w⟩, a.rn, a.rd, .imm ((a.immH ++ a.immL).setWidth 32)⟩)
  | .strhReg c a => some (c, ⟨false, .half, .zero, ⟨a.p, a.u, a.w⟩, a.rn, a.rd, .reg a.rm⟩)
  | .ldrhReg c a => some (c, ⟨true, .half, .zero, ⟨a.p, a.u, a.w⟩, a.rn, a.rd, .reg a.rm⟩)
  | .ldrsbReg c a => some (c, ⟨true, .byte, .sign, ⟨a.p, a.u, a.w⟩, a.rn, a.rd, .reg a.rm⟩)
  | .ldrshReg c a => some (c, ⟨true, .half, .sign, ⟨a.p, a.u, a.w⟩, a.rn, a.rd, .reg a.rm⟩)
  | _ => none

/-- The offset's register, if it has one, can be named in the mode. -/
def offsetAccessible (s : State) : Offset → Prop
  | .imm _ => True
  | .reg rm => accessible s rm
  | .scaled rm _ _ => accessible s rm

/-- The offset's value; the shifter's carry-out is discarded (43_load_store.md R135). -/
def offsetWord (s : State) : Offset → Word
  | .imm v => v
  | .reg rm => reg s rm
  | .scaled rm sh n => (shiftImm (reg s rm) sh n (psrC s.cpsr)).1

/-- A transfer whose registers can all be named in the mode. -/
def Transfer.accessible (x : Transfer) (s : State) : Prop :=
  Machine.accessible s x.rn ∧ Machine.accessible s x.rd ∧ offsetAccessible s x.o

/-- The effective address, the writeback value and whether it is written (43_load_store.md R135). -/
def Transfer.address (x : Transfer) (s : State) : Address := addressOf x.ix (reg s x.rn) (offsetWord s x.o)

/-- What an aligned read of a width gives, and 0 for a misaligned one (20_memory.md R44, R45). -/
def ramWord (s : State) (addr : Word) (n : Width) : Word :=
  if addr.toNat % n.bytes = 0 then assemble s.endian n fun k => s.byteAt (addr.toNat + k) else 0#32

/-- The value a half-word load gives Rd: zero- or sign-extended from its width (R143, R145, R146). -/
def extended (x : Extend) (n : Width) (v : Word) : Word :=
  match x with
  | .zero => v
  | .sign => BitVec.ofInt 32 (Int.bmod v.toNat (2 ^ (8 * n.bytes)))

/-- What a load that gave Rd the value `v` leaves (43_load_store.md R136): Rd wins over the writeback. -/
def loadOutcome (x : Transfer) (v : Word) (s t : State) : Prop :=
  let ad := x.address s
  written t x.rd v ∧
  (ad.wb = true → x.rn ≠ x.rd → written t x.rn ad.offaddr) ∧
  (x.rd ≠ 15 → ¬ (ad.wb = true ∧ x.rn = 15) → nextInstruction s t) ∧
  registersBut s t (if ad.wb then [x.rd, x.rn] else [x.rd]) ∧
  t.cpsr = s.cpsr ∧ spsrsKept s t ∧ nothingStored s t ∧ RestKept s t

/-- What a store leaves beside memory: the writeback (43_load_store.md R136). -/
def storeOutcome (x : Transfer) (s t : State) : Prop :=
  let ad := x.address s
  (ad.wb = true → written t x.rn ad.offaddr) ∧
  (¬ (ad.wb = true ∧ x.rn = 15) → nextInstruction s t) ∧
  registersBut s t (if ad.wb then [x.rn] else []) ∧
  t.cpsr = s.cpsr ∧ spsrsKept s t ∧ RestKept s t

/-- The bytes of RAM after a store of the low bytes of `v` at `addr`: dropped when misaligned (20_memory.md
R44, R46, R49). -/
def storedAt (s t : State) (addr : Word) (n : Width) (v : Word) : Prop :=
  ∀ a, t.byteAt a =
    if addr.toNat % n.bytes = 0 ∧ addr.toNat ≤ a ∧ a < addr.toNat + n.bytes then
      splitByte s.endian n v (a - addr.toNat)
    else s.byteAt a

/-! ## Block transfers -/

/-- Register `i` is in the list. -/
def listed (list : BitVec 16) (i : Reg) : Prop := list.getLsbD i.val = true

/-- How many listed registers are below `i`: its place in memory (45_block_transfer.md R148). -/
def rank (list : BitVec 16) (i : Nat) : Nat := ((List.range i).filter fun k => list.getLsbD k).length

/-- The first address and the writeback value by the four policies, n the number of listed registers
(45_block_transfer.md R148). -/
def blockStart (a : BlockArgs) (s : State) : Word :=
  let base := reg s a.rn
  let size := BitVec.ofNat 32 (4 * rank a.list 16)
  if a.u then (if a.p then base + 4#32 else base)
  else (if a.p then base - size else base - size + 4#32)

def blockWbval (a : BlockArgs) (s : State) : Word :=
  let size := BitVec.ofNat 32 (4 * rank a.list 16)
  if a.u then reg s a.rn + size else reg s a.rn - size

/-- The address of the word of the `k`-th listed register. -/
def blockWord (a : BlockArgs) (s : State) (k : Nat) : Word := blockStart a s + BitVec.ofNat 32 (4 * k)

/-- A block transfer whose registers can all be named in the mode. -/
def blockAccessible (a : BlockArgs) (s : State) : Prop :=
  accessible s a.rn ∧ ∀ i, listed a.list i → accessible s i

/-! ## Status -/

/-- What MSR to the CPSR may write in the mode (47_status_register.md R157). -/
def msrBits (fm : BitVec 4) (s : State) : Word :=
  lanes fm &&& (if psrModeOf s.cpsr = some .user then 0xF0000000#32 else 0xF00000DF#32)

/-- An MSR instruction that writes `v` under the field mask `fm` to the CPSR or, with `spsr`, to the SPSR. -/
def isMsr (spsr : Bool) (i : Instr) (c : Cond) (fm : BitVec 4) (v : Word) (s : State) : Prop :=
  (∃ rm, i = .msrReg c ⟨spsr, fm, rm⟩ ∧ accessible s rm ∧ v = reg s rm) ∨
    ∃ rot imm8, i = .msrImm c ⟨spsr, fm, rot, imm8⟩ ∧ v = rotatedImm rot imm8

/-- `new` is `old` with the selected and permitted bits taken from `v`. -/
def mergedBits (old v new : Word) (fm : BitVec 4) (permitted : Nat → Prop) : Prop :=
  ∀ k, k < 32 →
    (fm.getLsbD (k / 8) = true ∧ permitted k → new.getLsbD k = v.getLsbD k) ∧
    (¬ (fm.getLsbD (k / 8) = true ∧ permitted k) → new.getLsbD k = old.getLsbD k)

/-- The status word an exception entry leaves: the mode switched, T cleared, I set, the rest kept
(60_exceptions.md R165, R169). -/
def enteredStatus (old new : Word) (m : Mode) : Prop :=
  psrMode new = m.toBits ∧ psrT new = false ∧ psrI new = true ∧
    ∀ k, 5 < k → k ≠ 7 → new.getLsbD k = old.getLsbD k

/-- What the SWI entry leaves (60_exceptions.md R165), beside what the service then does to memory, the output
and the line queue. -/
def swiEntered (s t : State) : Prop :=
  t.r14Svc = s.execAddr + 4#32 ∧ t.spsrSvc = s.cpsr ∧ enteredStatus s.cpsr t.cpsr .supervisor ∧
  t.r15 = 0x08#32 + 8#32 ∧
  (∀ sl, sl ≠ .r15 → sl ≠ .r14Svc → t.getSlot sl = s.getSlot sl) ∧ t.spsrIrq = s.spsrIrq ∧
  t.params = s.params ∧ t.endian = s.endian ∧ t.pendingIrq = s.pendingIrq ∧ t.lastChar = s.lastChar ∧
  t.breakpoints = s.breakpoints ∧ t.loaded = s.loaded ∧ t.keepRunning = s.keepRunning ∧
  t.traceEnabled = s.traceEnabled

/-! ## What each instruction may write -/

/-- The base register when it is written back: post-indexed, or W = 1 (43_load_store.md R135). -/
def basesOf (p w : Bool) (rn : Reg) : List Reg := if !p || w then [rn] else []

/-- The registers an instruction's rule names as written: its destination, the base of a writeback, the link
register. -/
def destRegs : Instr → List Reg
  | .andImm _ a | .eorImm _ a | .subImm _ a | .rsbImm _ a | .addImm _ a | .adcImm _ a | .sbcImm _ a
  | .rscImm _ a | .orrImm _ a | .movImm _ a | .bicImm _ a | .mvnImm _ a => [a.rd]
  | .andShift _ a | .eorShift _ a | .subShift _ a | .rsbShift _ a | .addShift _ a | .adcShift _ a
  | .sbcShift _ a | .rscShift _ a | .orrShift _ a | .movShift _ a | .bicShift _ a | .mvnShift _ a => [a.rd]
  | .andRegShift _ a | .eorRegShift _ a | .subRegShift _ a | .rsbRegShift _ a | .addRegShift _ a
  | .adcRegShift _ a | .sbcRegShift _ a | .rscRegShift _ a | .orrRegShift _ a | .movRegShift _ a
  | .bicRegShift _ a | .mvnRegShift _ a => [a.rd]
  | .tstImm _ _ | .teqImm _ _ | .cmpImm _ _ | .cmnImm _ _ | .tstShift _ _ | .teqShift _ _
  | .cmpShift _ _ | .cmnShift _ _ | .tstRegShift _ _ | .teqRegShift _ _ | .cmpRegShift _ _
  | .cmnRegShift _ _ => []
  | .mul _ a | .mla _ a => [a.rd]
  | .ldrImm _ a | .ldrbImm _ a => a.rd :: basesOf a.p a.w a.rn
  | .ldrReg _ a | .ldrbReg _ a => a.rd :: basesOf a.p a.w a.rn
  | .ldrScaled _ a | .ldrbScaled _ a => a.rd :: basesOf a.p a.w a.rn
  | .ldrhImm _ a | .ldrsbImm _ a | .ldrshImm _ a => a.rd :: basesOf a.p a.w a.rn
  | .ldrhReg _ a | .ldrsbReg _ a | .ldrshReg _ a => a.rd :: basesOf a.p a.w a.rn
  | .strImm _ a | .strbImm _ a => basesOf a.p a.w a.rn
  | .strReg _ a | .strbReg _ a => basesOf a.p a.w a.rn
  | .strScaled _ a | .strbScaled _ a => basesOf a.p a.w a.rn
  | .strhImm _ a => basesOf a.p a.w a.rn
  | .strhReg _ a => basesOf a.p a.w a.rn
  | .ldm _ a => if a.w then a.rn :: listedRegs a.list else listedRegs a.list
  | .stm _ a => if a.w then [a.rn] else []
  | .bl _ _ => [14]
  | .mrs _ _ rd => [rd]
  | .zeroWord | .swi _ _ | .b _ _ | .bx _ _ | .msrReg _ _ | .msrImm _ _ | .nopCoprocessor _
  | .nopUndefined _ | .nopCompareImm _ | .nopMultiplySpace _ | .nopDoubleWord _ | .nopCompareReg _ => []

/-- The registers an instruction reads or writes by name; MRS of an SPSR is left to its own rule (R156). -/
def namedRegs : Instr → List Reg
  | .andImm _ a | .eorImm _ a | .subImm _ a | .rsbImm _ a | .addImm _ a | .adcImm _ a | .sbcImm _ a
  | .rscImm _ a | .orrImm _ a | .bicImm _ a => [a.rn, a.rd]
  | .tstImm _ a | .teqImm _ a | .cmpImm _ a | .cmnImm _ a => [a.rn]
  | .movImm _ a | .mvnImm _ a => [a.rd]
  | .andShift _ a | .eorShift _ a | .subShift _ a | .rsbShift _ a | .addShift _ a | .adcShift _ a
  | .sbcShift _ a | .rscShift _ a | .orrShift _ a | .bicShift _ a => [a.rm, a.rn, a.rd]
  | .tstShift _ a | .teqShift _ a | .cmpShift _ a | .cmnShift _ a => [a.rm, a.rn]
  | .movShift _ a | .mvnShift _ a => [a.rm, a.rd]
  | .andRegShift _ a | .eorRegShift _ a | .subRegShift _ a | .rsbRegShift _ a | .addRegShift _ a
  | .adcRegShift _ a | .sbcRegShift _ a | .rscRegShift _ a | .orrRegShift _ a | .bicRegShift _ a =>
    [a.rm, a.rs, a.rn, a.rd]
  | .tstRegShift _ a | .teqRegShift _ a | .cmpRegShift _ a | .cmnRegShift _ a => [a.rm, a.rs, a.rn]
  | .movRegShift _ a | .mvnRegShift _ a => [a.rm, a.rs, a.rd]
  | .mul _ a => [a.rm, a.rs, a.rd]
  | .mla _ a => [a.rm, a.rs, a.rn, a.rd]
  | .ldrImm _ a | .ldrbImm _ a | .strImm _ a | .strbImm _ a => [a.rn, a.rd]
  | .ldrReg _ a | .ldrbReg _ a | .strReg _ a | .strbReg _ a => [a.rn, a.rm, a.rd]
  | .ldrScaled _ a | .ldrbScaled _ a | .strScaled _ a | .strbScaled _ a => [a.rn, a.rm, a.rd]
  | .ldrhImm _ a | .ldrsbImm _ a | .ldrshImm _ a | .strhImm _ a => [a.rn, a.rd]
  | .ldrhReg _ a | .ldrsbReg _ a | .ldrshReg _ a | .strhReg _ a => [a.rn, a.rm, a.rd]
  | .ldm _ a | .stm _ a => a.rn :: listedRegs a.list
  | .bl _ _ => [14]
  | .bx _ rm => [rm]
  | .mrs _ spsr rd => if spsr then [] else [rd]
  | .msrReg _ a => [a.rm]
  | .zeroWord | .swi _ _ | .b _ _ | .msrImm _ _ | .nopCoprocessor _ | .nopUndefined _ | .nopCompareImm _
  | .nopMultiplySpace _ | .nopDoubleWord _ | .nopCompareReg _ => []

/-- The instructions that access the RAM before they reach all of their registers (43_load_store.md R136,
45_block_transfer.md R150, R151). -/
def accessesFirst : Instr → Bool
  | .ldrImm _ _ | .ldrbImm _ _ | .ldrReg _ _ | .ldrbReg _ _ | .ldrScaled _ _ | .ldrbScaled _ _
  | .ldrhImm _ _ | .ldrsbImm _ _ | .ldrshImm _ _ | .ldrhReg _ _ | .ldrsbReg _ _ | .ldrshReg _ _
  | .ldm _ _ | .stm _ _ => true
  | _ => false

/-- A mask that counts only when S = 1. -/
def whenS (sbit : Bool) (mask : Word) : Word := if sbit then mask else 0#32

/-- The CPSR bits an instruction's rule names as written, in the state it starts from: N, Z, C for the logical
opcodes (R112), V as well for the arithmetic ones (R113), everything for MOVS pc with an SPSR (R114), N and Z
for a multiply (R132), T for BX (R154), the permitted lanes for MSR (R157), M, T and I for SWI (R165). -/
def statusBits (i : Instr) (s : State) : Word :=
  match i with
  | .andImm _ a | .eorImm _ a | .tstImm _ a | .teqImm _ a | .orrImm _ a | .bicImm _ a | .mvnImm _ a => whenS a.s 0xE0000000#32
  | .subImm _ a | .rsbImm _ a | .addImm _ a | .adcImm _ a | .sbcImm _ a | .rscImm _ a | .cmpImm _ a
  | .cmnImm _ a => whenS a.s 0xF0000000#32
  | .movImm _ a => whenS a.s (if a.rd = 15 ∧ s.currentSpsr.isSome then 0xFFFFFFFF#32 else 0xE0000000#32)
  | .andShift _ a | .eorShift _ a | .tstShift _ a | .teqShift _ a | .orrShift _ a | .bicShift _ a
  | .mvnShift _ a => whenS a.s 0xE0000000#32
  | .subShift _ a | .rsbShift _ a | .addShift _ a | .adcShift _ a | .sbcShift _ a | .rscShift _ a
  | .cmpShift _ a | .cmnShift _ a => whenS a.s 0xF0000000#32
  | .movShift _ a => whenS a.s (if a.rd = 15 ∧ s.currentSpsr.isSome then 0xFFFFFFFF#32 else 0xE0000000#32)
  | .andRegShift _ a | .eorRegShift _ a | .tstRegShift _ a | .teqRegShift _ a | .orrRegShift _ a
  | .bicRegShift _ a | .mvnRegShift _ a => whenS a.s 0xE0000000#32
  | .subRegShift _ a | .rsbRegShift _ a | .addRegShift _ a | .adcRegShift _ a | .sbcRegShift _ a
  | .rscRegShift _ a | .cmpRegShift _ a | .cmnRegShift _ a => whenS a.s 0xF0000000#32
  | .movRegShift _ a => whenS a.s (if a.rd = 15 ∧ s.currentSpsr.isSome then 0xFFFFFFFF#32 else 0xE0000000#32)
  | .mul _ a | .mla _ a => whenS a.s 0xC0000000#32
  | .bx _ _ => 0x00000020#32
  | .msrReg _ a => if a.spsr then 0#32 else msrBits a.mask s
  | .msrImm _ a => if a.spsr then 0#32 else msrBits a.mask s
  | .swi _ _ => 0x000000BF#32
  | .zeroWord | .b _ _ | .bl _ _ | .stm _ _ | .ldm _ _ | .nopCoprocessor _ | .nopUndefined _
  | .strImm _ _ | .ldrImm _ _ | .strbImm _ _ | .ldrbImm _ _ | .strReg _ _ | .ldrReg _ _
  | .strbReg _ _ | .ldrbReg _ _ | .strScaled _ _ | .ldrScaled _ _ | .strbScaled _ _
  | .ldrbScaled _ _ | .nopCompareImm _ | .nopMultiplySpace _ | .nopDoubleWord _ | .strhImm _ _
  | .ldrhImm _ _ | .ldrsbImm _ _ | .ldrshImm _ _ | .strhReg _ _ | .ldrhReg _ _ | .ldrsbReg _ _
  | .ldrshReg _ _ | .mrs _ _ _ | .nopCompareReg _ => 0#32

/-- The no-op rows (30_encoding.md R88) and the SWI numbers that do nothing (48_software_interrupt.md R160). -/
def doesNothing (i : Instr) (s : State) : Prop :=
  (∃ c, i = .nopCoprocessor c ∨ i = .nopUndefined c ∨ i = .nopCompareImm c ∨ i = .nopMultiplySpace c ∨
    i = .nopDoubleWord c ∨ i = .nopCompareReg c) ∨
  ∃ c n, i = .swi c n ∧ n ≠ 0x11#24 ∧ n ≠ s.params.swiPutc ∧ n ≠ s.params.swiReadline

/-- The words of RAM an STM stores to hold address `a`. -/
def inStm (x : BlockArgs) (s : State) (a : Nat) : Prop :=
  ∃ k, k < rank x.list 16 ∧ (blockWord x s k).toNat ≤ a ∧ a < (blockWord x s k).toNat + 4

/-! ## The table -/

/-- The row of opcode_table.json an instruction belongs to: its mask and its match (R90). -/
def tableRow : Instr → Word × Word
  | .zeroWord => (0xFFFFFFFF#32, 0x00000000#32)
  | .swi _ _ => (0x0F000000#32, 0x0F000000#32)
  | .b _ _ => (0x0F000000#32, 0x0A000000#32)
  | .bl _ _ => (0x0F000000#32, 0x0B000000#32)
  | .stm _ _ => (0x0E100000#32, 0x08000000#32)
  | .ldm _ _ => (0x0E100000#32, 0x08100000#32)
  | .nopCoprocessor _ => (0x0C000000#32, 0x0C000000#32)
  | .nopUndefined _ => (0x0E000010#32, 0x06000010#32)
  | .strImm _ _ => (0x0E500000#32, 0x04000000#32)
  | .ldrImm _ _ => (0x0E500000#32, 0x04100000#32)
  | .strbImm _ _ => (0x0E500000#32, 0x04400000#32)
  | .ldrbImm _ _ => (0x0E500000#32, 0x04500000#32)
  | .strReg _ _ => (0x0E500FF0#32, 0x06000000#32)
  | .ldrReg _ _ => (0x0E500FF0#32, 0x06100000#32)
  | .strbReg _ _ => (0x0E500FF0#32, 0x06400000#32)
  | .ldrbReg _ _ => (0x0E500FF0#32, 0x06500000#32)
  | .strScaled _ _ => (0x0E500010#32, 0x06000000#32)
  | .ldrScaled _ _ => (0x0E500010#32, 0x06100000#32)
  | .strbScaled _ _ => (0x0E500010#32, 0x06400000#32)
  | .ldrbScaled _ _ => (0x0E500010#32, 0x06500000#32)
  | .msrImm _ _ => (0x0FB0F000#32, 0x0320F000#32)
  | .nopCompareImm _ => (0x0F900000#32, 0x03000000#32)
  | .andImm _ _ => (0x0FE00000#32, 0x02000000#32)
  | .eorImm _ _ => (0x0FE00000#32, 0x02200000#32)
  | .subImm _ _ => (0x0FE00000#32, 0x02400000#32)
  | .rsbImm _ _ => (0x0FE00000#32, 0x02600000#32)
  | .addImm _ _ => (0x0FE00000#32, 0x02800000#32)
  | .adcImm _ _ => (0x0FE00000#32, 0x02A00000#32)
  | .sbcImm _ _ => (0x0FE00000#32, 0x02C00000#32)
  | .rscImm _ _ => (0x0FE00000#32, 0x02E00000#32)
  | .tstImm _ _ => (0x0FF00000#32, 0x03100000#32)
  | .teqImm _ _ => (0x0FF00000#32, 0x03300000#32)
  | .cmpImm _ _ => (0x0FF00000#32, 0x03500000#32)
  | .cmnImm _ _ => (0x0FF00000#32, 0x03700000#32)
  | .orrImm _ _ => (0x0FE00000#32, 0x03800000#32)
  | .movImm _ _ => (0x0FE00000#32, 0x03A00000#32)
  | .bicImm _ _ => (0x0FE00000#32, 0x03C00000#32)
  | .mvnImm _ _ => (0x0FE00000#32, 0x03E00000#32)
  | .mul _ _ => (0x0FE000F0#32, 0x00000090#32)
  | .mla _ _ => (0x0FE000F0#32, 0x00200090#32)
  | .nopMultiplySpace _ => (0x0E0000F0#32, 0x00000090#32)
  | .nopDoubleWord _ => (0x0E1000D0#32, 0x000000D0#32)
  | .strhImm _ _ => (0x0E5000F0#32, 0x004000B0#32)
  | .ldrhImm _ _ => (0x0E5000F0#32, 0x005000B0#32)
  | .ldrsbImm _ _ => (0x0E5000F0#32, 0x005000D0#32)
  | .ldrshImm _ _ => (0x0E5000F0#32, 0x005000F0#32)
  | .strhReg _ _ => (0x0E5000F0#32, 0x000000B0#32)
  | .ldrhReg _ _ => (0x0E5000F0#32, 0x001000B0#32)
  | .ldrsbReg _ _ => (0x0E5000F0#32, 0x001000D0#32)
  | .ldrshReg _ _ => (0x0E5000F0#32, 0x001000F0#32)
  | .mrs _ _ _ => (0x0FBF0FFF#32, 0x010F0000#32)
  | .bx _ _ => (0x0FFFFFF0#32, 0x012FFF10#32)
  | .msrReg _ _ => (0x0FB0FFF0#32, 0x0120F000#32)
  | .nopCompareReg _ => (0x0F900000#32, 0x01000000#32)
  | .andShift _ _ => (0x0FE00010#32, 0x00000000#32)
  | .eorShift _ _ => (0x0FE00010#32, 0x00200000#32)
  | .subShift _ _ => (0x0FE00010#32, 0x00400000#32)
  | .rsbShift _ _ => (0x0FE00010#32, 0x00600000#32)
  | .addShift _ _ => (0x0FE00010#32, 0x00800000#32)
  | .adcShift _ _ => (0x0FE00010#32, 0x00A00000#32)
  | .sbcShift _ _ => (0x0FE00010#32, 0x00C00000#32)
  | .rscShift _ _ => (0x0FE00010#32, 0x00E00000#32)
  | .tstShift _ _ => (0x0FF00010#32, 0x01100000#32)
  | .teqShift _ _ => (0x0FF00010#32, 0x01300000#32)
  | .cmpShift _ _ => (0x0FF00010#32, 0x01500000#32)
  | .cmnShift _ _ => (0x0FF00010#32, 0x01700000#32)
  | .orrShift _ _ => (0x0FE00010#32, 0x01800000#32)
  | .movShift _ _ => (0x0FE00010#32, 0x01A00000#32)
  | .bicShift _ _ => (0x0FE00010#32, 0x01C00000#32)
  | .mvnShift _ _ => (0x0FE00010#32, 0x01E00000#32)
  | .andRegShift _ _ => (0x0FE00090#32, 0x00000010#32)
  | .eorRegShift _ _ => (0x0FE00090#32, 0x00200010#32)
  | .subRegShift _ _ => (0x0FE00090#32, 0x00400010#32)
  | .rsbRegShift _ _ => (0x0FE00090#32, 0x00600010#32)
  | .addRegShift _ _ => (0x0FE00090#32, 0x00800010#32)
  | .adcRegShift _ _ => (0x0FE00090#32, 0x00A00010#32)
  | .sbcRegShift _ _ => (0x0FE00090#32, 0x00C00010#32)
  | .rscRegShift _ _ => (0x0FE00090#32, 0x00E00010#32)
  | .tstRegShift _ _ => (0x0FF00090#32, 0x01100010#32)
  | .teqRegShift _ _ => (0x0FF00090#32, 0x01300010#32)
  | .cmpRegShift _ _ => (0x0FF00090#32, 0x01500010#32)
  | .cmnRegShift _ _ => (0x0FF00090#32, 0x01700010#32)
  | .orrRegShift _ _ => (0x0FE00090#32, 0x01800010#32)
  | .movRegShift _ _ => (0x0FE00090#32, 0x01A00010#32)
  | .bicRegShift _ _ => (0x0FE00090#32, 0x01C00010#32)
  | .mvnRegShift _ _ => (0x0FE00090#32, 0x01E00010#32)

/-- Bits a row lists no field for, which decoding drops: bits 11:8 of the half-word register forms (R72). -/
def droppedBits : Instr → Word
  | .strhReg _ _ | .ldrhReg _ _ | .ldrsbReg _ _ | .ldrshReg _ _ => 0x00000F00#32
  | _ => 0#32

/-- The rows of the no-op spaces (R88). -/
def isNop : Instr → Bool
  | .nopCoprocessor _ | .nopUndefined _ | .nopCompareImm _ | .nopMultiplySpace _ | .nopDoubleWord _
  | .nopCompareReg _ => true
  | _ => false

/-- Bit `k` of a natural number, as arithmetic. -/
def bitOf (x k : Nat) : Bool := decide (x / 2 ^ k % 2 = 1)

end Sys2Proof.Machine

open Sys2Proof Sys2Proof.Machine

/-! ## Encoding -/

/-- R86: "decoding the word an encoder packs from a shape's fields gives back those fields", for every
instruction, as a word and as its bytes in either byte order with any bytes after them. -/
def Obligations.DecodeOfEncode : Prop :=
  ∀ i : Instr, i.WellFormed → decode (encode i) = i ∧
    ∀ (e : Endian) (rest : List Byte), decodeBytes e (encodeBytes e i ++ rest) = .ok (i, rest)

/-- R85, R86, R87: every word decodes to one well-formed instruction with its own condition nibble, and, the
no-op spaces apart, encoding that instruction gives the word back but for the ignored bits 11:8 of the half-word
register forms. -/
def Obligations.EncodeOfDecode : Prop :=
  ∀ w : Word, (decode w).WellFormed ∧
    (w ≠ 0#32 → (decode w).cond? = some (Cond.ofBits (field w 28 4))) ∧
    (isNop (decode w) = false → encode (decode w) = w &&& ~~~droppedBits (decode w))

/-- R85, R87, R88: which words are no-ops, space by space, and that no other word is one. The register half of the
S = 0 compare space holds no word with bits 7 and 4 both 1: R85 tests those two bits before it. -/
def Obligations.NoOpSpaces : Prop :=
  ∀ w : Word, w ≠ 0#32 →
    (decode w = .nopCoprocessor (condOf w) ↔ field w 26 2 = 0b11#2 ∧ field w 24 4 ≠ 0b1111#4) ∧
    (decode w = .nopUndefined (condOf w) ↔ field w 25 3 = 0b011#3 ∧ flag w 4 = true) ∧
    (decode w = .nopMultiplySpace (condOf w) ↔
      field w 25 3 = 0b000#3 ∧ field w 4 4 = 0b1001#4 ∧ field w 22 6 ≠ 0#6) ∧
    (decode w = .nopDoubleWord (condOf w) ↔
      field w 25 3 = 0b000#3 ∧ flag w 20 = false ∧ (field w 4 4 = 0b1101#4 ∨ field w 4 4 = 0b1111#4)) ∧
    (decode w = .nopCompareImm (condOf w) ↔
      field w 25 3 = 0b001#3 ∧ field w 23 2 = 0b10#2 ∧ flag w 20 = false ∧
        ¬ (flag w 21 = true ∧ field w 12 4 = 0b1111#4)) ∧
    (decode w = .nopCompareReg (condOf w) ↔
      field w 25 3 = 0b000#3 ∧ ¬ (flag w 7 = true ∧ flag w 4 = true) ∧ field w 23 2 = 0b10#2 ∧
        flag w 20 = false ∧
        ¬ (flag w 21 = false ∧ field w 16 4 = 0b1111#4 ∧ field w 0 12 = 0#12) ∧
        ¬ (field w 21 2 = 0b01#2 ∧ field w 8 12 = 0xFFF#12 ∧ field w 4 4 = 0b0001#4) ∧
        ¬ (flag w 21 = true ∧ field w 12 4 = 0b1111#4 ∧ field w 4 8 = 0#8)) ∧
    (isNop (decode w) = true →
      decode w = .nopCoprocessor (condOf w) ∨ decode w = .nopUndefined (condOf w) ∨
      decode w = .nopMultiplySpace (condOf w) ∨ decode w = .nopDoubleWord (condOf w) ∨
      decode w = .nopCompareImm (condOf w) ∨ decode w = .nopCompareReg (condOf w))

/-- Words the spec writes out, one of each family, decode to what it says they are. -/
def Obligations.WrittenWordsDecode : Prop :=
  decode 0xE3A02030#32 = .movImm .al ⟨false, 0, 2, 0#4, 0x30#8⟩ ∧
  decode 0xEB000006#32 = .bl .al 6#24 ∧
  decode 0xEAFFFFFE#32 = .b .al 0xFFFFFE#24 ∧
  decode 0xEF000011#32 = .swi .al 0x11#24 ∧
  decode 0xE0110002#32 = .andShift .al ⟨true, 1, 0, 0#5, .lsl, 2⟩ ∧
  decode 0xE0100291#32 = .mul .al ⟨true, 0, 0, 2, 1⟩ ∧
  decode 0xE0203291#32 = .mla .al ⟨false, 0, 3, 2, 1⟩ ∧
  decode 0xE5B10004#32 = .ldrImm .al ⟨true, true, true, 1, 0, 4#12⟩ ∧
  decode 0xE4010004#32 = .strImm .al ⟨false, false, false, 1, 0, 4#12⟩ ∧
  decode 0xE1D100B2#32 = .ldrhImm .al ⟨true, true, false, 1, 0, 0#4, 2#4⟩ ∧
  decode 0xE8BD0007#32 = .ldm .al ⟨false, true, false, true, 13, 0x0007#16⟩ ∧
  decode 0xE12FFF1E#32 = .bx .al 14 ∧
  decode 0xE14F0000#32 = .mrs .al true 0 ∧
  decode 0xE121F000#32 = .msrReg .al ⟨false, 0b0001#4, 0⟩ ∧
  decode 0xE328F4F0#32 = .msrImm .al ⟨false, 0b1000#4, 4#4, 0xF0#8⟩ ∧
  decode 0xED901100#32 = .nopCoprocessor .al

/-- R90: the decoded instruction's row of opcode_table.json matches the word. -/
def Obligations.DecodedRowMatches : Prop :=
  ∀ w : Word, w &&& (tableRow (decode w)).1 = (tableRow (decode w)).2

/-! ## The ALU and the barrel shifter -/

/-- R110 as integer arithmetic: the eight arithmetic opcodes. C of a subtraction says that no borrow happened
(R118, R119); V says that the exact signed result does not fit; SBC and RSC subtract `1 - C` more (R122, R123). -/
def Obligations.ArithmeticOpcodes : Prop :=
  ∀ (a b : Word) (sc c : Bool),
    let k : Word := BitVec.ofNat 32 c.toNat
    let n : Word := BitVec.ofNat 32 (1 - c.toNat)
    let fits : Word → Int → Option Bool := fun res exact => some (decide (res.toInt ≠ exact))
    alu .add a b sc c =
      ⟨a + b, decide (2 ^ 32 ≤ a.toNat + b.toNat), fits (a + b) (a.toInt + b.toInt)⟩ ∧
    alu .cmn a b sc c = alu .add a b sc c ∧
    alu .adc a b sc c =
      ⟨a + b + k, decide (2 ^ 32 ≤ a.toNat + b.toNat + c.toNat), fits (a + b + k) (a.toInt + b.toInt + c.toNat)⟩ ∧
    alu .sub a b sc c = ⟨a - b, decide (b.toNat ≤ a.toNat), fits (a - b) (a.toInt - b.toInt)⟩ ∧
    alu .cmp a b sc c = alu .sub a b sc c ∧
    alu .sbc a b sc c =
      ⟨a - b - n, decide (b.toNat + (1 - c.toNat) ≤ a.toNat),
        fits (a - b - n) (a.toInt - b.toInt - (1 - c.toNat : Nat))⟩ ∧
    alu .rsb a b sc c = alu .sub b a sc c ∧
    alu .rsc a b sc c = alu .sbc b a sc c

/-- R112, R116, R117, R124, R125, R128 to R131: the eight logical opcodes bit by bit; C takes the shifter's
carry and V is not written. -/
def Obligations.LogicalOpcodes : Prop :=
  ∀ (a b : Word) (sc c : Bool) (k : Nat), k < 32 →
    (alu .and a b sc c).value.getLsbD k = (a.getLsbD k && b.getLsbD k) ∧
    (alu .eor a b sc c).value.getLsbD k = (a.getLsbD k != b.getLsbD k) ∧
    (alu .orr a b sc c).value.getLsbD k = (a.getLsbD k || b.getLsbD k) ∧
    (alu .bic a b sc c).value.getLsbD k = (a.getLsbD k && !b.getLsbD k) ∧
    (alu .mov a b sc c).value.getLsbD k = b.getLsbD k ∧
    (alu .mvn a b sc c).value.getLsbD k = (!b.getLsbD k) ∧
    alu .tst a b sc c = alu .and a b sc c ∧ alu .teq a b sc c = alu .eor a b sc c ∧
    ∀ op ∈ [DpOp.and, .eor, .tst, .teq, .orr, .mov, .bic, .mvn],
      (alu op a b sc c).carry = sc ∧ (alu op a b sc c).overflow = none

/-- R112, R113: what setting the flags from an ALU result does to every bit of the CPSR. -/
def Obligations.FlagUpdate : Prop :=
  ∀ (p : Word) (r : AluResult),
    psrN (flagsOf p r) = r.value.getLsbD 31 ∧
    psrZ (flagsOf p r) = decide (r.value = 0#32) ∧
    psrC (flagsOf p r) = r.carry ∧
    (r.overflow = none → psrV (flagsOf p r) = psrV p) ∧
    (∀ v, r.overflow = some v → psrV (flagsOf p r) = v) ∧
    ∀ k, k < 28 → (flagsOf p r).getLsbD k = p.getLsbD k

/-- R106 row by row, as integer arithmetic. -/
def Obligations.ShiftImmediateTable : Prop :=
  ∀ (v : Word) (n : BitVec 5) (c : Bool),
    let k := n.toNat
    let x := v.toNat
    (k = 0 → shiftImm v .lsl n c = (v, c) ∧
      shiftImm v .lsr n c = (0#32, bitOf x 31) ∧
      shiftImm v .asr n c = (if v.toInt < 0 then 0xFFFFFFFF#32 else 0#32, bitOf x 31) ∧
      shiftImm v .ror n c = (BitVec.ofNat 32 (c.toNat * 2 ^ 31 + x / 2), bitOf x 0)) ∧
    (k ≠ 0 → shiftImm v .lsl n c = (BitVec.ofNat 32 (x * 2 ^ k), bitOf x (32 - k)) ∧
      shiftImm v .lsr n c = (BitVec.ofNat 32 (x / 2 ^ k), bitOf x (k - 1)) ∧
      shiftImm v .asr n c = (BitVec.ofInt 32 (v.toInt / 2 ^ k), bitOf x (k - 1)) ∧
      shiftImm v .ror n c = (BitVec.ofNat 32 (x / 2 ^ k + x % 2 ^ k * 2 ^ (32 - k)), bitOf x (k - 1)))

/-- R107 row by row, as integer arithmetic. -/
def Obligations.ShiftRegisterTable : Prop :=
  ∀ (v : Word) (n : Byte) (c : Bool),
    let k := n.toNat
    let x := v.toNat
    (k = 0 → ∀ sh, shiftReg v sh n c = (v, c)) ∧
    (1 ≤ k → k ≤ 31 →
      shiftReg v .lsl n c = (BitVec.ofNat 32 (x * 2 ^ k), bitOf x (32 - k)) ∧
      shiftReg v .lsr n c = (BitVec.ofNat 32 (x / 2 ^ k), bitOf x (k - 1)) ∧
      shiftReg v .asr n c = (BitVec.ofInt 32 (v.toInt / 2 ^ k), bitOf x (k - 1))) ∧
    (k = 32 → shiftReg v .lsl n c = (0#32, bitOf x 0) ∧ shiftReg v .lsr n c = (0#32, bitOf x 31)) ∧
    (33 ≤ k → shiftReg v .lsl n c = (0#32, false) ∧ shiftReg v .lsr n c = (0#32, false)) ∧
    (32 ≤ k → shiftReg v .asr n c = (if v.toInt < 0 then 0xFFFFFFFF#32 else 0#32, bitOf x 31)) ∧
    (k ≠ 0 → k % 32 = 0 → shiftReg v .ror n c = (v, bitOf x 31)) ∧
    (k % 32 ≠ 0 → shiftReg v .ror n c =
      (BitVec.ofNat 32 (x / 2 ^ (k % 32) + x % 2 ^ (k % 32) * 2 ^ (32 - k % 32)), bitOf x (k % 32 - 1)))

/-- R80 and R108: the rotated immediate as integer arithmetic, and its carry-out. -/
def Obligations.RotatedImmediate : Prop :=
  ∀ (rot : BitVec 4) (imm8 : Byte) (c : Bool),
    let k := 2 * rot.toNat
    (rotatedImm rot imm8).toNat = imm8.toNat / 2 ^ k + imm8.toNat % 2 ^ k * 2 ^ (32 - k) ∧
    (rot = 0#4 → rotatedCarry rot imm8 c = c) ∧
    (rot ≠ 0#4 → rotatedCarry rot imm8 c = bitOf (rotatedImm rot imm8).toNat 31)

/-! ## Conditions -/

/-- R98's table by field value, and R99: 0b1111 never passes. -/
def Obligations.ConditionTable : Prop :=
  ∀ (f : BitVec 4) (p : Word),
    let n := p.getLsbD 31
    let z := p.getLsbD 30
    let c := p.getLsbD 29
    let v := p.getLsbD 28
    condPassed (Cond.ofBits f) p = true ↔
      (f = 0b0000#4 ∧ z = true) ∨ (f = 0b0001#4 ∧ z = false) ∨ (f = 0b0010#4 ∧ c = true) ∨
      (f = 0b0011#4 ∧ c = false) ∨ (f = 0b0100#4 ∧ n = true) ∨ (f = 0b0101#4 ∧ n = false) ∨
      (f = 0b0110#4 ∧ v = true) ∨ (f = 0b0111#4 ∧ v = false) ∨
      (f = 0b1000#4 ∧ c = true ∧ z = false) ∨ (f = 0b1001#4 ∧ (c = false ∨ z = true)) ∨
      (f = 0b1010#4 ∧ n = v) ∨ (f = 0b1011#4 ∧ n ≠ v) ∨
      (f = 0b1100#4 ∧ z = false ∧ n = v) ∨ (f = 0b1101#4 ∧ (z = true ∨ n ≠ v)) ∨ f = 0b1110#4

/-- R98, R110, R113 and R126 together: after a comparison of `a` with `b` the ten comparing conditions say what
their names say, unsigned and signed. -/
def Obligations.ConditionsAfterCompare : Prop :=
  ∀ (p a b : Word) (sc cin : Bool),
    let q := flagsOf p (alu .cmp a b sc cin)
    condPassed .eq q = decide (a = b) ∧ condPassed .ne q = decide (a ≠ b) ∧
    condPassed .cs q = decide (b.toNat ≤ a.toNat) ∧ condPassed .cc q = decide (a.toNat < b.toNat) ∧
    condPassed .hi q = decide (b.toNat < a.toNat) ∧ condPassed .ls q = decide (a.toNat ≤ b.toNat) ∧
    condPassed .ge q = decide (b.toInt ≤ a.toInt) ∧ condPassed .lt q = decide (a.toInt < b.toInt) ∧
    condPassed .gt q = decide (b.toInt < a.toInt) ∧ condPassed .le q = decide (a.toInt ≤ b.toInt)

/-- R97: an instruction whose condition fails changes nothing but r15, which becomes F + 12, and the step that
fetched it (of a core not inside the line-input service) still tests for an IRQ. -/
def Obligations.FailedConditionSkips : Prop :=
  ∀ (i : Instr) (c : Cond) (s : State), i.cond? = some c → condPassed c s.cpsr = false →
    ∃ t, exec i s = .next t ∧ onlyR15 s t (s.execAddr + 12#32) ∧
      ∀ raw, s.waitingLine = false → s.isBreakpoint s.execAddr = false →
        memRead s s.execAddr .word = .ok raw → decode raw = i →
        step s = .next t.takeIrq

/-! ## Data processing and multiply -/

/-- R111 to R113, R115 and R116 to R131 for the sixteen rotated-immediate forms (`Instr.dpImm op`: AND, EOR, SUB,
RSB, ADD, ADC, SBC, RSC, TST, TEQ, CMP, CMN, ORR, MOV, BIC, MVN): each runs on every state whose registers it can
name, Rd = 15 included. -/
def Obligations.DpImmediateResult : Prop :=
  ∀ (op : DpOp) (c : Cond) (x : DpImmArgs) (s : State), condPassed c s.cpsr = true →
    (opReadsRn op = true → accessible s x.rn) → (opWritesRd op = true → accessible s x.rd) →
    ¬ restores s op x.s x.rd →
    ∃ t, exec (Instr.dpImm op c x) s = .next t ∧
      dpOutcome op x.s x.rd (reg s x.rn) (rotatedImm x.rot x.imm8)
        (rotatedCarry x.rot x.imm8 (psrC s.cpsr)) s t

/-- The same for the sixteen immediate-shift forms (`Instr.dpShift op`), with operand 2 of R106 and R109. -/
def Obligations.DpShiftResult : Prop :=
  ∀ (op : DpOp) (c : Cond) (x : DpShiftArgs) (s : State), condPassed c s.cpsr = true → accessible s x.rm →
    (opReadsRn op = true → accessible s x.rn) → (opWritesRd op = true → accessible s x.rd) →
    ¬ restores s op x.s x.rd →
    ∃ t, exec (Instr.dpShift op c x) s = .next t ∧
      dpOutcome op x.s x.rd (reg s x.rn) (shiftImm (reg s x.rm) x.sh x.shiftImm (psrC s.cpsr)).1
        (shiftImm (reg s x.rm) x.sh x.shiftImm (psrC s.cpsr)).2 s t

/-- The same for the sixteen register-shift forms (`Instr.dpRegShift op`), with operand 2 of R107 and R109. -/
def Obligations.DpRegShiftResult : Prop :=
  ∀ (op : DpOp) (c : Cond) (x : DpRegArgs) (s : State), condPassed c s.cpsr = true → accessible s x.rm →
    accessible s x.rs → (opReadsRn op = true → accessible s x.rn) →
    (opWritesRd op = true → accessible s x.rd) → ¬ restores s op x.s x.rd →
    ∃ t, exec (Instr.dpRegShift op c x) s = .next t ∧
      dpOutcome op x.s x.rd (reg s x.rn)
        (shiftReg (reg s x.rm) x.sh ((reg s x.rs).extractLsb' 0 8) (psrC s.cpsr)).1
        (shiftReg (reg s x.rm) x.sh ((reg s x.rs).extractLsb' 0 8) (psrC s.cpsr)).2 s t

/-- R114: MOV to r15 with S = 1, in its three forms, copies the mode's SPSR to the CPSR whole; an SPSR with an
invalid mode code is fatal there; in a mode without an SPSR, an invalid mode code among them (log entry 16), the
flags are set from the result. -/
def Obligations.MovsPcRestores : Prop :=
  ∀ (c : Cond) (s : State) (rn : Reg), condPassed c s.cpsr = true →
    (∀ rot imm8, movsPcOutcome (.movImm c ⟨true, rn, 15, rot, imm8⟩) s (rotatedImm rot imm8)
      (rotatedCarry rot imm8 (psrC s.cpsr))) ∧
    (∀ rm sh n, accessible s rm → movsPcOutcome (.movShift c ⟨true, rn, 15, n, sh, rm⟩) s
      (shiftImm (reg s rm) sh n (psrC s.cpsr)).1 (shiftImm (reg s rm) sh n (psrC s.cpsr)).2) ∧
    (∀ rm sh rs, accessible s rm → accessible s rs →
      movsPcOutcome (.movRegShift c ⟨true, rn, 15, rs, sh, rm⟩) s
        (shiftReg (reg s rm) sh ((reg s rs).extractLsb' 0 8) (psrC s.cpsr)).1
        (shiftReg (reg s rm) sh ((reg s rs).extractLsb' 0 8) (psrC s.cpsr)).2)

/-- R133, R134: MUL and MLA give the low word of the product, plus the accumulator for MLA; with S = 1 they write
N and Z and nothing else of the CPSR. -/
def Obligations.MultiplyResult : Prop :=
  ∀ (acc : Bool) (c : Cond) (x : MulArgs) (s : State), condPassed c s.cpsr = true →
    accessible s x.rd → accessible s x.rm → accessible s x.rs → (acc = true → accessible s x.rn) →
    let v := BitVec.ofNat 32
      ((reg s x.rm).toNat * (reg s x.rs).toNat + if acc then (reg s x.rn).toNat else 0)
    ∃ t, exec (if acc then .mla c x else .mul c x) s = .next t ∧ written t x.rd v ∧
      (x.rd ≠ 15 → nextInstruction s t) ∧
      (∀ k, k < 32 → t.cpsr.getLsbD k =
        if x.s = true ∧ k = 31 then v.getLsbD 31
        else if x.s = true ∧ k = 30 then decide (v = 0#32) else s.cpsr.getLsbD k) ∧
      registersBut s t [x.rd] ∧ spsrsKept s t ∧ nothingStored s t ∧ RestKept s t

/-! ## Loads and stores -/

/-- R52, R135 to R138, R140: LDR and LDRB in their three offset forms. A load from the keyboard sentinel gives the
last character; elsewhere in the RAM the aligned word or byte, and 0 when a word is misaligned; elsewhere outside it
the load is fatal. -/
def Obligations.LoadSingleResult : Prop :=
  ∀ (i : Instr) (c : Cond) (x : Transfer) (s : State), Instr.single? i = some (c, x) → x.load = true →
    condPassed c s.cpsr = true → x.accessible s →
    ((x.address s).addr = s.params.kbdAddr →
      ∃ t, exec i s = .next t ∧ loadOutcome x (s.lastChar.setWidth 32) s t) ∧
    ((x.address s).addr ≠ s.params.kbdAddr → s.inRam (x.address s).addr x.n →
      ∃ t, exec i s = .next t ∧ loadOutcome x (ramWord s (x.address s).addr x.n) s t) ∧
    ((x.address s).addr ≠ s.params.kbdAddr → ¬ s.inRam (x.address s).addr x.n →
      exec i s = .fault (.memBounds s.execAddr))

/-- R52, R135 to R137, R139, R141: STR and STRB in their three offset forms. A store to the display sentinel outputs
the low byte of Rd; elsewhere in the RAM Rd's low bytes are stored, and nothing when a word is misaligned; elsewhere
outside it the store is fatal. -/
def Obligations.StoreSingleResult : Prop :=
  ∀ (i : Instr) (c : Cond) (x : Transfer) (s : State), Instr.single? i = some (c, x) → x.load = false →
    condPassed c s.cpsr = true → x.accessible s →
    ((x.address s).addr = s.params.displayAddr →
      ∃ t, exec i s = .next t ∧ storeOutcome x s t ∧ sameBytes s t ∧
        t.output = s.output ++ [(reg s x.rd).extractLsb' 0 8]) ∧
    ((x.address s).addr ≠ s.params.displayAddr → s.inRam (x.address s).addr x.n →
      ∃ t, exec i s = .next t ∧ storeOutcome x s t ∧ storedAt s t (x.address s).addr x.n (reg s x.rd) ∧
        t.output = s.output) ∧
    ((x.address s).addr ≠ s.params.displayAddr → ¬ s.inRam (x.address s).addr x.n →
      exec i s = .fault (.memBounds s.execAddr))

/-- R142, R143, R145, R146: LDRH, LDRSB and LDRSH in their two offset forms; the sentinels are not recognised, and
outside the RAM the load is fatal. -/
def Obligations.LoadHalfResult : Prop :=
  ∀ (i : Instr) (c : Cond) (x : Transfer) (s : State), Instr.half? i = some (c, x) → x.load = true →
    condPassed c s.cpsr = true → x.accessible s →
    (s.inRam (x.address s).addr x.n → ∃ t, exec i s = .next t ∧
      loadOutcome x (extended x.x x.n (ramWord s (x.address s).addr x.n)) s t) ∧
    (¬ s.inRam (x.address s).addr x.n → exec i s = .fault (.memBounds s.execAddr))

/-- R142, R144: STRH in its two offset forms; the sentinels are not recognised, and outside the RAM the store is fatal. -/
def Obligations.StoreHalfResult : Prop :=
  ∀ (i : Instr) (c : Cond) (x : Transfer) (s : State), Instr.half? i = some (c, x) → x.load = false →
    condPassed c s.cpsr = true → x.accessible s →
    (s.inRam (x.address s).addr x.n → ∃ t, exec i s = .next t ∧ storeOutcome x s t ∧
      storedAt s t (x.address s).addr x.n (reg s x.rd) ∧ t.output = s.output) ∧
    (¬ s.inRam (x.address s).addr x.n → exec i s = .fault (.memBounds s.execAddr))

/-- R148, R150: LDM. The k-th listed register gets the k-th word, r15 with bits 1:0 cleared; a writeback wins over
the list; a word outside the RAM is fatal. -/
def Obligations.LdmResult : Prop :=
  ∀ (c : Cond) (x : BlockArgs) (s : State), condPassed c s.cpsr = true → x.list ≠ 0#16 →
    blockAccessible x s →
    (∀ k, k < rank x.list 16 → ¬ s.inRam (blockWord x s k) .word →
      exec (.ldm c x) s = .fault (.memBounds s.execAddr)) ∧
    ((∀ k, k < rank x.list 16 → s.inRam (blockWord x s k) .word) →
    ∃ t, exec (.ldm c x) s = .next t ∧
      (∀ i, listed x.list i → ¬ (x.w = true ∧ i = x.rn) →
        written t i
          (if i = 15 then ramWord s (blockWord x s (rank x.list 15)) .word &&& 0xFFFFFFFC#32
          else ramWord s (blockWord x s (rank x.list i.val)) .word)) ∧
      (x.w = true → written t x.rn (blockWbval x s)) ∧
      (¬ listed x.list 15 → ¬ (x.w = true ∧ x.rn = 15) → nextInstruction s t) ∧
      registersBut s t (if x.w then x.rn :: listedRegs x.list else listedRegs x.list) ∧
      t.cpsr = s.cpsr ∧ spsrsKept s t ∧ nothingStored s t ∧ RestKept s t)

/-- R148, R151: STM. The k-th word gets the k-th listed register as it was before the instruction (r15 is F + 8);
misaligned words are dropped; every other byte is kept; a word outside the RAM is fatal. -/
def Obligations.StmResult : Prop :=
  ∀ (c : Cond) (x : BlockArgs) (s : State), condPassed c s.cpsr = true → x.list ≠ 0#16 →
    blockAccessible x s →
    (∀ k, k < rank x.list 16 → ¬ s.inRam (blockWord x s k) .word →
      exec (.stm c x) s = .fault (.memBounds s.execAddr)) ∧
    ((∀ k, k < rank x.list 16 → s.inRam (blockWord x s k) .word) →
    ∃ t, exec (.stm c x) s = .next t ∧
      (∀ i, listed x.list i → (blockStart x s).toNat % 4 = 0 → ∀ k, k < 4 →
        t.byteAt ((blockWord x s (rank x.list i.val)).toNat + k) =
          splitByte s.endian .word (reg s i) k) ∧
      (∀ a, ((blockStart x s).toNat % 4 ≠ 0 ∨ ¬ inStm x s a) → t.byteAt a = s.byteAt a) ∧
      (x.w = true → written t x.rn (blockWbval x s)) ∧
      (¬ (x.w = true ∧ x.rn = 15) → nextInstruction s t) ∧
      registersBut s t (if x.w then [x.rn] else []) ∧
      t.cpsr = s.cpsr ∧ spsrsKept s t ∧ t.output = s.output ∧ RestKept s t)

/-! ## Branches -/

/-- R81, R152: B. The next fetch is at F + 8 plus four times the signed offset, modulo 2^32; nothing else changes. -/
def Obligations.BranchResult : Prop :=
  ∀ (c : Cond) (off : BitVec 24) (s : State), condPassed c s.cpsr = true →
    ∃ t, exec (.b c off) s = .next t ∧
      t.execAddr = BitVec.ofInt 32 (s.execAddr.toNat + 8 + 4 * off.toInt) ∧ onlyR15 s t t.r15

/-- R153: BL, the same with r14 of the mode's bank set to F + 4; in a mode without r14 it is fatal. -/
def Obligations.BranchLinkResult : Prop :=
  ∀ (c : Cond) (off : BitVec 24) (s : State), condPassed c s.cpsr = true →
    (banked s → ∃ t, exec (.bl c off) s = .next t ∧
      t.execAddr = BitVec.ofInt 32 (s.execAddr.toNat + 8 + 4 * off.toInt) ∧
      readReg t 14 = .ok (s.execAddr + 4#32) ∧ registersBut s t [14] ∧ t.cpsr = s.cpsr ∧
      spsrsKept s t ∧ nothingStored s t ∧ RestKept s t) ∧
    (psrModeOf s.cpsr = some .fiq ∨ psrModeOf s.cpsr = some .abort ∨ psrModeOf s.cpsr = some .undefined →
      exec (.bl c off) s = .fault (.unbankedMode s.execAddr)) ∧
    (psrModeOf s.cpsr = none → exec (.bl c off) s = .fault (.invalidMode s.execAddr))

/-- R154: BX. The next fetch is at Rm with bit 0 cleared, T takes that bit, and nothing else changes. -/
def Obligations.BranchExchangeResult : Prop :=
  ∀ (c : Cond) (rm : Reg) (s : State), condPassed c s.cpsr = true → accessible s rm →
    ∃ t, exec (.bx c rm) s = .next t ∧
      t.execAddr = reg s rm - BitVec.ofNat 32 ((reg s rm).toNat % 2) ∧
      psrT t.cpsr = bitOf (reg s rm).toNat 0 ∧
      (∀ k, k ≠ 5 → t.cpsr.getLsbD k = s.cpsr.getLsbD k) ∧
      registersBut s t [] ∧ spsrsKept s t ∧ nothingStored s t ∧ RestKept s t

/-! ## Status registers -/

/-- R30, R156: MRS reads the CPSR or the mode's SPSR; the SPSR in a mode without one, an invalid mode code among
them (log entry 16), is fatal, and so is r13 or r14 in a mode without it. -/
def Obligations.MrsResult : Prop :=
  ∀ (c : Cond) (spsr : Bool) (rd : Reg) (s : State), condPassed c s.cpsr = true →
    (∀ v, (if spsr then s.currentSpsr = some v else v = s.cpsr) → accessible s rd →
      ∃ t, exec (.mrs c spsr rd) s = .next t ∧ written t rd v ∧ (rd ≠ 15 → nextInstruction s t) ∧
        registersBut s t [rd] ∧ t.cpsr = s.cpsr ∧ spsrsKept s t ∧ nothingStored s t ∧ RestKept s t) ∧
    (spsr = true → s.currentSpsr = none → exec (.mrs c spsr rd) s = .fault (.noSpsr s.execAddr)) ∧
    (spsr = false → rd = 13 ∨ rd = 14 →
      psrModeOf s.cpsr = some .fiq ∨ psrModeOf s.cpsr = some .abort ∨ psrModeOf s.cpsr = some .undefined →
      exec (.mrs c spsr rd) s = .fault (.unbankedMode s.execAddr))

/-- R157 to R159: MSR to the CPSR, register or immediate. Bit k is written when its lane is selected and it is one of
N, Z, C, V or, in a privileged mode (an invalid code is one: log entry 16), of I, F and the mode; a write that would
leave an invalid mode code is fatal. -/
def Obligations.MsrCpsrResult : Prop :=
  ∀ (c : Cond) (i : Instr) (fm : BitVec 4) (v new : Word) (s : State), condPassed c s.cpsr = true →
    isMsr false i c fm v s →
    mergedBits s.cpsr v new fm (fun k => 28 ≤ k ∨ (psrModeOf s.cpsr ≠ some .user ∧ k < 8 ∧ k ≠ 5)) →
    ((psrModeOf new).isSome = true →
      ∃ t, exec i s = .next t ∧ t.cpsr = new ∧ nextInstruction s t ∧ registersBut s t [] ∧
        spsrsKept s t ∧ nothingStored s t ∧ RestKept s t) ∧
    (psrModeOf new = none → exec i s = .fault (.invalidMode s.execAddr))

/-- R157 to R159, R30: MSR to the SPSR. N, Z, C, V and bits 7:0 of the mode's SPSR are written under the field mask;
any mode code is allowed there; in a mode without an SPSR (an invalid code has none: log entry 16) it is fatal. -/
def Obligations.MsrSpsrResult : Prop :=
  ∀ (c : Cond) (i : Instr) (fm : BitVec 4) (v : Word) (s : State), condPassed c s.cpsr = true →
    isMsr true i c fm v s →
    (∀ old new, s.currentSpsr = some old → mergedBits old v new fm (fun k => 28 ≤ k ∨ k < 8) →
      ∃ t, exec i s = .next t ∧ t.currentSpsr = some new ∧ t.cpsr = s.cpsr ∧ nextInstruction s t ∧
        (psrModeOf s.cpsr ≠ some .supervisor → t.spsrSvc = s.spsrSvc) ∧
        (psrModeOf s.cpsr ≠ some .irq → t.spsrIrq = s.spsrIrq) ∧
        registersBut s t [] ∧ nothingStored s t ∧ RestKept s t) ∧
    (s.currentSpsr = none → exec i s = .fault (.noSpsr s.execAddr))

/-! ## Software interrupt, no-op, word 0 -/

/-- R96, R160 and R94: the exit SWI halts with F still the executing address, and the word 0 halts with r15 as it
was; neither changes anything else. -/
def Obligations.HaltingInstructions : Prop :=
  (∀ (c : Cond) (s : State), condPassed c s.cpsr = true →
    ∃ t, exec (.swi c 0x11#24) s = .next t ∧ t.execAddr = s.execAddr ∧ t.halted = some .exit ∧
      t = { s with r15 := s.execAddr + 8#32, halted := some .exit, waitingLine := false,
                   trace := t.trace, traceCount := t.traceCount }) ∧
  ∀ s : State, exec .zeroWord s = .next { s with halted := some .zeroWord, waitingLine := false }

/-- R165, R166: the character-output SWI enters Supervisor mode at the SWI vector and outputs the low byte of its
argument register. -/
def Obligations.SwiPutcResult : Prop :=
  ∀ (c : Cond) (s : State), condPassed c s.cpsr = true → s.params.swiPutc ≠ 0x11#24 →
    ∃ t, exec (.swi c s.params.swiPutc) s = .next t ∧ swiEntered s t ∧ t.running = true ∧ sameBytes s t ∧
      t.output = s.output ++ [(s.regs[s.params.putcReg]).extractLsb' 0 8] ∧ t.inputLines = s.inputLines

/-- R165, R166: the line-input SWI enters Supervisor mode and writes the host's line, a carriage return if room
remains under `max`, and a null, byte by byte at its buffer. The host's waiting line is the model's form of the
blocking port (log entry 5). -/
def Obligations.SwiReadlineResult : Prop :=
  ∀ (c : Cond) (s : State) (line : List Byte) (rest : List (List Byte)), condPassed c s.cpsr = true →
    ParamsWf s.params → s.inputLines = line :: rest →
    let addr := (s.regs[s.params.readlineAddrReg]).toNat
    let max := (s.regs[s.params.readlineMaxReg]).toNat
    let buf := if line.length < max then line ++ [0x0D#8, 0x00#8] else line ++ [0x00#8]
    line.length ≤ max → addr + buf.length ≤ s.params.memSize →
    ∃ t, exec (.swi c s.params.swiReadline) s = .next t ∧ swiEntered s t ∧ t.running = true ∧
      (∀ a, t.byteAt a = if addr ≤ a ∧ a < addr + buf.length then buf.getD (a - addr) 0#8 else s.byteAt a) ∧
      t.output = s.output ∧ t.inputLines = rest

/-- When the line-input SWI does not complete at once. No line yet: the core waits in the entered state (R165, R166),
no step and no run ends the wait, whatever the flag and the breakpoints (R11), and the step that finds a line ends as
the SWI ends that had the line from the start; that a wait shows as a next state, and a step of a waiting core as that
state again, is the model's choice (log entry 5). A line longer than `max` (the host breaks its duty of R37) is
refused as 93_implementation_defined.md B7 allows (the model's choice of log entry 6). A buffer that leaves the RAM
is fatal (R43). -/
def Obligations.SwiReadlineStops : Prop :=
  ∀ (c : Cond) (s : State), condPassed c s.cpsr = true → ParamsWf s.params →
    let addr := (s.regs[s.params.readlineAddrReg]).toNat
    let max := (s.regs[s.params.readlineMaxReg]).toNat
    (s.inputLines = [] → ∃ t, exec (.swi c s.params.swiReadline) s = .next t ∧ swiEntered s t ∧ nothingStored s t ∧
      t.inputLines = [] ∧ t.halted = none ∧ t.waitingLine = true ∧ step t = .next t ∧ (∀ n, run n t = .next t) ∧
      ∀ line, step (t.supplyLine line) = exec (.swi c s.params.swiReadline) (s.supplyLine line)) ∧
    ∀ line rest, s.inputLines = line :: rest →
      let buf := if line.length < max then line ++ [0x0D#8, 0x00#8] else line ++ [0x00#8]
      (max < line.length → exec (.swi c s.params.swiReadline) s = .refused .hostLineTooLong) ∧
      (line.length ≤ max → s.params.memSize < addr + buf.length → s.params.memSize < 2 ^ 32 →
        exec (.swi c s.params.swiReadline) s = .fault (.memBounds s.execAddr))

/-- R160, R161: the six no-op spaces, under any condition, and an SWI with any other number change nothing but r15,
which becomes F + 12. -/
def Obligations.NoOpsOnlyAdvance : Prop :=
  ∀ (i : Instr) (s : State), doesNothing i s →
    ∃ t, exec i s = .next t ∧ onlyR15 s t (s.execAddr + 12#32)

/-! ## Where an instruction stops -/

/-- R15, R25: an instruction that names r13 or r14 in a mode without them is fatal, under the reason the mode gives; a
load, LDM or STM may meet a word outside the RAM first, and an empty list comes before the base register (log entry
15). -/
def Obligations.UnbankedRegisterFaults : Prop :=
  ∀ (i : Instr) (c : Cond) (s : State) (j : Reg), i.cond? = some c → condPassed c s.cpsr = true →
    j ∈ namedRegs i → j = 13 ∨ j = 14 → ¬ banked s →
    exec i s = .fault (if psrModeOf s.cpsr = none then .invalidMode s.execAddr else .unbankedMode s.execAddr) ∨
    (accessesFirst i = true ∧ exec i s = .fault (.memBounds s.execAddr)) ∨
    ∃ x, (i = .ldm c x ∨ i = .stm c x) ∧ x.list = 0#16 ∧ exec i s = .fault (.emptyRegList s.execAddr)

/-- R149: LDM and STM with register list 0 fault before any access, in every mode (before the base register too: log
entry 15). -/
def Obligations.EmptyListFaults : Prop :=
  ∀ (c : Cond) (x : BlockArgs) (s : State), condPassed c s.cpsr = true → x.list = 0#16 →
    exec (.ldm c x) s = .fault (.emptyRegList s.execAddr) ∧
    exec (.stm c x) s = .fault (.emptyRegList s.execAddr)

/-- R15: the bank map, read and write, for every index and every mode code; an exception entry writes r14 through the
bank of the mode it enters. -/
def Obligations.BankMap : Prop :=
  ∀ (s : State) (i : Reg) (v : Word),
    (∀ h : i.val < 13, readReg s i = .ok (s.regs[i.val]'h) ∧
      writeReg s i v = .ok { s with regs := s.regs.set i.val v h }) ∧
    (i = 15 → readReg s i = .ok s.r15 ∧ writeReg s i v = .ok { s with r15 := v }) ∧
    (psrMode s.cpsr = 0b10000#5 ∨ psrMode s.cpsr = 0b11111#5 →
      readReg s 13 = .ok s.r13Usr ∧ writeReg s 13 v = .ok { s with r13Usr := v } ∧
      readReg s 14 = .ok s.r14Usr ∧ writeReg s 14 v = .ok { s with r14Usr := v }) ∧
    (psrMode s.cpsr = 0b10011#5 →
      readReg s 13 = .ok s.r13Svc ∧ writeReg s 13 v = .ok { s with r13Svc := v } ∧
      readReg s 14 = .ok s.r14Svc ∧ writeReg s 14 v = .ok { s with r14Svc := v }) ∧
    (psrMode s.cpsr = 0b10010#5 →
      readReg s 13 = .ok s.r13Irq ∧ writeReg s 13 v = .ok { s with r13Irq := v } ∧
      readReg s 14 = .ok s.r14Irq ∧ writeReg s 14 v = .ok { s with r14Irq := v }) ∧
    (psrMode s.cpsr = 0b10001#5 ∨ psrMode s.cpsr = 0b10111#5 ∨ psrMode s.cpsr = 0b11011#5 →
      ∀ j : Reg, j = 13 ∨ j = 14 →
        readReg s j = .error .unbankedMode ∧ writeReg s j v = .error .unbankedMode) ∧
    (psrMode s.cpsr ∉ [0b10000#5, 0b10001#5, 0b10010#5, 0b10011#5, 0b10111#5, 0b11011#5, 0b11111#5] →
      ∀ j : Reg, j = 13 ∨ j = 14 →
        readReg s j = .error .invalidMode ∧ writeReg s j v = .error .invalidMode) ∧
    ∀ k : Exception, readReg (takeException k v s) 14 = .ok v ∧
      slot 14 k.mode.toBits = .ok (match k with | .swi => .r14Svc | .irq => .r14Irq)

/-- R16: writing a register in one mode and switching modes back and forth keeps it, and what another mode sees in
another physical register is undisturbed. -/
def Obligations.BanksUndisturbed : Prop :=
  ∀ (s t : State) (p q : Word) (i : Reg) (v : Word), writeReg (s.setCpsr p) i v = .ok t →
    readReg ((t.setCpsr q).setCpsr p) i = .ok v ∧
    ∀ j, slot j (psrMode q) ≠ slot i (psrMode p) → readReg (t.setCpsr q) j = readReg (s.setCpsr q) j

/-! ## Frames -/

/-- The register frame of every instruction: a next state keeps every physical register but r15 and those its rule
names (`destRegs`); an SWI keeps all but r14 of Supervisor mode. -/
def Obligations.RegisterFrame : Prop :=
  (∀ (i : Instr) (s t : State), (∀ c n, i ≠ .swi c n) → exec i s = .next t →
    registersBut s t (destRegs i)) ∧
  ∀ (c : Cond) (n : BitVec 24) (s t : State), exec (.swi c n) s = .next t →
    ∀ sl, sl ≠ .r15 → sl ≠ .r14Svc → t.getSlot sl = s.getSlot sl

/-- The status frame of every instruction: a next state keeps every CPSR bit its rule does not name (`statusBits`),
and both SPSRs but for MSR to the mode's own and the SWI entry's. An invalid mode code counts as privileged (log
entry 16). -/
def Obligations.StatusFrame : Prop :=
  ∀ (i : Instr) (s t : State), exec i s = .next t →
    t.cpsr &&& ~~~statusBits i s = s.cpsr &&& ~~~statusBits i s ∧
    ((∀ c n, i ≠ .swi c n) → (∀ c a, i = .msrReg c a → a.spsr = false) →
      (∀ c a, i = .msrImm c a → a.spsr = false) → spsrsKept s t) ∧
    ((∀ c n, i ≠ .swi c n) → psrModeOf s.cpsr ≠ some .supervisor → t.spsrSvc = s.spsrSvc) ∧
    (psrModeOf s.cpsr ≠ some .irq → t.spsrIrq = s.spsrIrq)

/-- The memory frame of every instruction: a next state keeps every byte of RAM outside the bytes the instruction
stores to, at the address its meaning computes; an instruction that stores nothing keeps them all. -/
def Obligations.MemoryFrame : Prop :=
  ∀ (i : Instr) (s t : State), exec i s = .next t →
    (∀ c x, Instr.single? i = some (c, x) ∨ Instr.half? i = some (c, x) → x.load = false →
      ∀ ad, transferAddress x.ix x.rn x.o s = .ok ad → sameBytesOutside s t ad.addr.toNat x.n.bytes) ∧
    (∀ c x, Instr.single? i = some (c, x) ∨ Instr.half? i = some (c, x) → x.load = true → sameBytes s t) ∧
    (∀ c x, i = .stm c x → ∀ a, ¬ inStm x s a → t.byteAt a = s.byteAt a) ∧
    (∀ c n, i = .swi c n → ∀ a,
      (∀ k, k ≤ (s.regs[s.params.readlineMaxReg]).toNat →
        a ≠ (s.regs[s.params.readlineAddrReg] + BitVec.ofNat 32 k).toNat) → t.byteAt a = s.byteAt a) ∧
    (Instr.single? i = none → Instr.half? i = none → (∀ c x, i ≠ .stm c x) → (∀ c n, i ≠ .swi c n) →
      nothingStored s t)

/-! ## The step -/

/-- R93: when the four bytes at F, in the RAM's order, decode to an instruction, a step of a core that is not inside
the line-input service (whose steps SwiReadlineStops and StepStopsBeforeDecode state) is that instruction's `exec`,
and then, unless it halted or waits, the test for an IRQ. -/
def Obligations.StepRunsDecodedInstruction : Prop :=
  ∀ (s : State) (i : Instr), s.waitingLine = false → s.inRam s.execAddr .word → s.execAddr.toNat % 4 = 0 →
    s.isBreakpoint s.execAddr = false →
    decodeBytes s.endian [s.byteAt s.execAddr.toNat, s.byteAt (s.execAddr.toNat + 1),
      s.byteAt (s.execAddr.toNat + 2), s.byteAt (s.execAddr.toNat + 3)] = .ok (i, []) →
    (∀ t, exec i s = .next t → step s = .next (if t.running then t.takeIrq else t)) ∧
    (∀ f, exec i s = .fault f → step s = .fault f) ∧
    ∀ r, exec i s = .refused r → step s = .refused r

/-- R94, R103: a breakpoint at F halts before the fetch; a fetch outside the RAM faults; a misaligned fetch, and the
word 0, halt with r15 unchanged. R11: a core that waits for a line does none of this and, with no line there, stays as
it is; that such a step answers the same state is the model's choice (log entry 5). -/
def Obligations.StepStopsBeforeDecode : Prop :=
  ∀ s : State,
    (s.waitingLine = true → s.inputLines = [] → step s = .next s) ∧
    (s.waitingLine = false → s.execAddr ∈ s.breakpoints →
      step s = .next { s with halted := some .breakpoint, waitingLine := false }) ∧
    (s.waitingLine = false → s.execAddr ∉ s.breakpoints → s.params.memSize < s.execAddr.toNat + 4 →
      step s = .fault (.memBounds s.execAddr)) ∧
    (s.waitingLine = false → s.execAddr ∉ s.breakpoints → s.execAddr.toNat + 4 ≤ s.params.memSize →
      (s.execAddr.toNat % 4 ≠ 0 ∨ ∀ k, k < 4 → s.byteAt (s.execAddr.toNat + k) = 0#8) →
      step s = .next { s with halted := some .zeroWord, waitingLine := false })

/-- R168, R169: at the end of a step that executed an instruction (of a core not inside the line-input service) and
runs on, a pending IRQ that CPSR.I lets in is entered, with the next instruction's address as the return address;
otherwise the step ends as the instruction left it. -/
def Obligations.IrqAtEndOfStep : Prop :=
  ∀ (s u : State) (raw : Word), s.waitingLine = false → s.isBreakpoint s.execAddr = false →
    memRead s s.execAddr .word = .ok raw → exec (decode raw) s = .next u →
    (u.running = true → u.pendingIrq = true → psrI u.cpsr = false →
      ∃ t, step s = .next t ∧ t.r14Irq = u.execAddr ∧ t.spsrIrq = u.cpsr ∧
        enteredStatus u.cpsr t.cpsr .irq ∧ t.pendingIrq = false ∧ t.r15 = 0x18#32 + 8#32 ∧
        t = { u with r14Irq := t.r14Irq, spsrIrq := t.spsrIrq, cpsr := t.cpsr,
                     pendingIrq := false, r15 := t.r15 }) ∧
    (u.running = false ∨ u.pendingIrq = false ∨ psrI u.cpsr = true → step s = .next u)

/-- R167: a step never ends running with an IRQ pending and not masked. -/
def Obligations.NoUnmaskedIrqLeft : Prop :=
  ∀ s t : State, step s = .next t → t.running = true → t.pendingIrq = true → psrI t.cpsr = true

/-- R165, R169, R170: an entry leaves the return address in the handler's r14 and the interrupted status in its SPSR,
and `MOVS pc, lr` (0xE1B0F00E) run in a handler's state that still has them resumes at the return address with the
interrupted status. -/
def Obligations.ExceptionRoundTrip : Prop :=
  decode 0xE1B0F00E#32 = .movShift .al ⟨true, 0, 15, 0#5, .lsl, 14⟩ ∧
  ∀ (k : Exception) (ret : Word) (s : State),
    (let h := takeException k ret s
     psrModeOf h.cpsr = some k.mode ∧ readReg h 14 = .ok ret ∧ h.currentSpsr = some s.cpsr) ∧
    ∀ h : State, (psrModeOf s.cpsr).isSome = true → psrModeOf h.cpsr = some k.mode → readReg h 14 = .ok ret →
      h.currentSpsr = some s.cpsr →
      ∃ t, exec (.movShift .al ⟨true, 0, 15, 0#5, .lsl, 14⟩) h = .next t ∧
        t.cpsr = s.cpsr ∧ t.execAddr = ret ∧ registersBut h t [] ∧ spsrsKept h t ∧ nothingStored h t

/-! ## Privilege -/

/-- R174: "A User-mode program can leave User mode only through an SWI service entry or an IRQ." -/
def Obligations.UserModeLeft : Prop :=
  ∀ s t : State, psrModeOf s.cpsr = some .user → step s = .next t →
    psrModeOf t.cpsr = some .user ∨
    (psrModeOf t.cpsr = some .supervisor ∧ ∃ raw c n, memRead s s.execAddr .word = .ok raw ∧
      decode raw = .swi c n ∧ condPassed c s.cpsr = true ∧
      (n = s.params.swiPutc ∨ n = s.params.swiReadline)) ∨
    (psrModeOf t.cpsr = some .irq ∧ s.pendingIrq = true ∧ psrI s.cpsr = false ∧ t.pendingIrq = false)

/-- R157, R174: a step that starts and ends in User mode changes no register of a privileged mode, and of the CPSR
only N, Z, C, V and T. -/
def Obligations.UserKeepsPrivileged : Prop :=
  ∀ s t : State, psrModeOf s.cpsr = some .user → step s = .next t → psrModeOf t.cpsr = some .user →
    t.r13Svc = s.r13Svc ∧ t.r14Svc = s.r14Svc ∧ t.r13Irq = s.r13Irq ∧ t.r14Irq = s.r14Irq ∧
    t.spsrSvc = s.spsrSvc ∧ t.spsrIrq = s.spsrIrq ∧
    ∀ k, k < 28 → k ≠ 5 → t.cpsr.getLsbD k = s.cpsr.getLsbD k

/-! ## Invariants -/

/-- Every step keeps the invariant: the RAM's canonical form and bounds (R41), a valid mode code once loaded (R25),
bits 27:8 of the three status registers 0 (R28), the breakpoint set, one mark at most (R10, R11). -/
def Obligations.StepKeepsInv : Prop :=
  ∀ s t : State, s.Inv → step s = .next t → t.Inv

/-- The invariant holds at reset, and on a reset core after a load of an image that `loadable` accepts (the model's
choice of log entry 19), whose mode is then System. -/
def Obligations.ResetAndLoadInv : Prop :=
  State.reset.Inv ∧
    ∀ (p : Params) (img : Image), ParamsWf p → loadable p img = true →
      ((hardReset p).load img).Inv ∧ psrModeOf ((hardReset p).load img).cpsr = some .system

/-- R32 to R34, R47: no step writes the parameters, the byte order, the input character, the breakpoint set, the
loaded mark, `keep_running` or the trace flag; only an IRQ entry clears the latch, none sets it; a step outputs at
most one byte. -/
def Obligations.StepKeepsFixed : Prop :=
  ∀ s t : State, step s = .next t →
    t.params = s.params ∧ t.endian = s.endian ∧ t.lastChar = s.lastChar ∧ t.breakpoints = s.breakpoints ∧
    t.loaded = s.loaded ∧ t.keepRunning = s.keepRunning ∧ t.traceEnabled = s.traceEnabled ∧
    (t.pendingIrq = s.pendingIrq ∨
      (s.pendingIrq = true ∧ t.pendingIrq = false ∧ psrModeOf t.cpsr = some .irq ∧ t.r15 = 0x20#32)) ∧
    (t.output = s.output ∨ ∃ b, t.output = s.output ++ [b])

/-! ## Memory -/

/-- R43 to R45: every access checks its bounds first and its alignment next; an aligned read assembles its bytes in
the RAM's order. -/
def Obligations.AccessRules : Prop :=
  ∀ (s : State) (addr v : Word),
    (∀ n : Width, s.params.memSize < addr.toNat + n.bytes →
      memRead s addr n = .error .memBounds ∧ memWrite s addr n v = .error .memBounds) ∧
    (∀ n : Width, addr.toNat + n.bytes ≤ s.params.memSize → addr.toNat % n.bytes ≠ 0 →
      memRead s addr n = .ok 0#32 ∧ memWrite s addr n v = .ok s) ∧
    (addr.toNat + 1 ≤ s.params.memSize → memRead s addr .byte = .ok ((s.byteAt addr.toNat).setWidth 32)) ∧
    (addr.toNat + 2 ≤ s.params.memSize → addr.toNat % 2 = 0 →
      let b0 := s.byteAt addr.toNat
      let b1 := s.byteAt (addr.toNat + 1)
      memRead s addr .half =
        .ok ((match s.endian with | .little => b1 ++ b0 | .big => b0 ++ b1 : BitVec 16).setWidth 32)) ∧
    (addr.toNat + 4 ≤ s.params.memSize → addr.toNat % 4 = 0 →
      let b0 := s.byteAt addr.toNat
      let b1 := s.byteAt (addr.toNat + 1)
      let b2 := s.byteAt (addr.toNat + 2)
      let b3 := s.byteAt (addr.toNat + 3)
      memRead s addr .word =
        .ok (match s.endian with | .little => b3 ++ b2 ++ b1 ++ b0 | .big => b0 ++ b1 ++ b2 ++ b3 : Word))

/-- R46: a read after an aligned write gives the written value, cut to the width; every other byte is kept; the
bytes of the two orders are each other's reverse. -/
def Obligations.ReadAfterWrite : Prop :=
  (∀ (s t : State) (addr v : Word) (n : Width), addr.toNat % n.bytes = 0 → memWrite s addr n v = .ok t →
    memRead t addr n = .ok (BitVec.ofNat 32 (v.toNat % 2 ^ (8 * n.bytes))) ∧
    sameBytesOutside s t addr.toNat n.bytes ∧ t = { s with mem := t.mem } ∧
    (Memory.wf s.mem → Memory.wf t.mem)) ∧
  ∀ (n : Width) (v : Word), splitBytes .big n v = (splitBytes .little n v).reverse

/-- R48: after a word write of 0x12345678 at an aligned address, the byte there and the half-word two above. -/
def Obligations.MixedWidth : Prop :=
  ∀ (s t : State) (addr : Word), addr.toNat % 4 = 0 → writeWord s addr 0x12345678#32 = .ok t →
    readByte t addr = .ok (match s.endian with | .little => 0x78#32 | .big => 0x12#32) ∧
    readHalfWord t (addr + 2#32) = .ok (match s.endian with | .little => 0x1234#32 | .big => 0x5678#32)

/-- R53: the checksum is the sum over the RAM of each byte EOR its address, modulo 2^32; a byte write moves it by the
difference of that byte's terms; the source's vector of four bytes in an empty RAM of 32768 bytes gives
536854790. -/
def Obligations.ChecksumOfRam : Prop :=
  (∀ s : State, checksum s = BitVec.ofNat 32
    (∑ a ∈ Finset.range s.params.memSize, ((s.byteAt a).setWidth 32 ^^^ BitVec.ofNat 32 a).toNat)) ∧
  (∀ (s t : State) (addr v : Word), writeByte s addr v = .ok t →
    checksum t = checksum s - ((s.byteAt addr.toNat).setWidth 32 ^^^ addr) + ((v &&& 0xFF#32) ^^^ addr)) ∧
  ∀ s : State, s.params.memSize = 32768 → s.mem = [] →
    checksum { s with mem := writeCells s.mem 0 [0x01#8, 0x82#8, 0x03#8, 0x84#8] } = 536854790#32

/-! ## Reset, load and run -/

/-- R180 and R25: a reset core holds 0 in every register, status register and byte, is not halted and not loaded, has
no breakpoint and no IRQ pending; and its first step faults at the fetch. `State.reset` is that core under the
parameters of log entry 1, and the bound on the fault is log entry 18. -/
def Obligations.ResetState : Prop :=
  State.reset = hardReset testParams ∧
  ∀ p : Params, psrModeOf (hardReset p).cpsr = none ∧
    (∀ sl, (hardReset p).getSlot sl = 0#32) ∧ (hardReset p).cpsr = 0#32 ∧ (hardReset p).spsrSvc = 0#32 ∧
    (hardReset p).spsrIrq = 0#32 ∧ (∀ a, (hardReset p).byteAt a = 0#8) ∧
    (hardReset p).pendingIrq = false ∧ (hardReset p).lastChar = 0#8 ∧ (hardReset p).breakpoints = [] ∧
    (hardReset p).halted = none ∧ (hardReset p).loaded = false ∧
    (p.memSize < 0xFFFFFFFC → step (hardReset p) = .fault (.memBounds 0xFFFFFFF8#32))

/-- R181: the load contract. An image whose segments fit and agree in byte order leaves the register part of the
contract, and each byte of RAM as the last segment that covers it says, zero-filled; any other image changes the
loaded mark alone. Which images load is the model's choice, and so is loading on a core that is not a reset one (log
entry 19): the test for fitting, an empty segment above MEM_SIZE included, no image malformed beyond that test and the
byte order, and any state as the start. -/
def Obligations.LoadContract : Prop :=
  ∀ (s : State) (img : Image),
    let fits := ∀ g ∈ img.segments, g.paddr.toNat + g.size ≤ s.params.memSize ∧ g.endian = img.endian
    let covers := fun (g : Segment) (a : Nat) => g.paddr.toNat ≤ a ∧ a < g.paddr.toNat + g.size
    (fits →
      let t := s.load img
      t.r15 = img.entry + 8#32 ∧ t.r13Usr = s.params.initialSp ∧ t.endian = img.endian ∧ t.loaded = true ∧
      psrN t.cpsr = false ∧ psrZ t.cpsr = false ∧ psrC t.cpsr = false ∧ psrV t.cpsr = false ∧
      psrMode t.cpsr = 0b11111#5 ∧ (∀ k, 5 ≤ k → k < 28 → t.cpsr.getLsbD k = s.cpsr.getLsbD k) ∧
      (s.cpsr = 0#32 → t.cpsr = 0x0000001F#32) ∧
      (∀ a, (∀ g ∈ img.segments, ¬ covers g a) → t.byteAt a = s.byteAt a) ∧
      (∀ pre g post a, img.segments = pre ++ g :: post → covers g a → (∀ h ∈ post, ¬ covers h a) →
        t.byteAt a = g.bytes.getD (a - g.paddr.toNat) 0#8) ∧
      t = { s with r15 := t.r15, r13Usr := t.r13Usr, endian := t.endian, loaded := true, cpsr := t.cpsr,
                   mem := t.mem }) ∧
    (¬ fits → s.load img = { s with loaded := false })

/-- R102: `run` reads `keep_running` before each step, ends stopped without taking the step when it is clear, and
otherwise goes on until a step halts or faults. R11: the flag is not read inside the step that waits for a line, which
goes on whatever the flag is and is no halt. The bound `n` on the steps is the model's choice (log entry 26). -/
def Obligations.RunReadsFlag : Prop :=
  ∀ (n : Nat) (s : State),
    (s.waitingLine = false → s.keepRunning = false →
      run (n + 1) s = .next { s with halted := some .stopped, waitingLine := false }) ∧
    (s.waitingLine = true ∨ s.keepRunning = true →
      (∀ t, step s = .next t → t.halted.isSome = true → run (n + 1) s = .next t) ∧
      (∀ t, step s = .next t → t.halted = none → run (n + 1) s = run n t) ∧
      ∀ f, step s = .fault f → run (n + 1) s = .fault f) ∧
    (s.waitingLine = true → s.inputLines = [] → run n s = .next s) ∧
    ∀ t, run n s = .next t → t.keepRunning = s.keepRunning ∧
      (t.halted = some .stopped →
        s.keepRunning = false ∨ s.halted = some .stopped ∧ (n = 0 ∨ s.waitingLine = true))
end

