-- ==== Sys2Proof/Laws/State.lean ====
section
/-! SUPPORT. The fields of State after each named update: no later proof unfolds a record update. -/

namespace Sys2Proof.Machine

/-! ## State.setCpsr -/

@[simp] theorem State.setCpsr_params (s : State) (p : Word) : (s.setCpsr p).params = s.params := rfl
@[simp] theorem State.setCpsr_regs (s : State) (p : Word) : (s.setCpsr p).regs = s.regs := rfl
@[simp] theorem State.setCpsr_r13Usr (s : State) (p : Word) : (s.setCpsr p).r13Usr = s.r13Usr := rfl
@[simp] theorem State.setCpsr_r14Usr (s : State) (p : Word) : (s.setCpsr p).r14Usr = s.r14Usr := rfl
@[simp] theorem State.setCpsr_r13Svc (s : State) (p : Word) : (s.setCpsr p).r13Svc = s.r13Svc := rfl
@[simp] theorem State.setCpsr_r14Svc (s : State) (p : Word) : (s.setCpsr p).r14Svc = s.r14Svc := rfl
@[simp] theorem State.setCpsr_r13Irq (s : State) (p : Word) : (s.setCpsr p).r13Irq = s.r13Irq := rfl
@[simp] theorem State.setCpsr_r14Irq (s : State) (p : Word) : (s.setCpsr p).r14Irq = s.r14Irq := rfl
@[simp] theorem State.setCpsr_r15 (s : State) (p : Word) : (s.setCpsr p).r15 = s.r15 := rfl
@[simp] theorem State.setCpsr_cpsr (s : State) (p : Word) : (s.setCpsr p).cpsr = p := rfl
@[simp] theorem State.setCpsr_spsrSvc (s : State) (p : Word) : (s.setCpsr p).spsrSvc = s.spsrSvc := rfl
@[simp] theorem State.setCpsr_spsrIrq (s : State) (p : Word) : (s.setCpsr p).spsrIrq = s.spsrIrq := rfl
@[simp] theorem State.setCpsr_mem (s : State) (p : Word) : (s.setCpsr p).mem = s.mem := rfl
@[simp] theorem State.setCpsr_endian (s : State) (p : Word) : (s.setCpsr p).endian = s.endian := rfl
@[simp] theorem State.setCpsr_pendingIrq (s : State) (p : Word) : (s.setCpsr p).pendingIrq = s.pendingIrq := rfl
@[simp] theorem State.setCpsr_lastChar (s : State) (p : Word) : (s.setCpsr p).lastChar = s.lastChar := rfl
@[simp] theorem State.setCpsr_breakpoints (s : State) (p : Word) : (s.setCpsr p).breakpoints = s.breakpoints := rfl
@[simp] theorem State.setCpsr_halted (s : State) (p : Word) : (s.setCpsr p).halted = s.halted := rfl
@[simp] theorem State.setCpsr_waitingLine (s : State) (p : Word) : (s.setCpsr p).waitingLine = s.waitingLine := rfl
@[simp] theorem State.setCpsr_loaded (s : State) (p : Word) : (s.setCpsr p).loaded = s.loaded := rfl
@[simp] theorem State.setCpsr_keepRunning (s : State) (p : Word) : (s.setCpsr p).keepRunning = s.keepRunning := rfl
@[simp] theorem State.setCpsr_traceEnabled (s : State) (p : Word) : (s.setCpsr p).traceEnabled = s.traceEnabled := rfl
@[simp] theorem State.setCpsr_traceCount (s : State) (p : Word) : (s.setCpsr p).traceCount = s.traceCount := rfl
@[simp] theorem State.setCpsr_trace (s : State) (p : Word) : (s.setCpsr p).trace = s.trace := rfl
@[simp] theorem State.setCpsr_output (s : State) (p : Word) : (s.setCpsr p).output = s.output := rfl
@[simp] theorem State.setCpsr_inputLines (s : State) (p : Word) : (s.setCpsr p).inputLines = s.inputLines := rfl

/-! ## State.emit -/

@[simp] theorem State.emit_params (s : State) (b : Byte) : (s.emit b).params = s.params := rfl
@[simp] theorem State.emit_regs (s : State) (b : Byte) : (s.emit b).regs = s.regs := rfl
@[simp] theorem State.emit_r13Usr (s : State) (b : Byte) : (s.emit b).r13Usr = s.r13Usr := rfl
@[simp] theorem State.emit_r14Usr (s : State) (b : Byte) : (s.emit b).r14Usr = s.r14Usr := rfl
@[simp] theorem State.emit_r13Svc (s : State) (b : Byte) : (s.emit b).r13Svc = s.r13Svc := rfl
@[simp] theorem State.emit_r14Svc (s : State) (b : Byte) : (s.emit b).r14Svc = s.r14Svc := rfl
@[simp] theorem State.emit_r13Irq (s : State) (b : Byte) : (s.emit b).r13Irq = s.r13Irq := rfl
@[simp] theorem State.emit_r14Irq (s : State) (b : Byte) : (s.emit b).r14Irq = s.r14Irq := rfl
@[simp] theorem State.emit_r15 (s : State) (b : Byte) : (s.emit b).r15 = s.r15 := rfl
@[simp] theorem State.emit_cpsr (s : State) (b : Byte) : (s.emit b).cpsr = s.cpsr := rfl
@[simp] theorem State.emit_spsrSvc (s : State) (b : Byte) : (s.emit b).spsrSvc = s.spsrSvc := rfl
@[simp] theorem State.emit_spsrIrq (s : State) (b : Byte) : (s.emit b).spsrIrq = s.spsrIrq := rfl
@[simp] theorem State.emit_mem (s : State) (b : Byte) : (s.emit b).mem = s.mem := rfl
@[simp] theorem State.emit_endian (s : State) (b : Byte) : (s.emit b).endian = s.endian := rfl
@[simp] theorem State.emit_pendingIrq (s : State) (b : Byte) : (s.emit b).pendingIrq = s.pendingIrq := rfl
@[simp] theorem State.emit_lastChar (s : State) (b : Byte) : (s.emit b).lastChar = s.lastChar := rfl
@[simp] theorem State.emit_breakpoints (s : State) (b : Byte) : (s.emit b).breakpoints = s.breakpoints := rfl
@[simp] theorem State.emit_halted (s : State) (b : Byte) : (s.emit b).halted = s.halted := rfl
@[simp] theorem State.emit_waitingLine (s : State) (b : Byte) : (s.emit b).waitingLine = s.waitingLine := rfl
@[simp] theorem State.emit_loaded (s : State) (b : Byte) : (s.emit b).loaded = s.loaded := rfl
@[simp] theorem State.emit_keepRunning (s : State) (b : Byte) : (s.emit b).keepRunning = s.keepRunning := rfl
@[simp] theorem State.emit_traceEnabled (s : State) (b : Byte) : (s.emit b).traceEnabled = s.traceEnabled := rfl
@[simp] theorem State.emit_traceCount (s : State) (b : Byte) : (s.emit b).traceCount = s.traceCount := rfl
@[simp] theorem State.emit_trace (s : State) (b : Byte) : (s.emit b).trace = s.trace := rfl
@[simp] theorem State.emit_output (s : State) (b : Byte) : (s.emit b).output = s.output ++ [b] := rfl
@[simp] theorem State.emit_inputLines (s : State) (b : Byte) : (s.emit b).inputLines = s.inputLines := rfl

/-! ## State.halt -/

@[simp] theorem State.halt_params (s : State) (r : HaltReason) : (s.halt r).params = s.params := rfl
@[simp] theorem State.halt_regs (s : State) (r : HaltReason) : (s.halt r).regs = s.regs := rfl
@[simp] theorem State.halt_r13Usr (s : State) (r : HaltReason) : (s.halt r).r13Usr = s.r13Usr := rfl
@[simp] theorem State.halt_r14Usr (s : State) (r : HaltReason) : (s.halt r).r14Usr = s.r14Usr := rfl
@[simp] theorem State.halt_r13Svc (s : State) (r : HaltReason) : (s.halt r).r13Svc = s.r13Svc := rfl
@[simp] theorem State.halt_r14Svc (s : State) (r : HaltReason) : (s.halt r).r14Svc = s.r14Svc := rfl
@[simp] theorem State.halt_r13Irq (s : State) (r : HaltReason) : (s.halt r).r13Irq = s.r13Irq := rfl
@[simp] theorem State.halt_r14Irq (s : State) (r : HaltReason) : (s.halt r).r14Irq = s.r14Irq := rfl
@[simp] theorem State.halt_r15 (s : State) (r : HaltReason) : (s.halt r).r15 = s.r15 := rfl
@[simp] theorem State.halt_cpsr (s : State) (r : HaltReason) : (s.halt r).cpsr = s.cpsr := rfl
@[simp] theorem State.halt_spsrSvc (s : State) (r : HaltReason) : (s.halt r).spsrSvc = s.spsrSvc := rfl
@[simp] theorem State.halt_spsrIrq (s : State) (r : HaltReason) : (s.halt r).spsrIrq = s.spsrIrq := rfl
@[simp] theorem State.halt_mem (s : State) (r : HaltReason) : (s.halt r).mem = s.mem := rfl
@[simp] theorem State.halt_endian (s : State) (r : HaltReason) : (s.halt r).endian = s.endian := rfl
@[simp] theorem State.halt_pendingIrq (s : State) (r : HaltReason) : (s.halt r).pendingIrq = s.pendingIrq := rfl
@[simp] theorem State.halt_lastChar (s : State) (r : HaltReason) : (s.halt r).lastChar = s.lastChar := rfl
@[simp] theorem State.halt_breakpoints (s : State) (r : HaltReason) : (s.halt r).breakpoints = s.breakpoints := rfl
@[simp] theorem State.halt_halted (s : State) (r : HaltReason) : (s.halt r).halted = some r := rfl
@[simp] theorem State.halt_waitingLine (s : State) (r : HaltReason) : (s.halt r).waitingLine = false := rfl
@[simp] theorem State.halt_loaded (s : State) (r : HaltReason) : (s.halt r).loaded = s.loaded := rfl
@[simp] theorem State.halt_keepRunning (s : State) (r : HaltReason) : (s.halt r).keepRunning = s.keepRunning := rfl
@[simp] theorem State.halt_traceEnabled (s : State) (r : HaltReason) : (s.halt r).traceEnabled = s.traceEnabled := rfl
@[simp] theorem State.halt_traceCount (s : State) (r : HaltReason) : (s.halt r).traceCount = s.traceCount := rfl
@[simp] theorem State.halt_trace (s : State) (r : HaltReason) : (s.halt r).trace = s.trace := rfl
@[simp] theorem State.halt_output (s : State) (r : HaltReason) : (s.halt r).output = s.output := rfl
@[simp] theorem State.halt_inputLines (s : State) (r : HaltReason) : (s.halt r).inputLines = s.inputLines := rfl

/-! ## State.incPc -/

@[simp] theorem State.incPc_params (s : State) : (s.incPc).params = s.params := rfl
@[simp] theorem State.incPc_regs (s : State) : (s.incPc).regs = s.regs := rfl
@[simp] theorem State.incPc_r13Usr (s : State) : (s.incPc).r13Usr = s.r13Usr := rfl
@[simp] theorem State.incPc_r14Usr (s : State) : (s.incPc).r14Usr = s.r14Usr := rfl
@[simp] theorem State.incPc_r13Svc (s : State) : (s.incPc).r13Svc = s.r13Svc := rfl
@[simp] theorem State.incPc_r14Svc (s : State) : (s.incPc).r14Svc = s.r14Svc := rfl
@[simp] theorem State.incPc_r13Irq (s : State) : (s.incPc).r13Irq = s.r13Irq := rfl
@[simp] theorem State.incPc_r14Irq (s : State) : (s.incPc).r14Irq = s.r14Irq := rfl
@[simp] theorem State.incPc_r15 (s : State) : (s.incPc).r15 = s.r15 + 4#32 := rfl
@[simp] theorem State.incPc_cpsr (s : State) : (s.incPc).cpsr = s.cpsr := rfl
@[simp] theorem State.incPc_spsrSvc (s : State) : (s.incPc).spsrSvc = s.spsrSvc := rfl
@[simp] theorem State.incPc_spsrIrq (s : State) : (s.incPc).spsrIrq = s.spsrIrq := rfl
@[simp] theorem State.incPc_mem (s : State) : (s.incPc).mem = s.mem := rfl
@[simp] theorem State.incPc_endian (s : State) : (s.incPc).endian = s.endian := rfl
@[simp] theorem State.incPc_pendingIrq (s : State) : (s.incPc).pendingIrq = s.pendingIrq := rfl
@[simp] theorem State.incPc_lastChar (s : State) : (s.incPc).lastChar = s.lastChar := rfl
@[simp] theorem State.incPc_breakpoints (s : State) : (s.incPc).breakpoints = s.breakpoints := rfl
@[simp] theorem State.incPc_halted (s : State) : (s.incPc).halted = s.halted := rfl
@[simp] theorem State.incPc_waitingLine (s : State) : (s.incPc).waitingLine = s.waitingLine := rfl
@[simp] theorem State.incPc_loaded (s : State) : (s.incPc).loaded = s.loaded := rfl
@[simp] theorem State.incPc_keepRunning (s : State) : (s.incPc).keepRunning = s.keepRunning := rfl
@[simp] theorem State.incPc_traceEnabled (s : State) : (s.incPc).traceEnabled = s.traceEnabled := rfl
@[simp] theorem State.incPc_traceCount (s : State) : (s.incPc).traceCount = s.traceCount := rfl
@[simp] theorem State.incPc_trace (s : State) : (s.incPc).trace = s.trace := rfl
@[simp] theorem State.incPc_output (s : State) : (s.incPc).output = s.output := rfl
@[simp] theorem State.incPc_inputLines (s : State) : (s.incPc).inputLines = s.inputLines := rfl

/-! ## State.decPc -/

@[simp] theorem State.decPc_params (s : State) : (s.decPc).params = s.params := rfl
@[simp] theorem State.decPc_regs (s : State) : (s.decPc).regs = s.regs := rfl
@[simp] theorem State.decPc_r13Usr (s : State) : (s.decPc).r13Usr = s.r13Usr := rfl
@[simp] theorem State.decPc_r14Usr (s : State) : (s.decPc).r14Usr = s.r14Usr := rfl
@[simp] theorem State.decPc_r13Svc (s : State) : (s.decPc).r13Svc = s.r13Svc := rfl
@[simp] theorem State.decPc_r14Svc (s : State) : (s.decPc).r14Svc = s.r14Svc := rfl
@[simp] theorem State.decPc_r13Irq (s : State) : (s.decPc).r13Irq = s.r13Irq := rfl
@[simp] theorem State.decPc_r14Irq (s : State) : (s.decPc).r14Irq = s.r14Irq := rfl
@[simp] theorem State.decPc_r15 (s : State) : (s.decPc).r15 = s.r15 - 4#32 := rfl
@[simp] theorem State.decPc_cpsr (s : State) : (s.decPc).cpsr = s.cpsr := rfl
@[simp] theorem State.decPc_spsrSvc (s : State) : (s.decPc).spsrSvc = s.spsrSvc := rfl
@[simp] theorem State.decPc_spsrIrq (s : State) : (s.decPc).spsrIrq = s.spsrIrq := rfl
@[simp] theorem State.decPc_mem (s : State) : (s.decPc).mem = s.mem := rfl
@[simp] theorem State.decPc_endian (s : State) : (s.decPc).endian = s.endian := rfl
@[simp] theorem State.decPc_pendingIrq (s : State) : (s.decPc).pendingIrq = s.pendingIrq := rfl
@[simp] theorem State.decPc_lastChar (s : State) : (s.decPc).lastChar = s.lastChar := rfl
@[simp] theorem State.decPc_breakpoints (s : State) : (s.decPc).breakpoints = s.breakpoints := rfl
@[simp] theorem State.decPc_halted (s : State) : (s.decPc).halted = s.halted := rfl
@[simp] theorem State.decPc_waitingLine (s : State) : (s.decPc).waitingLine = s.waitingLine := rfl
@[simp] theorem State.decPc_loaded (s : State) : (s.decPc).loaded = s.loaded := rfl
@[simp] theorem State.decPc_keepRunning (s : State) : (s.decPc).keepRunning = s.keepRunning := rfl
@[simp] theorem State.decPc_traceEnabled (s : State) : (s.decPc).traceEnabled = s.traceEnabled := rfl
@[simp] theorem State.decPc_traceCount (s : State) : (s.decPc).traceCount = s.traceCount := rfl
@[simp] theorem State.decPc_trace (s : State) : (s.decPc).trace = s.trace := rfl
@[simp] theorem State.decPc_output (s : State) : (s.decPc).output = s.output := rfl
@[simp] theorem State.decPc_inputLines (s : State) : (s.decPc).inputLines = s.inputLines := rfl

/-! ## State.moveOn -/

/-- r15 after Advance-PC (40_execution_cycle.md R95). -/
def nextR15 (s : State) (n : Option Word) : Word :=
  match n with
  | none => s.r15 + 4#32
  | some v => v + 8#32

@[simp] theorem nextR15_none (s : State) : nextR15 s none = s.r15 + 4#32 := rfl
@[simp] theorem nextR15_some (s : State) (v : Word) : nextR15 s (some v) = v + 8#32 := rfl

@[simp] theorem State.moveOn_params (s : State) (n : Option Word) : (s.moveOn n).params = s.params := by cases n <;> rfl
@[simp] theorem State.moveOn_regs (s : State) (n : Option Word) : (s.moveOn n).regs = s.regs := by cases n <;> rfl
@[simp] theorem State.moveOn_r13Usr (s : State) (n : Option Word) : (s.moveOn n).r13Usr = s.r13Usr := by cases n <;> rfl
@[simp] theorem State.moveOn_r14Usr (s : State) (n : Option Word) : (s.moveOn n).r14Usr = s.r14Usr := by cases n <;> rfl
@[simp] theorem State.moveOn_r13Svc (s : State) (n : Option Word) : (s.moveOn n).r13Svc = s.r13Svc := by cases n <;> rfl
@[simp] theorem State.moveOn_r14Svc (s : State) (n : Option Word) : (s.moveOn n).r14Svc = s.r14Svc := by cases n <;> rfl
@[simp] theorem State.moveOn_r13Irq (s : State) (n : Option Word) : (s.moveOn n).r13Irq = s.r13Irq := by cases n <;> rfl
@[simp] theorem State.moveOn_r14Irq (s : State) (n : Option Word) : (s.moveOn n).r14Irq = s.r14Irq := by cases n <;> rfl
@[simp] theorem State.moveOn_r15 (s : State) (n : Option Word) : (s.moveOn n).r15 = nextR15 s n := by cases n <;> rfl
@[simp] theorem State.moveOn_cpsr (s : State) (n : Option Word) : (s.moveOn n).cpsr = s.cpsr := by cases n <;> rfl
@[simp] theorem State.moveOn_spsrSvc (s : State) (n : Option Word) : (s.moveOn n).spsrSvc = s.spsrSvc := by cases n <;> rfl
@[simp] theorem State.moveOn_spsrIrq (s : State) (n : Option Word) : (s.moveOn n).spsrIrq = s.spsrIrq := by cases n <;> rfl
@[simp] theorem State.moveOn_mem (s : State) (n : Option Word) : (s.moveOn n).mem = s.mem := by cases n <;> rfl
@[simp] theorem State.moveOn_endian (s : State) (n : Option Word) : (s.moveOn n).endian = s.endian := by cases n <;> rfl
@[simp] theorem State.moveOn_pendingIrq (s : State) (n : Option Word) : (s.moveOn n).pendingIrq = s.pendingIrq := by cases n <;> rfl
@[simp] theorem State.moveOn_lastChar (s : State) (n : Option Word) : (s.moveOn n).lastChar = s.lastChar := by cases n <;> rfl
@[simp] theorem State.moveOn_breakpoints (s : State) (n : Option Word) : (s.moveOn n).breakpoints = s.breakpoints := by cases n <;> rfl
@[simp] theorem State.moveOn_halted (s : State) (n : Option Word) : (s.moveOn n).halted = none := by cases n <;> rfl
@[simp] theorem State.moveOn_waitingLine (s : State) (n : Option Word) : (s.moveOn n).waitingLine = false := by cases n <;> rfl
@[simp] theorem State.moveOn_loaded (s : State) (n : Option Word) : (s.moveOn n).loaded = s.loaded := by cases n <;> rfl
@[simp] theorem State.moveOn_keepRunning (s : State) (n : Option Word) : (s.moveOn n).keepRunning = s.keepRunning := by cases n <;> rfl
@[simp] theorem State.moveOn_traceEnabled (s : State) (n : Option Word) : (s.moveOn n).traceEnabled = s.traceEnabled := by cases n <;> rfl
@[simp] theorem State.moveOn_traceCount (s : State) (n : Option Word) : (s.moveOn n).traceCount = s.traceCount := by cases n <;> rfl
@[simp] theorem State.moveOn_trace (s : State) (n : Option Word) : (s.moveOn n).trace = s.trace := by cases n <;> rfl
@[simp] theorem State.moveOn_output (s : State) (n : Option Word) : (s.moveOn n).output = s.output := by cases n <;> rfl
@[simp] theorem State.moveOn_inputLines (s : State) (n : Option Word) : (s.moveOn n).inputLines = s.inputLines := by cases n <;> rfl

/-! ## State.recordTrace -/

@[simp] theorem State.recordTrace_params (s : State) (tr : Bool) : (s.recordTrace tr).params = s.params := by unfold State.recordTrace; split <;> rfl
@[simp] theorem State.recordTrace_regs (s : State) (tr : Bool) : (s.recordTrace tr).regs = s.regs := by unfold State.recordTrace; split <;> rfl
@[simp] theorem State.recordTrace_r13Usr (s : State) (tr : Bool) : (s.recordTrace tr).r13Usr = s.r13Usr := by unfold State.recordTrace; split <;> rfl
@[simp] theorem State.recordTrace_r14Usr (s : State) (tr : Bool) : (s.recordTrace tr).r14Usr = s.r14Usr := by unfold State.recordTrace; split <;> rfl
@[simp] theorem State.recordTrace_r13Svc (s : State) (tr : Bool) : (s.recordTrace tr).r13Svc = s.r13Svc := by unfold State.recordTrace; split <;> rfl
@[simp] theorem State.recordTrace_r14Svc (s : State) (tr : Bool) : (s.recordTrace tr).r14Svc = s.r14Svc := by unfold State.recordTrace; split <;> rfl
@[simp] theorem State.recordTrace_r13Irq (s : State) (tr : Bool) : (s.recordTrace tr).r13Irq = s.r13Irq := by unfold State.recordTrace; split <;> rfl
@[simp] theorem State.recordTrace_r14Irq (s : State) (tr : Bool) : (s.recordTrace tr).r14Irq = s.r14Irq := by unfold State.recordTrace; split <;> rfl
@[simp] theorem State.recordTrace_r15 (s : State) (tr : Bool) : (s.recordTrace tr).r15 = s.r15 := by unfold State.recordTrace; split <;> rfl
@[simp] theorem State.recordTrace_cpsr (s : State) (tr : Bool) : (s.recordTrace tr).cpsr = s.cpsr := by unfold State.recordTrace; split <;> rfl
@[simp] theorem State.recordTrace_spsrSvc (s : State) (tr : Bool) : (s.recordTrace tr).spsrSvc = s.spsrSvc := by unfold State.recordTrace; split <;> rfl
@[simp] theorem State.recordTrace_spsrIrq (s : State) (tr : Bool) : (s.recordTrace tr).spsrIrq = s.spsrIrq := by unfold State.recordTrace; split <;> rfl
@[simp] theorem State.recordTrace_mem (s : State) (tr : Bool) : (s.recordTrace tr).mem = s.mem := by unfold State.recordTrace; split <;> rfl
@[simp] theorem State.recordTrace_endian (s : State) (tr : Bool) : (s.recordTrace tr).endian = s.endian := by unfold State.recordTrace; split <;> rfl
@[simp] theorem State.recordTrace_pendingIrq (s : State) (tr : Bool) : (s.recordTrace tr).pendingIrq = s.pendingIrq := by unfold State.recordTrace; split <;> rfl
@[simp] theorem State.recordTrace_lastChar (s : State) (tr : Bool) : (s.recordTrace tr).lastChar = s.lastChar := by unfold State.recordTrace; split <;> rfl
@[simp] theorem State.recordTrace_breakpoints (s : State) (tr : Bool) : (s.recordTrace tr).breakpoints = s.breakpoints := by unfold State.recordTrace; split <;> rfl
@[simp] theorem State.recordTrace_halted (s : State) (tr : Bool) : (s.recordTrace tr).halted = s.halted := by unfold State.recordTrace; split <;> rfl
@[simp] theorem State.recordTrace_waitingLine (s : State) (tr : Bool) : (s.recordTrace tr).waitingLine = s.waitingLine := by unfold State.recordTrace; split <;> rfl
@[simp] theorem State.recordTrace_loaded (s : State) (tr : Bool) : (s.recordTrace tr).loaded = s.loaded := by unfold State.recordTrace; split <;> rfl
@[simp] theorem State.recordTrace_keepRunning (s : State) (tr : Bool) : (s.recordTrace tr).keepRunning = s.keepRunning := by unfold State.recordTrace; split <;> rfl
@[simp] theorem State.recordTrace_traceEnabled (s : State) (tr : Bool) : (s.recordTrace tr).traceEnabled = s.traceEnabled := by unfold State.recordTrace; split <;> rfl
@[simp] theorem State.recordTrace_output (s : State) (tr : Bool) : (s.recordTrace tr).output = s.output := by unfold State.recordTrace; split <;> rfl
@[simp] theorem State.recordTrace_inputLines (s : State) (tr : Bool) : (s.recordTrace tr).inputLines = s.inputLines := by unfold State.recordTrace; split <;> rfl

/-! ## State.advance -/

@[simp] theorem State.advance_params (s : State) (n : Option Word) (tr : Bool) : (s.advance n tr).params = s.params := by simp [State.advance]
@[simp] theorem State.advance_regs (s : State) (n : Option Word) (tr : Bool) : (s.advance n tr).regs = s.regs := by simp [State.advance]
@[simp] theorem State.advance_r13Usr (s : State) (n : Option Word) (tr : Bool) : (s.advance n tr).r13Usr = s.r13Usr := by simp [State.advance]
@[simp] theorem State.advance_r14Usr (s : State) (n : Option Word) (tr : Bool) : (s.advance n tr).r14Usr = s.r14Usr := by simp [State.advance]
@[simp] theorem State.advance_r13Svc (s : State) (n : Option Word) (tr : Bool) : (s.advance n tr).r13Svc = s.r13Svc := by simp [State.advance]
@[simp] theorem State.advance_r14Svc (s : State) (n : Option Word) (tr : Bool) : (s.advance n tr).r14Svc = s.r14Svc := by simp [State.advance]
@[simp] theorem State.advance_r13Irq (s : State) (n : Option Word) (tr : Bool) : (s.advance n tr).r13Irq = s.r13Irq := by simp [State.advance]
@[simp] theorem State.advance_r14Irq (s : State) (n : Option Word) (tr : Bool) : (s.advance n tr).r14Irq = s.r14Irq := by simp [State.advance]
@[simp] theorem State.advance_r15 (s : State) (n : Option Word) (tr : Bool) : (s.advance n tr).r15 = nextR15 s n := by simp [State.advance]
@[simp] theorem State.advance_cpsr (s : State) (n : Option Word) (tr : Bool) : (s.advance n tr).cpsr = s.cpsr := by simp [State.advance]
@[simp] theorem State.advance_spsrSvc (s : State) (n : Option Word) (tr : Bool) : (s.advance n tr).spsrSvc = s.spsrSvc := by simp [State.advance]
@[simp] theorem State.advance_spsrIrq (s : State) (n : Option Word) (tr : Bool) : (s.advance n tr).spsrIrq = s.spsrIrq := by simp [State.advance]
@[simp] theorem State.advance_mem (s : State) (n : Option Word) (tr : Bool) : (s.advance n tr).mem = s.mem := by simp [State.advance]
@[simp] theorem State.advance_endian (s : State) (n : Option Word) (tr : Bool) : (s.advance n tr).endian = s.endian := by simp [State.advance]
@[simp] theorem State.advance_pendingIrq (s : State) (n : Option Word) (tr : Bool) : (s.advance n tr).pendingIrq = s.pendingIrq := by simp [State.advance]
@[simp] theorem State.advance_lastChar (s : State) (n : Option Word) (tr : Bool) : (s.advance n tr).lastChar = s.lastChar := by simp [State.advance]
@[simp] theorem State.advance_breakpoints (s : State) (n : Option Word) (tr : Bool) : (s.advance n tr).breakpoints = s.breakpoints := by simp [State.advance]
@[simp] theorem State.advance_halted (s : State) (n : Option Word) (tr : Bool) : (s.advance n tr).halted = none := by simp [State.advance]
@[simp] theorem State.advance_waitingLine (s : State) (n : Option Word) (tr : Bool) : (s.advance n tr).waitingLine = false := by simp [State.advance]
@[simp] theorem State.advance_loaded (s : State) (n : Option Word) (tr : Bool) : (s.advance n tr).loaded = s.loaded := by simp [State.advance]
@[simp] theorem State.advance_keepRunning (s : State) (n : Option Word) (tr : Bool) : (s.advance n tr).keepRunning = s.keepRunning := by simp [State.advance]
@[simp] theorem State.advance_traceEnabled (s : State) (n : Option Word) (tr : Bool) : (s.advance n tr).traceEnabled = s.traceEnabled := by simp [State.advance]
@[simp] theorem State.advance_output (s : State) (n : Option Word) (tr : Bool) : (s.advance n tr).output = s.output := by simp [State.advance]
@[simp] theorem State.advance_inputLines (s : State) (n : Option Word) (tr : Bool) : (s.advance n tr).inputLines = s.inputLines := by simp [State.advance]

/-! ## takeException, SWI -/

@[simp] theorem takeException_swi_params (s : State) (ret : Word) : (takeException .swi ret s).params = s.params := rfl
@[simp] theorem takeException_swi_regs (s : State) (ret : Word) : (takeException .swi ret s).regs = s.regs := rfl
@[simp] theorem takeException_swi_r13Usr (s : State) (ret : Word) : (takeException .swi ret s).r13Usr = s.r13Usr := rfl
@[simp] theorem takeException_swi_r14Usr (s : State) (ret : Word) : (takeException .swi ret s).r14Usr = s.r14Usr := rfl
@[simp] theorem takeException_swi_r13Svc (s : State) (ret : Word) : (takeException .swi ret s).r13Svc = s.r13Svc := rfl
@[simp] theorem takeException_swi_r14Svc (s : State) (ret : Word) : (takeException .swi ret s).r14Svc = ret := rfl
@[simp] theorem takeException_swi_r13Irq (s : State) (ret : Word) : (takeException .swi ret s).r13Irq = s.r13Irq := rfl
@[simp] theorem takeException_swi_r14Irq (s : State) (ret : Word) : (takeException .swi ret s).r14Irq = s.r14Irq := rfl
@[simp] theorem takeException_swi_r15 (s : State) (ret : Word) : (takeException .swi ret s).r15 = swiVector + 8#32 := rfl
@[simp] theorem takeException_swi_cpsr (s : State) (ret : Word) : (takeException .swi ret s).cpsr = entryStatus s.cpsr .supervisor := rfl
@[simp] theorem takeException_swi_spsrSvc (s : State) (ret : Word) : (takeException .swi ret s).spsrSvc = s.cpsr := rfl
@[simp] theorem takeException_swi_spsrIrq (s : State) (ret : Word) : (takeException .swi ret s).spsrIrq = s.spsrIrq := rfl
@[simp] theorem takeException_swi_mem (s : State) (ret : Word) : (takeException .swi ret s).mem = s.mem := rfl
@[simp] theorem takeException_swi_endian (s : State) (ret : Word) : (takeException .swi ret s).endian = s.endian := rfl
@[simp] theorem takeException_swi_pendingIrq (s : State) (ret : Word) : (takeException .swi ret s).pendingIrq = s.pendingIrq := rfl
@[simp] theorem takeException_swi_lastChar (s : State) (ret : Word) : (takeException .swi ret s).lastChar = s.lastChar := rfl
@[simp] theorem takeException_swi_breakpoints (s : State) (ret : Word) : (takeException .swi ret s).breakpoints = s.breakpoints := rfl
@[simp] theorem takeException_swi_halted (s : State) (ret : Word) : (takeException .swi ret s).halted = s.halted := rfl
@[simp] theorem takeException_swi_waitingLine (s : State) (ret : Word) : (takeException .swi ret s).waitingLine = s.waitingLine := rfl
@[simp] theorem takeException_swi_loaded (s : State) (ret : Word) : (takeException .swi ret s).loaded = s.loaded := rfl
@[simp] theorem takeException_swi_keepRunning (s : State) (ret : Word) : (takeException .swi ret s).keepRunning = s.keepRunning := rfl
@[simp] theorem takeException_swi_traceEnabled (s : State) (ret : Word) : (takeException .swi ret s).traceEnabled = s.traceEnabled := rfl
@[simp] theorem takeException_swi_traceCount (s : State) (ret : Word) : (takeException .swi ret s).traceCount = s.traceCount := rfl
@[simp] theorem takeException_swi_trace (s : State) (ret : Word) : (takeException .swi ret s).trace = s.trace := rfl
@[simp] theorem takeException_swi_output (s : State) (ret : Word) : (takeException .swi ret s).output = s.output := rfl
@[simp] theorem takeException_swi_inputLines (s : State) (ret : Word) : (takeException .swi ret s).inputLines = s.inputLines := rfl

/-! ## takeException, IRQ -/

@[simp] theorem takeException_irq_params (s : State) (ret : Word) : (takeException .irq ret s).params = s.params := rfl
@[simp] theorem takeException_irq_regs (s : State) (ret : Word) : (takeException .irq ret s).regs = s.regs := rfl
@[simp] theorem takeException_irq_r13Usr (s : State) (ret : Word) : (takeException .irq ret s).r13Usr = s.r13Usr := rfl
@[simp] theorem takeException_irq_r14Usr (s : State) (ret : Word) : (takeException .irq ret s).r14Usr = s.r14Usr := rfl
@[simp] theorem takeException_irq_r13Svc (s : State) (ret : Word) : (takeException .irq ret s).r13Svc = s.r13Svc := rfl
@[simp] theorem takeException_irq_r14Svc (s : State) (ret : Word) : (takeException .irq ret s).r14Svc = s.r14Svc := rfl
@[simp] theorem takeException_irq_r13Irq (s : State) (ret : Word) : (takeException .irq ret s).r13Irq = s.r13Irq := rfl
@[simp] theorem takeException_irq_r14Irq (s : State) (ret : Word) : (takeException .irq ret s).r14Irq = ret := rfl
@[simp] theorem takeException_irq_r15 (s : State) (ret : Word) : (takeException .irq ret s).r15 = irqVector + 8#32 := rfl
@[simp] theorem takeException_irq_cpsr (s : State) (ret : Word) : (takeException .irq ret s).cpsr = entryStatus s.cpsr .irq := rfl
@[simp] theorem takeException_irq_spsrSvc (s : State) (ret : Word) : (takeException .irq ret s).spsrSvc = s.spsrSvc := rfl
@[simp] theorem takeException_irq_spsrIrq (s : State) (ret : Word) : (takeException .irq ret s).spsrIrq = s.cpsr := rfl
@[simp] theorem takeException_irq_mem (s : State) (ret : Word) : (takeException .irq ret s).mem = s.mem := rfl
@[simp] theorem takeException_irq_endian (s : State) (ret : Word) : (takeException .irq ret s).endian = s.endian := rfl
@[simp] theorem takeException_irq_pendingIrq (s : State) (ret : Word) : (takeException .irq ret s).pendingIrq = false := rfl
@[simp] theorem takeException_irq_lastChar (s : State) (ret : Word) : (takeException .irq ret s).lastChar = s.lastChar := rfl
@[simp] theorem takeException_irq_breakpoints (s : State) (ret : Word) : (takeException .irq ret s).breakpoints = s.breakpoints := rfl
@[simp] theorem takeException_irq_halted (s : State) (ret : Word) : (takeException .irq ret s).halted = s.halted := rfl
@[simp] theorem takeException_irq_waitingLine (s : State) (ret : Word) : (takeException .irq ret s).waitingLine = s.waitingLine := rfl
@[simp] theorem takeException_irq_loaded (s : State) (ret : Word) : (takeException .irq ret s).loaded = s.loaded := rfl
@[simp] theorem takeException_irq_keepRunning (s : State) (ret : Word) : (takeException .irq ret s).keepRunning = s.keepRunning := rfl
@[simp] theorem takeException_irq_traceEnabled (s : State) (ret : Word) : (takeException .irq ret s).traceEnabled = s.traceEnabled := rfl
@[simp] theorem takeException_irq_traceCount (s : State) (ret : Word) : (takeException .irq ret s).traceCount = s.traceCount := rfl
@[simp] theorem takeException_irq_trace (s : State) (ret : Word) : (takeException .irq ret s).trace = s.trace := rfl
@[simp] theorem takeException_irq_output (s : State) (ret : Word) : (takeException .irq ret s).output = s.output := rfl
@[simp] theorem takeException_irq_inputLines (s : State) (ret : Word) : (takeException .irq ret s).inputLines = s.inputLines := rfl

/-! ## setSlot

The fields outside the register file; the slots themselves are in Laws/Registers.lean. -/

@[simp] theorem State.setSlot_params (s : State) (sl : Slot) (v : Word) : (s.setSlot sl v).params = s.params := by cases sl <;> rfl
@[simp] theorem State.setSlot_cpsr (s : State) (sl : Slot) (v : Word) : (s.setSlot sl v).cpsr = s.cpsr := by cases sl <;> rfl
@[simp] theorem State.setSlot_spsrSvc (s : State) (sl : Slot) (v : Word) : (s.setSlot sl v).spsrSvc = s.spsrSvc := by cases sl <;> rfl
@[simp] theorem State.setSlot_spsrIrq (s : State) (sl : Slot) (v : Word) : (s.setSlot sl v).spsrIrq = s.spsrIrq := by cases sl <;> rfl
@[simp] theorem State.setSlot_mem (s : State) (sl : Slot) (v : Word) : (s.setSlot sl v).mem = s.mem := by cases sl <;> rfl
@[simp] theorem State.setSlot_endian (s : State) (sl : Slot) (v : Word) : (s.setSlot sl v).endian = s.endian := by cases sl <;> rfl
@[simp] theorem State.setSlot_pendingIrq (s : State) (sl : Slot) (v : Word) : (s.setSlot sl v).pendingIrq = s.pendingIrq := by cases sl <;> rfl
@[simp] theorem State.setSlot_lastChar (s : State) (sl : Slot) (v : Word) : (s.setSlot sl v).lastChar = s.lastChar := by cases sl <;> rfl
@[simp] theorem State.setSlot_breakpoints (s : State) (sl : Slot) (v : Word) : (s.setSlot sl v).breakpoints = s.breakpoints := by cases sl <;> rfl
@[simp] theorem State.setSlot_halted (s : State) (sl : Slot) (v : Word) : (s.setSlot sl v).halted = s.halted := by cases sl <;> rfl
@[simp] theorem State.setSlot_waitingLine (s : State) (sl : Slot) (v : Word) : (s.setSlot sl v).waitingLine = s.waitingLine := by cases sl <;> rfl
@[simp] theorem State.setSlot_loaded (s : State) (sl : Slot) (v : Word) : (s.setSlot sl v).loaded = s.loaded := by cases sl <;> rfl
@[simp] theorem State.setSlot_keepRunning (s : State) (sl : Slot) (v : Word) : (s.setSlot sl v).keepRunning = s.keepRunning := by cases sl <;> rfl
@[simp] theorem State.setSlot_traceEnabled (s : State) (sl : Slot) (v : Word) : (s.setSlot sl v).traceEnabled = s.traceEnabled := by cases sl <;> rfl
@[simp] theorem State.setSlot_traceCount (s : State) (sl : Slot) (v : Word) : (s.setSlot sl v).traceCount = s.traceCount := by cases sl <;> rfl
@[simp] theorem State.setSlot_trace (s : State) (sl : Slot) (v : Word) : (s.setSlot sl v).trace = s.trace := by cases sl <;> rfl
@[simp] theorem State.setSlot_output (s : State) (sl : Slot) (v : Word) : (s.setSlot sl v).output = s.output := by cases sl <;> rfl
@[simp] theorem State.setSlot_inputLines (s : State) (sl : Slot) (v : Word) : (s.setSlot sl v).inputLines = s.inputLines := by cases sl <;> rfl

/-! ## setCurrentSpsr -/

@[simp] theorem State.setCurrentSpsr_params (s : State) (v : Word) : (s.setCurrentSpsr v).params = s.params := by unfold State.setCurrentSpsr; split <;> rfl
@[simp] theorem State.setCurrentSpsr_regs (s : State) (v : Word) : (s.setCurrentSpsr v).regs = s.regs := by unfold State.setCurrentSpsr; split <;> rfl
@[simp] theorem State.setCurrentSpsr_r13Usr (s : State) (v : Word) : (s.setCurrentSpsr v).r13Usr = s.r13Usr := by unfold State.setCurrentSpsr; split <;> rfl
@[simp] theorem State.setCurrentSpsr_r14Usr (s : State) (v : Word) : (s.setCurrentSpsr v).r14Usr = s.r14Usr := by unfold State.setCurrentSpsr; split <;> rfl
@[simp] theorem State.setCurrentSpsr_r13Svc (s : State) (v : Word) : (s.setCurrentSpsr v).r13Svc = s.r13Svc := by unfold State.setCurrentSpsr; split <;> rfl
@[simp] theorem State.setCurrentSpsr_r14Svc (s : State) (v : Word) : (s.setCurrentSpsr v).r14Svc = s.r14Svc := by unfold State.setCurrentSpsr; split <;> rfl
@[simp] theorem State.setCurrentSpsr_r13Irq (s : State) (v : Word) : (s.setCurrentSpsr v).r13Irq = s.r13Irq := by unfold State.setCurrentSpsr; split <;> rfl
@[simp] theorem State.setCurrentSpsr_r14Irq (s : State) (v : Word) : (s.setCurrentSpsr v).r14Irq = s.r14Irq := by unfold State.setCurrentSpsr; split <;> rfl
@[simp] theorem State.setCurrentSpsr_r15 (s : State) (v : Word) : (s.setCurrentSpsr v).r15 = s.r15 := by unfold State.setCurrentSpsr; split <;> rfl
@[simp] theorem State.setCurrentSpsr_cpsr (s : State) (v : Word) : (s.setCurrentSpsr v).cpsr = s.cpsr := by unfold State.setCurrentSpsr; split <;> rfl
@[simp] theorem State.setCurrentSpsr_mem (s : State) (v : Word) : (s.setCurrentSpsr v).mem = s.mem := by unfold State.setCurrentSpsr; split <;> rfl
@[simp] theorem State.setCurrentSpsr_endian (s : State) (v : Word) : (s.setCurrentSpsr v).endian = s.endian := by unfold State.setCurrentSpsr; split <;> rfl
@[simp] theorem State.setCurrentSpsr_pendingIrq (s : State) (v : Word) : (s.setCurrentSpsr v).pendingIrq = s.pendingIrq := by unfold State.setCurrentSpsr; split <;> rfl
@[simp] theorem State.setCurrentSpsr_lastChar (s : State) (v : Word) : (s.setCurrentSpsr v).lastChar = s.lastChar := by unfold State.setCurrentSpsr; split <;> rfl
@[simp] theorem State.setCurrentSpsr_breakpoints (s : State) (v : Word) : (s.setCurrentSpsr v).breakpoints = s.breakpoints := by unfold State.setCurrentSpsr; split <;> rfl
@[simp] theorem State.setCurrentSpsr_halted (s : State) (v : Word) : (s.setCurrentSpsr v).halted = s.halted := by unfold State.setCurrentSpsr; split <;> rfl
@[simp] theorem State.setCurrentSpsr_waitingLine (s : State) (v : Word) : (s.setCurrentSpsr v).waitingLine = s.waitingLine := by unfold State.setCurrentSpsr; split <;> rfl
@[simp] theorem State.setCurrentSpsr_loaded (s : State) (v : Word) : (s.setCurrentSpsr v).loaded = s.loaded := by unfold State.setCurrentSpsr; split <;> rfl
@[simp] theorem State.setCurrentSpsr_keepRunning (s : State) (v : Word) : (s.setCurrentSpsr v).keepRunning = s.keepRunning := by unfold State.setCurrentSpsr; split <;> rfl
@[simp] theorem State.setCurrentSpsr_traceEnabled (s : State) (v : Word) : (s.setCurrentSpsr v).traceEnabled = s.traceEnabled := by unfold State.setCurrentSpsr; split <;> rfl
@[simp] theorem State.setCurrentSpsr_traceCount (s : State) (v : Word) : (s.setCurrentSpsr v).traceCount = s.traceCount := by unfold State.setCurrentSpsr; split <;> rfl
@[simp] theorem State.setCurrentSpsr_trace (s : State) (v : Word) : (s.setCurrentSpsr v).trace = s.trace := by unfold State.setCurrentSpsr; split <;> rfl
@[simp] theorem State.setCurrentSpsr_output (s : State) (v : Word) : (s.setCurrentSpsr v).output = s.output := by unfold State.setCurrentSpsr; split <;> rfl
@[simp] theorem State.setCurrentSpsr_inputLines (s : State) (v : Word) : (s.setCurrentSpsr v).inputLines = s.inputLines := by unfold State.setCurrentSpsr; split <;> rfl

/-- Replacing the CPSR by itself changes nothing. -/
@[simp] theorem State.setCpsr_self (s : State) : s.setCpsr s.cpsr = s := rfl

@[simp] theorem State.setCpsr_setCpsr (s : State) (p q : Word) : (s.setCpsr p).setCpsr q = s.setCpsr q := rfl

/-- r15 is 8 ahead of F (10_state.md R19). -/
theorem State.execAddr_add_eight (s : State) : s.execAddr + 8#32 = s.r15 := by
  simp [State.execAddr]

@[simp] theorem Work.setPc_st (w : Work) (v : Word) : (w.setPc v).st = w.st := rfl
@[simp] theorem Work.setPc_nextPc (w : Work) (v : Word) : (w.setPc v).nextPc = some v := rfl
@[simp] theorem Work.start_st (s : State) : (Work.start s).st = s := rfl
@[simp] theorem Work.start_nextPc (s : State) : (Work.start s).nextPc = none := rfl
@[simp] theorem Work.setFlags_st (w : Work) (r : AluResult) : (w.setFlags r).st = w.st.setCpsr (flagsOf w.st.cpsr r) := rfl
@[simp] theorem Work.setFlags_nextPc (w : Work) (r : AluResult) : (w.setFlags r).nextPc = w.nextPc := rfl
@[simp] theorem Work.setFlagsNZ_st (w : Work) (x : Word) : (w.setFlagsNZ x).st = w.st.setCpsr (flagsNZ w.st.cpsr x) := rfl
@[simp] theorem Work.setFlagsNZ_nextPc (w : Work) (x : Word) : (w.setFlagsNZ x).nextPc = w.nextPc := rfl

end Sys2Proof.Machine
end

