-- ==== Sys2Proof/Laws/Memory.lean ====
section
/-! SUPPORT. The laws of the RAM: reading after writing, the canonical form kept by every operation, and
one lemma each that says everything `memRead` and `memWrite` can do. -/

namespace Sys2Proof.Machine

/-! ## Bytes -/

theorem readCell_eraseCell_other {m : List Host.Cell} {a b : Nat} (h : b ≠ a) :
    readCell (eraseCell m a) b = readCell m b := by
  induction m with
  | nil => rfl
  | cons c m ih =>
    obtain ⟨k, x⟩ := c
    by_cases hk : k = a
    · subst hk; simp [eraseCell, readCell, ih, Ne.symm h]
    · rw [eraseCell, if_neg hk, readCell, readCell, ih]

theorem readCell_eraseCell_same (m : List Host.Cell) (a : Nat) :
    readCell (eraseCell m a) a = unwritten := by
  induction m with
  | nil => rfl
  | cons c m ih =>
    obtain ⟨k, x⟩ := c
    by_cases hk : k = a <;> simp [eraseCell, readCell, hk, ih]

theorem readCell_insertCell {m : List Host.Cell} {a : Nat} (v : Byte) (ha : ∀ c ∈ m, c.1 ≠ a)
    (b : Nat) : readCell (insertCell m a v) b = if b = a then v else readCell m b := by
  induction m with
  | nil => simp [insertCell, readCell, eq_comm]
  | cons c m ih =>
    obtain ⟨k, x⟩ := c
    have hk : k ≠ a := ha (k, x) (by simp)
    have ih := ih fun c hc => ha c (by simp [hc])
    by_cases hlt : a < k
    · simp [insertCell, readCell, hlt, eq_comm]
    · by_cases hb : k = b
      · subst hb; simp [insertCell, readCell, hlt, hk]
      · simp [insertCell, readCell, hlt, hb, ih]

theorem ne_of_mem_eraseCell {m : List Host.Cell} {a : Nat} {c : Host.Cell}
    (hc : c ∈ eraseCell m a) : c.1 ≠ a := by
  induction m with
  | nil => simp [eraseCell] at hc
  | cons d m ih =>
    obtain ⟨k, x⟩ := d
    by_cases hk : k = a
    · exact ih (by simpa [eraseCell, hk] using hc)
    · rcases List.mem_cons.1 (by simpa [eraseCell, hk] using hc) with rfl | h
      · exact hk
      · exact ih h

/-- A byte reads as it was last written; every other byte is left alone. -/
theorem readCell_writeCell (m : List Host.Cell) (a b : Nat) (v : Byte) :
    readCell (writeCell m a v) b = if b = a then v else readCell m b := by
  unfold writeCell
  split
  · next hv =>
    by_cases hb : b = a
    · simp [hb, hv, readCell_eraseCell_same]
    · simp [hb, readCell_eraseCell_other hb]
  · rw [readCell_insertCell v fun c hc => ne_of_mem_eraseCell hc]
    by_cases hb : b = a
    · simp [hb]
    · simp [hb, readCell_eraseCell_other hb]

/-- The same for bytes written to successive addresses. -/
theorem readCell_writeCells (bs : List Byte) (m : List Host.Cell) (a b : Nat) :
    readCell (writeCells m a bs) b =
      if a ≤ b ∧ b < a + bs.length then bs.getD (b - a) unwritten else readCell m b := by
  induction bs generalizing m a with
  | nil => simp [writeCells]
  | cons v bs ih =>
    rw [writeCells, ih, readCell_writeCell]
    by_cases hb : b = a
    · subst hb; simp
    · by_cases hin : a + 1 ≤ b ∧ b < a + 1 + bs.length
      · have : b - a = (b - (a + 1)) + 1 := by omega
        rw [if_pos hin, if_pos (by simp; omega), this]
        simp
      · rw [if_neg hin, if_neg hb, if_neg (by simp; omega)]

/-! ## The canonical form -/

theorem eraseCell_sublist (m : List Host.Cell) (a : Nat) : (eraseCell m a).Sublist m := by
  induction m with
  | nil => exact .slnil
  | cons c m ih =>
    obtain ⟨k, x⟩ := c
    by_cases hk : k = a
    · simpa [eraseCell, hk] using ih.cons (k, x)
    · simpa [eraseCell, hk] using ih

theorem mem_insertCell {m : List Host.Cell} {a : Nat} {v : Byte} {c : Host.Cell} :
    c ∈ insertCell m a v ↔ c = (a, v) ∨ c ∈ m := by
  induction m with
  | nil => simp [insertCell]
  | cons d m ih =>
    obtain ⟨k, x⟩ := d
    by_cases h : a < k
    · simp [insertCell, h]
    · simp [insertCell, h, ih, or_left_comm]

theorem Memory.wf_eraseCell {m : List Host.Cell} (h : Memory.wf m) (a : Nat) :
    Memory.wf (eraseCell m a) :=
  ⟨h.1.sublist (eraseCell_sublist m a), fun c hc => h.2 c ((eraseCell_sublist m a).subset hc)⟩

theorem Memory.wf_insertCell {m : List Host.Cell} {a : Nat} {v : Byte} (h : Memory.wf m)
    (ha : ∀ c ∈ m, c.1 ≠ a) (hv : v ≠ unwritten) : Memory.wf (insertCell m a v) := by
  refine ⟨?_, fun c hc => ?_⟩
  · have hp := h.1
    clear h hv
    induction m with
    | nil => simp [insertCell]
    | cons d m ih =>
      obtain ⟨k, x⟩ := d
      have hk : k ≠ a := ha (k, x) (by simp)
      rw [List.pairwise_cons] at hp
      by_cases hlt : a < k
      · rw [insertCell, if_pos hlt, List.pairwise_cons, List.pairwise_cons]
        refine ⟨fun c hc => ?_, hp⟩
        rcases List.mem_cons.1 hc with rfl | hc
        · exact hlt
        · exact hlt.trans (hp.1 c hc)
      · rw [insertCell, if_neg hlt, List.pairwise_cons]
        refine ⟨fun c hc => ?_, ih (fun c hc => ha c (by simp [hc])) hp.2⟩
        rcases mem_insertCell.1 hc with rfl | hc
        · exact lt_of_le_of_ne (not_lt.1 hlt) hk
        · exact hp.1 c hc
  · rcases mem_insertCell.1 hc with rfl | hc
    · exact hv
    · exact h.2 c hc

/-- Writing a byte keeps the canonical form. -/
theorem Memory.wf_writeCell {m : List Host.Cell} (h : Memory.wf m) (a : Nat) (v : Byte) :
    Memory.wf (writeCell m a v) := by
  unfold writeCell
  split
  · exact Memory.wf_eraseCell h a
  · next hv =>
    exact Memory.wf_insertCell (Memory.wf_eraseCell h a) (fun c hc => ne_of_mem_eraseCell hc) hv

/-- Writing bytes keeps the canonical form. -/
theorem Memory.wf_writeCells (bs : List Byte) {m : List Host.Cell} (h : Memory.wf m) (a : Nat) :
    Memory.wf (writeCells m a bs) := by
  induction bs generalizing m a with
  | nil => exact h
  | cons v bs ih => exact ih (Memory.wf_writeCell h a v) (a + 1)

/-- The reset memory is in canonical form. -/
theorem Memory.wf_reset : Memory.wf State.reset.mem := by simp [State.reset, Memory.wf]

/-- A listed address after a byte write is the written one or was listed before. -/
theorem mem_writeCell {m : List Host.Cell} {a : Nat} {v : Byte} {c : Host.Cell}
    (hc : c ∈ writeCell m a v) : c.1 = a ∨ c ∈ m := by
  unfold writeCell at hc
  split at hc
  · exact .inr ((eraseCell_sublist m a).subset hc)
  · rcases mem_insertCell.1 hc with rfl | hc
    · exact .inl rfl
    · exact .inr ((eraseCell_sublist m a).subset hc)

theorem mem_writeCells {bs : List Byte} {m : List Host.Cell} {a : Nat} {c : Host.Cell}
    (hc : c ∈ writeCells m a bs) : (a ≤ c.1 ∧ c.1 < a + bs.length) ∨ c ∈ m := by
  induction bs generalizing m a with
  | nil => exact .inr hc
  | cons v bs ih =>
    rcases ih hc with h | h
    · left; simp; omega
    · rcases mem_writeCell h with h | h
      · left; simp; omega
      · exact .inr h

/-- Two canonical lists that read alike are the same list. -/
theorem Memory.ext_of_wf {m n : List Host.Cell} (hm : Memory.wf m) (hn : Memory.wf n)
    (h : ∀ a, readCell m a = readCell n a) : m = n := by
  have listed : ∀ {l : List Host.Cell}, Memory.wf l → ∀ c : Host.Cell,
      c ∈ l ↔ readCell l c.1 = c.2 ∧ c.2 ≠ unwritten := by
    intro l hl c
    induction l with
    | nil => simp only [List.not_mem_nil, readCell, false_iff, not_and, not_not]; exact Eq.symm
    | cons d l ih =>
      obtain ⟨k, x⟩ := d
      have hp := List.pairwise_cons.1 hl.1
      have hl' : Memory.wf l := ⟨hp.2, fun c hc => hl.2 c (by simp [hc])⟩
      have hx : x ≠ unwritten := hl.2 (k, x) (by simp)
      have hk : ∀ y, (k, y) ∉ l := fun y hy => absurd (hp.1 _ hy) (lt_irrefl k)
      obtain ⟨b, y⟩ := c
      by_cases hb : k = b
      · subst hb
        simp only [List.mem_cons, readCell, if_true, hk, or_false, Prod.mk.injEq, true_and]
        exact ⟨fun e => ⟨e.symm, e ▸ hx⟩, fun e => e.1.symm⟩
      · rw [List.mem_cons, ih hl', readCell, if_neg hb]
        simp only [Prod.mk.injEq, or_iff_right_iff_imp, and_imp]
        exact fun e => absurd e.symm hb
  have anti : ∀ {l : List Host.Cell}, Memory.wf l → l.Pairwise fun x y => x.1 < y.1 := fun h => h.1
  have same : ∀ c, c ∈ m ↔ c ∈ n := fun c => by rw [listed hm, listed hn, h]
  refine List.Perm.eq_of_pairwise (le := fun x y => x.1 < y.1)
    (fun a b _ _ h₁ h₂ => absurd (h₁.trans h₂) (lt_irrefl _)) (anti hm) (anti hn) ?_
  have nodup : ∀ {l : List Host.Cell}, Memory.wf l → l.Nodup := fun h =>
    h.1.imp fun hlt => fun e => absurd (e ▸ hlt) (lt_irrefl _)
  exact (List.perm_ext_iff_of_nodup (nodup hm) (nodup hn)).2 same

/-! ## Byte order -/

@[simp] theorem splitBytes_length (e : Endian) (n : Width) (v : Word) :
    (splitBytes e n v).length = n.bytes := by simp [splitBytes]

theorem splitBytes_getD (e : Endian) {n : Width} (v : Word) {k : Nat} (hk : k < n.bytes) :
    (splitBytes e n v).getD k unwritten = splitByte e n v k := by
  simp [splitBytes, List.getD_eq_getElem?_getD, hk]

/-- Only the bytes of the width count. -/
theorem assemble_congr (e : Endian) {n : Width} {b b' : Nat → Byte} (h : ∀ k < n.bytes, b k = b' k) :
    assemble e n b = assemble e n b' := by
  cases n <;> simp only [Width.bytes] at h <;> cases e <;> simp only [assemble, h 0 (by decide)]
  · simp only [h 1 (by decide)]
  · simp only [h 1 (by decide)]
  · simp only [h 1 (by decide), h 2 (by decide), h 3 (by decide)]
  · simp only [h 1 (by decide), h 2 (by decide), h 3 (by decide)]

/-- Assembling the bytes of a value gives back its low `8 * n` bits (20_memory.md R46). -/
theorem assemble_splitByte (e : Endian) (n : Width) (v : Word) :
    assemble e n (splitByte e n v) = v &&& BitVec.ofNat 32 (2 ^ (8 * n.bytes) - 1) := by
  cases n <;> cases e <;> simp only [assemble, splitByte, Width.bytes]
  all_goals
    apply BitVec.eq_of_getLsbD_eq
    intro i hi
    simp only [BitVec.getLsbD_setWidth, BitVec.getLsbD_append, BitVec.getLsbD_extractLsb',
      BitVec.getLsbD_and, BitVec.getLsbD_ofNat]
    interval_cases i <;> simp [Nat.testBit]

/-! ## Accesses -/

/-- Everything a read can answer (20_memory.md R43, R44, R45). -/
theorem memRead_cases (s : State) (addr : Word) (n : Width) :
    (¬ s.inRam addr n ∧ memRead s addr n = .error .memBounds) ∨
    (s.inRam addr n ∧ ¬ aligned addr n ∧ memRead s addr n = .ok 0#32) ∨
    (s.inRam addr n ∧ aligned addr n ∧
      memRead s addr n = .ok (assemble s.endian n fun k => s.byteAt (addr.toNat + k))) := by
  by_cases hb : s.inRam addr n
  · by_cases ha : aligned addr n
    · exact .inr (.inr ⟨hb, ha, by rw [memRead, if_neg (not_not.2 hb), if_neg (not_not.2 ha)]⟩)
    · exact .inr (.inl ⟨hb, ha, by rw [memRead, if_neg (not_not.2 hb), if_pos ha]⟩)
  · exact .inl ⟨hb, by rw [memRead, if_pos hb]⟩

/-- Everything a write can answer (20_memory.md R43, R44, R46). -/
theorem memWrite_cases (s : State) (addr : Word) (n : Width) (v : Word) :
    (¬ s.inRam addr n ∧ memWrite s addr n v = .error .memBounds) ∨
    (s.inRam addr n ∧ ¬ aligned addr n ∧ memWrite s addr n v = .ok s) ∨
    (s.inRam addr n ∧ aligned addr n ∧
      memWrite s addr n v =
        .ok { s with mem := writeCells s.mem addr.toNat (splitBytes s.endian n v) }) := by
  by_cases hb : s.inRam addr n
  · by_cases ha : aligned addr n
    · exact .inr (.inr ⟨hb, ha, by rw [memWrite, if_neg (not_not.2 hb), if_neg (not_not.2 ha)]⟩)
    · exact .inr (.inl ⟨hb, ha, by rw [memWrite, if_neg (not_not.2 hb), if_pos ha]⟩)
  · exact .inl ⟨hb, by rw [memWrite, if_pos hb]⟩

/-- A write that answers a state changes nothing but the memory, keeps its canonical form and stays in
the RAM; each stored byte is the value's, every other byte is kept. -/
theorem memWrite_ok {s t : State} {addr : Word} {n : Width} {v : Word}
    (h : memWrite s addr n v = .ok t) :
    s.inRam addr n ∧ t = { s with mem := t.mem } ∧
    (Memory.wf s.mem → Memory.wf t.mem) ∧
    ((∀ c ∈ s.mem, c.1 < s.params.memSize) → ∀ c ∈ t.mem, c.1 < s.params.memSize) ∧
    ∀ a, t.byteAt a =
      if aligned addr n ∧ addr.toNat ≤ a ∧ a < addr.toNat + n.bytes then
        splitByte s.endian n v (a - addr.toNat)
      else s.byteAt a := by
  rcases memWrite_cases s addr n v with ⟨_, e⟩ | ⟨hb, ha, e⟩ | ⟨hb, ha, e⟩
  · rw [e] at h; cases h
  · rw [e] at h; cases h
    exact ⟨hb, rfl, id, id, fun a => by simp [ha]⟩
  · rw [e] at h; cases h
    refine ⟨hb, rfl, fun hw => Memory.wf_writeCells _ hw _, fun hr c hc => ?_, fun a => ?_⟩
    · rcases mem_writeCells hc with hc | hc
      · rw [splitBytes_length] at hc
        exact lt_of_lt_of_le hc.2 hb
      · exact hr c hc
    · rw [State.byteAt, readCell_writeCells, splitBytes_length]
      by_cases hin : addr.toNat ≤ a ∧ a < addr.toNat + n.bytes
      · rw [if_pos hin, if_pos ⟨ha, hin⟩]
        exact splitBytes_getD _ _ (by omega)
      · rw [if_neg hin, if_neg fun h => hin h.2]
        rfl

/-- The low bits of a value that a width keeps. -/
def lowPart (n : Width) (v : Word) : Word := v &&& BitVec.ofNat 32 (2 ^ (8 * n.bytes) - 1)

/-- A read after a write to the same place gives the value written (20_memory.md R46). -/
theorem memRead_memWrite_same {s t : State} {addr : Word} {n : Width} {v : Word}
    (ha : aligned addr n) (h : memWrite s addr n v = .ok t) :
    memRead t addr n = .ok (lowPart n v) := by
  obtain ⟨hb, ht, -, -, hbyte⟩ := memWrite_ok h
  have hp : t.params = s.params := by rw [ht]
  have he : t.endian = s.endian := by rw [ht]
  have hb' : t.inRam addr n := by simpa [State.inRam, hp] using hb
  have key : ∀ k < n.bytes, t.byteAt (addr.toNat + k) = splitByte s.endian n v k := fun k hk => by
    rw [hbyte, if_pos ⟨ha, by omega, by omega⟩, Nat.add_sub_cancel_left]
  rw [memRead, if_neg (not_not.2 hb'), if_neg (not_not.2 ha), he, lowPart, ← assemble_splitByte s.endian]
  rw [assemble_congr s.endian key]

/-! ## The checksum -/

/-- One byte's term of the checksum (20_memory.md R53). -/
def checksumTerm (b : Byte) (a : Nat) : Nat := ((b.setWidth 32 : Word) ^^^ BitVec.ofNat 32 a).toNat

/-- A byte written below the bound moves the sum by the difference of its terms. -/
theorem checksumBelow_writeCell (m : List Host.Cell) (a n : Nat) (v : Byte) :
    checksumBelow (writeCell m a v) n + (if a < n then checksumTerm (readCell m a) a else 0) =
      checksumBelow m n + (if a < n then checksumTerm v a else 0) := by
  induction n with
  | zero => simp [checksumBelow]
  | succ n ih =>
    simp only [checksumBelow, readCell_writeCell]
    by_cases hn : n = a
    · subst hn
      simp only [lt_irrefl, if_false, Nat.lt_succ_self, if_true] at ih ⊢
      simp only [checksumTerm]
      omega
    · have : (a < n + 1) = (a < n) := propext (by omega)
      simp only [hn, if_false, this]
      omega

/-- The sum over an empty RAM of at most 2^32 bytes. -/
theorem checksumBelow_empty {n : Nat} (h : n ≤ 2 ^ 32) : 2 * checksumBelow [] n = n * (n - 1) := by
  induction n with
  | zero => rfl
  | succ n ih =>
    have ih := ih (by omega)
    have hn : n % 4294967296 = n := Nat.mod_eq_of_lt (by omega)
    simp only [checksumBelow, readCell, BitVec.toNat_xor, BitVec.toNat_setWidth, BitVec.toNat_ofNat, hn,
      Nat.reducePow, Nat.zero_mod, Nat.zero_xor, Nat.mul_add, ih]
    cases n with
    | zero => rfl
    | succ k => simp only [Nat.add_sub_cancel]; ring

end Sys2Proof.Machine
end

