-- ==== Sys2Proof/Laws/Status.lean ====
section
/-! SUPPORT. The laws of the status word: each named write bit by bit, what keeps the mode and the reserved
bits, the modes, and the bits MSR may write. -/

namespace Sys2Proof.Machine

/-! ## Modes -/

@[simp] theorem Mode.ofBits_toBits (m : Mode) : Mode.ofBits m.toBits = some m := by cases m <;> rfl

theorem Mode.toBits_of_ofBits {b : BitVec 5} {m : Mode} (h : Mode.ofBits b = some m) : m.toBits = b := by
  revert h; revert b; cases m <;> decide

/-! ## One bit -/

theorem getLsbD_setBit (w : Word) {k : Nat} (hk : k < 32) (b : Bool) (i : Nat) :
    (setBit w k b).getLsbD i = if i = k then b else w.getLsbD i := by
  have one : ((1#32 : Word) <<< k).getLsbD i = decide (i = k) := by
    by_cases h : i = k
    · subst h; simp [hk]
    · by_cases hlt : i < k
      · simp [hlt, h]
      · have : i - k ≠ 0 := by omega
        simp [h, this]
  unfold setBit
  by_cases hi : i < 32
  · cases b
    · rw [if_neg Bool.false_ne_true, BitVec.getLsbD_and, BitVec.getLsbD_not, one]
      by_cases h : i = k <;> simp [h, hi]
    · rw [if_pos rfl, BitVec.getLsbD_or, one]
      by_cases h : i = k <;> simp [h]
  · have h : i ≠ k := by omega
    rw [BitVec.getLsbD_of_ge _ i (not_lt.1 hi), BitVec.getLsbD_of_ge w i (not_lt.1 hi), if_neg h]

/-- The flag writes, bit by bit (41_data_processing.md R112, R113). -/
theorem getLsbD_flagsNZ (p res : Word) (i : Nat) :
    (flagsNZ p res).getLsbD i =
      if i = 31 then res.msb else if i = 30 then decide (res = 0#32) else p.getLsbD i := by
  unfold flagsNZ withZ withN
  rw [getLsbD_setBit _ (by decide), getLsbD_setBit _ (by decide)]
  by_cases h : i = 30
  · subst h; simp
  · simp [h]

theorem getLsbD_flagsOf (p : Word) (r : AluResult) (i : Nat) :
    (flagsOf p r).getLsbD i =
      if i = 31 then r.value.msb else if i = 30 then decide (r.value = 0#32)
      else if i = 29 then r.carry else if i = 28 then r.overflow.getD (p.getLsbD 28)
      else p.getLsbD i := by
  unfold flagsOf
  cases hv : r.overflow with
  | none =>
    simp only [withC]
    rw [getLsbD_setBit _ (by decide), getLsbD_flagsNZ]
    by_cases h : i = 29
    · subst h; simp
    · by_cases h' : i = 28
      · subst h'; simp
      · simp [h, h']
  | some v =>
    simp only [withV, withC]
    rw [getLsbD_setBit _ (by decide), getLsbD_setBit _ (by decide), getLsbD_flagsNZ]
    by_cases h : i = 28
    · subst h; simp
    · by_cases h' : i = 29
      · subst h'; simp
      · simp [h, h']

theorem getLsbD_withMode (p : Word) (m : Mode) (i : Nat) :
    (withMode p m).getLsbD i = if i < 5 then m.toBits.getLsbD i else p.getLsbD i := by
  unfold withMode
  rw [BitVec.getLsbD_or, BitVec.getLsbD_and, BitVec.getLsbD_setWidth]
  by_cases h5 : i < 5
  · have : (0xFFFFFFE0#32 : Word).getLsbD i = false := by interval_cases i <;> rfl
    simp only [this, h5, Bool.and_false, Bool.false_or, if_true, show i < 32 by omega, decide_true,
      Bool.true_and]
  · rw [if_neg h5, BitVec.getLsbD_of_ge m.toBits i (by omega), Bool.and_false, Bool.or_false]
    by_cases h32 : i < 32
    · have : (0xFFFFFFE0#32 : Word).getLsbD i = true := by interval_cases i <;> first | rfl | omega
      rw [this, Bool.and_true]
    · rw [BitVec.getLsbD_of_ge p i (not_lt.1 h32), Bool.false_and]

/-- The status after an exception entry, bit by bit (60_exceptions.md R165, R169). -/
theorem getLsbD_entryStatus (p : Word) (m : Mode) (i : Nat) :
    (entryStatus p m).getLsbD i =
      if i < 5 then m.toBits.getLsbD i else if i = 5 then false else if i = 7 then true
      else p.getLsbD i := by
  unfold entryStatus withI withT
  rw [getLsbD_setBit _ (by decide), getLsbD_setBit _ (by decide), getLsbD_withMode]
  by_cases h7 : i = 7
  · subst h7; simp
  · by_cases h5 : i = 5
    · subst h5; simp
    · simp [h7, h5]

/-- The status after a load, bit by bit (70_reset_and_hazards.md R181). -/
theorem getLsbD_loadedStatus (p : Word) (i : Nat) :
    (loadedStatus p).getLsbD i =
      if i < 5 then true else if 28 ≤ i then false else p.getLsbD i := by
  unfold loadedStatus
  rw [getLsbD_withMode]
  by_cases h5 : i < 5
  · simp only [h5, if_true]; interval_cases i <;> rfl
  · simp only [h5, if_false, withV, withC, withZ, withN]
    rw [getLsbD_setBit _ (by decide), getLsbD_setBit _ (by decide), getLsbD_setBit _ (by decide),
      getLsbD_setBit _ (by decide)]
    by_cases h28 : 28 ≤ i
    · by_cases h32 : i < 32
      · interval_cases i <;> simp
      · simp [h28, BitVec.getLsbD_of_ge p i (by omega)]
    · simp [h28, show i ≠ 28 by omega, show i ≠ 29 by omega, show i ≠ 30 by omega, show i ≠ 31 by omega]

/-! ## Mode field and reserved bits -/

theorem psrMode_ext {p q : Word} (h : ∀ i < 5, q.getLsbD i = p.getLsbD i) : psrMode q = psrMode p := by
  apply BitVec.eq_of_getLsbD_eq
  intro i hi
  simp [psrMode, BitVec.getLsbD_extractLsb', hi, h i hi]

theorem psrReserved_ext {p q : Word} (h : ∀ i, 8 ≤ i → i < 28 → q.getLsbD i = p.getLsbD i) :
    psrReserved q = psrReserved p := by
  apply BitVec.eq_of_getLsbD_eq
  intro i hi
  simp [psrReserved, BitVec.getLsbD_extractLsb', hi, h (8 + i) (by omega) (by omega)]

@[simp] theorem psrMode_flagsNZ (p res : Word) : psrMode (flagsNZ p res) = psrMode p :=
  psrMode_ext fun i hi => by
    rw [getLsbD_flagsNZ, if_neg (by omega), if_neg (by omega)]

@[simp] theorem psrMode_flagsOf (p : Word) (r : AluResult) : psrMode (flagsOf p r) = psrMode p :=
  psrMode_ext fun i hi => by
    rw [getLsbD_flagsOf, if_neg (by omega), if_neg (by omega), if_neg (by omega), if_neg (by omega)]

@[simp] theorem psrMode_withT (p : Word) (b : Bool) : psrMode (withT p b) = psrMode p :=
  psrMode_ext fun i hi => by
    rw [withT, getLsbD_setBit _ (by decide), if_neg (by omega)]

@[simp] theorem psrMode_withMode (p : Word) (m : Mode) : psrMode (withMode p m) = m.toBits := by
  apply BitVec.eq_of_getLsbD_eq
  intro i hi
  simp [psrMode, BitVec.getLsbD_extractLsb', hi, getLsbD_withMode]

@[simp] theorem psrMode_entryStatus (p : Word) (m : Mode) : psrMode (entryStatus p m) = m.toBits := by
  apply BitVec.eq_of_getLsbD_eq
  intro i hi
  simp [psrMode, BitVec.getLsbD_extractLsb', hi, getLsbD_entryStatus]

@[simp] theorem psrMode_loadedStatus (p : Word) : psrMode (loadedStatus p) = Mode.system.toBits := by
  simp [loadedStatus]

@[simp] theorem psrModeOf_flagsNZ (p res : Word) : psrModeOf (flagsNZ p res) = psrModeOf p := by
  simp [psrModeOf]

@[simp] theorem psrModeOf_flagsOf (p : Word) (r : AluResult) : psrModeOf (flagsOf p r) = psrModeOf p := by
  simp [psrModeOf]

@[simp] theorem psrModeOf_withT (p : Word) (b : Bool) : psrModeOf (withT p b) = psrModeOf p := by
  simp [psrModeOf]

@[simp] theorem psrModeOf_entryStatus (p : Word) (m : Mode) : psrModeOf (entryStatus p m) = some m := by
  simp [psrModeOf]

@[simp] theorem psrModeOf_loadedStatus (p : Word) : psrModeOf (loadedStatus p) = some .system := by
  simp [psrModeOf]

@[simp] theorem psrI_entryStatus (p : Word) (m : Mode) : psrI (entryStatus p m) = true := by
  simp [psrI, getLsbD_entryStatus]

@[simp] theorem psrReserved_flagsNZ (p res : Word) : psrReserved (flagsNZ p res) = psrReserved p :=
  psrReserved_ext fun i h8 h28 => by
    rw [getLsbD_flagsNZ, if_neg (by omega), if_neg (by omega)]

@[simp] theorem psrReserved_flagsOf (p : Word) (r : AluResult) :
    psrReserved (flagsOf p r) = psrReserved p :=
  psrReserved_ext fun i h8 h28 => by
    rw [getLsbD_flagsOf, if_neg (by omega), if_neg (by omega), if_neg (by omega), if_neg (by omega)]

@[simp] theorem psrReserved_withT (p : Word) (b : Bool) : psrReserved (withT p b) = psrReserved p :=
  psrReserved_ext fun i h8 h28 => by
    rw [withT, getLsbD_setBit _ (by decide), if_neg (by omega)]

@[simp] theorem psrReserved_entryStatus (p : Word) (m : Mode) :
    psrReserved (entryStatus p m) = psrReserved p :=
  psrReserved_ext fun i h8 h28 => by
    rw [getLsbD_entryStatus, if_neg (by omega), if_neg (by omega), if_neg (by omega)]

@[simp] theorem psrReserved_loadedStatus (p : Word) : psrReserved (loadedStatus p) = psrReserved p :=
  psrReserved_ext fun i h8 h28 => by
    rw [getLsbD_loadedStatus, if_neg (by omega), if_neg (by omega)]

/-! ## MSR masks (47_status_register.md R157) -/

theorem getLsbD_merge (old v mask : Word) (i : Nat) :
    (merge old v mask).getLsbD i = if mask.getLsbD i then v.getLsbD i else old.getLsbD i := by
  unfold merge
  rw [BitVec.getLsbD_or, BitVec.getLsbD_and, BitVec.getLsbD_and, BitVec.getLsbD_not]
  by_cases hi : i < 32
  · cases mask.getLsbD i <;> simp only [hi, decide_true, Bool.not_false, Bool.not_true, Bool.and_true,
      Bool.and_false, Bool.or_false, Bool.false_or, Bool.false_eq_true, if_false, if_true]
  · simp only [BitVec.getLsbD_of_ge _ _ (not_lt.1 hi), Bool.false_and, Bool.or_false, ite_self]

theorem getLsbD_lanes (fm : BitVec 4) {i : Nat} (hi : i < 32) :
    (lanes fm).getLsbD i = fm.getLsbD (i / 8) := by
  revert fm i; decide

/-- Which bits MSR may write, bit by bit. -/
theorem getLsbD_allowedBits (spsr : Bool) (p : Word) {i : Nat} (hi : i < 32) :
    (allowedBits spsr p).getLsbD i =
      (decide (28 ≤ i) || (decide (i < 8) && (spsr || (privileged p && decide (i ≠ 5))))) := by
  unfold allowedBits
  cases spsr <;> cases privileged p <;> revert i <;> decide

theorem psrReserved_merge (old v : Word) (fm : BitVec 4) (spsr : Bool) (p : Word) :
    psrReserved (merge old v (lanes fm &&& allowedBits spsr p)) = psrReserved old :=
  psrReserved_ext fun i h8 h28 => by
    rw [getLsbD_merge, BitVec.getLsbD_and, getLsbD_allowedBits _ _ (by omega)]
    simp [show ¬ 28 ≤ i by omega, show ¬ i < 8 by omega]

/-- In User mode no MSR changes the mode field. -/
theorem psrMode_merge_user {p : Word} (old v : Word) (fm : BitVec 4) (h : psrModeOf p = some .user) :
    psrMode (merge old v (lanes fm &&& allowedBits false p)) = psrMode old :=
  psrMode_ext fun i hi => by
    rw [getLsbD_merge, BitVec.getLsbD_and, getLsbD_allowedBits _ _ (by omega)]
    simp [show ¬ 28 ≤ i by omega, privileged, h]

end Sys2Proof.Machine
end

