-- ==== Sys2Proof/Laws/Registers.lean ====
section
/-! SUPPORT. The laws of the register file: the bank map, reading after writing, and one lemma each that
says everything `readReg` and `writeReg` can do. -/

namespace Sys2Proof.Machine

/-! ## Slots -/

/-- A slot reads as it was last written; every other slot is left alone. -/
theorem State.getSlot_setSlot (s : State) (sl sl' : Slot) (v : Word) :
    (s.setSlot sl v).getSlot sl' = if sl' = sl then v else s.getSlot sl' := by
  cases sl with
  | low i =>
    cases sl' with
    | low j =>
      by_cases h : j = i
      · subst h; simp [State.setSlot, State.getSlot]
      · have : i.val ≠ j.val := fun e => h (Fin.ext e.symm)
        simp [State.setSlot, State.getSlot, h, Vector.getElem_set_ne _ _ this]
    | r13Usr | r14Usr | r13Svc | r14Svc | r13Irq | r14Irq | r15 =>
      simp [State.setSlot, State.getSlot]
  | r13Usr | r14Usr | r13Svc | r14Svc | r13Irq | r14Irq | r15 =>
    cases sl' <;> simp [State.setSlot, State.getSlot]

@[simp] theorem State.getSlot_setSlot_self (s : State) (sl : Slot) (v : Word) :
    (s.setSlot sl v).getSlot sl = v := by simp [State.getSlot_setSlot]

theorem State.getSlot_setSlot_of_ne (s : State) {sl sl' : Slot} (v : Word) (h : sl' ≠ sl) :
    (s.setSlot sl v).getSlot sl' = s.getSlot sl' := by simp [State.getSlot_setSlot, h]

/-- Two states with the same register fields hold the same word in every slot. -/
theorem State.getSlot_congr {s t : State} (h : t.regs = s.regs ∧ t.r13Usr = s.r13Usr ∧
    t.r14Usr = s.r14Usr ∧ t.r13Svc = s.r13Svc ∧ t.r14Svc = s.r14Svc ∧ t.r13Irq = s.r13Irq ∧
    t.r14Irq = s.r14Irq) {sl : Slot} (hsl : sl ≠ .r15) : t.getSlot sl = s.getSlot sl := by
  obtain ⟨h0, h1, h2, h3, h4, h5, h6⟩ := h
  cases sl <;> simp_all [State.getSlot]

@[simp] theorem State.getSlot_setCpsr (s : State) (p : Word) (sl : Slot) :
    (s.setCpsr p).getSlot sl = s.getSlot sl := by cases sl <;> rfl

@[simp] theorem State.getSlot_emit (s : State) (b : Byte) (sl : Slot) :
    (s.emit b).getSlot sl = s.getSlot sl := by cases sl <;> rfl

@[simp] theorem State.getSlot_setCurrentSpsr (s : State) (v : Word) (sl : Slot) :
    (s.setCurrentSpsr v).getSlot sl = s.getSlot sl := by
  cases sl <;> simp [State.getSlot]

theorem State.getSlot_advance (s : State) (n : Option Word) (tr : Bool) {sl : Slot} (h : sl ≠ .r15) :
    (s.advance n tr).getSlot sl = s.getSlot sl :=
  State.getSlot_congr ⟨by simp, by simp, by simp, by simp, by simp, by simp, by simp⟩ h

/-! ## The bank map (10_state.md R15) -/

@[simp] theorem slot_fifteen (m : BitVec 5) : slot 15 m = .ok .r15 := rfl

theorem slot_low {i : Reg} (h : i.val < 13) (m : BitVec 5) : slot i m = .ok (.low ⟨i.val, h⟩) := by
  simp [slot, h]

theorem slot_thirteen (m : BitVec 5) :
    slot 13 m =
      match Mode.ofBits m with
      | some .user | some .system => .ok .r13Usr
      | some .supervisor => .ok .r13Svc
      | some .irq => .ok .r13Irq
      | some .fiq | some .abort | some .undefined => .error .unbankedMode
      | none => .error .invalidMode := rfl

theorem slot_fourteen (m : BitVec 5) :
    slot 14 m =
      match Mode.ofBits m with
      | some .user | some .system => .ok .r14Usr
      | some .supervisor => .ok .r14Svc
      | some .irq => .ok .r14Irq
      | some .fiq | some .abort | some .undefined => .error .unbankedMode
      | none => .error .invalidMode := rfl

theorem Reg.low_or_banked (i : Reg) : i.val < 13 ∨ i = 13 ∨ i = 14 ∨ i = 15 := by
  revert i; decide

/-- Only index 15 names r15. -/
theorem slot_ne_r15 {i : Reg} (h : i ≠ 15) {m : BitVec 5} {sl : Slot} (hs : slot i m = .ok sl) :
    sl ≠ .r15 := by
  rcases Reg.low_or_banked i with hi | rfl | rfl | rfl
  · rw [slot_low hi] at hs; cases hs; simp
  · rw [slot_thirteen] at hs; split at hs <;> cases hs <;> simp
  · rw [slot_fourteen] at hs; split at hs <;> cases hs <;> simp
  · exact absurd rfl h

/-- In one mode two indices never name one slot. -/
theorem slot_injective {i j : Reg} {m : BitVec 5} {sl : Slot} (hi : slot i m = .ok sl)
    (hj : slot j m = .ok sl) : i = j := by
  have key : ∀ {k : Reg}, slot k m = .ok sl → k.val =
      match sl with
      | .low n => n.val
      | .r13Usr | .r13Svc | .r13Irq => 13
      | .r14Usr | .r14Svc | .r14Irq => 14
      | .r15 => 15 := by
    intro k hk
    rcases Reg.low_or_banked k with h | rfl | rfl | rfl
    · rw [slot_low h] at hk; cases hk; rfl
    · rw [slot_thirteen] at hk; split at hk <;> cases hk <;> rfl
    · rw [slot_fourteen] at hk; split at hk <;> cases hk <;> rfl
    · rw [slot_fifteen] at hk; cases hk; rfl
  exact Fin.ext ((key hi).trans (key hj).symm)

/-! ## Reads and writes -/

theorem readReg_ok {s : State} {i : Reg} {v : Word} :
    readReg s i = .ok v ↔ ∃ sl, slot i (psrMode s.cpsr) = .ok sl ∧ s.getSlot sl = v := by
  unfold readReg
  cases slot i (psrMode s.cpsr) <;> simp

theorem writeReg_ok {s t : State} {i : Reg} {v : Word} :
    writeReg s i v = .ok t ↔ ∃ sl, slot i (psrMode s.cpsr) = .ok sl ∧ t = s.setSlot sl v := by
  unfold writeReg
  cases slot i (psrMode s.cpsr) <;> simp [eq_comm]

@[simp] theorem readReg_fifteen (s : State) : readReg s 15 = .ok s.r15 := rfl

/-- Reading depends on the mode field and the slot alone. -/
theorem readReg_congr {s t : State} {i : Reg} (hm : psrMode t.cpsr = psrMode s.cpsr)
    (h : ∀ sl, slot i (psrMode s.cpsr) = .ok sl → t.getSlot sl = s.getSlot sl) :
    readReg t i = readReg s i := by
  unfold readReg
  rw [hm]
  cases hs : slot i (psrMode s.cpsr) with
  | ok sl => exact congrArg Except.ok (h sl hs)
  | error r => rfl

/-- A register reads as it was last written (10_state.md R13). -/
theorem readReg_writeReg_same {s t : State} {i : Reg} {v : Word} (h : writeReg s i v = .ok t) :
    readReg t i = .ok v := by
  obtain ⟨sl, hs, rfl⟩ := writeReg_ok.1 h
  exact readReg_ok.2 ⟨sl, by simpa using hs, by simp⟩

/-- Every other register of the mode is left alone. -/
theorem readReg_writeReg_other {s t : State} {i j : Reg} {v : Word} (h : writeReg s i v = .ok t)
    (hj : j ≠ i) : readReg t j = readReg s j := by
  obtain ⟨sl, hs, rfl⟩ := writeReg_ok.1 h
  refine readReg_congr (by simp) fun sl' hs' => State.getSlot_setSlot_of_ne _ _ ?_
  rintro rfl
  exact hj (slot_injective hs' hs)

/-- A read that fails says why (10_state.md R15). -/
theorem readReg_error {s : State} {i : Reg} {r : Reason} (h : readReg s i = .error r) :
    (i = 13 ∨ i = 14) ∧
      ((r = .invalidMode ∧ psrModeOf s.cpsr = none) ∨
        (r = .unbankedMode ∧ (psrModeOf s.cpsr = some .fiq ∨ psrModeOf s.cpsr = some .abort ∨
          psrModeOf s.cpsr = some .undefined))) := by
  unfold readReg at h
  rcases Reg.low_or_banked i with hi | rfl | rfl | rfl
  · rw [slot_low hi] at h; cases h
  · refine ⟨.inl rfl, ?_⟩
    rw [slot_thirteen] at h
    unfold psrModeOf
    cases hm : Mode.ofBits (psrMode s.cpsr) with
    | none => rw [hm] at h; cases h; simp
    | some m => rw [hm] at h; cases m <;> cases h <;> simp
  · refine ⟨.inr rfl, ?_⟩
    rw [slot_fourteen] at h
    unfold psrModeOf
    cases hm : Mode.ofBits (psrMode s.cpsr) with
    | none => rw [hm] at h; cases h; simp
    | some m => rw [hm] at h; cases m <;> cases h <;> simp
  · rw [slot_fifteen] at h; cases h

/-! ## The SPSR of the mode (10_state.md R29) -/

theorem State.currentSpsr_eq_some {s : State} {v : Word} :
    s.currentSpsr = some v ↔
      (psrModeOf s.cpsr = some .supervisor ∧ s.spsrSvc = v) ∨
        (psrModeOf s.cpsr = some .irq ∧ s.spsrIrq = v) := by
  unfold State.currentSpsr
  cases psrModeOf s.cpsr with
  | none => simp
  | some m => cases m <;> simp

theorem State.currentSpsr_user {s : State} (h : psrModeOf s.cpsr = some .user) :
    s.currentSpsr = none := by simp [State.currentSpsr, h]

end Sys2Proof.Machine
end

