-- ==== Sys2Proof/Laws/Ops.lean ====
section
/-! SUPPORT. The laws of the named operations: for each one lemma that says everything it can do. -/

namespace Sys2Proof.Machine

/-- A bind that answers a value had a value to go on with. -/
theorem bind_eq_ok {A B : Type} {got : Except Reason A} {next : A → Except Reason B} {r : B} :
    (got >>= next) = .ok r ↔ ∃ v, got = .ok v ∧ next v = .ok r := by
  rcases got with reason | v
  · exact iff_of_false nofun (by rintro ⟨v, hv, _⟩; cases hv)
  · exact ⟨(⟨v, rfl, ·⟩), by rintro ⟨w, hw, hr⟩; cases hw; exact hr⟩

theorem pure_eq_ok {A : Type} {v r : A} : (pure v : Except Reason A) = .ok r ↔ v = r := Except.ok.injEq v r ▸ Iff.rfl

/-! ## Register writes in flight -/

/-- Everything a register write of an instruction does (40_execution_cycle.md R101). -/
theorem Work.setReg_ok {w w' : Work} {i : Reg} {v : Word} :
    w.setReg i v = .ok w' ↔
      (i = 15 ∧ w' = w.setPc v) ∨
        (i ≠ 15 ∧ ∃ sl, slot i (psrMode w.st.cpsr) = .ok sl ∧
          w' = { w with st := w.st.setSlot sl v }) := by
  unfold Work.setReg
  by_cases hi : i = 15
  · simp [hi, eq_comm]
  · simp only [hi, if_false, false_and, false_or, not_false_eq_true, true_and, ne_eq]
    unfold writeReg
    cases slot i (psrMode w.st.cpsr) <;> simp [eq_comm]

@[simp] theorem Work.setReg_fifteen (w : Work) (v : Word) : w.setReg 15 v = .ok (w.setPc v) := rfl

/-! ## Sentinel accesses (20_memory.md R52) -/

theorem singleLoad_kbd {s : State} {addr : Word} (h : addr = s.params.kbdAddr) (n : Width) :
    singleLoad s addr n = .ok (s.lastChar.setWidth 32) := by simp [singleLoad, h]

theorem singleLoad_ram {s : State} {addr : Word} (h : addr ≠ s.params.kbdAddr) (n : Width) :
    singleLoad s addr n = memRead s addr n := by simp [singleLoad, h]

theorem singleStore_display {s : State} {addr : Word} (h : addr = s.params.displayAddr) (n : Width)
    (v : Word) : singleStore s addr n v = .ok (s.emit (v.extractLsb' 0 8)) := by
  simp [singleStore, h]

theorem singleStore_ram {s : State} {addr : Word} (h : addr ≠ s.params.displayAddr) (n : Width)
    (v : Word) : singleStore s addr n v = memWrite s addr n v := by simp [singleStore, h]

/-- Everything a store of a single transfer does: one byte of output, or a write to the RAM. -/
theorem singleStore_ok {s t : State} {addr : Word} {n : Width} {v : Word} :
    singleStore s addr n v = .ok t ↔
      (addr = s.params.displayAddr ∧ t = s.emit (v.extractLsb' 0 8)) ∨
        (addr ≠ s.params.displayAddr ∧ memWrite s addr n v = .ok t) := by
  by_cases h : addr = s.params.displayAddr
  · rw [singleStore_display h]
    constructor
    · intro e; cases e; exact .inl ⟨h, rfl⟩
    · rintro (⟨_, rfl⟩ | ⟨h', _⟩)
      · rfl
      · exact absurd h h'
  · rw [singleStore_ram h]
    exact ⟨fun e => .inr ⟨h, e⟩, fun e => e.elim (fun e => absurd e.1 h) fun e => e.2⟩

/-! ## Exceptions -/

/-- Everything the return from an exception does (60_exceptions.md R170). -/
theorem restoreCpsr_ok {w w' : Work} {saved : Word} :
    restoreCpsr w saved = .ok w' ↔
      (psrModeOf saved).isSome = true ∧ w' = { w with st := w.st.setCpsr saved } := by
  unfold restoreCpsr
  cases psrModeOf saved <;> simp [eq_comm]

/-- Everything the test at the end of a step does (60_exceptions.md R168). -/
theorem State.takeIrq_cases (s : State) :
    (s.pendingIrq = true ∧ psrI s.cpsr = false ∧
      s.takeIrq = takeException .irq (s.r15 - 8#32) s) ∨
    ((s.pendingIrq = false ∨ psrI s.cpsr = true) ∧ s.takeIrq = s) := by
  unfold State.takeIrq
  cases s.pendingIrq <;> cases psrI s.cpsr <;> simp

/-! ## MSR -/

/-- Everything MSR does (47_status_register.md R157). -/
theorem msrWrite_ok {s t : State} {spsr : Bool} {fm : BitVec 4} {v : Word} :
    msrWrite s spsr fm v = .ok t ↔
      (spsr = true ∧ ∃ old, s.currentSpsr = some old ∧
        t = s.setCurrentSpsr (merge old v (lanes fm &&& allowedBits true s.cpsr))) ∨
      (spsr = false ∧ (psrModeOf (merge s.cpsr v (lanes fm &&& allowedBits false s.cpsr))).isSome = true ∧
        t = s.setCpsr (merge s.cpsr v (lanes fm &&& allowedBits false s.cpsr))) := by
  unfold msrWrite
  cases spsr with
  | true =>
    constructor
    · intro h
      left
      simp only [if_true] at h
      split at h
      · next old ho => cases h; exact ⟨rfl, old, ho, rfl⟩
      · cases h
    · rintro (⟨_, old, ho, rfl⟩ | ⟨h, _⟩)
      · simp only [if_true, ho]
      · cases h
  | false =>
    constructor
    · intro h
      right
      simp only [Bool.false_eq_true, if_false] at h
      split at h
      · next m hm => cases h; exact ⟨rfl, by rw [hm]; rfl, rfl⟩
      · cases h
    · rintro (⟨h, _⟩ | ⟨_, hm, rfl⟩)
      · cases h
      · obtain ⟨m, hm⟩ := Option.isSome_iff_exists.1 hm
        simp only [Bool.false_eq_true, if_false, hm]

/-! ## The frame of an instruction -/

/-- Advance-PC and Trace as one record update: only r15, the two marks and the trace change. -/
theorem State.advance_eq (s : State) (n : Option Word) (tr : Bool) :
    s.advance n tr = { s with
      r15 := nextR15 s n, halted := none, waitingLine := false,
      trace := (s.advance n tr).trace, traceCount := (s.advance n tr).traceCount } := by
  unfold State.advance State.recordTrace
  cases n <;> split <;> rfl

/-- Everything the frame answers with a next state. -/
theorem runHandler_next {c : Cond} {h : State → Except Reason Work} {s t : State} :
    runHandler c h s = .next t ↔
      (condPassed c s.cpsr = false ∧ t = s.advance none s.traced) ∨
        (condPassed c s.cpsr = true ∧ ∃ w, h s = .ok w ∧ t = w.st.advance w.nextPc s.traced) := by
  unfold runHandler
  cases condPassed c s.cpsr with
  | false => simp [eq_comm]
  | true => cases h s <;> simp [eq_comm]

theorem runHandler_of_ok {c : Cond} {h : State → Except Reason Work} {s : State} {w : Work}
    (hc : condPassed c s.cpsr = true) (hw : h s = .ok w) :
    runHandler c h s = .next (w.st.advance w.nextPc s.traced) := by simp [runHandler, hc, hw]

theorem runHandler_of_error {c : Cond} {h : State → Except Reason Work} {s : State} {r : Reason}
    (hc : condPassed c s.cpsr = true) (hw : h s = .error r) :
    runHandler c h s = .fault (r.at s.execAddr) := by simp [runHandler, hc, hw]

theorem runHandler_of_failed {c : Cond} {h : State → Except Reason Work} {s : State}
    (hc : condPassed c s.cpsr = false) : runHandler c h s = .next (s.advance none s.traced) := by
  simp [runHandler, hc]

theorem runHandler_not_refused {c : Cond} {h : State → Except Reason Work} {s : State} {r : Refusal} :
    runHandler c h s ≠ .refused r := by
  unfold runHandler
  cases condPassed c s.cpsr with
  | false => simp
  | true => cases h s <;> simp

end Sys2Proof.Machine
end

