-- ==== Sys2Proof/Laws/Effect.lean ====
section
/-! SUPPORT. What a handler may do to the state at most, said once for all instructions: what it keeps, and
the clauses of the invariant it carries over. Every claim about all instructions cites this. -/

namespace Sys2Proof.Machine

/-- In User mode: the mode and bits 27:0 of the CPSR but T stay, and so does every privileged register. -/
structure UserKept (s t : State) : Prop where
  cpsr : ∀ i < 28, i ≠ 5 → t.cpsr.getLsbD i = s.cpsr.getLsbD i
  r13Svc : t.r13Svc = s.r13Svc
  r14Svc : t.r14Svc = s.r14Svc
  r13Irq : t.r13Irq = s.r13Irq
  r14Irq : t.r14Irq = s.r14Irq
  spsrSvc : t.spsrSvc = s.spsrSvc
  spsrIrq : t.spsrIrq = s.spsrIrq

theorem UserKept.mode {s t : State} (h : UserKept s t) : psrModeOf t.cpsr = psrModeOf s.cpsr := by
  unfold psrModeOf
  rw [psrMode_ext fun i hi => h.cpsr i (by omega) (by omega)]

/-- What a handler may do at most. -/
structure Effect (s t : State) : Prop where
  params : t.params = s.params
  endian : t.endian = s.endian
  r15 : t.r15 = s.r15
  pendingIrq : t.pendingIrq = s.pendingIrq
  lastChar : t.lastChar = s.lastChar
  breakpoints : t.breakpoints = s.breakpoints
  halted : t.halted = s.halted
  waitingLine : t.waitingLine = s.waitingLine
  loaded : t.loaded = s.loaded
  keepRunning : t.keepRunning = s.keepRunning
  traceEnabled : t.traceEnabled = s.traceEnabled
  traceCount : t.traceCount = s.traceCount
  trace : t.trace = s.trace
  inputLines : t.inputLines = s.inputLines
  memory : Memory.wf s.mem → Memory.wf t.mem
  ram : (∀ c ∈ s.mem, c.1 < s.params.memSize) → ∀ c ∈ t.mem, c.1 < s.params.memSize
  mode : (psrModeOf s.cpsr).isSome = true → (psrModeOf t.cpsr).isSome = true
  reserved : psrReserved s.cpsr = 0#20 → psrReserved s.spsrSvc = 0#20 → psrReserved s.spsrIrq = 0#20 →
    psrReserved t.cpsr = 0#20 ∧ psrReserved t.spsrSvc = 0#20 ∧ psrReserved t.spsrIrq = 0#20
  user : psrModeOf s.cpsr = some .user → UserKept s t

theorem UserKept.refl (s : State) : UserKept s s := ⟨fun _ _ _ => rfl, rfl, rfl, rfl, rfl, rfl, rfl⟩

theorem UserKept.trans {s t u : State} (h : UserKept s t) (k : UserKept t u) : UserKept s u :=
  ⟨fun i hi h5 => (k.cpsr i hi h5).trans (h.cpsr i hi h5), k.r13Svc.trans h.r13Svc,
    k.r14Svc.trans h.r14Svc, k.r13Irq.trans h.r13Irq, k.r14Irq.trans h.r14Irq,
    k.spsrSvc.trans h.spsrSvc, k.spsrIrq.trans h.spsrIrq⟩

theorem Effect.refl (s : State) : Effect s s := by
  constructor
  case user => exact fun _ => .refl s
  case reserved => exact fun a b c => ⟨a, b, c⟩
  all_goals first | rfl | exact id

theorem Effect.trans {s t u : State} (h : Effect s t) (k : Effect t u) : Effect s u where
  params := k.params.trans h.params
  endian := k.endian.trans h.endian
  r15 := k.r15.trans h.r15
  pendingIrq := k.pendingIrq.trans h.pendingIrq
  lastChar := k.lastChar.trans h.lastChar
  breakpoints := k.breakpoints.trans h.breakpoints
  halted := k.halted.trans h.halted
  waitingLine := k.waitingLine.trans h.waitingLine
  loaded := k.loaded.trans h.loaded
  keepRunning := k.keepRunning.trans h.keepRunning
  traceEnabled := k.traceEnabled.trans h.traceEnabled
  traceCount := k.traceCount.trans h.traceCount
  trace := k.trace.trans h.trace
  inputLines := k.inputLines.trans h.inputLines
  memory := fun m => k.memory (h.memory m)
  ram := fun r c hc => by
    have := k.ram (by rw [h.params]; exact h.ram r) c hc
    rwa [h.params] at this
  mode := fun m => k.mode (h.mode m)
  reserved := fun a b c => by
    obtain ⟨a', b', c'⟩ := h.reserved a b c
    exact k.reserved a' b' c'
  user := fun m => (h.user m).trans (k.user ((h.user m).mode.trans m))

/-! ## The operations -/

/-- A register write of an index other than 15. -/
theorem Effect.setSlot {s : State} {i : Reg} {sl : Slot} (v : Word) (hi : i ≠ 15)
    (hs : slot i (psrMode s.cpsr) = .ok sl) : Effect s (s.setSlot sl v) where
  params := by simp
  endian := by simp
  r15 := by
    have := State.getSlot_setSlot_of_ne s v (slot_ne_r15 hi hs).symm
    simpa [State.getSlot] using this
  pendingIrq := by simp
  lastChar := by simp
  breakpoints := by simp
  halted := by simp
  waitingLine := by simp
  loaded := by simp
  keepRunning := by simp
  traceEnabled := by simp
  traceCount := by simp
  trace := by simp
  inputLines := by simp
  memory := by simp
  ram := by simp
  mode := by simp
  reserved := fun a b c => by simp [a, b, c]
  user := fun m => by
    have key : ∀ sl', (sl' = .r13Svc ∨ sl' = .r14Svc ∨ sl' = .r13Irq ∨ sl' = .r14Irq) →
        (s.setSlot sl v).getSlot sl' = s.getSlot sl' := by
      intro sl' h
      refine State.getSlot_setSlot_of_ne _ _ ?_
      rintro rfl
      have m' : Mode.ofBits (psrMode s.cpsr) = some .user := m
      rcases Reg.low_or_banked i with hl | rfl | rfl | rfl
      · rw [slot_low hl] at hs; cases hs; simp at h
      · rw [slot_thirteen, m'] at hs; cases hs; simp at h
      · rw [slot_fourteen, m'] at hs; cases hs; simp at h
      · exact hi rfl
    exact ⟨by simp, key .r13Svc (by simp), key .r14Svc (by simp), key .r13Irq (by simp),
      key .r14Irq (by simp), by simp, by simp⟩

theorem Effect.setReg {s : State} {w w' : Work} {i : Reg} {v : Word} (h : Effect s w.st)
    (hw : w.setReg i v = .ok w') : Effect s w'.st := by
  rcases Work.setReg_ok.1 hw with ⟨_, rfl⟩ | ⟨hi, sl, hs, rfl⟩
  · exact h
  · exact h.trans (.setSlot v hi hs)

/-- A CPSR write that keeps bits 27:0 but T. -/
theorem Effect.setCpsr (s : State) {p : Word} (h : ∀ i < 28, i ≠ 5 → p.getLsbD i = s.cpsr.getLsbD i) :
    Effect s (s.setCpsr p) :=
  { Effect.refl s with
    mode := by
      have : psrModeOf p = psrModeOf s.cpsr := by
        unfold psrModeOf; rw [psrMode_ext fun i hi => h i (by omega) (by omega)]
      simp [this]
    reserved := fun a b c => ⟨by
      rw [State.setCpsr_cpsr, psrReserved_ext fun i h8 h28 => h i h28 (by omega)]; exact a, b, c⟩
    user := fun _ => ⟨fun i hi h5 => by simpa using h i hi h5, rfl, rfl, rfl, rfl, rfl, rfl⟩ }

theorem Effect.setFlags {s : State} {w : Work} (h : Effect s w.st) (r : AluResult) :
    Effect s (w.setFlags r).st :=
  h.trans (.setCpsr _ fun i hi _ => by
    rw [getLsbD_flagsOf, if_neg (by omega), if_neg (by omega), if_neg (by omega), if_neg (by omega)])

theorem Effect.setFlagsNZ {s : State} {w : Work} (h : Effect s w.st) (x : Word) :
    Effect s (w.setFlagsNZ x).st :=
  h.trans (.setCpsr _ fun i hi _ => by
    rw [getLsbD_flagsNZ, if_neg (by omega), if_neg (by omega)])

theorem Effect.emit (s : State) (b : Byte) : Effect s (s.emit b) :=
  { Effect.refl s with user := fun _ => ⟨fun _ _ _ => rfl, rfl, rfl, rfl, rfl, rfl, rfl⟩ }

theorem Effect.memWrite {s t : State} {addr : Word} {n : Width} {v : Word}
    (h : memWrite s addr n v = .ok t) : Effect s t := by
  obtain ⟨_, ht, hw, hr, _⟩ := memWrite_ok h
  rw [ht]
  exact { Effect.refl s with
    memory := hw, ram := hr
    user := fun _ => ⟨fun _ _ _ => rfl, rfl, rfl, rfl, rfl, rfl, rfl⟩ }

theorem Effect.singleStore {s t : State} {addr : Word} {n : Width} {v : Word}
    (h : singleStore s addr n v = .ok t) : Effect s t := by
  rcases singleStore_ok.1 h with ⟨_, rfl⟩ | ⟨_, h⟩
  · exact .emit s _
  · exact .memWrite h

theorem Effect.writeback {s : State} {w w' : Work} {rn : Reg} {ad : Address} (h : Effect s w.st)
    (hw : w.writeback rn ad = .ok w') : Effect s w'.st := by
  unfold Work.writeback at hw
  split at hw
  · exact h.setReg hw
  · cases hw; exact h

/-- The restore copies a saved status whose mode is valid, in a mode that has one. -/
theorem Effect.restoreCpsr {s : State} {saved : Word} (hs : s.currentSpsr = some saved)
    (hv : (psrModeOf saved).isSome = true) : Effect s (s.setCpsr saved) :=
  { Effect.refl s with
    mode := fun _ => hv
    reserved := fun a b c => by
      rcases State.currentSpsr_eq_some.1 hs with ⟨_, rfl⟩ | ⟨_, rfl⟩
      · exact ⟨b, b, c⟩
      · exact ⟨c, b, c⟩
    user := fun m => by rw [State.currentSpsr_user m] at hs; cases hs }

theorem Effect.msrWrite {s t : State} {spsr : Bool} {fm : BitVec 4} {v : Word}
    (h : msrWrite s spsr fm v = .ok t) : Effect s t := by
  rcases msrWrite_ok.1 h with ⟨-, old, ho, rfl⟩ | ⟨-, hv, rfl⟩
  · rcases State.currentSpsr_eq_some.1 ho with ⟨hm, rfl⟩ | ⟨hm, rfl⟩ <;> rw [State.setCurrentSpsr, hm]
    · exact { Effect.refl s with
        reserved := fun a b c => ⟨a, by rwa [psrReserved_merge], c⟩
        user := fun m => absurd (hm.symm.trans m) (by decide) }
    · exact { Effect.refl s with
        reserved := fun a b c => ⟨a, b, by rwa [psrReserved_merge]⟩
        user := fun m => absurd (hm.symm.trans m) (by decide) }
  · exact { Effect.refl s with
      mode := fun _ => hv
      reserved := fun a b c => ⟨by rw [State.setCpsr_cpsr, psrReserved_merge]; exact a, b, c⟩
      user := fun m => ⟨fun i hi _ => by
        rw [State.setCpsr_cpsr, getLsbD_merge, BitVec.getLsbD_and, getLsbD_allowedBits _ _ (by omega)]
        simp [show ¬ 28 ≤ i by omega, privileged, m], rfl, rfl, rfl, rfl, rfl, rfl⟩ }

/-! ## The handlers -/

theorem Effect.dataProcessing {op : DpOp} {sb : Bool} {rn rd : Reg} {o : Operand} {s : State} {w : Work}
    (h : dataProcessing op sb rn rd o s = .ok w) : Effect s w.st := by
  unfold Machine.dataProcessing at h
  obtain ⟨b, _, h⟩ := bind_eq_ok.1 h
  obtain ⟨a, _, h⟩ := bind_eq_ok.1 h
  obtain ⟨w₁, hw, h⟩ := bind_eq_ok.1 h
  have e : Effect s w₁.st := by
    unfold dpResult at hw
    split at hw
    · exact (Effect.refl s).setReg hw
    · cases hw; exact .refl s
  unfold dpFinish dpStatus at h
  split at h
  · split at h
    · split at h
      · next saved hs =>
        obtain ⟨hv, rfl⟩ := restoreCpsr_ok.1 h
        exact e.trans (.restoreCpsr hs hv)
      · cases h; exact e.setFlags _
    · cases h; exact e.setFlags _
  · cases h; exact e

theorem Effect.multiply {acc : Bool} {a : MulArgs} {s : State} {w : Work}
    (h : multiply acc a s = .ok w) : Effect s w.st := by
  unfold Machine.multiply at h
  obtain ⟨x, _, h⟩ := bind_eq_ok.1 h
  obtain ⟨y, _, h⟩ := bind_eq_ok.1 h
  obtain ⟨z, _, h⟩ := bind_eq_ok.1 h
  obtain ⟨w₁, hw, h⟩ := bind_eq_ok.1 h
  rw [pure_eq_ok] at h; subst h
  have e := (Effect.refl s).setReg hw
  split
  · exact e.setFlagsNZ _
  · exact e

theorem Effect.finishLoad {rn rd : Reg} {ad : Address} {v : Word} {s : State} {w : Work}
    (h : finishLoad rn rd ad v s = .ok w) : Effect s w.st := by
  unfold Machine.finishLoad at h
  obtain ⟨w₁, hw, h⟩ := bind_eq_ok.1 h
  exact ((Effect.refl s).writeback hw).setReg h

theorem Effect.loadSingle {n : Width} {ix : Indexing} {rn rd : Reg} {o : Offset} {s : State} {w : Work}
    (h : loadSingle n ix rn rd o s = .ok w) : Effect s w.st := by
  unfold Machine.loadSingle at h
  obtain ⟨ad, _, h⟩ := bind_eq_ok.1 h
  obtain ⟨v, _, h⟩ := bind_eq_ok.1 h
  exact .finishLoad h

theorem Effect.loadHalf {n : Width} {x : Extend} {ix : Indexing} {rn rd : Reg} {o : Offset} {s : State}
    {w : Work} (h : loadHalf n x ix rn rd o s = .ok w) : Effect s w.st := by
  unfold Machine.loadHalf at h
  obtain ⟨ad, _, h⟩ := bind_eq_ok.1 h
  obtain ⟨v, _, h⟩ := bind_eq_ok.1 h
  exact .finishLoad h

theorem Effect.storeSingle {n : Width} {ix : Indexing} {rn rd : Reg} {o : Offset} {s : State} {w : Work}
    (h : storeSingle n ix rn rd o s = .ok w) : Effect s w.st := by
  unfold Machine.storeSingle at h
  obtain ⟨ad, _, h⟩ := bind_eq_ok.1 h
  obtain ⟨v, _, h⟩ := bind_eq_ok.1 h
  obtain ⟨t, ht, h⟩ := bind_eq_ok.1 h
  exact (Effect.singleStore ht).writeback h

theorem Effect.storeHalf {ix : Indexing} {rn rd : Reg} {o : Offset} {s : State} {w : Work}
    (h : storeHalf ix rn rd o s = .ok w) : Effect s w.st := by
  unfold Machine.storeHalf at h
  obtain ⟨ad, _, h⟩ := bind_eq_ok.1 h
  obtain ⟨v, _, h⟩ := bind_eq_ok.1 h
  obtain ⟨t, ht, h⟩ := bind_eq_ok.1 h
  exact (Effect.memWrite ht).writeback h

theorem Effect.loadRegs {s : State} (is : List Reg) {addr : Word} {w w' : Work} (e : Effect s w.st)
    (h : loadRegs is addr w = .ok w') : Effect s w'.st := by
  induction is generalizing addr w with
  | nil => cases h; exact e
  | cons i is ih =>
    unfold Machine.loadRegs at h
    obtain ⟨v, _, h⟩ := bind_eq_ok.1 h
    obtain ⟨w₁, hw, h⟩ := bind_eq_ok.1 h
    exact ih (e.setReg hw) h

theorem Effect.storeRegs (is : List Reg) {addr : Word} {s t : State}
    (h : storeRegs is addr s = .ok t) : Effect s t := by
  induction is generalizing addr s with
  | nil => cases h; exact .refl _
  | cons i is ih =>
    unfold Machine.storeRegs at h
    obtain ⟨v, _, h⟩ := bind_eq_ok.1 h
    obtain ⟨u, hu, h⟩ := bind_eq_ok.1 h
    exact (Effect.memWrite hu).trans (ih h)

theorem Effect.blockWriteback {s : State} {a : BlockArgs} {v : Word} {w w' : Work} (e : Effect s w.st)
    (h : blockWriteback a v w = .ok w') : Effect s w'.st := by
  unfold Machine.blockWriteback at h
  split at h
  · exact e.setReg h
  · cases h; exact e

theorem Effect.loadMultiple {a : BlockArgs} {s : State} {w : Work} (h : loadMultiple a s = .ok w) :
    Effect s w.st := by
  unfold Machine.loadMultiple at h
  split at h
  · cases h
  · obtain ⟨base, _, h⟩ := bind_eq_ok.1 h
    obtain ⟨w₁, hw, h⟩ := bind_eq_ok.1 h
    exact (Effect.loadRegs _ (.refl s) hw).blockWriteback h

theorem Effect.storeMultiple {a : BlockArgs} {s : State} {w : Work} (h : storeMultiple a s = .ok w) :
    Effect s w.st := by
  unfold Machine.storeMultiple at h
  split at h
  · cases h
  · obtain ⟨base, _, h⟩ := bind_eq_ok.1 h
    obtain ⟨t, ht, h⟩ := bind_eq_ok.1 h
    exact (Effect.storeRegs _ ht).blockWriteback h

theorem Effect.branch {off : BitVec 24} {s : State} {w : Work} (h : branch off s = .ok w) :
    Effect s w.st := by cases h; exact .refl s

theorem Effect.branchLink {off : BitVec 24} {s : State} {w : Work} (h : branchLink off s = .ok w) :
    Effect s w.st := by
  unfold Machine.branchLink at h
  obtain ⟨w₁, hw, h⟩ := bind_eq_ok.1 h
  rw [pure_eq_ok] at h; subst h
  have e := (Effect.refl s).setReg hw
  exact e

theorem Effect.branchExchange {rm : Reg} {s : State} {w : Work} (h : branchExchange rm s = .ok w) :
    Effect s w.st := by
  unfold Machine.branchExchange at h
  obtain ⟨v, _, h⟩ := bind_eq_ok.1 h
  rw [pure_eq_ok] at h; subst h
  exact .setCpsr s fun i _ h5 => by rw [withT, getLsbD_setBit _ (by decide), if_neg h5]

theorem Effect.moveFromStatus {spsr : Bool} {rd : Reg} {s : State} {w : Work}
    (h : moveFromStatus spsr rd s = .ok w) : Effect s w.st := by
  unfold Machine.moveFromStatus at h
  obtain ⟨v, _, h⟩ := bind_eq_ok.1 h
  exact (Effect.refl s).setReg h

theorem Effect.moveToStatusReg {a : MsrRegArgs} {s : State} {w : Work}
    (h : moveToStatusReg a s = .ok w) : Effect s w.st := by
  unfold Machine.moveToStatusReg at h
  obtain ⟨v, _, h⟩ := bind_eq_ok.1 h
  obtain ⟨t, ht, h⟩ := bind_eq_ok.1 h
  rw [pure_eq_ok] at h; subst h
  exact .msrWrite ht

theorem Effect.moveToStatusImm {a : MsrImmArgs} {s : State} {w : Work}
    (h : moveToStatusImm a s = .ok w) : Effect s w.st := by
  unfold Machine.moveToStatusImm at h
  obtain ⟨t, ht, h⟩ := bind_eq_ok.1 h
  rw [pure_eq_ok] at h; subst h
  exact .msrWrite ht

theorem Effect.noOperation {s : State} {w : Work} (h : noOperation s = .ok w) : Effect s w.st := by
  cases h; exact .refl s

/-! ## Every instruction -/

/-- What `runHandler` answers with a next state: an effect, then the advance. -/
theorem runHandler_effect {c : Cond} {h : State → Except Reason Work} {s t : State}
    (he : ∀ w, h s = .ok w → Effect s w.st) (ht : runHandler c h s = .next t) :
    ∃ u n, Effect s u ∧ t = u.advance n s.traced := by
  rcases runHandler_next.1 ht with ⟨_, rfl⟩ | ⟨_, w, hw, rfl⟩
  · exact ⟨s, none, .refl s, rfl⟩
  · exact ⟨w.st, w.nextPc, he w hw, rfl⟩

/-- EVERY INSTRUCTION that answers a next state is the word 0, an SWI, or an effect and the advance. -/
theorem exec_next {i : Instr} {s t : State} (h : exec i s = .next t) :
    (i = .zeroWord ∧ t = s.halt .zeroWord) ∨ (∃ c n, i = .swi c n ∧ execSwi c n s = .next t) ∨
      ∃ u n, Effect s u ∧ t = u.advance n s.traced := by
  cases i with
  | zeroWord => exact .inl ⟨rfl, by cases h; rfl⟩
  | swi c n => exact .inr (.inl ⟨c, n, rfl, h⟩)
  | b c off => exact .inr (.inr (runHandler_effect (h := branch off) (fun w hw => .branch hw) h))
  | nopCoprocessor c | nopUndefined c | nopCompareImm c | nopMultiplySpace c | nopDoubleWord c
  | nopCompareReg c =>
    exact .inr (.inr (runHandler_effect (h := noOperation) (fun w hw => .noOperation hw) h))
  | bl | bx | stm | ldm | mrs | msrReg | msrImm | mul | mla
  | strImm | ldrImm | strbImm | ldrbImm | strReg | ldrReg | strbReg | ldrbReg
  | strScaled | ldrScaled | strbScaled | ldrbScaled
  | strhImm | ldrhImm | ldrsbImm | ldrshImm | strhReg | ldrhReg | ldrsbReg | ldrshReg =>
    exact .inr (.inr (runHandler_effect (fun w hw => by
      first
      | exact .branchLink hw | exact .branchExchange hw
      | exact .storeMultiple hw | exact .loadMultiple hw | exact .moveFromStatus hw
      | exact .moveToStatusReg hw | exact .moveToStatusImm hw | exact .multiply hw
      | exact .loadSingle hw | exact .storeSingle hw | exact .loadHalf hw | exact .storeHalf hw) h))
  | _ => exact .inr (.inr (runHandler_effect (fun w hw => Effect.dataProcessing hw) h))

end Sys2Proof.Machine
end

