-- ==== Sys2Proof/Laws/Step.lean ====
section
/-! SUPPORT. Everything the software interrupt and a whole step can do, said once. -/

namespace Sys2Proof.Machine

/-! ## The line-input service (60_exceptions.md R166) -/

/-- Writing a line changes the memory alone. -/
theorem writeLine_ok {s t : State} {addr : Word} {bs : List Byte} (h : writeLine s addr bs = .ok t) :
    Effect s t ∧ t = { s with mem := t.mem } := by
  induction bs generalizing s addr with
  | nil => cases h; exact ⟨.refl _, rfl⟩
  | cons b bs ih =>
    unfold writeLine at h
    obtain ⟨u, hu, h⟩ := bind_eq_ok.1 h
    obtain ⟨e, ht⟩ := ih h
    have hu' := (memWrite_ok hu).2.1
    refine ⟨(Effect.memWrite hu).trans e, ?_⟩
    rw [ht, hu']

/-- Writing one byte of the RAM never fails inside it and always lands. -/
theorem memWrite_byte {s : State} {addr v : Word} (h : s.inRam addr .byte) :
    memWrite s addr .byte v =
      .ok { s with mem := writeCell s.mem addr.toNat (v.extractLsb' 0 8) } := by
  have ha : aligned addr .byte := Nat.mod_one _
  rw [memWrite, if_neg (not_not.2 h), if_neg (not_not.2 ha)]
  have : splitBytes s.endian .byte v = [v.extractLsb' 0 8] := by
    cases s.endian <;> simp [splitBytes, splitByte, Width.bytes]
  rw [this]
  rfl

/-- A line that fits in the RAM is written, byte after byte. -/
theorem writeLine_fits {s : State} {addr : Word} {bs : List Byte}
    (h : addr.toNat + bs.length ≤ s.params.memSize) (hm : s.params.memSize ≤ 2 ^ 32) :
    writeLine s addr bs = .ok { s with mem := writeCells s.mem addr.toNat bs } := by
  induction bs generalizing s addr with
  | nil => rfl
  | cons b bs ih =>
    rw [List.length_cons] at h
    have hb : s.inRam addr .byte := by simp only [State.inRam, Width.bytes]; omega
    unfold writeLine
    rw [memWrite_byte hb]
    have hx : (b.setWidth 32 : Word).extractLsb' 0 8 = b := by
      apply BitVec.eq_of_getLsbD_eq; intro i hi; simp [hi, show i < 32 by omega]
    rw [hx]
    cases bs with
    | nil => rfl
    | cons c cs =>
      rw [List.length_cons] at h
      have ha : (addr + 1#32).toNat = addr.toNat + 1 := by
        rw [BitVec.toNat_add]; simp; omega
      have := @ih { s with mem := writeCell s.mem addr.toNat b } (addr + 1#32)
        (by rw [ha]; simpa using by omega) hm
      rw [ha] at this
      exact this

/-- Everything the service answers with a next state: the entered state, waiting, or the line written. -/
theorem serviceReadline_next {e t : State} {f : Word} (h : serviceReadline e f = .next t) :
    (e.inputLines = [] ∧ t = { e with waitingLine := true }) ∨
    ∃ line rest addr bs, e.inputLines = line :: rest ∧
      writeLine { e with inputLines := rest, waitingLine := false } addr bs = .ok t := by
  unfold serviceReadline at h
  split at h
  · next he => cases h; exact .inl ⟨he, rfl⟩
  · next line rest he =>
    dsimp only at h
    split at h
    · cases h
    · split at h
      · next u hu => cases h; exact .inr ⟨line, rest, _, _, he, hu⟩
      · cases h

/-! ## SWI -/

/-- Everything SWI answers with a next state (48_software_interrupt.md R160, 60_exceptions.md R165, R166). -/
theorem execSwi_next {c : Cond} {n : BitVec 24} {s t : State} (h : execSwi c n s = .next t) :
    (t = s.advance none s.traced) ∨
    (n = swiExit ∧ t = exitHalt s) ∨
    (n = s.params.swiPutc ∧ t = servicePutc (swiEntry s)) ∨
    (n = s.params.swiReadline ∧ serviceReadline (swiEntry s) s.execAddr = .next t) := by
  unfold execSwi at h
  split at h
  · unfold swiOutcome at h
    by_cases hx : n = swiExit
    · rw [if_pos hx] at h; cases h; exact .inr (.inl ⟨hx, rfl⟩)
    · by_cases hs : n = s.params.swiPutc ∨ n = s.params.swiReadline
      · rw [if_neg hx, if_pos hs] at h
        simp only [swiService] at h
        by_cases hp : n = s.params.swiPutc
        · rw [if_pos hp] at h; cases h; exact .inr (.inr (.inl ⟨hp, rfl⟩))
        · rw [if_neg hp] at h
          exact .inr (.inr (.inr ⟨hs.resolve_left hp, h⟩))
      · rw [if_neg hx, if_neg hs] at h; cases h; exact .inl rfl
  · cases h; exact .inl rfl

/-! ## The step (40_execution_cycle.md R93) -/

/-- How a step that answers `t` ended: `u` is the state its instruction or service left, and the IRQ test comes
only on a running core. -/
def Ended (u t : State) : Prop := (u.running = false ∧ t = u) ∨ (u.running = true ∧ t = u.takeIrq)

theorem endOfStep_ended {o : Host.Outcome State Fault Refusal} {t : State} (h : endOfStep o = .next t) :
    ∃ u, o = .next u ∧ Ended u t := by
  unfold endOfStep at h
  split at h
  · next u =>
    refine ⟨u, rfl, ?_⟩
    have hrun : u.running = !(u.halted.isSome || u.waitingLine) := by
      unfold State.running; cases u.halted <;> cases u.waitingLine <;> rfl
    rw [Ended, hrun]
    split at h
    · next hq => cases h; exact .inl ⟨by rw [hq]; rfl, rfl⟩
    · next hq => cases h; exact .inr ⟨by simpa using hq, rfl⟩
  · cases h
  · cases h

/-- Everything a step answers with a next state: the line-input service going on, a breakpoint halt, or the
decoded instruction. -/
theorem step_next {s t : State} (h : step s = .next t) :
    (s.waitingLine = true ∧ ∃ u, resumeReadline s = .next u ∧ Ended u t) ∨
    (s.waitingLine = false ∧ s.isBreakpoint s.execAddr = true ∧ t = s.halt .breakpoint) ∨
    (s.waitingLine = false ∧ s.isBreakpoint s.execAddr = false ∧
      ∃ raw u, memRead s s.execAddr .word = .ok raw ∧ exec (decode raw) s = .next u ∧ Ended u t) := by
  unfold step driverStep at h
  cases hw : s.waitingLine with
  | true => rw [hw, if_pos rfl] at h; exact .inl ⟨rfl, endOfStep_ended h⟩
  | false =>
    rw [hw, if_neg (by decide)] at h
    split at h
    · next hb => cases h; exact .inr (.inl ⟨rfl, hb, rfl⟩)
    · next hb =>
      refine .inr (.inr ⟨rfl, by simpa using hb, ?_⟩)
      split at h
      · cases h
      · next raw hr =>
        obtain ⟨u, hu, he⟩ := endOfStep_ended h
        exact ⟨raw, u, hr, hu, he⟩

/-- What a step keeps whatever it does: nothing but the host and the loader write these. -/
structure Fixed (s t : State) : Prop where
  params : t.params = s.params
  endian : t.endian = s.endian
  lastChar : t.lastChar = s.lastChar
  breakpoints : t.breakpoints = s.breakpoints
  loaded : t.loaded = s.loaded
  keepRunning : t.keepRunning = s.keepRunning
  traceEnabled : t.traceEnabled = s.traceEnabled

theorem Fixed.refl (s : State) : Fixed s s := by constructor <;> rfl

theorem Fixed.trans {s t u : State} (h : Fixed s t) (k : Fixed t u) : Fixed s u :=
  ⟨k.params.trans h.params, k.endian.trans h.endian, k.lastChar.trans h.lastChar,
    k.breakpoints.trans h.breakpoints, k.loaded.trans h.loaded, k.keepRunning.trans h.keepRunning,
    k.traceEnabled.trans h.traceEnabled⟩

theorem Effect.fixed {s t : State} (h : Effect s t) : Fixed s t :=
  ⟨h.params, h.endian, h.lastChar, h.breakpoints, h.loaded, h.keepRunning, h.traceEnabled⟩

theorem Fixed.advance (s : State) (n : Option Word) (tr : Bool) : Fixed s (s.advance n tr) := by
  constructor <;> simp

theorem Fixed.swiEntry (s : State) : Fixed s (swiEntry s) := by
  constructor <;> simp [Machine.swiEntry]

theorem Fixed.takeIrq (s : State) : Fixed s s.takeIrq := by
  rcases s.takeIrq_cases with ⟨_, _, e⟩ | ⟨_, e⟩ <;> rw [e]
  · constructor <;> rfl
  · exact .refl s

theorem Fixed.serviceReadline {e t : State} {f : Word} (h : serviceReadline e f = .next t) : Fixed e t := by
  rcases serviceReadline_next h with ⟨_, rfl⟩ | ⟨line, rest, addr, bs, _, hw⟩
  · constructor <;> rfl
  · refine Fixed.trans ?_ (writeLine_ok hw).1.fixed
    constructor <;> rfl

theorem Fixed.execSwi {c : Cond} {n : BitVec 24} {s t : State} (h : execSwi c n s = .next t) :
    Fixed s t := by
  rcases execSwi_next h with rfl | ⟨_, rfl⟩ | ⟨_, rfl⟩ | ⟨_, hr⟩
  · exact .advance s none _
  · constructor <;> simp [exitHalt]
  · refine (Fixed.swiEntry s).trans ?_
    constructor <;> rfl
  · exact (Fixed.swiEntry s).trans (.serviceReadline hr)

end Sys2Proof.Machine
end

