-- ==== Sys2Proof/Laws/Claims.lean ====
section
/-! SUPPORT. The laws of the words the claims are stated in: what an accessible register reads and writes, and
what an effect followed by the advance keeps. -/

namespace Sys2Proof.Machine

/-! ## Accessible registers -/

theorem accessible_slot {s : State} {i : Reg} (h : accessible s i) :
    ∃ sl, slot i (psrMode s.cpsr) = .ok sl := by
  rcases Reg.low_or_banked i with hi | rfl | rfl | rfl
  · exact ⟨_, slot_low hi _⟩
  · rcases h with h | h
    · exact absurd rfl h.1
    · rw [slot_thirteen]
      rcases h with h | h | h | h <;> (unfold psrModeOf at h; rw [h]; exact ⟨_, rfl⟩)
  · rcases h with h | h
    · exact absurd rfl h.2
    · rw [slot_fourteen]
      rcases h with h | h | h | h <;> (unfold psrModeOf at h; rw [h]; exact ⟨_, rfl⟩)
  · exact ⟨_, rfl⟩

/-- An accessible register reads as `reg` says. -/
theorem readReg_accessible {s : State} {i : Reg} (h : accessible s i) : readReg s i = .ok (reg s i) := by
  obtain ⟨sl, hs⟩ := accessible_slot h
  have := readReg_ok.2 ⟨sl, hs, rfl⟩
  rw [reg, this]

/-- A value read is the value of `reg`. -/
theorem reg_of_readReg {s : State} {i : Reg} {v : Word} (h : readReg s i = .ok v) : reg s i = v := by
  rw [reg, h]

/-- Accessibility depends on the mode field alone. -/
theorem accessible_congr {s t : State} (h : psrMode t.cpsr = psrMode s.cpsr) (i : Reg) :
    accessible t i ↔ accessible s i := by
  simp only [accessible, banked, psrModeOf, h]

/-- Everything a write of an accessible register does. -/
theorem setReg_accessible (w : Work) {i : Reg} (v : Word) (h : accessible w.st i) :
    ∃ w', w.setReg i v = .ok w' ∧
      ((i = 15 ∧ w' = w.setPc v) ∨
        (i ≠ 15 ∧ ∃ sl, slot i (psrMode w.st.cpsr) = .ok sl ∧ sl ≠ .r15 ∧
          w' = { w with st := w.st.setSlot sl v })) := by
  by_cases hi : i = 15
  · exact ⟨_, by rw [hi]; exact Work.setReg_fifteen w v, .inl ⟨hi, rfl⟩⟩
  · obtain ⟨sl, hs⟩ := accessible_slot h
    exact ⟨_, Work.setReg_ok.2 (.inr ⟨hi, sl, hs, rfl⟩), .inr ⟨hi, sl, hs, slot_ne_r15 hi hs, rfl⟩⟩

/-! ## After the advance -/

/-- F + 12 is r15 + 4 (40_execution_cycle.md R95). -/
theorem execAddr_add_twelve (s : State) : s.execAddr + 12#32 = s.r15 + 4#32 := by
  unfold State.execAddr
  bv_omega

theorem RestKept.advance {s u : State} (h : Effect s u) (n : Option Word) (tr : Bool) :
    RestKept s (u.advance n tr) :=
  ⟨by simpa using h.params, by simpa using h.endian, by simpa using h.pendingIrq,
    by simpa using h.lastChar, by simpa using h.breakpoints, by simpa using h.loaded,
    by simpa using h.keepRunning, by simpa using h.traceEnabled, by simpa using h.inputLines,
    by simp [State.running]⟩

/-- With no r15 write the next instruction follows. -/
theorem nextInstruction_advance {tr : Bool} {s u : State} (h : u.r15 = s.r15) : nextInstruction s (u.advance none tr) := by
  rw [nextInstruction, execAddr_add_twelve, State.advance_r15, nextR15_none, h]

/-- The advance keeps every physical register but r15. -/
theorem registersBut_advance {s u : State} {ws : List Reg} (h : registersBut s u ws) (n : Option Word)
    (tr : Bool) : registersBut s (u.advance n tr) ws := fun sl hsl hw => by
  rw [State.getSlot_advance _ _ _ hsl, h sl hsl hw]

theorem registersBut_refl (s : State) (ws : List Reg) : registersBut s s ws := fun _ _ _ => rfl

theorem registersBut_mono {s t : State} {ws vs : List Reg} (h : registersBut s t ws) (hs : ∀ i ∈ ws, i ∈ vs) :
    registersBut s t vs := fun sl hsl hv => h sl hsl fun i hi => hv i (hs i hi)

theorem registersBut_trans {s t u : State} {ws : List Reg} (h : registersBut s t ws)
    (hm : psrMode t.cpsr = psrMode s.cpsr) (k : registersBut t u ws) : registersBut s u ws := fun sl hsl hw =>
  (k sl hsl fun i hi => by rw [hm]; exact hw i hi).trans (h sl hsl hw)

/-- Writing the slot of one index keeps every other. -/
theorem registersBut_setSlot {s : State} {i : Reg} {sl : Slot} (v : Word)
    (h : slot i (psrMode s.cpsr) = .ok sl) : registersBut s (s.setSlot sl v) [i] := fun sl' _ hw =>
  State.getSlot_setSlot_of_ne _ _ fun e => hw i (by simp) (by rw [h, e])

/-- The register frame of one register write. -/
theorem registersBut_setReg {w w' : Work} {i : Reg} {v : Word} (h : w.setReg i v = .ok w') :
    registersBut w.st w'.st [i] := by
  rcases Work.setReg_ok.1 h with ⟨_, rfl⟩ | ⟨_, sl, hs, rfl⟩
  · exact registersBut_refl _ _
  · exact registersBut_setSlot v hs

/-- What a register write keeps. -/
theorem setReg_keeps {w w' : Work} {i : Reg} {v : Word} (h : w.setReg i v = .ok w') :
    w'.st.cpsr = w.st.cpsr ∧ w'.st.spsrSvc = w.st.spsrSvc ∧ w'.st.spsrIrq = w.st.spsrIrq ∧
      w'.st.mem = w.st.mem ∧ w'.st.output = w.st.output := by
  rcases Work.setReg_ok.1 h with ⟨_, rfl⟩ | ⟨_, sl, _, rfl⟩
  · exact ⟨rfl, rfl, rfl, rfl, rfl⟩
  · exact ⟨by simp, by simp, by simp, by simp, by simp⟩

/-- A register written last reads as written after the advance, in the mode it was written in. -/
theorem written_advance {w w' : Work} {i : Reg} {v : Word} (h : w.setReg i v = .ok w') (tr : Bool) :
    written (w'.st.advance w'.nextPc tr) i v := by
  rcases Work.setReg_ok.1 h with ⟨hi, rfl⟩ | ⟨hi, sl, hs, rfl⟩
  · simp [written, hi]
  · rw [written, if_neg hi]
    refine readReg_ok.2 ⟨sl, by simpa using hs, ?_⟩
    rw [State.getSlot_advance _ _ _ (slot_ne_r15 hi hs)]
    simp

end Sys2Proof.Machine
end

