-- ==== Sys2Proof/Laws/Block.lean ====
section
/-! SUPPORT. The laws of the block transfer: the place of a listed register, and one lemma each that says
everything the two loops do when they run to their end. -/

namespace Sys2Proof.Machine

/-! ## The list -/

theorem mem_allRegs (i : Reg) : i ∈ allRegs := by revert i; decide

theorem mem_listedRegs {list : BitVec 16} {i : Reg} : i ∈ listedRegs list ↔ list.getLsbD i.val = true := by
  simp [listedRegs, mem_allRegs]

theorem listedRegs_nodup (list : BitVec 16) : (listedRegs list).Nodup :=
  (show allRegs.Nodup by decide).filter _

/-- The registers below `i`, and those from it on. -/
theorem allRegs_split (i : Reg) :
    ∃ hi, allRegs = (List.range i.val).map (fun k => (Fin.ofNat 16 k : Reg)) ++ i :: hi := by
  fin_cases i
  · exact ⟨[1, 2, 3, 4, 5, 6, 7, 8, 9, 10, 11, 12, 13, 14, 15], rfl⟩
  · exact ⟨[2, 3, 4, 5, 6, 7, 8, 9, 10, 11, 12, 13, 14, 15], rfl⟩
  · exact ⟨[3, 4, 5, 6, 7, 8, 9, 10, 11, 12, 13, 14, 15], rfl⟩
  · exact ⟨[4, 5, 6, 7, 8, 9, 10, 11, 12, 13, 14, 15], rfl⟩
  · exact ⟨[5, 6, 7, 8, 9, 10, 11, 12, 13, 14, 15], rfl⟩
  · exact ⟨[6, 7, 8, 9, 10, 11, 12, 13, 14, 15], rfl⟩
  · exact ⟨[7, 8, 9, 10, 11, 12, 13, 14, 15], rfl⟩
  · exact ⟨[8, 9, 10, 11, 12, 13, 14, 15], rfl⟩
  · exact ⟨[9, 10, 11, 12, 13, 14, 15], rfl⟩
  · exact ⟨[10, 11, 12, 13, 14, 15], rfl⟩
  · exact ⟨[11, 12, 13, 14, 15], rfl⟩
  · exact ⟨[12, 13, 14, 15], rfl⟩
  · exact ⟨[13, 14, 15], rfl⟩
  · exact ⟨[14, 15], rfl⟩
  · exact ⟨[15], rfl⟩
  · exact ⟨[], rfl⟩

theorem filter_range_length (list : BitVec 16) {n : Nat} (h : n ≤ 16) :
    (((List.range n).map fun k => (Fin.ofNat 16 k : Reg)).filter fun i => list.getLsbD i.val).length =
      rank list n := by
  rw [List.filter_map, List.length_map, rank]
  congr 1
  refine List.filter_congr fun k hk => ?_
  have : k < 16 := by have := List.mem_range.1 hk; omega
  simp only [Function.comp_apply, Fin.ofNat, Nat.mod_eq_of_lt this]

/-- `BitCount` is the rank of all sixteen. -/
theorem listCount_eq_rank (list : BitVec 16) : listCount list = rank list 16 := by
  rw [← filter_range_length list (le_refl 16)]
  rfl

/-- A listed register stands at its rank. -/
theorem listedRegs_rank {list : BitVec 16} {i : Reg} (h : list.getLsbD i.val = true) :
    ∃ hr : rank list i.val < (listedRegs list).length, (listedRegs list)[rank list i.val] = i := by
  obtain ⟨hi, he⟩ := allRegs_split i
  have hl := filter_range_length list (n := i.val) (by omega)
  have hs : listedRegs list =
      (((List.range i.val).map fun k => (Fin.ofNat 16 k : Reg)).filter fun i => list.getLsbD i.val) ++
        i :: hi.filter (fun i => list.getLsbD i.val) := by
    rw [listedRegs, he, List.filter_append, List.filter_cons_of_pos (by simpa using h)]
  refine ⟨by rw [hs, List.length_append, hl]; simp, ?_⟩
  have key : ∀ (l : List Reg) (hlt : rank list i.val < l.length),
      l = (((List.range i.val).map fun k => (Fin.ofNat 16 k : Reg)).filter fun i => list.getLsbD i.val) ++
        i :: hi.filter (fun i => list.getLsbD i.val) → l[rank list i.val] = i := by
    rintro l hlt rfl
    rw [List.getElem_append_right (le_of_eq hl)]
    simp only [hl, Nat.sub_self, List.getElem_cons_zero]
  exact key _ _ hs

/-! ## LDM -/

/-- An aligned or misaligned read inside the RAM (20_memory.md R44, R45). -/
theorem memRead_ramWord {s : State} {addr : Word} {n : Width} (h : s.inRam addr n) :
    memRead s addr n = .ok (ramWord s addr n) := by
  rcases memRead_cases s addr n with ⟨h', _⟩ | ⟨_, ha, e⟩ | ⟨_, ha, e⟩
  · exact absurd h h'
  · rw [e, ramWord, if_neg ha]
  · rw [e, ramWord, if_pos ha]

theorem ramWord_congr {s t : State} (hm : t.mem = s.mem) (he : t.endian = s.endian) (addr : Word) (n : Width) :
    ramWord t addr n = ramWord s addr n := by
  simp only [ramWord, State.byteAt, hm, he]

/-- Everything the loop of LDM does when every word is inside the RAM. -/
theorem loadRegs_ok {is : List Reg} {addr : Word} {w : Work} (hn : is.Nodup)
    (ha : ∀ i ∈ is, accessible w.st i)
    (hr : ∀ k < is.length, w.st.inRam (addr + BitVec.ofNat 32 (4 * k)) .word) :
    ∃ w', loadRegs is addr w = .ok w' ∧ registersBut w.st w'.st is ∧
      (w'.st.cpsr = w.st.cpsr ∧ w'.st.spsrSvc = w.st.spsrSvc ∧ w'.st.spsrIrq = w.st.spsrIrq ∧
        w'.st.mem = w.st.mem ∧ w'.st.output = w.st.output) ∧
      (15 ∉ is → w'.nextPc = w.nextPc) ∧
      ∀ k, ∀ hk : k < is.length,
        let v := ramWord w.st (addr + BitVec.ofNat 32 (4 * k)) .word
        (is[k] = 15 → w'.nextPc = some (v &&& 0xFFFFFFFC#32)) ∧
        (is[k] ≠ 15 → readReg w'.st is[k] = .ok v) := by
  induction is generalizing addr w with
  | nil => exact ⟨w, rfl, registersBut_refl _ _, ⟨rfl, rfl, rfl, rfl, rfl⟩, fun _ => rfl,
      fun k hk => absurd hk (by simp)⟩
  | cons i is ih =>
    obtain ⟨hi, hn'⟩ := List.nodup_cons.1 hn
    have h0 : w.st.inRam addr .word := by simpa using hr 0 (by simp)
    set v := ramWord w.st addr .word with hv
    set v' := if i = 15 then v &&& 0xFFFFFFFC#32 else v with hv'
    obtain ⟨w₁, hw, hcase⟩ := setReg_accessible w v' (ha i (by simp))
    obtain ⟨k1, k2, k3, k4, k5⟩ := setReg_keeps hw
    have hmode : psrMode w₁.st.cpsr = psrMode w.st.cpsr := by rw [k1]
    have e : Effect w.st w₁.st := (Effect.refl _).setReg hw
    have hword : ∀ k, addr + 4#32 + BitVec.ofNat 32 (4 * k) = addr + BitVec.ofNat 32 (4 * (k + 1)) := by
      intro k
      rw [Nat.mul_add, BitVec.add_assoc, Nat.add_comm, BitVec.ofNat_add]
    obtain ⟨w', hl, hb, ⟨l1, l2, l3, l4, l5⟩, hpc, hval⟩ := @ih (addr + 4#32) w₁ hn'
      (fun j hj => (accessible_congr hmode j).2 (ha j (by simp [hj])))
      (fun k hk => by
        rw [hword, State.inRam, e.params]
        exact hr (k + 1) (by simpa using hk))
    refine ⟨w', ?_, ?_, ⟨l1.trans k1, l2.trans k2, l3.trans k3, l4.trans k4, l5.trans k5⟩, ?_, ?_⟩
    · unfold loadRegs
      rw [memRead_ramWord h0]
      change (w.setReg i v' >>= fun w => loadRegs is (addr + 4#32) w) = .ok w'
      exact bind_eq_ok.2 ⟨w₁, hw, hl⟩
    · exact registersBut_trans (registersBut_mono (registersBut_setReg hw) (by simp)) hmode
        (registersBut_mono hb (by simp +contextual))
    · intro h15
      rw [hpc fun h => h15 (by simp [h])]
      rcases hcase with ⟨h, _⟩ | ⟨_, sl, _, _, rfl⟩
      · exact absurd (by simp [h]) h15
      · rfl
    · rintro (_ | k) hk
      · simp only [List.getElem_cons_zero, Nat.mul_zero, BitVec.add_zero]
        refine ⟨fun h15 => ?_, fun h15 => ?_⟩
        · rw [hpc fun h => hi (h15 ▸ h)]
          rcases hcase with ⟨_, rfl⟩ | ⟨h, _⟩
          · simp [hv', h15, hv]
          · exact absurd h15 h
        · rcases hcase with ⟨h, _⟩ | ⟨_, sl, hs, hne, rfl⟩
          · exact absurd h h15
          · refine readReg_ok.2 ⟨sl, by rw [l1]; simpa using hs, ?_⟩
            rw [hb sl hne fun j hj hsj => ?_]
            · simp [hv', h15, hv]
            · exact hi (slot_injective hs (by simpa using hsj) ▸ hj)
      · have := hval k (by simpa using hk)
        simp only [List.getElem_cons_succ, hword, ramWord_congr k4 e.endian] at this ⊢
        exact this

/-! ## STM -/

/-- Everything the loop of STM does when every word is inside the RAM. -/
theorem storeRegs_ok {is : List Reg} {addr : Word} {s : State} (hlen : is.length ≤ 16)
    (ha : ∀ i ∈ is, accessible s i)
    (hr : ∀ k < is.length, s.inRam (addr + BitVec.ofNat 32 (4 * k)) .word) :
    ∃ t, storeRegs is addr s = .ok t ∧ t = { s with mem := t.mem } ∧
      (addr.toNat % 4 ≠ 0 → t = s) ∧
      (addr.toNat % 4 = 0 → ∀ k, ∀ hk : k < is.length, ∀ j < 4,
        t.byteAt ((addr + BitVec.ofNat 32 (4 * k)).toNat + j) = splitByte s.endian .word (reg s is[k]) j) ∧
      ∀ a, (∀ k < is.length, ¬ ((addr + BitVec.ofNat 32 (4 * k)).toNat ≤ a ∧
        a < (addr + BitVec.ofNat 32 (4 * k)).toNat + 4)) → t.byteAt a = s.byteAt a := by
  induction is generalizing addr s with
  | nil => exact ⟨s, rfl, rfl, fun _ => rfl, fun _ k hk => absurd hk (by simp), fun _ _ => rfl⟩
  | cons i is ih =>
    have h0 : s.inRam addr .word := by simpa using hr 0 (by simp)
    have hword : ∀ k, addr + 4#32 + BitVec.ofNat 32 (4 * k) = addr + BitVec.ofNat 32 (4 * (k + 1)) := by
      intro k
      rw [Nat.mul_add, BitVec.add_assoc, Nat.add_comm, BitVec.ofNat_add]
    obtain ⟨u, hu⟩ : ∃ u, memWrite s addr .word (reg s i) = .ok u := by
      rcases memWrite_cases s addr .word (reg s i) with ⟨h, _⟩ | ⟨_, _, e⟩ | ⟨_, _, e⟩
      · exact absurd h0 h
      · exact ⟨_, e⟩
      · exact ⟨_, e⟩
    obtain ⟨_, hform, _, _, hbyte⟩ := memWrite_ok hu
    have hreg : ∀ j, reg u j = reg s j := fun j => by
      unfold reg
      rw [readReg_congr (s := s) (t := u) (by rw [hform]) fun sl _ => by rw [hform]; cases sl <;> rfl]
    have hmode : psrMode u.cpsr = psrMode s.cpsr := by rw [hform]
    have hal : (addr + 4#32).toNat % 4 = addr.toNat % 4 := by
      rw [BitVec.toNat_add]; simp
    obtain ⟨t, ht, hform', hmis, hval, hout⟩ := @ih (addr + 4#32) u (by simp at hlen; omega)
      (fun j hj => (accessible_congr hmode j).2 (ha j (by simp [hj])))
      (fun k hk => by
        have := hr (k + 1) (by simpa using hk)
        rw [hword, State.inRam, show u.params = s.params by rw [hform]]
        exact this)
    refine ⟨t, ?_, by rw [hform', hform], fun hm => ?_, fun hm => ?_, fun a hnot => ?_⟩
    · unfold storeRegs
      rw [readReg_accessible (ha i (by simp))]
      change (memWrite s addr .word (reg s i) >>= fun s => storeRegs is (addr + 4#32) s) = .ok t
      exact bind_eq_ok.2 ⟨u, hu, ht⟩
    · rw [hmis (by rw [hal]; exact hm)]
      rcases memWrite_cases s addr .word (reg s i) with ⟨_, e⟩ | ⟨_, _, e⟩ | ⟨_, h, _⟩
      · rw [e] at hu; cases hu
      · rw [e] at hu; cases hu; rfl
      · exact absurd h hm
    · rintro (_ | k) hk j hj
      · simp only [List.getElem_cons_zero, Nat.mul_zero, BitVec.add_zero]
        rw [hout, hbyte, if_pos ⟨hm, by omega, by simp [Width.bytes]; omega⟩, Nat.add_sub_cancel_left]
        intro k hk' hin
        have hk4 : 4 * (k + 1) < 2 ^ 32 := by simp at hlen; omega
        rw [hword, BitVec.toNat_add, BitVec.toNat_ofNat, Nat.mod_eq_of_lt hk4] at hin
        have := addr.isLt
        have hk16 : k + 1 ≤ 16 := by simp at hlen; omega
        omega
      · have := hval (by rw [hal]; exact hm) k (by simpa using hk) j hj
        simp only [List.getElem_cons_succ, hword, hreg, show u.endian = s.endian by rw [hform]] at this ⊢
        exact this
    · rw [hout a fun k hk => by rw [hword]; exact hnot (k + 1) (by simpa using hk), hbyte]
      have := hnot 0 (by simp)
      simp only [Nat.mul_zero, BitVec.add_zero] at this
      rw [if_neg fun h => this h.2]

end Sys2Proof.Machine
end

