-- ==== Sys2Proof/Laws/Decode.lean ====
section
/-! SUPPORT. The laws of fields: a field or a flag of a word packed by `++`, the codes of registers,
conditions, shift types and operations read back, and a word put together from its fields. -/

namespace Sys2Proof

/-! ## Codes -/

@[simp] theorem Reg.ofBits_toBits (r : Reg) : Reg.ofBits r.toBits = r := rfl
@[simp] theorem Reg.toBits_ofBits (b : BitVec 4) : (Reg.ofBits b).toBits = b := rfl
@[simp] theorem Cond.ofBits_toBits (c : Cond) : Cond.ofBits c.toBits = c := by cases c <;> rfl
@[simp] theorem Cond.toBits_ofBits (b : BitVec 4) : (Cond.ofBits b).toBits = b := by revert b; decide
@[simp] theorem ShiftType.ofBits_toBits (s : ShiftType) : ShiftType.ofBits s.toBits = s := by
  cases s <;> rfl
@[simp] theorem ShiftType.toBits_ofBits (b : BitVec 2) : (ShiftType.ofBits b).toBits = b := by
  revert b; decide
@[simp] theorem DpOp.ofBits_toBits (o : DpOp) : DpOp.ofBits o.toBits = o := by cases o <;> rfl
@[simp] theorem DpOp.toBits_ofBits (b : BitVec 4) : (DpOp.ofBits b).toBits = b := by revert b; decide

/-! ## Fields of a packed word

The side conditions are closed facts: `simp (disch := decide) only` with these four reads any field of a
`toWord`. -/

theorem extract_append_low {m k lo n : Nat} {x : BitVec m} {y : BitVec k} (h : lo + n ≤ k) :
    (x ++ y).extractLsb' lo n = y.extractLsb' lo n := BitVec.extractLsb'_append_eq_of_add_le h

theorem extract_append_high {m k lo n : Nat} {x : BitVec m} {y : BitVec k} (h : k ≤ lo) :
    (x ++ y).extractLsb' lo n = x.extractLsb' (lo - k) n := BitVec.extractLsb'_append_eq_of_le h

theorem bit_append_low {m k i : Nat} {x : BitVec m} {y : BitVec k} (h : i < k) :
    (x ++ y).getLsbD i = y.getLsbD i := by rw [BitVec.getLsbD_append, if_pos h]

theorem bit_append_high {m k i : Nat} {x : BitVec m} {y : BitVec k} (h : k ≤ i) :
    (x ++ y).getLsbD i = x.getLsbD (i - k) := by rw [BitVec.getLsbD_append, if_neg (not_lt.2 h)]

@[simp] theorem bit1_bit (b : Bool) : (bit1 b).getLsbD 0 = b := by cases b <;> rfl

/-! ## A word from its fields -/

/-- Two adjacent fields are one. -/
theorem field_append_field (w : Word) (lo n m : Nat) :
    field w (lo + n) m ++ field w lo n = field w lo (m + n) := by
  apply BitVec.eq_of_getLsbD_eq
  intro i hi
  rw [BitVec.getLsbD_append]
  by_cases h : i < n
  · simp only [h, if_true, BitVec.getLsbD_extractLsb', hi, decide_true, Bool.true_and]
  · simp only [h, if_false, BitVec.getLsbD_extractLsb', hi, decide_true, Bool.true_and,
      show i - n < m by omega, show lo + n + (i - n) = lo + i by omega]

/-- The whole word is one field. -/
@[simp] theorem field_whole (w : Word) : field w 0 32 = w := by simp [field]

/-- A flag as the one bit of a field, so that the two `extract` laws read flags too. -/
theorem flag_eq_field (w : Word) (i : Nat) : flag w i = (field w i 1).getLsbD 0 := by simp

/-- A flag is a field of one bit. -/
theorem bit1_flag (w : Word) (i : Nat) : bit1 (flag w i) = field w i 1 := by
  apply BitVec.eq_of_getLsbD_eq
  intro j hj
  obtain rfl : j = 0 := by omega
  simp [BitVec.getLsbD_extractLsb']

end Sys2Proof
end

