-- ==== Sys2Proof/Laws/Forms.lean ====
section
/-! SUPPORT. What an instruction of each form runs, as the claims name the form: the handler of a transfer and
of an MSR, a skipped instruction, the end of a step, the entered status, and a line that leaves the RAM. -/

namespace Sys2Proof.Machine

/-! ## Transfers -/

/-- A transfer whose registers can be named addresses what `Transfer.address` says. -/
theorem transferAddress_accessible {x : Transfer} {s : State} (h : x.accessible s) :
    transferAddress x.ix x.rn x.o s = .ok (x.address s) := by
  obtain ⟨h1, -, h3⟩ := h
  unfold transferAddress
  rw [readReg_accessible h1]
  cases ho : x.o with
  | imm v => simp [offsetValue, Transfer.address, offsetWord, ho]; rfl
  | reg rm => rw [ho] at h3; simp [offsetValue, Transfer.address, offsetWord, ho, readReg_accessible h3]; rfl
  | scaled rm sh n => rw [ho] at h3; simp [offsetValue, Transfer.address, offsetWord, ho, readReg_accessible h3]; rfl

theorem exec_single_load {i : Instr} {c : Cond} {x : Transfer} (h : Instr.single? i = some (c, x))
    (hl : x.load = true) (s : State) : exec i s = runHandler c (loadSingle x.n x.ix x.rn x.rd x.o) s := by
  cases i <;> simp only [Instr.single?, Option.some.injEq, Prod.mk.injEq, reduceCtorEq] at h <;>
    obtain ⟨rfl, rfl⟩ := h <;> first | rfl | cases hl

theorem exec_single_store {i : Instr} {c : Cond} {x : Transfer} (h : Instr.single? i = some (c, x))
    (hl : x.load = false) (s : State) : exec i s = runHandler c (storeSingle x.n x.ix x.rn x.rd x.o) s := by
  cases i <;> simp only [Instr.single?, Option.some.injEq, Prod.mk.injEq, reduceCtorEq] at h <;>
    obtain ⟨rfl, rfl⟩ := h <;> first | rfl | cases hl

theorem exec_half_load {i : Instr} {c : Cond} {x : Transfer} (h : Instr.half? i = some (c, x))
    (hl : x.load = true) (s : State) : exec i s = runHandler c (loadHalf x.n x.x x.ix x.rn x.rd x.o) s := by
  cases i <;> simp only [Instr.half?, Option.some.injEq, Prod.mk.injEq, reduceCtorEq] at h <;>
    obtain ⟨rfl, rfl⟩ := h <;> first | rfl | cases hl

theorem exec_half_store {i : Instr} {c : Cond} {x : Transfer} (h : Instr.half? i = some (c, x))
    (hl : x.load = false) (s : State) :
    x.n = .half ∧ exec i s = runHandler c (storeHalf x.ix x.rn x.rd x.o) s := by
  cases i <;> simp only [Instr.half?, Option.some.injEq, Prod.mk.injEq, reduceCtorEq] at h <;>
    obtain ⟨rfl, rfl⟩ := h <;> first | exact ⟨rfl, rfl⟩ | cases hl

/-- Half-word transfers move a byte or a half-word. -/
theorem half_width {i : Instr} {c : Cond} {x : Transfer} (h : Instr.half? i = some (c, x)) :
    x.n = .byte ∨ x.n = .half := by
  cases i <;> simp only [Instr.half?, Option.some.injEq, Prod.mk.injEq, reduceCtorEq] at h <;>
    obtain ⟨rfl, rfl⟩ := h <;> simp

/-- The signed loads extend as `extended` says (44_halfword_load_store.md R145, R146). -/
theorem extendFrom_sign_byte (b : Byte) :
    Machine.extendFrom .sign .byte (b.setWidth 32) = extended .sign .byte (b.setWidth 32) := by
  revert b; decide

theorem extendFrom_sign_half (b : BitVec 16) :
    Machine.extendFrom .sign .half (b.setWidth 32) = extended .sign .half (b.setWidth 32) := by
  simp only [Machine.extendFrom, extended, Width.bytes]
  apply BitVec.eq_of_toInt_eq
  rw [BitVec.toInt_ofInt]
  have : (BitVec.setWidth 16 (BitVec.setWidth 32 b)) = b := by simp
  rw [this, BitVec.toInt_signExtend_of_le (by decide), BitVec.toNat_setWidth, Nat.mod_eq_of_lt (by omega),
    BitVec.toInt_eq_toNat_bmod]
  have h := b.isLt
  simp [Int.bmod]
  omega

/-- A write inside the RAM answers a state. -/
theorem memWrite_inRam {s : State} {addr : Word} {n : Width} {v : Word} (h : s.inRam addr n) :
    ∃ u, memWrite s addr n v = .ok u := by
  rcases memWrite_cases s addr n v with ⟨h', _⟩ | ⟨_, _, e⟩ | ⟨_, _, e⟩
  · exact absurd h h'
  · exact ⟨_, e⟩
  · exact ⟨_, e⟩

/-- A state that differs in its memory alone keeps the rest the claims name. -/
theorem keeps_of_mem {s u : State} (h : u = { s with mem := u.mem }) :
    registersBut s u [] ∧ u.cpsr = s.cpsr ∧ spsrsKept s u ∧ u.output = s.output := by
  rw [h]
  exact ⟨fun sl _ _ => by cases sl <;> rfl, rfl, ⟨rfl, rfl⟩, rfl⟩

/-! ## MSR -/

/-- An MSR, in either form, runs `msrWrite` on its value. -/
theorem exec_msr {spsr : Bool} {i : Instr} {c : Cond} {fm : BitVec 4} {v : Word} {s : State}
    (h : isMsr spsr i c fm v s) : ∃ hd, exec i s = runHandler c hd s ∧
      hd s = (msrWrite s spsr fm v).map Work.start ∧ ∀ w, hd s = .ok w → Effect s w.st := by
  rcases h with ⟨rm, rfl, ha, rfl⟩ | ⟨rot, imm8, rfl, rfl⟩
  · refine ⟨moveToStatusReg ⟨spsr, fm, rm⟩, rfl, ?_, fun w hw => .moveToStatusReg hw⟩
    unfold moveToStatusReg
    rw [readReg_accessible ha]
    cases h : msrWrite s spsr fm (reg s rm) <;> simp [bind, Except.bind, h, pure, Except.pure, Except.map]
  · refine ⟨moveToStatusImm ⟨spsr, fm, rot, imm8⟩, rfl, ?_, fun w hw => .moveToStatusImm hw⟩
    unfold moveToStatusImm
    cases h : msrWrite s spsr fm _ <;> simp [bind, Except.bind, pure, Except.pure, Except.map]

/-- `mergedBits` names the word that `merge` computes. -/
theorem merge_of_mergedBits {old v new : Word} {fm : BitVec 4} {spsr : Bool} {p : Word} {permitted : Nat → Prop}
    (hp : ∀ k < 32, (allowedBits spsr p).getLsbD k = true ↔ permitted k) (h : mergedBits old v new fm permitted) :
    merge old v (lanes fm &&& allowedBits spsr p) = new := by
  apply BitVec.eq_of_getLsbD_eq
  intro k hk
  rw [getLsbD_merge, BitVec.getLsbD_and, getLsbD_lanes fm hk]
  obtain ⟨h1, h2⟩ := h k hk
  by_cases hb : fm.getLsbD (k / 8) = true ∧ permitted k
  · rw [h1 hb]; simp [hb.1, (hp k hk).2 hb.2, hk]
  · rw [h2 hb]
    have : (fm.getLsbD (k / 8) && (allowedBits spsr p).getLsbD k) = false := by
      by_cases h' : fm.getLsbD (k / 8) = true
      · have : ¬ permitted k := fun x => hb ⟨h', x⟩
        rw [← hp k hk] at this; simp at this; simp [this]
      · simp at h'; simp [h']
    rw [this]; simp

/-! ## The skip, the end of a step, the entry -/

/-- Advancing past an instruction changes r15 alone. -/
theorem onlyR15_advance (s : State) : onlyR15 s (s.advance none s.traced) (s.execAddr + 12#32) := by
  unfold onlyR15
  conv => lhs; rw [State.advance_eq]
  rw [nextR15_none, execAddr_add_twelve]

/-- A skipped instruction only advances (40_execution_cycle.md R97). -/
theorem exec_of_failed {i : Instr} {c : Cond} {s : State} (h : i.cond? = some c)
    (hc : condPassed c s.cpsr = false) : exec i s = .next (s.advance none s.traced) := by
  cases i <;> simp only [Instr.cond?, Option.some.injEq, reduceCtorEq] at h <;> subst h <;> first
    | exact runHandler_of_failed hc
    | exact runHandler_of_failed (h := noOperation) hc
    | exact runHandler_of_failed (h := branch _) hc
    | (show execSwi _ _ s = _; unfold execSwi; simp [hc])

theorem step_of_fetch {s : State} {raw : Word} (hw : s.waitingLine = false) (hb : s.isBreakpoint s.execAddr = false)
    (hr : memRead s s.execAddr .word = .ok raw) : step s = endOfStep (exec (decode raw) s) := by
  unfold step driverStep
  rw [if_neg (by simp [hw]), if_neg (by simp [hb]), hr]

/-- A core that waits for a line goes on with the service (00_scope.md R11). -/
theorem step_of_waiting {s : State} (hw : s.waitingLine = true) : step s = endOfStep (resumeReadline s) := by
  unfold step driverStep
  rw [if_pos hw]

theorem endOfStep_next (t : State) : endOfStep (.next t) = .next (if t.running then t.takeIrq else t) := by
  have : t.running = !(t.halted.isSome || t.waitingLine) := by
    unfold State.running; cases t.halted <;> cases t.waitingLine <;> rfl
  unfold endOfStep
  simp only [this]
  cases t.halted.isSome || t.waitingLine <;> simp

/-- The status an entry leaves is the one the claims name (60_exceptions.md R165, R169). -/
theorem enteredStatus_entryStatus (p : Word) (m : Mode) : enteredStatus p (entryStatus p m) m := by
  refine ⟨psrMode_entryStatus p m, ?_, psrI_entryStatus p m, fun k h5 h7 => ?_⟩
  · unfold psrT; rw [getLsbD_entryStatus]; simp
  · rw [getLsbD_entryStatus]
    by_cases hk : k < 32
    · simp [hk, show ¬ k < 5 by omega, show k ≠ 5 by omega, h7]
    · simp [show ¬ k < 5 by omega, show k ≠ 5 by omega, h7]

/-- A line that leaves the RAM is fatal (20_memory.md R43). -/
theorem writeLine_outside {s : State} {addr : Word} {bs : List Byte}
    (h : s.params.memSize < addr.toNat + bs.length) (hm : s.params.memSize < 2 ^ 32) (ha : bs ≠ []) :
    writeLine s addr bs = .error .memBounds := by
  induction bs generalizing s addr with
  | nil => exact absurd rfl ha
  | cons b bs ih =>
    rw [List.length_cons] at h
    unfold writeLine
    by_cases hb : s.inRam addr .byte
    · rw [memWrite_byte hb]
      have hb' : addr.toNat + 1 ≤ s.params.memSize := hb
      have : (addr + 1#32).toNat = addr.toNat + 1 := by rw [BitVec.toNat_add]; simp; omega
      refine @ih _ (addr + 1#32) (by rw [this]; show s.params.memSize < _; omega) hm ?_
      rintro rfl
      simp at h
      omega
    · rw [memWrite, if_pos hb]; rfl

end Sys2Proof.Machine
end

