-- ==== Sys2Proof/Laws/PerInstr.lean ====
section
/-! SUPPORT. Statements made of each constructor of Instr in turn. -/

namespace Sys2Proof

/-! The condition nibble of each shape. -/

theorem DpImmArgs.toWord_cond (c : Cond) (op : DpOp) (a : DpImmArgs) : field (a.toWord c op) 28 4 = c.toBits := by
  unfold DpImmArgs.toWord
  simp (disch := decide) only [extract_append_high, Nat.reduceSub, BitVec.extractLsb'_eq_self]

theorem DpShiftArgs.toWord_cond (c : Cond) (op : DpOp) (a : DpShiftArgs) : field (a.toWord c op) 28 4 = c.toBits := by
  unfold DpShiftArgs.toWord
  simp (disch := decide) only [extract_append_high, Nat.reduceSub, BitVec.extractLsb'_eq_self]

theorem DpRegArgs.toWord_cond (c : Cond) (op : DpOp) (a : DpRegArgs) : field (a.toWord c op) 28 4 = c.toBits := by
  unfold DpRegArgs.toWord
  simp (disch := decide) only [extract_append_high, Nat.reduceSub, BitVec.extractLsb'_eq_self]

theorem MulArgs.toWord_cond (c : Cond) (acc : Bool) (a : MulArgs) : field (a.toWord c acc) 28 4 = c.toBits := by
  unfold MulArgs.toWord
  simp (disch := decide) only [extract_append_high, Nat.reduceSub, BitVec.extractLsb'_eq_self]

theorem LsImmArgs.toWord_cond (c : Cond) (byte load : Bool) (a : LsImmArgs) : field (a.toWord c byte load) 28 4 = c.toBits := by
  unfold LsImmArgs.toWord
  simp (disch := decide) only [extract_append_high, Nat.reduceSub, BitVec.extractLsb'_eq_self]

theorem LsRegArgs.toWord_cond (c : Cond) (byte load : Bool) (a : LsRegArgs) : field (a.toWord c byte load) 28 4 = c.toBits := by
  unfold LsRegArgs.toWord
  simp (disch := decide) only [extract_append_high, Nat.reduceSub, BitVec.extractLsb'_eq_self]

theorem LsScaledArgs.toWord_cond (c : Cond) (byte load : Bool) (a : LsScaledArgs) : field (a.toWord c byte load) 28 4 = c.toBits := by
  unfold LsScaledArgs.toWord
  simp (disch := decide) only [extract_append_high, Nat.reduceSub, BitVec.extractLsb'_eq_self]

theorem HwImmArgs.toWord_cond (c : Cond) (load : Bool) (sh : BitVec 2) (a : HwImmArgs) : field (a.toWord c load sh) 28 4 = c.toBits := by
  unfold HwImmArgs.toWord
  simp (disch := decide) only [extract_append_high, Nat.reduceSub, BitVec.extractLsb'_eq_self]

theorem HwRegArgs.toWord_cond (c : Cond) (load : Bool) (sh : BitVec 2) (a : HwRegArgs) : field (a.toWord c load sh) 28 4 = c.toBits := by
  unfold HwRegArgs.toWord
  simp (disch := decide) only [extract_append_high, Nat.reduceSub, BitVec.extractLsb'_eq_self]

theorem BlockArgs.toWord_cond (c : Cond) (load : Bool) (a : BlockArgs) : field (a.toWord c load) 28 4 = c.toBits := by
  unfold BlockArgs.toWord
  simp (disch := decide) only [extract_append_high, Nat.reduceSub, BitVec.extractLsb'_eq_self]

theorem MsrRegArgs.toWord_cond (c : Cond) (a : MsrRegArgs) : field (a.toWord c) 28 4 = c.toBits := by
  unfold MsrRegArgs.toWord
  simp (disch := decide) only [extract_append_high, Nat.reduceSub, BitVec.extractLsb'_eq_self]

theorem MsrImmArgs.toWord_cond (c : Cond) (a : MsrImmArgs) : field (a.toWord c) 28 4 = c.toBits := by
  unfold MsrImmArgs.toWord
  simp (disch := decide) only [extract_append_high, Nat.reduceSub, BitVec.extractLsb'_eq_self]

/-- The nibble of a word packed from a condition and 28 more bits. -/
theorem cond_append (c : Cond) (x : BitVec 28) : field (c.toBits ++ x) 28 4 = c.toBits := by
  rw [field, extract_append_high (by decide), Nat.sub_self, BitVec.extractLsb'_eq_self]

end Sys2Proof

namespace Sys2Proof.Laws

/-- The condition nibble (30_encoding.md R63, R84): an encoded instruction has its condition in bits 31:28,
whatever its shape; only the word 0 has none. -/
def CondField.Statement (i : Instr) : Prop :=
  match i.cond? with
  | none => encode i = 0#32
  | some c => field (encode i) 28 4 = c.toBits

theorem CondField.zeroWord : CondField.Statement .zeroWord := rfl
theorem CondField.swi (c : Cond) (n : BitVec 24) : CondField.Statement (.swi c n) := by
  unfold CondField.Statement encode
  simp (disch := decide) only [Instr.cond?, extract_append_high, Nat.reduceSub, BitVec.extractLsb'_eq_self]
theorem CondField.b (c : Cond) (off : BitVec 24) : CondField.Statement (.b c off) := by
  unfold CondField.Statement encode
  simp (disch := decide) only [Instr.cond?, extract_append_high, Nat.reduceSub, BitVec.extractLsb'_eq_self]
theorem CondField.bl (c : Cond) (off : BitVec 24) : CondField.Statement (.bl c off) := by
  unfold CondField.Statement encode
  simp (disch := decide) only [Instr.cond?, extract_append_high, Nat.reduceSub, BitVec.extractLsb'_eq_self]
theorem CondField.stm (c : Cond) (a : BlockArgs) : CondField.Statement (.stm c a) :=
  BlockArgs.toWord_cond c false a
theorem CondField.ldm (c : Cond) (a : BlockArgs) : CondField.Statement (.ldm c a) :=
  BlockArgs.toWord_cond c true a
theorem CondField.nopCoprocessor (c : Cond) : CondField.Statement (.nopCoprocessor c) :=
  cond_append c _
theorem CondField.nopUndefined (c : Cond) : CondField.Statement (.nopUndefined c) :=
  cond_append c _
theorem CondField.strImm (c : Cond) (a : LsImmArgs) : CondField.Statement (.strImm c a) :=
  LsImmArgs.toWord_cond c false false a
theorem CondField.ldrImm (c : Cond) (a : LsImmArgs) : CondField.Statement (.ldrImm c a) :=
  LsImmArgs.toWord_cond c false true a
theorem CondField.strbImm (c : Cond) (a : LsImmArgs) : CondField.Statement (.strbImm c a) :=
  LsImmArgs.toWord_cond c true false a
theorem CondField.ldrbImm (c : Cond) (a : LsImmArgs) : CondField.Statement (.ldrbImm c a) :=
  LsImmArgs.toWord_cond c true true a
theorem CondField.strReg (c : Cond) (a : LsRegArgs) : CondField.Statement (.strReg c a) :=
  LsRegArgs.toWord_cond c false false a
theorem CondField.ldrReg (c : Cond) (a : LsRegArgs) : CondField.Statement (.ldrReg c a) :=
  LsRegArgs.toWord_cond c false true a
theorem CondField.strbReg (c : Cond) (a : LsRegArgs) : CondField.Statement (.strbReg c a) :=
  LsRegArgs.toWord_cond c true false a
theorem CondField.ldrbReg (c : Cond) (a : LsRegArgs) : CondField.Statement (.ldrbReg c a) :=
  LsRegArgs.toWord_cond c true true a
theorem CondField.strScaled (c : Cond) (a : LsScaledArgs) : CondField.Statement (.strScaled c a) :=
  LsScaledArgs.toWord_cond c false false a
theorem CondField.ldrScaled (c : Cond) (a : LsScaledArgs) : CondField.Statement (.ldrScaled c a) :=
  LsScaledArgs.toWord_cond c false true a
theorem CondField.strbScaled (c : Cond) (a : LsScaledArgs) : CondField.Statement (.strbScaled c a) :=
  LsScaledArgs.toWord_cond c true false a
theorem CondField.ldrbScaled (c : Cond) (a : LsScaledArgs) : CondField.Statement (.ldrbScaled c a) :=
  LsScaledArgs.toWord_cond c true true a
theorem CondField.msrImm (c : Cond) (a : MsrImmArgs) : CondField.Statement (.msrImm c a) :=
  MsrImmArgs.toWord_cond c a
theorem CondField.nopCompareImm (c : Cond) : CondField.Statement (.nopCompareImm c) :=
  cond_append c _
theorem CondField.andImm (c : Cond) (a : DpImmArgs) : CondField.Statement (.andImm c a) :=
  DpImmArgs.toWord_cond c .and a
theorem CondField.eorImm (c : Cond) (a : DpImmArgs) : CondField.Statement (.eorImm c a) :=
  DpImmArgs.toWord_cond c .eor a
theorem CondField.subImm (c : Cond) (a : DpImmArgs) : CondField.Statement (.subImm c a) :=
  DpImmArgs.toWord_cond c .sub a
theorem CondField.rsbImm (c : Cond) (a : DpImmArgs) : CondField.Statement (.rsbImm c a) :=
  DpImmArgs.toWord_cond c .rsb a
theorem CondField.addImm (c : Cond) (a : DpImmArgs) : CondField.Statement (.addImm c a) :=
  DpImmArgs.toWord_cond c .add a
theorem CondField.adcImm (c : Cond) (a : DpImmArgs) : CondField.Statement (.adcImm c a) :=
  DpImmArgs.toWord_cond c .adc a
theorem CondField.sbcImm (c : Cond) (a : DpImmArgs) : CondField.Statement (.sbcImm c a) :=
  DpImmArgs.toWord_cond c .sbc a
theorem CondField.rscImm (c : Cond) (a : DpImmArgs) : CondField.Statement (.rscImm c a) :=
  DpImmArgs.toWord_cond c .rsc a
theorem CondField.tstImm (c : Cond) (a : DpImmArgs) : CondField.Statement (.tstImm c a) :=
  DpImmArgs.toWord_cond c .tst a
theorem CondField.teqImm (c : Cond) (a : DpImmArgs) : CondField.Statement (.teqImm c a) :=
  DpImmArgs.toWord_cond c .teq a
theorem CondField.cmpImm (c : Cond) (a : DpImmArgs) : CondField.Statement (.cmpImm c a) :=
  DpImmArgs.toWord_cond c .cmp a
theorem CondField.cmnImm (c : Cond) (a : DpImmArgs) : CondField.Statement (.cmnImm c a) :=
  DpImmArgs.toWord_cond c .cmn a
theorem CondField.orrImm (c : Cond) (a : DpImmArgs) : CondField.Statement (.orrImm c a) :=
  DpImmArgs.toWord_cond c .orr a
theorem CondField.movImm (c : Cond) (a : DpImmArgs) : CondField.Statement (.movImm c a) :=
  DpImmArgs.toWord_cond c .mov a
theorem CondField.bicImm (c : Cond) (a : DpImmArgs) : CondField.Statement (.bicImm c a) :=
  DpImmArgs.toWord_cond c .bic a
theorem CondField.mvnImm (c : Cond) (a : DpImmArgs) : CondField.Statement (.mvnImm c a) :=
  DpImmArgs.toWord_cond c .mvn a
theorem CondField.mul (c : Cond) (a : MulArgs) : CondField.Statement (.mul c a) :=
  MulArgs.toWord_cond c false a
theorem CondField.mla (c : Cond) (a : MulArgs) : CondField.Statement (.mla c a) :=
  MulArgs.toWord_cond c true a
theorem CondField.nopMultiplySpace (c : Cond) : CondField.Statement (.nopMultiplySpace c) :=
  cond_append c _
theorem CondField.nopDoubleWord (c : Cond) : CondField.Statement (.nopDoubleWord c) :=
  cond_append c _
theorem CondField.strhImm (c : Cond) (a : HwImmArgs) : CondField.Statement (.strhImm c a) :=
  HwImmArgs.toWord_cond c false 0b01#2 a
theorem CondField.ldrhImm (c : Cond) (a : HwImmArgs) : CondField.Statement (.ldrhImm c a) :=
  HwImmArgs.toWord_cond c true 0b01#2 a
theorem CondField.ldrsbImm (c : Cond) (a : HwImmArgs) : CondField.Statement (.ldrsbImm c a) :=
  HwImmArgs.toWord_cond c true 0b10#2 a
theorem CondField.ldrshImm (c : Cond) (a : HwImmArgs) : CondField.Statement (.ldrshImm c a) :=
  HwImmArgs.toWord_cond c true 0b11#2 a
theorem CondField.strhReg (c : Cond) (a : HwRegArgs) : CondField.Statement (.strhReg c a) :=
  HwRegArgs.toWord_cond c false 0b01#2 a
theorem CondField.ldrhReg (c : Cond) (a : HwRegArgs) : CondField.Statement (.ldrhReg c a) :=
  HwRegArgs.toWord_cond c true 0b01#2 a
theorem CondField.ldrsbReg (c : Cond) (a : HwRegArgs) : CondField.Statement (.ldrsbReg c a) :=
  HwRegArgs.toWord_cond c true 0b10#2 a
theorem CondField.ldrshReg (c : Cond) (a : HwRegArgs) : CondField.Statement (.ldrshReg c a) :=
  HwRegArgs.toWord_cond c true 0b11#2 a
theorem CondField.mrs (c : Cond) (spsr : Bool) (rd : Reg) : CondField.Statement (.mrs c spsr rd) := by
  unfold CondField.Statement encode
  simp (disch := decide) only [Instr.cond?, extract_append_high, Nat.reduceSub, BitVec.extractLsb'_eq_self]
theorem CondField.bx (c : Cond) (rm : Reg) : CondField.Statement (.bx c rm) := by
  unfold CondField.Statement encode
  simp (disch := decide) only [Instr.cond?, extract_append_high, Nat.reduceSub, BitVec.extractLsb'_eq_self]
theorem CondField.msrReg (c : Cond) (a : MsrRegArgs) : CondField.Statement (.msrReg c a) :=
  MsrRegArgs.toWord_cond c a
theorem CondField.nopCompareReg (c : Cond) : CondField.Statement (.nopCompareReg c) :=
  cond_append c _
theorem CondField.andShift (c : Cond) (a : DpShiftArgs) : CondField.Statement (.andShift c a) :=
  DpShiftArgs.toWord_cond c .and a
theorem CondField.eorShift (c : Cond) (a : DpShiftArgs) : CondField.Statement (.eorShift c a) :=
  DpShiftArgs.toWord_cond c .eor a
theorem CondField.subShift (c : Cond) (a : DpShiftArgs) : CondField.Statement (.subShift c a) :=
  DpShiftArgs.toWord_cond c .sub a
theorem CondField.rsbShift (c : Cond) (a : DpShiftArgs) : CondField.Statement (.rsbShift c a) :=
  DpShiftArgs.toWord_cond c .rsb a
theorem CondField.addShift (c : Cond) (a : DpShiftArgs) : CondField.Statement (.addShift c a) :=
  DpShiftArgs.toWord_cond c .add a
theorem CondField.adcShift (c : Cond) (a : DpShiftArgs) : CondField.Statement (.adcShift c a) :=
  DpShiftArgs.toWord_cond c .adc a
theorem CondField.sbcShift (c : Cond) (a : DpShiftArgs) : CondField.Statement (.sbcShift c a) :=
  DpShiftArgs.toWord_cond c .sbc a
theorem CondField.rscShift (c : Cond) (a : DpShiftArgs) : CondField.Statement (.rscShift c a) :=
  DpShiftArgs.toWord_cond c .rsc a
theorem CondField.tstShift (c : Cond) (a : DpShiftArgs) : CondField.Statement (.tstShift c a) :=
  DpShiftArgs.toWord_cond c .tst a
theorem CondField.teqShift (c : Cond) (a : DpShiftArgs) : CondField.Statement (.teqShift c a) :=
  DpShiftArgs.toWord_cond c .teq a
theorem CondField.cmpShift (c : Cond) (a : DpShiftArgs) : CondField.Statement (.cmpShift c a) :=
  DpShiftArgs.toWord_cond c .cmp a
theorem CondField.cmnShift (c : Cond) (a : DpShiftArgs) : CondField.Statement (.cmnShift c a) :=
  DpShiftArgs.toWord_cond c .cmn a
theorem CondField.orrShift (c : Cond) (a : DpShiftArgs) : CondField.Statement (.orrShift c a) :=
  DpShiftArgs.toWord_cond c .orr a
theorem CondField.movShift (c : Cond) (a : DpShiftArgs) : CondField.Statement (.movShift c a) :=
  DpShiftArgs.toWord_cond c .mov a
theorem CondField.bicShift (c : Cond) (a : DpShiftArgs) : CondField.Statement (.bicShift c a) :=
  DpShiftArgs.toWord_cond c .bic a
theorem CondField.mvnShift (c : Cond) (a : DpShiftArgs) : CondField.Statement (.mvnShift c a) :=
  DpShiftArgs.toWord_cond c .mvn a
theorem CondField.andRegShift (c : Cond) (a : DpRegArgs) : CondField.Statement (.andRegShift c a) :=
  DpRegArgs.toWord_cond c .and a
theorem CondField.eorRegShift (c : Cond) (a : DpRegArgs) : CondField.Statement (.eorRegShift c a) :=
  DpRegArgs.toWord_cond c .eor a
theorem CondField.subRegShift (c : Cond) (a : DpRegArgs) : CondField.Statement (.subRegShift c a) :=
  DpRegArgs.toWord_cond c .sub a
theorem CondField.rsbRegShift (c : Cond) (a : DpRegArgs) : CondField.Statement (.rsbRegShift c a) :=
  DpRegArgs.toWord_cond c .rsb a
theorem CondField.addRegShift (c : Cond) (a : DpRegArgs) : CondField.Statement (.addRegShift c a) :=
  DpRegArgs.toWord_cond c .add a
theorem CondField.adcRegShift (c : Cond) (a : DpRegArgs) : CondField.Statement (.adcRegShift c a) :=
  DpRegArgs.toWord_cond c .adc a
theorem CondField.sbcRegShift (c : Cond) (a : DpRegArgs) : CondField.Statement (.sbcRegShift c a) :=
  DpRegArgs.toWord_cond c .sbc a
theorem CondField.rscRegShift (c : Cond) (a : DpRegArgs) : CondField.Statement (.rscRegShift c a) :=
  DpRegArgs.toWord_cond c .rsc a
theorem CondField.tstRegShift (c : Cond) (a : DpRegArgs) : CondField.Statement (.tstRegShift c a) :=
  DpRegArgs.toWord_cond c .tst a
theorem CondField.teqRegShift (c : Cond) (a : DpRegArgs) : CondField.Statement (.teqRegShift c a) :=
  DpRegArgs.toWord_cond c .teq a
theorem CondField.cmpRegShift (c : Cond) (a : DpRegArgs) : CondField.Statement (.cmpRegShift c a) :=
  DpRegArgs.toWord_cond c .cmp a
theorem CondField.cmnRegShift (c : Cond) (a : DpRegArgs) : CondField.Statement (.cmnRegShift c a) :=
  DpRegArgs.toWord_cond c .cmn a
theorem CondField.orrRegShift (c : Cond) (a : DpRegArgs) : CondField.Statement (.orrRegShift c a) :=
  DpRegArgs.toWord_cond c .orr a
theorem CondField.movRegShift (c : Cond) (a : DpRegArgs) : CondField.Statement (.movRegShift c a) :=
  DpRegArgs.toWord_cond c .mov a
theorem CondField.bicRegShift (c : Cond) (a : DpRegArgs) : CondField.Statement (.bicRegShift c a) :=
  DpRegArgs.toWord_cond c .bic a
theorem CondField.mvnRegShift (c : Cond) (a : DpRegArgs) : CondField.Statement (.mvnRegShift c a) :=
  DpRegArgs.toWord_cond c .mvn a

end Sys2Proof.Laws
end

