-- ==== Sys2Proof/Machine/Assembly.lean ====
section
/-! DEFINITION. The assembler syntax and the pseudo-instructions (30_encoding.md R91, R92). No step reads
these. Spelling that R91 leaves open is the model's (assumption 20). -/

namespace Sys2Proof.Machine

/-! ## Operand text -/

/-- Register names, with the aliases sp, lr and pc (10_state.md R13). -/
def regText (r : Reg) : String :=
  if r = 13 then "sp" else if r = 14 then "lr" else if r = 15 then "pc"
  else "r" ++ toString r.val

/-- The condition suffix; AL is omitted (R91). R91 lists none for 0b1111: `NV` is PRESUMED (assumption 20). -/
def condText : Cond → String
  | .eq => "EQ" | .ne => "NE" | .cs => "CS" | .cc => "CC" | .mi => "MI" | .pl => "PL"
  | .vs => "VS" | .vc => "VC" | .hi => "HI" | .ls => "LS" | .ge => "GE" | .lt => "LT"
  | .gt => "GT" | .le => "LE" | .al => "" | .nv => "NV"

def shiftText : ShiftType → String
  | .lsl => "LSL" | .lsr => "LSR" | .asr => "ASR" | .ror => "ROR"

def opText : DpOp → String
  | .and => "AND"
  | .eor => "EOR"
  | .sub => "SUB"
  | .rsb => "RSB"
  | .add => "ADD"
  | .adc => "ADC"
  | .sbc => "SBC"
  | .rsc => "RSC"
  | .tst => "TST"
  | .teq => "TEQ"
  | .cmp => "CMP"
  | .cmn => "CMN"
  | .orr => "ORR"
  | .mov => "MOV"
  | .bic => "BIC"
  | .mvn => "MVN"

def immText (n : Nat) : String := "#" ++ toString n

def hexText (w : Word) : String := "0x" ++ String.ofList (Nat.toDigits 16 w.toNat)

/-- `Rm`, `Rm, <shift> #n` or `Rm, RRX`; amount 0 of LSR and ASR means 32 (41_data_processing.md R106). -/
def shiftedText (rm : Reg) (sh : ShiftType) (n : BitVec 5) : String :=
  if n = 0#5 then
    match sh with
    | .lsl => regText rm
    | .lsr | .asr => regText rm ++ ", " ++ shiftText sh ++ " #32"
    | .ror => regText rm ++ ", RRX"
  else regText rm ++ ", " ++ shiftText sh ++ " " ++ immText n.toNat

def operandText : Operand → String
  | .imm rot imm8 => immText (rotatedImm rot imm8).toNat
  | .shiftedImm rm sh n => shiftedText rm sh n
  | .shiftedReg rm sh rs => regText rm ++ ", " ++ shiftText sh ++ " " ++ regText rs

/-- `op(cond)(S) Rd, Rn, <op2>` and its shorter forms (R91). -/
def dpText (op : DpOp) (c : Cond) (s : Bool) (rn rd : Reg) (o : Operand) : String :=
  let sfx := if s && opWritesRd op then "S" else ""
  let head := opText op ++ condText c ++ sfx ++ " "
  let dst := if opWritesRd op then regText rd ++ ", " else ""
  let fst := if opReadsRn op then regText rn ++ ", " else ""
  head ++ dst ++ fst ++ operandText o

/-- `[Rn, <off>]` with an optional `!`, or `[Rn], <off>` (R91). R91 has no form for a post-indexed transfer with
W = 1, which 95_test_vectors.md LS32 writes LDRT: the model writes the plain post-indexed form, whose effect it has
(92_eei_decisions.md D23), and W is not shown (DESIGN CHOICE, assumption 20). -/
def addressText (ix : Indexing) (rn : Reg) (off : String) : String :=
  if ix.p then "[" ++ regText rn ++ ", " ++ off ++ "]" ++ (if ix.w then "!" else "")
  else "[" ++ regText rn ++ "], " ++ off

/-- An offset always stands, a zero one as `#0`, and U = 1 has no sign (DESIGN CHOICE, assumption 20). -/
def offsetText (ix : Indexing) (o : Offset) : String :=
  let sign := if ix.u then "" else "-"
  match o with
  | .imm v => "#" ++ sign ++ toString v.toNat
  | .reg rm => sign ++ regText rm
  | .scaled rm sh n => sign ++ shiftedText rm sh n

/-- A transfer: mnemonic, Rd, address. -/
def transferText (op : String) (ix : Indexing) (rn rd : Reg) (o : Offset) : String :=
  op ++ " " ++ regText rd ++ ", " ++ addressText ix rn (offsetText ix o)

/-- A register list in braces, written by their character codes: every register by name, no range (DESIGN CHOICE,
assumption 20). -/
def listText (list : BitVec 16) : String :=
  String.singleton (Char.ofNat 123) ++ ", ".intercalate ((listedRegs list).map regText) ++
    String.singleton (Char.ofNat 125)

/-- IA, IB, DA or DB (30_encoding.md R73), never a stack alias of R91 (DESIGN CHOICE, assumption 20). -/
def policyText (p u : Bool) : String :=
  match p, u with
  | false, true => "IA"
  | true, true => "IB"
  | false, false => "DA"
  | true, false => "DB"

/-- R91's block form; the ignored S bit (R73) is shown as `^`, which R91 does not list and 95_test_vectors.md BL21 writes. -/
def blockText (op : String) (c : Cond) (a : BlockArgs) : String :=
  op ++ condText c ++ policyText a.p a.u ++ " " ++ regText a.rn ++ (if a.w then "!" else "") ++ ", " ++
    listText a.list ++ (if a.s then "^" else "")

/-- The lanes of a field mask: bits 16 to 19 are c, x, s, f (R91), written f first as 95_test_vectors.md ST9 does. -/
def maskText (m : BitVec 4) : String :=
  (if m.getLsbD 3 then "f" else "") ++ (if m.getLsbD 2 then "s" else "") ++
  (if m.getLsbD 1 then "x" else "") ++ (if m.getLsbD 0 then "c" else "")

def psrText (spsr : Bool) : String := if spsr then "SPSR" else "CPSR"

/-- The target of a branch at `addr` (46_branch.md R152). -/
def labelText (addr : Word) (off : BitVec 24) : String :=
  hexText (addr + 8#32 + (off ++ 0b00#2).signExtend 32)

/-- The instruction-to-text rendering (R91) of an instruction at `addr`; a no-op space is `NOP` (R161) with
its condition suffix (PRESUMED, assumption 20) and the word 0 is the AND that `decode(0)` gives (R89). -/
def instrText (addr : Word) : Instr → String
  | .zeroWord => "ANDEQ r0, r0, r0"
  | .swi c n => "SWI" ++ condText c ++ " " ++ immText n.toNat
  | .b c off => "B" ++ condText c ++ " " ++ labelText addr off
  | .bl c off => "BL" ++ condText c ++ " " ++ labelText addr off
  | .stm c a => blockText "STM" c a
  | .ldm c a => blockText "LDM" c a
  | .nopCoprocessor c => "NOP" ++ condText c
  | .nopUndefined c => "NOP" ++ condText c
  | .strImm c a => transferText ("STR" ++ condText c) ⟨a.p, a.u, a.w⟩ a.rn a.rd (.imm (a.offset12.setWidth 32))
  | .ldrImm c a => transferText ("LDR" ++ condText c) ⟨a.p, a.u, a.w⟩ a.rn a.rd (.imm (a.offset12.setWidth 32))
  | .strbImm c a => transferText ("STR" ++ condText c ++ "B") ⟨a.p, a.u, a.w⟩ a.rn a.rd (.imm (a.offset12.setWidth 32))
  | .ldrbImm c a => transferText ("LDR" ++ condText c ++ "B") ⟨a.p, a.u, a.w⟩ a.rn a.rd (.imm (a.offset12.setWidth 32))
  | .strReg c a => transferText ("STR" ++ condText c) ⟨a.p, a.u, a.w⟩ a.rn a.rd (.reg a.rm)
  | .ldrReg c a => transferText ("LDR" ++ condText c) ⟨a.p, a.u, a.w⟩ a.rn a.rd (.reg a.rm)
  | .strbReg c a => transferText ("STR" ++ condText c ++ "B") ⟨a.p, a.u, a.w⟩ a.rn a.rd (.reg a.rm)
  | .ldrbReg c a => transferText ("LDR" ++ condText c ++ "B") ⟨a.p, a.u, a.w⟩ a.rn a.rd (.reg a.rm)
  | .strScaled c a => transferText ("STR" ++ condText c) ⟨a.p, a.u, a.w⟩ a.rn a.rd (.scaled a.rm a.sh a.shiftImm)
  | .ldrScaled c a => transferText ("LDR" ++ condText c) ⟨a.p, a.u, a.w⟩ a.rn a.rd (.scaled a.rm a.sh a.shiftImm)
  | .strbScaled c a => transferText ("STR" ++ condText c ++ "B") ⟨a.p, a.u, a.w⟩ a.rn a.rd (.scaled a.rm a.sh a.shiftImm)
  | .ldrbScaled c a => transferText ("LDR" ++ condText c ++ "B") ⟨a.p, a.u, a.w⟩ a.rn a.rd (.scaled a.rm a.sh a.shiftImm)
  | .msrImm c a => "MSR" ++ condText c ++ " " ++ psrText a.spsr ++ "_" ++ maskText a.mask ++ ", " ++ immText (rotatedImm a.rot a.imm8).toNat
  | .nopCompareImm c => "NOP" ++ condText c
  | .andImm c a => dpText .and c a.s a.rn a.rd (.imm a.rot a.imm8)
  | .eorImm c a => dpText .eor c a.s a.rn a.rd (.imm a.rot a.imm8)
  | .subImm c a => dpText .sub c a.s a.rn a.rd (.imm a.rot a.imm8)
  | .rsbImm c a => dpText .rsb c a.s a.rn a.rd (.imm a.rot a.imm8)
  | .addImm c a => dpText .add c a.s a.rn a.rd (.imm a.rot a.imm8)
  | .adcImm c a => dpText .adc c a.s a.rn a.rd (.imm a.rot a.imm8)
  | .sbcImm c a => dpText .sbc c a.s a.rn a.rd (.imm a.rot a.imm8)
  | .rscImm c a => dpText .rsc c a.s a.rn a.rd (.imm a.rot a.imm8)
  | .tstImm c a => dpText .tst c a.s a.rn a.rd (.imm a.rot a.imm8)
  | .teqImm c a => dpText .teq c a.s a.rn a.rd (.imm a.rot a.imm8)
  | .cmpImm c a => dpText .cmp c a.s a.rn a.rd (.imm a.rot a.imm8)
  | .cmnImm c a => dpText .cmn c a.s a.rn a.rd (.imm a.rot a.imm8)
  | .orrImm c a => dpText .orr c a.s a.rn a.rd (.imm a.rot a.imm8)
  | .movImm c a => dpText .mov c a.s a.rn a.rd (.imm a.rot a.imm8)
  | .bicImm c a => dpText .bic c a.s a.rn a.rd (.imm a.rot a.imm8)
  | .mvnImm c a => dpText .mvn c a.s a.rn a.rd (.imm a.rot a.imm8)
  | .mul c a => "MUL" ++ condText c ++ (if a.s then "S " else " ") ++ ", ".intercalate ([a.rd, a.rm, a.rs].map regText)
  | .mla c a => "MLA" ++ condText c ++ (if a.s then "S " else " ") ++ ", ".intercalate ([a.rd, a.rm, a.rs, a.rn].map regText)
  | .nopMultiplySpace c => "NOP" ++ condText c
  | .nopDoubleWord c => "NOP" ++ condText c
  | .strhImm c a => transferText ("STR" ++ condText c ++ "H") ⟨a.p, a.u, a.w⟩ a.rn a.rd (.imm ((a.immH ++ a.immL).setWidth 32))
  | .ldrhImm c a => transferText ("LDR" ++ condText c ++ "H") ⟨a.p, a.u, a.w⟩ a.rn a.rd (.imm ((a.immH ++ a.immL).setWidth 32))
  | .ldrsbImm c a => transferText ("LDR" ++ condText c ++ "SB") ⟨a.p, a.u, a.w⟩ a.rn a.rd (.imm ((a.immH ++ a.immL).setWidth 32))
  | .ldrshImm c a => transferText ("LDR" ++ condText c ++ "SH") ⟨a.p, a.u, a.w⟩ a.rn a.rd (.imm ((a.immH ++ a.immL).setWidth 32))
  | .strhReg c a => transferText ("STR" ++ condText c ++ "H") ⟨a.p, a.u, a.w⟩ a.rn a.rd (.reg a.rm)
  | .ldrhReg c a => transferText ("LDR" ++ condText c ++ "H") ⟨a.p, a.u, a.w⟩ a.rn a.rd (.reg a.rm)
  | .ldrsbReg c a => transferText ("LDR" ++ condText c ++ "SB") ⟨a.p, a.u, a.w⟩ a.rn a.rd (.reg a.rm)
  | .ldrshReg c a => transferText ("LDR" ++ condText c ++ "SH") ⟨a.p, a.u, a.w⟩ a.rn a.rd (.reg a.rm)
  | .mrs c spsr rd => "MRS" ++ condText c ++ " " ++ regText rd ++ ", " ++ psrText spsr
  | .bx c rm => "BX" ++ condText c ++ " " ++ regText rm
  | .msrReg c a => "MSR" ++ condText c ++ " " ++ psrText a.spsr ++ "_" ++ maskText a.mask ++ ", " ++ regText a.rm
  | .nopCompareReg c => "NOP" ++ condText c
  | .andShift c a => dpText .and c a.s a.rn a.rd (.shiftedImm a.rm a.sh a.shiftImm)
  | .eorShift c a => dpText .eor c a.s a.rn a.rd (.shiftedImm a.rm a.sh a.shiftImm)
  | .subShift c a => dpText .sub c a.s a.rn a.rd (.shiftedImm a.rm a.sh a.shiftImm)
  | .rsbShift c a => dpText .rsb c a.s a.rn a.rd (.shiftedImm a.rm a.sh a.shiftImm)
  | .addShift c a => dpText .add c a.s a.rn a.rd (.shiftedImm a.rm a.sh a.shiftImm)
  | .adcShift c a => dpText .adc c a.s a.rn a.rd (.shiftedImm a.rm a.sh a.shiftImm)
  | .sbcShift c a => dpText .sbc c a.s a.rn a.rd (.shiftedImm a.rm a.sh a.shiftImm)
  | .rscShift c a => dpText .rsc c a.s a.rn a.rd (.shiftedImm a.rm a.sh a.shiftImm)
  | .tstShift c a => dpText .tst c a.s a.rn a.rd (.shiftedImm a.rm a.sh a.shiftImm)
  | .teqShift c a => dpText .teq c a.s a.rn a.rd (.shiftedImm a.rm a.sh a.shiftImm)
  | .cmpShift c a => dpText .cmp c a.s a.rn a.rd (.shiftedImm a.rm a.sh a.shiftImm)
  | .cmnShift c a => dpText .cmn c a.s a.rn a.rd (.shiftedImm a.rm a.sh a.shiftImm)
  | .orrShift c a => dpText .orr c a.s a.rn a.rd (.shiftedImm a.rm a.sh a.shiftImm)
  | .movShift c a => dpText .mov c a.s a.rn a.rd (.shiftedImm a.rm a.sh a.shiftImm)
  | .bicShift c a => dpText .bic c a.s a.rn a.rd (.shiftedImm a.rm a.sh a.shiftImm)
  | .mvnShift c a => dpText .mvn c a.s a.rn a.rd (.shiftedImm a.rm a.sh a.shiftImm)
  | .andRegShift c a => dpText .and c a.s a.rn a.rd (.shiftedReg a.rm a.sh a.rs)
  | .eorRegShift c a => dpText .eor c a.s a.rn a.rd (.shiftedReg a.rm a.sh a.rs)
  | .subRegShift c a => dpText .sub c a.s a.rn a.rd (.shiftedReg a.rm a.sh a.rs)
  | .rsbRegShift c a => dpText .rsb c a.s a.rn a.rd (.shiftedReg a.rm a.sh a.rs)
  | .addRegShift c a => dpText .add c a.s a.rn a.rd (.shiftedReg a.rm a.sh a.rs)
  | .adcRegShift c a => dpText .adc c a.s a.rn a.rd (.shiftedReg a.rm a.sh a.rs)
  | .sbcRegShift c a => dpText .sbc c a.s a.rn a.rd (.shiftedReg a.rm a.sh a.rs)
  | .rscRegShift c a => dpText .rsc c a.s a.rn a.rd (.shiftedReg a.rm a.sh a.rs)
  | .tstRegShift c a => dpText .tst c a.s a.rn a.rd (.shiftedReg a.rm a.sh a.rs)
  | .teqRegShift c a => dpText .teq c a.s a.rn a.rd (.shiftedReg a.rm a.sh a.rs)
  | .cmpRegShift c a => dpText .cmp c a.s a.rn a.rd (.shiftedReg a.rm a.sh a.rs)
  | .cmnRegShift c a => dpText .cmn c a.s a.rn a.rd (.shiftedReg a.rm a.sh a.rs)
  | .orrRegShift c a => dpText .orr c a.s a.rn a.rd (.shiftedReg a.rm a.sh a.rs)
  | .movRegShift c a => dpText .mov c a.s a.rn a.rd (.shiftedReg a.rm a.sh a.rs)
  | .bicRegShift c a => dpText .bic c a.s a.rn a.rd (.shiftedReg a.rm a.sh a.rs)
  | .mvnRegShift c a => dpText .mvn c a.s a.rn a.rd (.shiftedReg a.rm a.sh a.rs)

/-! ## Pseudo-instructions (R92) -/

/-- A rotation and byte whose rotated immediate is `v`; `none` where there is none (30_encoding.md R80). The spec does
not say which pair an assembler takes where a constant has several: the model takes the least rotation (DESIGN CHOICE,
assumption 27). -/
def rotationOf (v : Word) : Option (BitVec 4 × Byte) :=
  (List.range 16).findSome? fun k =>
    let r := v.rotateLeft (2 * k)
    if r.toNat < 256 then some (BitVec.ofNat 4 k, r.setWidth 8) else none

/-- `NOP` = `MOV r0, r0`. -/
def pseudoNop : Instr := .movShift .al ⟨false, 0, 0, 0#5, .lsl, 0⟩

/-- `LSL|LSR|ASR|ROR Rd, Rm, #n` = `MOV Rd, Rm, <shift> #n`; `n` is the encoded amount. -/
def pseudoShift (sh : ShiftType) (rd rm : Reg) (n : BitVec 5) : Instr :=
  .movShift .al ⟨false, 0, rd, n, sh, rm⟩

/-- `RRX Rd, Rm` = `MOV Rd, Rm, RRX`. -/
def pseudoRrx (rd rm : Reg) : Instr := pseudoShift .ror rd rm 0#5

/-- `PUSH` = `STMDB sp!`. -/
def pseudoPush (list : BitVec 16) : Instr := .stm .al ⟨true, false, false, true, 13, list⟩

/-- `POP` = `LDMIA sp!`. -/
def pseudoPop (list : BitVec 16) : Instr := .ldm .al ⟨false, true, false, true, 13, list⟩

/-- `ADR Rd, label` with `d` = label - (. + 8): ADD from pc, or SUB for a negative distance; `none` where
the distance is no rotated immediate. The distance is a word read as a signed number (DESIGN CHOICE, assumption 27). -/
def pseudoAdr (rd : Reg) (d : Word) : Option Instr :=
  if d.msb then
    match rotationOf (-d) with
    | some (rot, imm8) => some (.subImm .al ⟨false, 15, rd, rot, imm8⟩)
    | none => none
  else
    match rotationOf d with
    | some (rot, imm8) => some (.addImm .al ⟨false, 15, rd, rot, imm8⟩)
    | none => none

/-- `LDR Rd, =const`: MOV or MVN when encodable, otherwise a load from the literal pool, whose place
(up, offset) the assembler knows. -/
def pseudoLdrConst (rd : Reg) (const : Word) (up : Bool) (lit : BitVec 12) : Instr :=
  match rotationOf const, rotationOf (~~~const) with
  | some (rot, imm8), _ => .movImm .al ⟨false, 0, rd, rot, imm8⟩
  | none, some (rot, imm8) => .mvnImm .al ⟨false, 0, rd, rot, imm8⟩
  | none, none => .ldrImm .al ⟨true, up, false, 15, rd, lit⟩

end Sys2Proof.Machine
end

