-- ==== Sys2Proof/Tests/Slice0.lean ====
section
/-! SUPPORT. The model's own tests: the well-formedness checks, decoding, one step per instruction, and a
witness for the hypotheses of every statement. -/

open Sys2Proof Sys2Proof.Machine

namespace Sys2Proof.Tests

/-! ## Small states -/

/-- A state with some of r0 to r12 set. -/
def withRegs (s : State) (l : List (Fin 13 × Word)) : State :=
  l.foldl (fun s p => { s with regs := s.regs.set p.1 p.2 }) s

/-- The start state of 95_test_vectors.md section 0: a loaded core with F = 0x1000. -/
def core (cpsr : Word) (l : List (Fin 13 × Word)) : State :=
  withRegs { State.reset with loaded := true, cpsr := cpsr, r15 := 0x1008#32 } l

/-- A value put into the RAM in the state's byte order. -/
def poke (s : State) (a : Word) (n : Width) (v : Word) : State :=
  { s with mem := writeCells s.mem a.toNat (splitBytes s.endian n v) }

/-- `n` bytes of the RAM from `a`. -/
def bytes (t : State) (a n : Nat) : List Byte := (List.range n).map fun k => t.byteAt (a + k)

/-- The next state of an outcome, if there is one. -/
def nextOf (o : Host.Outcome State Fault Refusal) : Option State :=
  match o with
  | .next t => some t
  | .fault _ => none
  | .refused _ => none

/-- The fault of an outcome, if there is one. -/
def faultOf (o : Host.Outcome State Fault Refusal) : Option Fault :=
  match o with
  | .next _ => none
  | .fault f => some f
  | .refused _ => none

/-- The state after the instruction of a word, if there is one. -/
def after (w : Word) (s : State) : Option State := nextOf (exec (decode w) s)

/-! ## WellFormed refuses by name -/

/-- Each comparison with S = 0, in its three forms. -/
theorem test_illFormed_compareWithoutS :
    (∀ i ∈ [Instr.tstImm .al ⟨false, 0, 0, 0#4, 0#8⟩, .teqImm .al ⟨false, 0, 0, 0#4, 0#8⟩,
        .cmpImm .al ⟨false, 0, 0, 0#4, 0#8⟩, .cmnImm .al ⟨false, 0, 0, 0#4, 0#8⟩],
      i.illFormed = some .compareWithoutS) ∧
    (∀ i ∈ [Instr.tstShift .al ⟨false, 0, 0, 0#5, .lsl, 0⟩, .teqShift .al ⟨false, 0, 0, 0#5, .lsl, 0⟩,
        .cmpShift .al ⟨false, 0, 0, 0#5, .lsl, 0⟩, .cmnShift .al ⟨false, 0, 0, 0#5, .lsl, 0⟩],
      i.illFormed = some .compareWithoutS) ∧
    ∀ i ∈ [Instr.tstRegShift .al ⟨false, 0, 0, 0, .lsl, 0⟩, .teqRegShift .al ⟨false, 0, 0, 0, .lsl, 0⟩,
        .cmpRegShift .al ⟨false, 0, 0, 0, .lsl, 0⟩, .cmnRegShift .al ⟨false, 0, 0, 0, .lsl, 0⟩],
      i.illFormed = some .compareWithoutS := by decide

/-- Each scaled transfer with LSL #0. -/
theorem test_illFormed_scaledIsPlain :
    ∀ i ∈ [Instr.strScaled .al ⟨true, true, true, 0, 0, 0#5, .lsl, 0⟩,
        .ldrScaled .al ⟨true, true, true, 0, 0, 0#5, .lsl, 0⟩,
        .strbScaled .al ⟨true, true, true, 0, 0, 0#5, .lsl, 0⟩,
        .ldrbScaled .al ⟨true, true, true, 0, 0, 0#5, .lsl, 0⟩],
      i.illFormed = some .scaledIsPlain := by decide

/-- The AND of the word 0. -/
theorem test_illFormed_zeroWordAnd :
    (Instr.andShift .eq DpShiftArgs.zero).illFormed = some .zeroWordAnd := by decide

/-- Bytes that are no instruction are rejected by name. -/
theorem test_decode_truncated :
    decodeBytes .little [0#8, 0#8, 0#8] = .error (.truncated 3) := by decide

/-! ## Decoding: words written out from the spec's layouts -/

/-- `cond 001 op S Rn Rd rot imm8` (30_encoding.md R64, R67). -/
theorem test_decode_dpImm :
    decode 0b1110_001_0000_0_0011_1100_0101_10100001#32 =
      .andImm .al ⟨false, 3, 12, 0x5#4, 0xA1#8⟩ ∧
    decode 0b1110_001_0001_1_0011_1100_0101_10100001#32 =
      .eorImm .al ⟨true, 3, 12, 0x5#4, 0xA1#8⟩ ∧
    decode 0b1110_001_0010_0_0011_1100_0101_10100001#32 =
      .subImm .al ⟨false, 3, 12, 0x5#4, 0xA1#8⟩ ∧
    decode 0b1110_001_0011_1_0011_1100_0101_10100001#32 =
      .rsbImm .al ⟨true, 3, 12, 0x5#4, 0xA1#8⟩ ∧
    decode 0b1110_001_0100_0_0011_1100_0101_10100001#32 =
      .addImm .al ⟨false, 3, 12, 0x5#4, 0xA1#8⟩ ∧
    decode 0b1110_001_0101_1_0011_1100_0101_10100001#32 =
      .adcImm .al ⟨true, 3, 12, 0x5#4, 0xA1#8⟩ ∧
    decode 0b1110_001_0110_0_0011_1100_0101_10100001#32 =
      .sbcImm .al ⟨false, 3, 12, 0x5#4, 0xA1#8⟩ ∧
    decode 0b1110_001_0111_1_0011_1100_0101_10100001#32 =
      .rscImm .al ⟨true, 3, 12, 0x5#4, 0xA1#8⟩ ∧
    decode 0b1110_001_1000_1_0011_1100_0101_10100001#32 =
      .tstImm .al ⟨true, 3, 12, 0x5#4, 0xA1#8⟩ ∧
    decode 0b1110_001_1001_1_0011_1100_0101_10100001#32 =
      .teqImm .al ⟨true, 3, 12, 0x5#4, 0xA1#8⟩ ∧
    decode 0b1110_001_1010_1_0011_1100_0101_10100001#32 =
      .cmpImm .al ⟨true, 3, 12, 0x5#4, 0xA1#8⟩ ∧
    decode 0b1110_001_1011_1_0011_1100_0101_10100001#32 =
      .cmnImm .al ⟨true, 3, 12, 0x5#4, 0xA1#8⟩ ∧
    decode 0b1110_001_1100_0_0011_1100_0101_10100001#32 =
      .orrImm .al ⟨false, 3, 12, 0x5#4, 0xA1#8⟩ ∧
    decode 0b1110_001_1101_1_0011_1100_0101_10100001#32 =
      .movImm .al ⟨true, 3, 12, 0x5#4, 0xA1#8⟩ ∧
    decode 0b1110_001_1110_0_0011_1100_0101_10100001#32 =
      .bicImm .al ⟨false, 3, 12, 0x5#4, 0xA1#8⟩ ∧
    decode 0b1110_001_1111_1_0011_1100_0101_10100001#32 =
      .mvnImm .al ⟨true, 3, 12, 0x5#4, 0xA1#8⟩ := by decide

/-- `cond 000 op S Rn Rd shift_imm sh 0 Rm` (30_encoding.md R65, R67). -/
theorem test_decode_dpShift :
    decode 0b0000_000_0000_0_0011_1100_10011_00_0_1110#32 =
      .andShift (Cond.ofBits 0#4) ⟨false, 3, 12, 0b10011#5, .lsl, 14⟩ ∧
    decode 0b0001_000_0001_1_0011_1100_10011_01_0_1110#32 =
      .eorShift (Cond.ofBits 1#4) ⟨true, 3, 12, 0b10011#5, .lsr, 14⟩ ∧
    decode 0b0010_000_0010_0_0011_1100_10011_10_0_1110#32 =
      .subShift (Cond.ofBits 2#4) ⟨false, 3, 12, 0b10011#5, .asr, 14⟩ ∧
    decode 0b0011_000_0011_1_0011_1100_10011_11_0_1110#32 =
      .rsbShift (Cond.ofBits 3#4) ⟨true, 3, 12, 0b10011#5, .ror, 14⟩ ∧
    decode 0b0100_000_0100_0_0011_1100_10011_00_0_1110#32 =
      .addShift (Cond.ofBits 4#4) ⟨false, 3, 12, 0b10011#5, .lsl, 14⟩ ∧
    decode 0b0101_000_0101_1_0011_1100_10011_01_0_1110#32 =
      .adcShift (Cond.ofBits 5#4) ⟨true, 3, 12, 0b10011#5, .lsr, 14⟩ ∧
    decode 0b0110_000_0110_0_0011_1100_10011_10_0_1110#32 =
      .sbcShift (Cond.ofBits 6#4) ⟨false, 3, 12, 0b10011#5, .asr, 14⟩ ∧
    decode 0b0111_000_0111_1_0011_1100_10011_11_0_1110#32 =
      .rscShift (Cond.ofBits 7#4) ⟨true, 3, 12, 0b10011#5, .ror, 14⟩ ∧
    decode 0b1000_000_1000_1_0011_1100_10011_00_0_1110#32 =
      .tstShift (Cond.ofBits 8#4) ⟨true, 3, 12, 0b10011#5, .lsl, 14⟩ ∧
    decode 0b1001_000_1001_1_0011_1100_10011_01_0_1110#32 =
      .teqShift (Cond.ofBits 9#4) ⟨true, 3, 12, 0b10011#5, .lsr, 14⟩ ∧
    decode 0b1010_000_1010_1_0011_1100_10011_10_0_1110#32 =
      .cmpShift (Cond.ofBits 10#4) ⟨true, 3, 12, 0b10011#5, .asr, 14⟩ ∧
    decode 0b1011_000_1011_1_0011_1100_10011_11_0_1110#32 =
      .cmnShift (Cond.ofBits 11#4) ⟨true, 3, 12, 0b10011#5, .ror, 14⟩ ∧
    decode 0b1100_000_1100_0_0011_1100_10011_00_0_1110#32 =
      .orrShift (Cond.ofBits 12#4) ⟨false, 3, 12, 0b10011#5, .lsl, 14⟩ ∧
    decode 0b1101_000_1101_1_0011_1100_10011_01_0_1110#32 =
      .movShift (Cond.ofBits 13#4) ⟨true, 3, 12, 0b10011#5, .lsr, 14⟩ ∧
    decode 0b1110_000_1110_0_0011_1100_10011_10_0_1110#32 =
      .bicShift (Cond.ofBits 14#4) ⟨false, 3, 12, 0b10011#5, .asr, 14⟩ ∧
    decode 0b0000_000_1111_1_0011_1100_10011_11_0_1110#32 =
      .mvnShift (Cond.ofBits 0#4) ⟨true, 3, 12, 0b10011#5, .ror, 14⟩ := by decide

/-- `cond 000 op S Rn Rd Rs 0 sh 1 Rm` (30_encoding.md R66, R67). -/
theorem test_decode_dpRegShift :
    decode 0b1110_000_0000_0_0011_1100_1001_0_01_1_1110#32 =
      .andRegShift .al ⟨false, 3, 12, 9, .lsr, 14⟩ ∧
    decode 0b1110_000_0001_1_0011_1100_1001_0_10_1_1110#32 =
      .eorRegShift .al ⟨true, 3, 12, 9, .asr, 14⟩ ∧
    decode 0b1110_000_0010_0_0011_1100_1001_0_11_1_1110#32 =
      .subRegShift .al ⟨false, 3, 12, 9, .ror, 14⟩ ∧
    decode 0b1110_000_0011_1_0011_1100_1001_0_00_1_1110#32 =
      .rsbRegShift .al ⟨true, 3, 12, 9, .lsl, 14⟩ ∧
    decode 0b1110_000_0100_0_0011_1100_1001_0_01_1_1110#32 =
      .addRegShift .al ⟨false, 3, 12, 9, .lsr, 14⟩ ∧
    decode 0b1110_000_0101_1_0011_1100_1001_0_10_1_1110#32 =
      .adcRegShift .al ⟨true, 3, 12, 9, .asr, 14⟩ ∧
    decode 0b1110_000_0110_0_0011_1100_1001_0_11_1_1110#32 =
      .sbcRegShift .al ⟨false, 3, 12, 9, .ror, 14⟩ ∧
    decode 0b1110_000_0111_1_0011_1100_1001_0_00_1_1110#32 =
      .rscRegShift .al ⟨true, 3, 12, 9, .lsl, 14⟩ ∧
    decode 0b1110_000_1000_1_0011_1100_1001_0_01_1_1110#32 =
      .tstRegShift .al ⟨true, 3, 12, 9, .lsr, 14⟩ ∧
    decode 0b1110_000_1001_1_0011_1100_1001_0_10_1_1110#32 =
      .teqRegShift .al ⟨true, 3, 12, 9, .asr, 14⟩ ∧
    decode 0b1110_000_1010_1_0011_1100_1001_0_11_1_1110#32 =
      .cmpRegShift .al ⟨true, 3, 12, 9, .ror, 14⟩ ∧
    decode 0b1110_000_1011_1_0011_1100_1001_0_00_1_1110#32 =
      .cmnRegShift .al ⟨true, 3, 12, 9, .lsl, 14⟩ ∧
    decode 0b1110_000_1100_0_0011_1100_1001_0_01_1_1110#32 =
      .orrRegShift .al ⟨false, 3, 12, 9, .lsr, 14⟩ ∧
    decode 0b1110_000_1101_1_0011_1100_1001_0_10_1_1110#32 =
      .movRegShift .al ⟨true, 3, 12, 9, .asr, 14⟩ ∧
    decode 0b1110_000_1110_0_0011_1100_1001_0_11_1_1110#32 =
      .bicRegShift .al ⟨false, 3, 12, 9, .ror, 14⟩ ∧
    decode 0b1110_000_1111_1_0011_1100_1001_0_00_1_1110#32 =
      .mvnRegShift .al ⟨true, 3, 12, 9, .lsl, 14⟩ := by decide

/-- `cond 000000 A S Rd Rn Rs 1001 Rm` (30_encoding.md R68). -/
theorem test_decode_multiply :
    decode 0b1110_000000_0_1_0011_1100_1001_1001_1110#32 =
      .mul .al ⟨true, 3, 12, 9, 14⟩ ∧
    decode 0b1110_000000_1_0_0011_1100_1001_1001_1110#32 =
      .mla .al ⟨false, 3, 12, 9, 14⟩ := by decide

/-- `cond 010 P U B W L Rn Rd offset12` and `cond 011 P U B W L Rn Rd shift_imm sh 0 Rm` (30_encoding.md R69, R70). -/
theorem test_decode_single :
    decode 0b1110_010_0_1_0_0_0_0011_1100_101010111100#32 =
      .strImm .al ⟨false, true, false, 3, 12, 0xABC#12⟩ ∧
    decode 0b1110_011_0_1_0_0_0_0011_1100_00000000_1110#32 =
      .strReg .al ⟨false, true, false, 3, 12, 14⟩ ∧
    decode 0b1110_011_0_1_0_0_0_0011_1100_10011_10_0_1110#32 =
      .strScaled .al ⟨false, true, false, 3, 12, 0b10011#5, .asr, 14⟩ ∧
    decode 0b1110_010_1_0_0_1_1_0011_1100_101010111100#32 =
      .ldrImm .al ⟨true, false, true, 3, 12, 0xABC#12⟩ ∧
    decode 0b1110_011_1_0_0_1_1_0011_1100_00000000_1110#32 =
      .ldrReg .al ⟨true, false, true, 3, 12, 14⟩ ∧
    decode 0b1110_011_1_0_0_1_1_0011_1100_10011_10_0_1110#32 =
      .ldrScaled .al ⟨true, false, true, 3, 12, 0b10011#5, .asr, 14⟩ ∧
    decode 0b1110_010_1_1_1_0_0_0011_1100_101010111100#32 =
      .strbImm .al ⟨true, true, false, 3, 12, 0xABC#12⟩ ∧
    decode 0b1110_011_1_1_1_0_0_0011_1100_00000000_1110#32 =
      .strbReg .al ⟨true, true, false, 3, 12, 14⟩ ∧
    decode 0b1110_011_1_1_1_0_0_0011_1100_10011_10_0_1110#32 =
      .strbScaled .al ⟨true, true, false, 3, 12, 0b10011#5, .asr, 14⟩ ∧
    decode 0b1110_010_0_0_1_1_1_0011_1100_101010111100#32 =
      .ldrbImm .al ⟨false, false, true, 3, 12, 0xABC#12⟩ ∧
    decode 0b1110_011_0_0_1_1_1_0011_1100_00000000_1110#32 =
      .ldrbReg .al ⟨false, false, true, 3, 12, 14⟩ ∧
    decode 0b1110_011_0_0_1_1_1_0011_1100_10011_10_0_1110#32 =
      .ldrbScaled .al ⟨false, false, true, 3, 12, 0b10011#5, .asr, 14⟩ := by decide

/-- `cond 000 P U 1 W L Rn Rd immH 1 SH 1 immL` and `cond 000 P U 0 W L Rn Rd 0000 1 SH 1 Rm` (30_encoding.md R71, R72). -/
theorem test_decode_halfWord :
    decode 0b1110_000_0_1_1_0_0_0011_1100_1010_1_01_1_0101#32 =
      .strhImm .al ⟨false, true, false, 3, 12, 0xA#4, 0x5#4⟩ ∧
    decode 0b1110_000_0_1_0_0_0_0011_1100_0000_1_01_1_1110#32 =
      .strhReg .al ⟨false, true, false, 3, 12, 14⟩ ∧
    decode 0b1110_000_1_0_1_1_1_0011_1100_1010_1_01_1_0101#32 =
      .ldrhImm .al ⟨true, false, true, 3, 12, 0xA#4, 0x5#4⟩ ∧
    decode 0b1110_000_1_0_0_1_1_0011_1100_0000_1_01_1_1110#32 =
      .ldrhReg .al ⟨true, false, true, 3, 12, 14⟩ ∧
    decode 0b1110_000_1_1_1_0_1_0011_1100_1010_1_10_1_0101#32 =
      .ldrsbImm .al ⟨true, true, false, 3, 12, 0xA#4, 0x5#4⟩ ∧
    decode 0b1110_000_1_1_0_0_1_0011_1100_0000_1_10_1_1110#32 =
      .ldrsbReg .al ⟨true, true, false, 3, 12, 14⟩ ∧
    decode 0b1110_000_0_0_1_1_1_0011_1100_1010_1_11_1_0101#32 =
      .ldrshImm .al ⟨false, false, true, 3, 12, 0xA#4, 0x5#4⟩ ∧
    decode 0b1110_000_0_0_0_1_1_0011_1100_0000_1_11_1_1110#32 =
      .ldrshReg .al ⟨false, false, true, 3, 12, 14⟩ := by decide

/-- `cond 100 P U S W L Rn register_list` (30_encoding.md R73). -/
theorem test_decode_block :
    decode 0b1110_100_1_0_0_1_0_1101_0100000000010000#32 =
      .stm .al ⟨true, false, false, true, 13, 0x4010#16⟩ ∧
    decode 0b1110_100_0_1_1_0_1_1101_1000000000010000#32 =
      .ldm .al ⟨false, true, true, false, 13, 0x8010#16⟩ := by decide

/-- `cond 101 L offset24` and `cond 00010010 1111 1111 1111 0001 Rm` (30_encoding.md R74, R75). -/
theorem test_decode_branch :
    decode 0b1110_101_0_100000000000000000000001#32 =
      .b .al 0x800001#24 ∧
    decode 0b0001_101_1_000000000000000000000110#32 =
      .bl .ne 6#24 ∧
    decode 0b1110_00010010_1111_1111_1111_0001_1110#32 =
      .bx .al 14 := by decide

/-- `cond 00010 R 00 1111 Rd 000000000000`, `cond 00010 R 10 mask 1111 00000000 Rm` and `cond 00110 R 10 mask 1111 rot imm8` (30_encoding.md R77 to R79). -/
theorem test_decode_status :
    decode 0b1110_00010_1_00_1111_1100_000000000000#32 =
      .mrs .al true 12 ∧
    decode 0b1110_00010_0_10_1001_1111_00000000_1110#32 =
      .msrReg .al ⟨false, 0b1001#4, 14⟩ ∧
    decode 0b1110_00110_1_10_1000_1111_0101_10100001#32 =
      .msrImm .al ⟨true, 0b1000#4, 0x5#4, 0xA1#8⟩ := by decide

/-- `cond 1111 number`, the word 0, and one word of each no-op space (30_encoding.md R76, R87 to R90). -/
theorem test_decode_swi :
    decode 0b1110_1111_101010111100110111101111#32 =
      .swi .al 0xABCDEF#24 ∧
    decode 0#32 =
      .zeroWord ∧
    decode 0xEE100F10#32 =
      .nopCoprocessor .al ∧
    decode 0xE7F000F0#32 =
      .nopUndefined .al ∧
    decode 0xE328E00F#32 =
      .nopCompareImm .al ∧
    decode 0xE0810392#32 =
      .nopMultiplySpace .al ∧
    decode 0xE1C100D0#32 =
      .nopDoubleWord .al ∧
    decode 0xE12FEF1E#32 =
      .nopCompareReg .al := by decide

/-! ## One step per instruction -/

/-- Vectors S1b and SH8 of 95_test_vectors.md. -/
theorem test_movImm :
    (after 0xE3A02030#32 (core 0xF000001F#32 [])).map (fun t => (t.regs[2], t.cpsr, t.execAddr)) =
      some (0x00000030#32, 0xF000001F#32, 0x1004#32) ∧
    (after 0xE3B00102#32 (core 0x1F#32 [])).map (fun t => (t.regs[0], t.cpsr, t.execAddr)) =
      some (0x80000000#32, 0xA000001F#32, 0x1004#32) := by decide

/-- Vector DP32 of 95_test_vectors.md. -/
theorem test_subImm :
    (after 0xE25EF004#32 { core 0x13#32 [] with r14Svc := 0x2004#32, spsrSvc := 0x1F#32 }).map (fun t => (t.cpsr, t.execAddr)) =
      some (0x20000013#32, 0x2000#32) := by decide

/-- Vectors DP6 and DP7 of 95_test_vectors.md. -/
theorem test_rsbImm :
    (after 0xE2610000#32 (core 0x1F#32 [(1, 1#32)])).map (fun t => (t.regs[0], t.cpsr, t.execAddr)) =
      some (0xFFFFFFFF#32, 0x1F#32, 0x1004#32) ∧
    (after 0xE2710000#32 (core 0x1F#32 [(1, 0x80000000#32)])).map (fun t => (t.regs[0], t.cpsr, t.execAddr)) =
      some (0x80000000#32, 0x9000001F#32, 0x1004#32) := by decide

/-- Vectors DP9 and DP28 of 95_test_vectors.md. -/
theorem test_addImm :
    (after 0xE2910001#32 (core 0x1F#32 [(1, 0xffffffff#32)])).map (fun t => (t.cpsr, t.execAddr)) =
      some (0x6000001F#32, 0x1004#32) ∧
    (after 0xE28FF004#32 (core 0x1F#32 [])).map (fun t => (t.cpsr, t.execAddr)) =
      some (0x1F#32, 0x100C#32) := by decide

/-- Vector DP16 of 95_test_vectors.md. -/
theorem test_tstImm :
    (after 0xE3110102#32 (core 0x1F#32 [(1, 0x80000000#32)])).map (fun t => (t.cpsr, t.execAddr)) =
      some (0xA000001F#32, 0x1004#32) := by decide

/-- Vectors DP19 and DP20 of 95_test_vectors.md. -/
theorem test_cmpImm :
    (after 0xE3510005#32 (core 0x1F#32 [(1, 4#32)])).map (fun t => (t.cpsr, t.execAddr)) =
      some (0x8000001F#32, 0x1004#32) ∧
    (after 0xE3510001#32 (core 0x1F#32 [(1, 0x80000000#32)])).map (fun t => (t.cpsr, t.execAddr)) =
      some (0x3000001F#32, 0x1004#32) := by decide

/-- Vector DP21 of 95_test_vectors.md. -/
theorem test_cmnImm :
    (after 0xE3710001#32 (core 0x1F#32 [(1, 0xffffffff#32)])).map (fun t => (t.cpsr, t.execAddr)) =
      some (0x6000001F#32, 0x1004#32) := by decide

/-- Vector DP22 of 95_test_vectors.md. -/
theorem test_orrImm :
    (after 0xE38100FF#32 (core 0x1F#32 [(1, 0x100#32)])).map (fun t => (t.regs[0], t.cpsr, t.execAddr)) =
      some (0x000001FF#32, 0x1F#32, 0x1004#32) := by decide

/-- Vector DP24 of 95_test_vectors.md. -/
theorem test_bicImm :
    (after 0xE3C100FF#32 (core 0x1F#32 [(1, 0x12345678#32)])).map (fun t => (t.regs[0], t.cpsr, t.execAddr)) =
      some (0x12345600#32, 0x1F#32, 0x1004#32) := by decide

/-- Vector DP26 of 95_test_vectors.md. -/
theorem test_mvnImm :
    (after 0xE3F00000#32 (core 0x1000001F#32 [])).map (fun t => (t.regs[0], t.cpsr, t.execAddr)) =
      some (0xFFFFFFFF#32, 0x9000001F#32, 0x1004#32) := by decide

/-- Computed by hand from the rule, in integers. -/
theorem test_andImm :
    (after 0xE21100F0#32 (core 0x2000001F#32 [(1, 0x1234#32)])).map (fun t => (t.regs[0], t.cpsr, t.execAddr)) =
      some (0x00000030#32, 0x2000001F#32, 0x1004#32) := by decide

/-- Computed by hand from the rule, in integers. -/
theorem test_eorImm :
    (after 0xE231000F#32 (core 0x1000001F#32 [(1, 0xff#32)])).map (fun t => (t.regs[0], t.cpsr, t.execAddr)) =
      some (0x000000F0#32, 0x1000001F#32, 0x1004#32) := by decide

/-- Computed by hand from the rule, in integers. -/
theorem test_adcImm :
    (after 0xE2B10001#32 (core 0x2000001F#32 [(1, 0xfffffffe#32)])).map (fun t => (t.regs[0], t.cpsr, t.execAddr)) =
      some (0x00000000#32, 0x6000001F#32, 0x1004#32) := by decide

/-- Computed by hand from the rule, in integers. -/
theorem test_sbcImm :
    (after 0xE2D10000#32 (core 0x1F#32 [(1, 0x80000000#32)])).map (fun t => (t.regs[0], t.cpsr, t.execAddr)) =
      some (0x7FFFFFFF#32, 0x3000001F#32, 0x1004#32) := by decide

/-- Computed by hand from the rule, in integers. -/
theorem test_rscImm :
    (after 0xE2F10003#32 (core 0x2000001F#32 [(1, 5#32)])).map (fun t => (t.regs[0], t.cpsr, t.execAddr)) =
      some (0xFFFFFFFE#32, 0x8000001F#32, 0x1004#32) := by decide

/-- Computed by hand from the rule, in integers. -/
theorem test_teqImm :
    (after 0xE33100F0#32 (core 0x3000001F#32 [(1, 0xf0#32)])).map (fun t => (t.regs[0], t.cpsr, t.execAddr)) =
      some (0#32, 0x7000001F#32, 0x1004#32) := by decide

/-- Vector DP1 of 95_test_vectors.md. -/
theorem test_andShift :
    (after 0xE0110002#32 (core 0x1F#32 [(1, 0xf0f0f0f0#32), (2, 0xff00ff0#32)])).map (fun t => (t.regs[0], t.cpsr, t.execAddr)) =
      some (0x00F000F0#32, 0x1F#32, 0x1004#32) := by decide

/-- Vector DP2 of 95_test_vectors.md. -/
theorem test_eorShift :
    (after 0xE0310001#32 (core 0x1F#32 [(1, 0x1234#32)])).map (fun t => (t.cpsr, t.execAddr)) =
      some (0x4000001F#32, 0x1004#32) := by decide

/-- Vectors DP3 and DP4 of 95_test_vectors.md. -/
theorem test_subShift :
    (after 0xE0510002#32 (core 0x1F#32 [(1, 5#32), (2, 7#32)])).map (fun t => (t.regs[0], t.cpsr, t.execAddr)) =
      some (0xFFFFFFFE#32, 0x8000001F#32, 0x1004#32) ∧
    (after 0xE0510002#32 (core 0x1F#32 [(1, 0x80000000#32), (2, 1#32)])).map (fun t => (t.regs[0], t.cpsr, t.execAddr)) =
      some (0x7FFFFFFF#32, 0x3000001F#32, 0x1004#32) := by decide

/-- Vectors DP8 and DP34 of 95_test_vectors.md. -/
theorem test_addShift :
    (after 0xE0910002#32 (core 0x1F#32 [(1, 0x7fffffff#32), (2, 1#32)])).map (fun t => (t.regs[0], t.cpsr, t.execAddr)) =
      some (0x80000000#32, 0x9000001F#32, 0x1004#32) ∧
    (after 0xE09F000F#32 (core 0x1F#32 [])).map (fun t => (t.regs[0], t.cpsr, t.execAddr)) =
      some (0x00002010#32, 0x1F#32, 0x1004#32) := by decide

/-- Vectors DP10 and DP11 of 95_test_vectors.md. -/
theorem test_adcShift :
    (after 0xE0B10002#32 (core 0x2000001F#32 [(1, 0xffffffff#32), (2, 0#32)])).map (fun t => (t.cpsr, t.execAddr)) =
      some (0x6000001F#32, 0x1004#32) ∧
    (after 0xE0A100A2#32 (core 0x1F#32 [(1, 1#32), (2, 3#32)])).map (fun t => (t.regs[0], t.cpsr, t.execAddr)) =
      some (0x00000002#32, 0x1F#32, 0x1004#32) := by decide

/-- Vectors DP12 and DP13 of 95_test_vectors.md. -/
theorem test_sbcShift :
    (after 0xE0D10002#32 (core 0x1F#32 [(1, 5#32), (2, 5#32)])).map (fun t => (t.regs[0], t.cpsr, t.execAddr)) =
      some (0xFFFFFFFF#32, 0x8000001F#32, 0x1004#32) ∧
    (after 0xE0D10002#32 (core 0x2000001F#32 [(1, 5#32), (2, 5#32)])).map (fun t => (t.cpsr, t.execAddr)) =
      some (0x6000001F#32, 0x1004#32) := by decide

/-- Vectors DP14 and DP15 of 95_test_vectors.md. -/
theorem test_rscShift :
    (after 0xE0F10002#32 (core 0x2000001F#32 [(1, 3#32), (2, 10#32)])).map (fun t => (t.regs[0], t.cpsr, t.execAddr)) =
      some (0x00000007#32, 0x2000001F#32, 0x1004#32) ∧
    (after 0xE0F10002#32 (core 0x1F#32 [(1, 3#32), (2, 10#32)])).map (fun t => (t.regs[0], t.cpsr, t.execAddr)) =
      some (0x00000006#32, 0x2000001F#32, 0x1004#32) := by decide

/-- Vector DP17 of 95_test_vectors.md. -/
theorem test_teqShift :
    (after 0xE1310001#32 (core 0x3000001F#32 [(1, 85#32)])).map (fun t => (t.cpsr, t.execAddr)) =
      some (0x7000001F#32, 0x1004#32) := by decide

/-- Vectors SH3 and DP27 of 95_test_vectors.md. -/
theorem test_movShift :
    (after 0xE1B00061#32 (core 0x2000001F#32 [(1, 3#32)])).map (fun t => (t.regs[0], t.cpsr, t.execAddr)) =
      some (0x80000001#32, 0xA000001F#32, 0x1004#32) ∧
    (after 0xE1A0F00E#32 { core 0x1F#32 [] with r14Usr := 0x2000#32 }).map (fun t => (t.cpsr, t.execAddr)) =
      some (0x1F#32, 0x2000#32) := by decide

/-- MOVS pc: vectors DP29 (restore) and DP31 (invalid saved mode). -/
theorem test_movs_pc :
    (after 0xE1B0F00E#32 { core 0x93#32 [] with r14Svc := 0x1234#32, spsrSvc := 0x6000001F#32 }).map (fun t => (t.cpsr, t.execAddr)) =
      some (0x6000001F#32, 0x1234#32) ∧
    faultOf (exec (decode 0xE1B0F00E#32) { core 0x13#32 [] with r14Svc := 0x2000#32, spsrSvc := 0x0#32 }) = some (.invalidMode 0x1000#32) := by decide

/-- Computed by hand from the rule, in integers. -/
theorem test_rsbShift :
    (after 0xE0710222#32 (core 0x1F#32 [(1, 17#32), (2, 0x108#32)])).map (fun t => (t.regs[0], t.cpsr, t.execAddr)) =
      some (0xFFFFFFFF#32, 0x8000001F#32, 0x1004#32) := by decide

/-- Computed by hand from the rule, in integers. -/
theorem test_tstShift :
    (after 0xE1110222#32 (core 0x1000001F#32 [(1, 15#32), (2, 0x108#32)])).map (fun t => (t.regs[0], t.cpsr, t.execAddr)) =
      some (0#32, 0x7000001F#32, 0x1004#32) := by decide

/-- Computed by hand from the rule, in integers. -/
theorem test_cmpShift :
    (after 0xE1510222#32 (core 0x1F#32 [(1, 16#32), (2, 0x108#32)])).map (fun t => (t.regs[0], t.cpsr, t.execAddr)) =
      some (0#32, 0x6000001F#32, 0x1004#32) := by decide

/-- Computed by hand from the rule, in integers. -/
theorem test_cmnShift :
    (after 0xE1710222#32 (core 0x1F#32 [(1, 0xfffffff0#32), (2, 0x108#32)])).map (fun t => (t.regs[0], t.cpsr, t.execAddr)) =
      some (0#32, 0x6000001F#32, 0x1004#32) := by decide

/-- Computed by hand from the rule, in integers. -/
theorem test_orrShift :
    (after 0xE1910222#32 (core 0x1F#32 [(1, 0x80000001#32), (2, 0x108#32)])).map (fun t => (t.regs[0], t.cpsr, t.execAddr)) =
      some (0x80000011#32, 0xA000001F#32, 0x1004#32) := by decide

/-- Computed by hand from the rule, in integers. -/
theorem test_bicShift :
    (after 0xE1D10222#32 (core 0x2000001F#32 [(1, 0xff#32), (2, 0x1f8#32)])).map (fun t => (t.regs[0], t.cpsr, t.execAddr)) =
      some (0x000000E0#32, 0x2000001F#32, 0x1004#32) := by decide

/-- Computed by hand from the rule, in integers. -/
theorem test_mvnShift :
    (after 0xE1F00222#32 (core 0x1000001F#32 [(1, 0#32), (2, 0x108#32)])).map (fun t => (t.regs[0], t.cpsr, t.execAddr)) =
      some (0xFFFFFFEF#32, 0xB000001F#32, 0x1004#32) := by decide

/-- Vector SH7 of 95_test_vectors.md. -/
theorem test_addRegShift :
    (after 0xE08F021F#32 (core 0x1F#32 [(2, 0#32)])).map (fun t => (t.regs[0], t.cpsr, t.execAddr)) =
      some (0x00002010#32, 0x1F#32, 0x1004#32) := by decide

/-- Vectors SH4 and SH6 of 95_test_vectors.md. -/
theorem test_movRegShift :
    (after 0xE1B00211#32 (core 0x1F#32 [(1, 1#32), (2, 0x120#32)])).map (fun t => (t.cpsr, t.execAddr)) =
      some (0x6000001F#32, 0x1004#32) ∧
    (after 0xE1B00271#32 (core 0x1F#32 [(1, 0x80000001#32), (2, 32#32)])).map (fun t => (t.regs[0], t.cpsr, t.execAddr)) =
      some (0x80000001#32, 0xA000001F#32, 0x1004#32) := by decide

/-- Computed by hand from the rule, in integers. -/
theorem test_andRegShift :
    (after 0xE0110332#32 (core 0x1F#32 [(1, 31#32), (2, 0x108#32), (3, 4#32)])).map (fun t => (t.regs[0], t.cpsr, t.execAddr)) =
      some (0x00000010#32, 0x2000001F#32, 0x1004#32) := by decide

/-- Computed by hand from the rule, in integers. -/
theorem test_eorRegShift :
    (after 0xE0310332#32 (core 0x1000001F#32 [(1, 16#32), (2, 0x108#32), (3, 4#32)])).map (fun t => (t.regs[0], t.cpsr, t.execAddr)) =
      some (0x00000000#32, 0x7000001F#32, 0x1004#32) := by decide

/-- Computed by hand from the rule, in integers. -/
theorem test_subRegShift :
    (after 0xE0510332#32 (core 0x1F#32 [(1, 16#32), (2, 0x108#32), (3, 0x104#32)])).map (fun t => (t.regs[0], t.cpsr, t.execAddr)) =
      some (0x00000000#32, 0x6000001F#32, 0x1004#32) := by decide

/-- Computed by hand from the rule, in integers. -/
theorem test_rsbRegShift :
    (after 0xE0710332#32 (core 0x1F#32 [(1, 18#32), (2, 0x108#32), (3, 4#32)])).map (fun t => (t.regs[0], t.cpsr, t.execAddr)) =
      some (0xFFFFFFFE#32, 0x8000001F#32, 0x1004#32) := by decide

/-- Computed by hand from the rule, in integers. -/
theorem test_adcRegShift :
    (after 0xE0B10332#32 (core 0x2000001F#32 [(1, 0x7fffffff#32), (2, 0x108#32), (3, 4#32)])).map (fun t => (t.regs[0], t.cpsr, t.execAddr)) =
      some (0x80000010#32, 0x9000001F#32, 0x1004#32) := by decide

/-- Computed by hand from the rule, in integers. -/
theorem test_sbcRegShift :
    (after 0xE0D10332#32 (core 0x1F#32 [(1, 16#32), (2, 0x108#32), (3, 4#32)])).map (fun t => (t.regs[0], t.cpsr, t.execAddr)) =
      some (0xFFFFFFFF#32, 0x8000001F#32, 0x1004#32) := by decide

/-- Computed by hand from the rule, in integers. -/
theorem test_rscRegShift :
    (after 0xE0F10332#32 (core 0x1F#32 [(1, 16#32), (2, 0x108#32), (3, 4#32)])).map (fun t => (t.regs[0], t.cpsr, t.execAddr)) =
      some (0xFFFFFFFF#32, 0x8000001F#32, 0x1004#32) := by decide

/-- Computed by hand from the rule, in integers. -/
theorem test_tstRegShift :
    (after 0xE1110332#32 (core 0x2000001F#32 [(1, 32#32), (2, 0x108#32), (3, 4#32)])).map (fun t => (t.regs[0], t.cpsr, t.execAddr)) =
      some (0#32, 0x6000001F#32, 0x1004#32) := by decide

/-- Computed by hand from the rule, in integers. -/
theorem test_teqRegShift :
    (after 0xE1310332#32 (core 0x1F#32 [(1, 16#32), (2, 0x108#32), (3, 4#32)])).map (fun t => (t.regs[0], t.cpsr, t.execAddr)) =
      some (0#32, 0x6000001F#32, 0x1004#32) := by decide

/-- Computed by hand from the rule, in integers. -/
theorem test_cmpRegShift :
    (after 0xE1510332#32 (core 0x1F#32 [(1, 15#32), (2, 0x108#32), (3, 4#32)])).map (fun t => (t.regs[0], t.cpsr, t.execAddr)) =
      some (0#32, 0x8000001F#32, 0x1004#32) := by decide

/-- Computed by hand from the rule, in integers. -/
theorem test_cmnRegShift :
    (after 0xE1710332#32 (core 0x1F#32 [(1, 0xfffffff0#32), (2, 0x100#32), (3, 4#32)])).map (fun t => (t.regs[0], t.cpsr, t.execAddr)) =
      some (0#32, 0x6000001F#32, 0x1004#32) := by decide

/-- Computed by hand from the rule, in integers. -/
theorem test_orrRegShift :
    (after 0xE1910332#32 (core 0x1000001F#32 [(1, 0x80000000#32), (2, 0x108#32), (3, 4#32)])).map (fun t => (t.regs[0], t.cpsr, t.execAddr)) =
      some (0x80000010#32, 0xB000001F#32, 0x1004#32) := by decide

/-- Computed by hand from the rule, in integers. -/
theorem test_bicRegShift :
    (after 0xE1D10332#32 (core 0x1F#32 [(1, 31#32), (2, 0x108#32), (3, 4#32)])).map (fun t => (t.regs[0], t.cpsr, t.execAddr)) =
      some (0x0000000F#32, 0x2000001F#32, 0x1004#32) := by decide

/-- Computed by hand from the rule, in integers. -/
theorem test_mvnRegShift :
    (after 0xE1F00332#32 (core 0x1F#32 [(1, 0#32), (2, 0x108#32), (3, 4#32)])).map (fun t => (t.regs[0], t.cpsr, t.execAddr)) =
      some (0xFFFFFFEF#32, 0xA000001F#32, 0x1004#32) := by decide

/-- Vectors MU1 and MU6 of 95_test_vectors.md. -/
theorem test_mul :
    (after 0xE0100291#32 (core 0x3000001F#32 [(1, 0x10000#32), (2, 0x10000#32)])).map (fun t => (t.cpsr, t.execAddr)) =
      some (0x7000001F#32, 0x1004#32) ∧
    (after 0xE00F0291#32 (core 0x1F#32 [(1, 0x100#32), (2, 32#32)])).map (fun t => (t.cpsr, t.execAddr)) =
      some (0x1F#32, 0x2000#32) := by decide

/-- Vectors MU2 and MU7 of 95_test_vectors.md. -/
theorem test_mla :
    (after 0xE0202391#32 (core 0x1F#32 [(1, 3#32), (3, 4#32), (2, 0xffffffff#32)])).map (fun t => (t.regs[0], t.cpsr, t.execAddr)) =
      some (0x0000000B#32, 0x1F#32, 0x1004#32) ∧
    (after 0xE0303291#32 (core 0x1F#32 [(1, 0#32), (2, 5#32), (3, 0x80000000#32)])).map (fun t => (t.regs[0], t.cpsr, t.execAddr)) =
      some (0x80000000#32, 0x8000001F#32, 0x1004#32) := by decide

/-- Vectors LS1 and LS12 of 95_test_vectors.md. -/
theorem test_ldrImm :
    (after 0xE5B10004#32 (poke (core 0x1F#32 [(1, 0x2000#32)]) 0x2004#32 .word 0xCAFEF00D#32)).map (fun t => (t.regs[0], t.regs[1], t.cpsr, t.execAddr)) =
      some (0xCAFEF00D#32, 0x00002004#32, 0x1F#32, 0x1004#32) ∧
    (after 0xE5910001#32 (poke (core 0x1F#32 [(0, 5#32), (1, 0x2000#32)]) 0x2000#32 .word 0x12345678#32)).map (fun t => (t.regs[0], t.cpsr, t.execAddr)) =
      some (0x00000000#32, 0x1F#32, 0x1004#32) := by decide

/-- Vectors LS8 and LS13 of 95_test_vectors.md. -/
theorem test_strImm :
    (after 0xE4010004#32 (core 0x1F#32 [(0, 0x12345678#32), (1, 0x2000#32)])).map (fun t => (t.regs[1], t.cpsr, bytes t 0x2000 4, t.execAddr)) =
      some (0x00001FFC#32, 0x1F#32, [0x78#8, 0x56#8, 0x34#8, 0x12#8], 0x1004#32) ∧
    (after 0xE5A10002#32 (core 0x1F#32 [(0, 0xffffffff#32), (1, 0x2000#32)])).map (fun t => (t.regs[1], t.cpsr, t.execAddr)) =
      some (0x00002002#32, 0x1F#32, 0x1004#32) := by decide

/-- Vectors LS9 and LS10 of 95_test_vectors.md. -/
theorem test_ldrbImm :
    (after 0xE5D10001#32 (poke (core 0x1F#32 [(1, 0x2004#32)]) 0x2004#32 .word 0x12345678#32)).map (fun t => (t.regs[0], t.cpsr, t.execAddr)) =
      some (0x00000056#32, 0x1F#32, 0x1004#32) ∧
    (after 0xE5D10001#32 (poke { core 0x1F#32 [(1, 0x2004#32)] with endian := .big } 0x2004#32 .word 0x12345678#32)).map (fun t => (t.regs[0], t.cpsr, t.execAddr)) =
      some (0x00000034#32, 0x1F#32, 0x1004#32) := by decide

/-- Vector LS11 of 95_test_vectors.md. -/
theorem test_strbImm :
    (after 0xE5C10000#32 (core 0x1F#32 [(0, 0x141#32), (1, 0x2000#32)])).map (fun t => (t.cpsr, bytes t 0x2000 4, t.execAddr)) =
      some (0x1F#32, [0x41#8, 0x00#8, 0x00#8, 0x00#8], 0x1004#32) := by decide

/-- Vector LS5 of 95_test_vectors.md. -/
theorem test_ldrReg :
    (after 0xE7910002#32 (poke (core 0x1F#32 [(1, 0x2000#32), (2, 4#32)]) 0x2004#32 .word 0x33333333#32)).map (fun t => (t.regs[0], t.cpsr, t.execAddr)) =
      some (0x33333333#32, 0x1F#32, 0x1004#32) := by decide

/-- Vectors LS7 and LS7b of 95_test_vectors.md. -/
theorem test_ldrScaled :
    (after 0xE7310102#32 (poke (core 0x1F#32 [(1, 0x2008#32), (2, 1#32)]) 0x2004#32 .word 0x44444444#32)).map (fun t => (t.regs[0], t.regs[1], t.cpsr, t.execAddr)) =
      some (0x44444444#32, 0x00002004#32, 0x1F#32, 0x1004#32) ∧
    (after 0xE7310042#32 (core 0x1F#32 [(1, 0x2004#32), (2, 0x80000000#32)])).map (fun t => (t.regs[1], t.cpsr, t.execAddr)) =
      some (0x00002005#32, 0x1F#32, 0x1004#32) := by decide

/-- The sentinel addresses (20_memory.md R52), vectors of 95_test_vectors.md. -/
theorem test_sentinels :
    (after 0xE5D10000#32 { core 0x1F#32 [(1, 0x100000#32)] with lastChar := 0x41#8 }).map (fun t => (t.regs[0], t.cpsr, t.execAddr)) =
      some (0x00000041#32, 0x1F#32, 0x1004#32) ∧
    (after 0xE5910000#32 { core 0x1F#32 [(1, 0x100000#32)] with lastChar := 0x41#8 }).map (fun t => (t.regs[0], t.cpsr, t.execAddr)) =
      some (0x00000041#32, 0x1F#32, 0x1004#32) ∧
    (after 0xE5C10000#32 (core 0x1F#32 [(0, 0x148#32), (1, 0x100004#32)])).map (fun t => (t.cpsr, t.output, t.execAddr)) =
      some (0x1F#32, [0x48#8], 0x1004#32) := by decide

/-- Computed by hand from the rule, in integers. -/
theorem test_strReg :
    (after 0xE6810002#32 (core 0x1F#32 [(0, 0x12345678#32), (1, 0x2000#32), (2, 2#32)])).map (fun t => (bytes t 0x2000 4, t.regs[1], t.execAddr)) =
      some ([0x78#8, 0x56#8, 0x34#8, 0x12#8], 0x2002#32, 0x1004#32) := by decide

/-- Computed by hand from the rule, in integers. -/
theorem test_strbReg :
    (after 0xE7410002#32 (core 0x1F#32 [(0, 0x12345678#32), (1, 0x2000#32), (2, 2#32)])).map (fun t => (bytes t 0x1FFE 2, t.regs[1], t.execAddr)) =
      some ([0x78#8, 0#8], 0x2000#32, 0x1004#32) := by decide

/-- Computed by hand from the rule, in integers. -/
theorem test_strScaled :
    (after 0xE7A10102#32 (core 0x1F#32 [(0, 0x12345678#32), (1, 0x2000#32), (2, 2#32)])).map (fun t => (bytes t 0x2008 4, t.regs[1], t.execAddr)) =
      some ([0x78#8, 0x56#8, 0x34#8, 0x12#8], 0x2008#32, 0x1004#32) := by decide

/-- Computed by hand from the rule, in integers. -/
theorem test_strbScaled :
    (after 0xE7C10102#32 (core 0x1F#32 [(0, 0x12345678#32), (1, 0x2000#32), (2, 2#32)])).map (fun t => (bytes t 0x2008 2, t.regs[1], t.execAddr)) =
      some ([0x78#8, 0#8], 0x2000#32, 0x1004#32) := by decide

/-- Computed by hand from the rule, in integers. -/
theorem test_ldrbReg :
    (after 0xE7D10002#32 (poke (core 0x1F#32 [(1, 0x2000#32), (2, 2#32)]) 0x2002#32 .byte 0x9C#32)).map (fun t => (t.regs[0], t.regs[1])) =
      some (0x9C#32, 0x2000#32) := by decide

/-- Computed by hand from the rule, in integers. -/
theorem test_ldrbScaled :
    (after 0xE6510102#32 (poke (core 0x1F#32 [(1, 0x2000#32), (2, 2#32)]) 0x2000#32 .byte 0x9C#32)).map (fun t => (t.regs[0], t.regs[1])) =
      some (0x9C#32, 0x1FF8#32) := by decide

/-- Vectors HW1 and HW3 of 95_test_vectors.md. -/
theorem test_ldrhImm :
    (after 0xE1D100B2#32 (poke (core 0x1F#32 [(1, 0x2004#32)]) 0x2004#32 .word 0x12345678#32)).map (fun t => (t.regs[0], t.cpsr, t.execAddr)) =
      some (0x00001234#32, 0x1F#32, 0x1004#32) ∧
    (after 0xE1D100B1#32 (poke (core 0x1F#32 [(0, 9#32), (1, 0x2004#32)]) 0x2004#32 .word 0x12345678#32)).map (fun t => (t.regs[0], t.cpsr, t.execAddr)) =
      some (0x00000000#32, 0x1F#32, 0x1004#32) := by decide

/-- Vector HW4 of 95_test_vectors.md. -/
theorem test_strhImm :
    (after 0xE1C100B6#32 (core 0x1F#32 [(0, 0xabcd1234#32), (1, 0x2000#32)])).map (fun t => (t.cpsr, bytes t 0x2004 4, t.execAddr)) =
      some (0x1F#32, [0x00#8, 0x00#8, 0x34#8, 0x12#8], 0x1004#32) := by decide

/-- Vector HW6 of 95_test_vectors.md. -/
theorem test_ldrsbImm :
    (after 0xE1D100D0#32 (poke (core 0x1F#32 [(1, 0x2000#32)]) 0x2000#32 .byte 0x80#32)).map (fun t => (t.regs[0], t.cpsr, t.execAddr)) =
      some (0xFFFFFF80#32, 0x1F#32, 0x1004#32) := by decide

/-- Vector HW8 of 95_test_vectors.md. -/
theorem test_ldrshImm :
    (after 0xE15100F2#32 (poke (core 0x1F#32 [(1, 0x2002#32)]) 0x2000#32 .half 0x8001#32)).map (fun t => (t.regs[0], t.cpsr, t.execAddr)) =
      some (0xFFFF8001#32, 0x1F#32, 0x1004#32) := by decide

/-- Vector HW11 of 95_test_vectors.md. -/
theorem test_ldrhReg :
    (after 0xE19100B2#32 (poke (core 0x1F#32 [(1, 0x2000#32), (2, 2#32)]) 0x2002#32 .half 0xCAFE#32)).map (fun t => (t.regs[0], t.cpsr, t.execAddr)) =
      some (0x0000CAFE#32, 0x1F#32, 0x1004#32) := by decide

/-- Vector HW12 of 95_test_vectors.md. -/
theorem test_strhReg :
    (after 0xE12100B2#32 (core 0x1F#32 [(0, 0x5a5a#32), (1, 0x2004#32), (2, 2#32)])).map (fun t => (t.regs[1], t.cpsr, bytes t 0x2000 4, t.execAddr)) =
      some (0x00002002#32, 0x1F#32, [0x00#8, 0x00#8, 0x5A#8, 0x5A#8], 0x1004#32) := by decide

/-- Computed by hand from the rule, in integers. -/
theorem test_ldrsbReg :
    (after 0xE19100D2#32 (poke (core 0x1F#32 [(1, 0x2000#32), (2, 2#32)]) 0x2002#32 .byte 0x80#32)).map (fun t => (t.regs[0], t.regs[1])) =
      some (0xFFFFFF80#32, 0x2000#32) := by decide

/-- Computed by hand from the rule, in integers. -/
theorem test_ldrshReg :
    (after 0xE19100F2#32 (poke (core 0x1F#32 [(1, 0x2000#32), (2, 2#32)]) 0x2002#32 .half 0x8001#32)).map (fun t => (t.regs[0], t.regs[1])) =
      some (0xFFFF8001#32, 0x2000#32) := by decide

/-- Vectors BL1 and BL12 of 95_test_vectors.md. -/
theorem test_ldm :
    (after 0xE8B00006#32 (poke (poke (poke (poke (poke (core 0x1F#32 [(0, 0x2000#32)]) 0x1FF8#32 .word 0x11111111#32) 0x1FFC#32 .word 0x22222222#32) 0x2000#32 .word 0x33333333#32) 0x2004#32 .word 0x44444444#32) 0x2008#32 .word 0x55555555#32)).map (fun t => (t.regs[0], t.regs[1], t.regs[2], t.cpsr, t.execAddr)) =
      some (0x00002008#32, 0x33333333#32, 0x44444444#32, 0x1F#32, 0x1004#32) ∧
    (after 0xE8900003#32 (poke (poke (poke (poke (poke (core 0x1F#32 [(0, 0x2000#32)]) 0x1FF8#32 .word 0x11111111#32) 0x1FFC#32 .word 0x22222222#32) 0x2000#32 .word 0x33333333#32) 0x2004#32 .word 0x44444444#32) 0x2008#32 .word 0x55555555#32)).map (fun t => (t.regs[0], t.regs[1], t.cpsr, t.execAddr)) =
      some (0x33333333#32, 0x44444444#32, 0x1F#32, 0x1004#32) := by decide

/-- Vectors BL6 and BL9 of 95_test_vectors.md. -/
theorem test_stm :
    (after 0xE8A0000E#32 (core 0x1F#32 [(0, 0x2000#32), (1, 0xa1#32), (2, 0xa2#32), (3, 0xa3#32)])).map (fun t => (t.regs[0], t.cpsr, bytes t 0x2000 12, t.execAddr)) =
      some (0x0000200C#32, 0x1F#32, [0xA1#8, 0x00#8, 0x00#8, 0x00#8, 0xA2#8, 0x00#8, 0x00#8, 0x00#8, 0xA3#8, 0x00#8, 0x00#8, 0x00#8], 0x1004#32) ∧
    (after 0xE920000E#32 (core 0x1F#32 [(0, 0x2000#32), (1, 0xa1#32), (2, 0xa2#32), (3, 0xa3#32)])).map (fun t => (t.regs[0], t.cpsr, bytes t 0x1FF4 12, t.execAddr)) =
      some (0x00001FF4#32, 0x1F#32, [0xA1#8, 0x00#8, 0x00#8, 0x00#8, 0xA2#8, 0x00#8, 0x00#8, 0x00#8, 0xA3#8, 0x00#8, 0x00#8, 0x00#8], 0x1004#32) := by decide

/-- The empty list and a word outside the RAM: vectors BL17 and BL19 of 95_test_vectors.md. -/
theorem test_ldm_faults :
    faultOf (exec (decode 0xE8900000#32) (core 0x1F#32 [(0, 0x2000#32)])) = some (.emptyRegList 0x1000#32) ∧
    faultOf (exec (decode 0xE8900006#32) (poke (core 0x1F#32 [(0, 0x7ffc#32)]) 0x7FFC#32 .word 0x9#32)) = some (.memBounds 0x1000#32) := by decide

/-- Vectors BR1 and BR5 of 95_test_vectors.md. -/
theorem test_b :
    (after 0xEA000000#32 (core 0x1F#32 [])).map (fun t => (t.cpsr, t.execAddr)) =
      some (0x1F#32, 0x1008#32) ∧
    (after 0xEA800000#32 (core 0x1F#32 [])).map (fun t => (t.cpsr, t.execAddr)) =
      some (0x1F#32, 0xFE001008#32) := by decide

/-- Vectors S2 and BR9 of 95_test_vectors.md. -/
theorem test_bl :
    (after 0xEB000006#32 (core 0x1F#32 [])).map (fun t => (t.r14Usr, t.cpsr, t.execAddr)) =
      some (0x00001004#32, 0x1F#32, 0x1020#32) ∧
    (after 0xEB000006#32 (core 0x13#32 [])).map (fun t => (t.r14Svc, t.cpsr, t.execAddr)) =
      some (0x00001004#32, 0x13#32, 0x1020#32) := by decide

/-- Vectors BR12 and BR13 of 95_test_vectors.md. -/
theorem test_bx :
    (after 0xE12FFF10#32 (core 0x1F#32 [(0, 0x301#32)])).map (fun t => (t.cpsr, t.execAddr)) =
      some (0x0000003F#32, 0x300#32) ∧
    (after 0xE12FFF10#32 (core 0x3F#32 [(0, 0x300#32)])).map (fun t => (t.cpsr, t.execAddr)) =
      some (0x0000001F#32, 0x300#32) := by decide

/-- Vectors ST2 and ST3 of 95_test_vectors.md. -/
theorem test_mrs :
    (after 0xE14F0000#32 { core 0x13#32 [] with spsrSvc := 0x1F#32 }).map (fun t => (t.regs[0], t.cpsr, t.execAddr)) =
      some (0x0000001F#32, 0x13#32, 0x1004#32) ∧
    faultOf (exec (decode 0xE14F0000#32) (core 0x1F#32 [])) = some (.noSpsr 0x1000#32) := by decide

/-- Vectors ST7 and ST13 of 95_test_vectors.md. -/
theorem test_msrReg :
    (after 0xE129F000#32 (core 0x10#32 [(0, 0xf00000d3#32)])).map (fun t => (t.cpsr, t.execAddr)) =
      some (0xF0000010#32, 0x1004#32) ∧
    (after 0xE16FF000#32 (core 0x13#32 [(0, 0xffffffff#32)])).map (fun t => (t.spsrSvc, t.cpsr, t.execAddr)) =
      some (0xF00000FF#32, 0x13#32, 0x1004#32) := by decide

/-- Vectors ST8 and ST11 of 95_test_vectors.md. -/
theorem test_msrImm :
    (after 0xE328F4F0#32 (core 0x1F#32 [])).map (fun t => (t.cpsr, t.execAddr)) =
      some (0xF000001F#32, 0x1004#32) ∧
    faultOf (exec (decode 0xE321F000#32) (core 0x1F#32 [])) = some (.invalidMode 0x1000#32) := by decide

/-- Vectors SW1 and SW3 of 95_test_vectors.md. -/
theorem test_swi_exit :
    (after 0xEF000011#32 (core 0x1F#32 [])).map (fun t => (t.r15, t.cpsr, t.halted)) =
      some (0x00001008#32, 0x1F#32, some .exit) ∧
    (after 0xEF100011#32 (core 0x1F#32 [])).map (fun t => (t.cpsr, t.execAddr)) =
      some (0x1F#32, 0x1004#32) := by decide

/-- Vector SW5 of 95_test_vectors.md. -/
theorem test_swi_putc :
    (after 0xEF000000#32 (core 0x6000001F#32 [(0, 0x1241#32)])).map (fun t => (t.r14Svc, t.spsrSvc, t.cpsr, t.output, t.execAddr)) =
      some (0x00001004#32, 0x6000001F#32, 0x60000093#32, [0x41#8], 0x8#32) := by decide

/-- Vector SW8 of 95_test_vectors.md. -/
theorem test_swi_readline :
    (after 0xEF00006A#32 { core 0x1F#32 [(1, 0x2000#32), (2, 8#32)] with inputLines := [[0x68#8, 0x69#8]] }).map (fun t => (t.r14Svc, t.spsrSvc, t.cpsr, bytes t 0x2000 4, t.execAddr)) =
      some (0x00001004#32, 0x0000001F#32, 0x00000093#32, [0x68#8, 0x69#8, 0x0D#8, 0x00#8], 0x8#32) := by decide

/-- The six no-op spaces: vectors SW12 to SW14 and HW15 of 95_test_vectors.md, and two words of R88. -/
theorem test_nopSpaces :
    (after 0xED901100#32 (core 0x1F#32 [])).map (fun t => (t.cpsr, t.execAddr)) =
      some (0x1F#32, 0x1004#32) ∧
    (after 0xE7F000F0#32 (core 0x1F#32 [])).map (fun t => (t.cpsr, t.execAddr)) =
      some (0x1F#32, 0x1004#32) ∧
    (after 0xE1010092#32 (core 0x1F#32 [(1, 0x2000#32), (2, 5#32)])).map (fun t => (t.cpsr, t.execAddr)) =
      some (0x1F#32, 0x1004#32) ∧
    (after 0xE1C100F0#32 (core 0x1F#32 [(0, 1#32), (1, 0x2000#32)])).map (fun t => (t.cpsr, t.execAddr)) =
      some (0x1F#32, 0x1004#32) ∧
    (after 0xE3000000#32 (core 0x1F#32 [(0, 7#32)])).map (fun t => (t.regs[0], t.cpsr, t.execAddr)) =
      some (7#32, 0x1F#32, 0x1004#32) ∧
    (after 0xE1000000#32 (core 0x1F#32 [(0, 7#32)])).map (fun t => (t.regs[0], t.cpsr, t.execAddr)) =
      some (7#32, 0x1F#32, 0x1004#32) := by decide

/-- Vectors S5b and CY6 of 95_test_vectors.md. -/
theorem test_condition_fails :
    (after 0x13A00001#32 (core 0x4000001F#32 [])).map (fun t => (t.cpsr, t.execAddr)) =
      some (0x4000001F#32, 0x1004#32) ∧
    (after 0xF3A00001#32 (core 0x1F#32 [])).map (fun t => (t.cpsr, t.execAddr)) =
      some (0x1F#32, 0x1004#32) := by decide

/-! ## The step -/

/-- The word 0 halts with r15 as it was; vector CY3 of 95_test_vectors.md. -/
theorem test_step_zeroWord :
    nextOf (step (core 0x1F#32 [])) = some { core 0x1F#32 [] with halted := some .zeroWord } := by decide

/-- An IRQ is entered at the end of the step: vector EX1 of 95_test_vectors.md. -/
theorem test_step_irq :
    nextOf (step { poke (core 0x1F#32 []) 0x1000#32 .word 0xE3A00001#32 with pendingIrq := true }) =
      some { poke (core 0x92#32 [(0, 1#32)]) 0x1000#32 .word 0xE3A00001#32 with
        r14Irq := 0x1004#32, spsrIrq := 0x1F#32, r15 := 0x20#32 } := by decide

/-- A core that waits for a line (R11), its `keep_running` clear and a breakpoint at the vector its r15 names. -/
def waitingS : State :=
  { ((core 0x1F#32 [(1, 0x2000#32), (2, 4#32)]).setKeepRunning false).addBreakpoint 0x8#32 with
    r15 := 0x10#32, cpsr := 0x93#32, r14Svc := 0x1004#32, spsrSvc := 0x1F#32, waitingLine := true }

/-- R11: neither the flag nor a breakpoint ends a wait, and the step that finds the line stores it as vector SW8 of
95_test_vectors.md does and leaves r15 in the handler. -/
theorem test_step_waits :
    nextOf (run 2 waitingS) = some waitingS ∧
    (nextOf (step (waitingS.supplyLine [0x68#8, 0x69#8]))).map (fun t => (bytes t 0x2000 4, t.execAddr, t.waitingLine)) =
      some ([0x68#8, 0x69#8, 0x0D#8, 0x00#8], 0x8#32, false) := by decide

/-- R39: `MSR CPSR_c, #0x10`, executed in System mode, is traced; `MOVS pc, lr`, executed in Supervisor mode and
returning to System mode, is not. -/
theorem test_traced_by_mode_before :
    (after 0xE321F010#32 ((core 0x1F#32 []).setTrace true)).map (fun t => (psrMode t.cpsr, t.trace.length)) =
      some (0b10000#5, 1) ∧
    (after 0xE1B0F00E#32 { (core 0x93#32 []).setTrace true with r14Svc := 0x1004#32, spsrSvc := 0x1F#32 }).map
      (fun t => (psrMode t.cpsr, t.trace.length)) = some (0b11111#5, 0) := by decide

/-- A never-loaded core faults at its first fetch: vector CY11 of 95_test_vectors.md. -/
theorem test_step_reset : faultOf (step State.reset) = some (.memBounds 0xFFFFFFF8#32) := by decide

/-- The next step after a placed word runs it, from reset and on a loaded core in Big order. -/
theorem test_step_withFetchWord :
    (nextOf (step (State.reset.withFetchWord 32 0xE3A02030))).map (fun t => (t.regs[2], t.execAddr)) =
      some (0x30#32, 0x1004#32) ∧
    (nextOf (step ({ core 0x10#32 [] with endian := .big }.withFetchWord 32 0xEF000011))).map
      (fun t => (t.halted, t.execAddr)) = some (some .exit, 0x1000#32) ∧
    decodeTableWord 32 0xE3A02030 = some (.movImm .al ⟨false, 0, 2, 0#4, 0x30#8⟩) := by decide

/-! ## Witnesses: for each statement with hypotheses, a state and operands that meet them together -/

/-- The hypotheses about registers, as decidable propositions. -/
theorem accessible_low {s : State} {i : Reg} (h : i ≠ 13 ∧ i ≠ 14) : accessible s i := .inl h

theorem accessible_banked {s : State} {i : Reg} (h : psrModeOf s.cpsr = some .user ∨
    psrModeOf s.cpsr = some .system ∨ psrModeOf s.cpsr = some .supervisor ∨
    psrModeOf s.cpsr = some .irq) : accessible s i := .inr h

/-- DecodeOfEncode: an instruction of each checked kind is well formed. -/
theorem witness_DecodeOfEncode :
    (Instr.cmpImm .al ⟨true, 1, 0, 0#4, 0xFF#8⟩).WellFormed ∧
    (Instr.ldrScaled .al ⟨true, true, false, 1, 15, 1#5, .lsl, 2⟩).WellFormed ∧
    (Instr.andShift .nv DpShiftArgs.zero).WellFormed := by decide

/-- EncodeOfDecode: both premises, at the words nearest 0. -/
theorem witness_EncodeOfDecode :
    (1#32 : Word) ≠ 0#32 ∧ isNop (decode 1#32) = false ∧ isNop (decode 0#32) = false := by decide

/-- NoOpSpaces: a word of each space, and the premise of the last clause. -/
theorem witness_NoOpSpaces :
    (0xEE100F10#32 ≠ 0#32 ∧ isNop (decode 0xEE100F10#32) = true) ∧ isNop (decode 0xE7F000F0#32) = true ∧
    isNop (decode 0xE0810392#32) = true ∧ isNop (decode 0xE1C100D0#32) = true ∧
    isNop (decode 0xE328E00F#32) = true ∧ isNop (decode 0xE12FEF1E#32) = true := by decide

theorem witness_LogicalOpcodes : 31 < 32 ∧ DpOp.mvn ∈ [DpOp.and, .eor, .tst, .teq, .orr, .mov, .bic, .mvn] := by
  decide

theorem witness_FlagUpdate :
    (alu .mov 0#32 0#32 true false).overflow = none ∧ (alu .add 1#32 2#32 true false).overflow = some false ∧
    27 < 28 := by decide

/-- Both rows of the immediate shifts, at the ends of their ranges. -/
theorem witness_ShiftImmediateTable : (0#5).toNat = 0 ∧ (1#5).toNat ≠ 0 ∧ (31#5).toNat ≠ 0 := by decide

/-- Each row of the register shifts, at the ends of its range. -/
theorem witness_ShiftRegisterTable :
    (0#8).toNat = 0 ∧ (1 ≤ (1#8).toNat ∧ (1#8).toNat ≤ 31) ∧ (1 ≤ (31#8).toNat ∧ (31#8).toNat ≤ 31) ∧
    (32#8).toNat = 32 ∧ 33 ≤ (33#8).toNat ∧ 33 ≤ (255#8).toNat ∧ 32 ≤ (32#8).toNat ∧
    ((64#8).toNat ≠ 0 ∧ (64#8).toNat % 32 = 0) ∧ (255#8).toNat % 32 ≠ 0 := by decide

theorem witness_RotatedImmediate : (0#4 : BitVec 4) = 0#4 ∧ (1#4 : BitVec 4) ≠ 0#4 := by decide

/-- A failing condition, for 0b1111 too, and a state whose next word is that instruction. -/
theorem witness_FailedConditionSkips :
    (Instr.swi .nv 0x11#24).cond? = some .nv ∧ condPassed .nv (core 0xF000001F#32 []).cpsr = false ∧
    (let s := poke (core 0x4000001F#32 []) 0x1000#32 .word 0x13A00001#32
     let i := Instr.movImm .ne ⟨false, 0, 0, 0#4, 1#8⟩
     i.cond? = some .ne ∧ condPassed .ne s.cpsr = false ∧ s.waitingLine = false ∧
       s.isBreakpoint s.execAddr = false ∧
       memRead s s.execAddr .word = .ok 0x13A00001#32 ∧ decode 0x13A00001#32 = i) := by decide

/-- r13 of IRQ mode as Rn, r15 as Rd, and MOVS pc where there is no SPSR. -/
theorem witness_DpImmediateResult :
    (condPassed .al (core 0x92#32 []).cpsr = true ∧ (opReadsRn .add = true → accessible (core 0x92#32 []) 13) ∧
      (opWritesRd .add = true → accessible (core 0x92#32 []) 15) ∧ ¬ restores (core 0x92#32 []) .add true 15) ∧
    (accessible (core 0x11#32 []) 12 ∧ ¬ restores (core 0x11#32 []) .mov true 15) :=
  ⟨⟨by decide, fun _ => accessible_banked (by decide), fun _ => accessible_low (by decide),
    by unfold restores; decide⟩, accessible_low (by decide), by unfold restores; decide⟩

theorem witness_DpShiftResult :
    condPassed .al (core 0x93#32 []).cpsr = true ∧ accessible (core 0x93#32 []) 14 ∧
    (opReadsRn .mov = true → accessible (core 0x93#32 []) 0) ∧
    (opWritesRd .mov = true → accessible (core 0x93#32 []) 13) ∧ ¬ restores (core 0x93#32 []) .mov true 13 :=
  ⟨by decide, accessible_banked (by decide), fun _ => accessible_low (by decide),
    fun _ => accessible_banked (by decide), by unfold restores; decide⟩

theorem witness_DpRegShiftResult :
    condPassed .al (core 0x10#32 []).cpsr = true ∧ accessible (core 0x10#32 []) 14 ∧
    accessible (core 0x10#32 []) 15 ∧ (opReadsRn .cmp = true → accessible (core 0x10#32 []) 13) ∧
    (opWritesRd .cmp = true → accessible (core 0x10#32 []) 0) ∧ ¬ restores (core 0x10#32 []) .cmp true 0 :=
  ⟨by decide, accessible_banked (by decide), accessible_low (by decide),
    fun _ => accessible_banked (by decide), fun _ => accessible_low (by decide), by unfold restores; decide⟩

/-- A saved status with a valid mode, one without, and a mode without an SPSR. -/
theorem witness_MovsPcRestores :
    condPassed .al (core 0x93#32 []).cpsr = true ∧ accessible (core 0x93#32 []) 14 ∧
    (let s := { core 0x93#32 [] with spsrSvc := 0x6000001F#32 }
     s.currentSpsr = some 0x6000001F#32 ∧ (psrModeOf 0x6000001F#32).isSome = true) ∧
    (let s := { core 0x92#32 [] with spsrIrq := 0x0#32 }
     s.currentSpsr = some 0#32 ∧ psrModeOf 0#32 = none) ∧
    (core 0x1F#32 []).currentSpsr = none :=
  ⟨by decide, accessible_banked (by decide), by decide, by decide, by decide⟩

theorem witness_MultiplyResult :
    condPassed .al (core 0x1F#32 []).cpsr = true ∧ accessible (core 0x1F#32 []) 15 ∧
    accessible (core 0x1F#32 []) 13 ∧ accessible (core 0x1F#32 []) 12 ∧
    (true = true → accessible (core 0x1F#32 []) 14) :=
  ⟨by decide, accessible_low (by decide), accessible_banked (by decide), accessible_low (by decide),
    fun _ => accessible_banked (by decide)⟩

/-- The transfer of `LDR r0, [r1, #4]!`. -/
def ldrX : Transfer := ⟨true, .word, .zero, ⟨true, true, true⟩, 1, 0, .imm 4#32⟩
/-- The transfer of `STRB r0, [r1, -r2, LSL #2]`. -/
def strX : Transfer := ⟨false, .byte, .zero, ⟨true, false, false⟩, 1, 0, .scaled 2 .lsl 2#5⟩
/-- The transfer of `LDRSH r0, [r1], r2`. -/
def ldrshX : Transfer := ⟨true, .half, .sign, ⟨false, true, false⟩, 1, 0, .reg 2⟩
/-- The transfer of `STRH r0, [r1, #0]`. -/
def strhX : Transfer := ⟨false, .half, .zero, ⟨true, true, false⟩, 1, 0, .imm 0#32⟩

theorem ldrX_accessible (s : State) : ldrX.accessible s :=
  ⟨accessible_low (by decide), accessible_low (by decide), trivial⟩
theorem strX_accessible (s : State) : strX.accessible s :=
  ⟨accessible_low (by decide), accessible_low (by decide), accessible_low (by decide)⟩
theorem ldrshX_accessible (s : State) : ldrshX.accessible s :=
  ⟨accessible_low (by decide), accessible_low (by decide), accessible_low (by decide)⟩
theorem strhX_accessible (s : State) : strhX.accessible s :=
  ⟨accessible_low (by decide), accessible_low (by decide), trivial⟩

/-- The keyboard sentinel, the last word of the RAM, and one byte above it. -/
theorem witness_LoadSingleResult :
    Instr.single? (.ldrImm .al ⟨true, true, true, 1, 0, 4#12⟩) = some (.al, ldrX) ∧ ldrX.load = true ∧
    ldrX.accessible (core 0x1F#32 []) ∧
    (let s := core 0x1F#32 [(1, 0xFFFFC#32)]
     condPassed .al s.cpsr = true ∧ (ldrX.address s).addr = s.params.kbdAddr) ∧
    (let s := core 0x1F#32 [(1, 0x7FF8#32)]
     condPassed .al s.cpsr = true ∧ (ldrX.address s).addr ≠ s.params.kbdAddr ∧
       s.inRam (ldrX.address s).addr ldrX.n) ∧
    (let s := core 0x1F#32 [(1, 0x7FF9#32)]
     (ldrX.address s).addr ≠ s.params.kbdAddr ∧ ¬ s.inRam (ldrX.address s).addr ldrX.n) :=
  ⟨by decide, by decide, ldrX_accessible _, by decide, by decide, by decide⟩

/-- The display sentinel, the last byte of the RAM, and the next one. -/
theorem witness_StoreSingleResult :
    Instr.single? (.strbScaled .al ⟨true, false, false, 1, 0, 2#5, .lsl, 2⟩) = some (.al, strX) ∧
    strX.load = false ∧ strX.accessible (core 0x1F#32 []) ∧
    (let s := core 0x1F#32 [(1, 0x100008#32), (2, 1#32)]
     condPassed .al s.cpsr = true ∧ (strX.address s).addr = s.params.displayAddr) ∧
    (let s := core 0x1F#32 [(1, 0x8003#32), (2, 1#32)]
     condPassed .al s.cpsr = true ∧ (strX.address s).addr ≠ s.params.displayAddr ∧
       s.inRam (strX.address s).addr strX.n) ∧
    (let s := core 0x1F#32 [(1, 0x8004#32), (2, 1#32)]
     (strX.address s).addr ≠ s.params.displayAddr ∧ ¬ s.inRam (strX.address s).addr strX.n) :=
  ⟨by decide, by decide, strX_accessible _, by decide, by decide, by decide⟩

theorem witness_LoadHalfResult :
    Instr.half? (.ldrshReg .al ⟨false, true, false, 1, 0, 2⟩) = some (.al, ldrshX) ∧ ldrshX.load = true ∧
    ldrshX.accessible (core 0x1F#32 []) ∧
    (let s := core 0x1F#32 [(1, 0x7FFE#32)]
     condPassed .al s.cpsr = true ∧ s.inRam (ldrshX.address s).addr ldrshX.n) ∧
    (let s := core 0x1F#32 [(1, 0x7FFF#32)]
     ¬ s.inRam (ldrshX.address s).addr ldrshX.n) :=
  ⟨by decide, by decide, ldrshX_accessible _, by decide, by decide⟩

theorem witness_StoreHalfResult :
    Instr.half? (.strhImm .al ⟨true, true, false, 1, 0, 0#4, 0#4⟩) = some (.al, strhX) ∧
    strhX.load = false ∧ strhX.accessible (core 0x1F#32 []) ∧
    (let s := core 0x1F#32 [(1, 0x7FFD#32)]
     condPassed .al s.cpsr = true ∧ s.inRam (strhX.address s).addr strhX.n) ∧
    (let s := core 0x1F#32 [(1, 0x100000#32)]
     ¬ s.inRam (strhX.address s).addr strhX.n) :=
  ⟨by decide, by decide, strhX_accessible _, by decide, by decide⟩

/-- `{r14, pc}` at the last two words of the RAM, base r13; and one word higher. -/
def blockX : BlockArgs := ⟨false, true, false, true, 13, 0xC000#16⟩
def blockS : State := { core 0x1F#32 [] with r13Usr := 0x7FF8#32 }
def blockT : State := { core 0x1F#32 [] with r13Usr := 0x7FFC#32 }

theorem blockX_accessible : blockAccessible blockX blockS :=
  ⟨accessible_banked (by decide), fun _ _ => accessible_banked (by decide)⟩

theorem witness_LdmResult :
    condPassed .al blockS.cpsr = true ∧ blockX.list ≠ 0#16 ∧ blockAccessible blockX blockS ∧
    (∀ k, k < rank blockX.list 16 → blockS.inRam (blockWord blockX blockS k) .word) ∧
    listed blockX.list 15 ∧ ¬ (blockX.w = true ∧ (15 : Reg) = blockX.rn) ∧ ¬ listed blockX.list 13 ∧
    blockAccessible blockX blockT ∧ ¬ blockT.inRam (blockWord blockX blockT 1) .word :=
  ⟨by decide, by decide, blockX_accessible, by decide, by unfold listed; decide, by decide,
    by unfold listed; decide, ⟨accessible_banked (by decide), fun _ _ => accessible_banked (by decide)⟩, by decide⟩

theorem witness_StmResult :
    condPassed .al blockS.cpsr = true ∧ blockX.list ≠ 0#16 ∧ blockAccessible blockX blockS ∧
    (∀ k, k < rank blockX.list 16 → blockS.inRam (blockWord blockX blockS k) .word) ∧
    listed blockX.list 14 ∧ (blockStart blockX blockS).toNat % 4 = 0 ∧
    blockAccessible blockX blockT ∧ ¬ blockT.inRam (blockWord blockX blockT 1) .word :=
  ⟨by decide, by decide, blockX_accessible, by decide, by unfold listed; decide, by decide,
    ⟨accessible_banked (by decide), fun _ _ => accessible_banked (by decide)⟩, by decide⟩

theorem witness_BranchResult : condPassed .al (core 0x1F#32 []).cpsr = true := by decide

/-- BL with r14, without it, and under an invalid mode code. -/
theorem witness_BranchLinkResult :
    condPassed .al (core 0x12#32 []).cpsr = true ∧ banked (core 0x12#32 []) ∧
    psrModeOf (core 0x1B#32 []).cpsr = some .undefined ∧ psrModeOf (core 0x0#32 []).cpsr = none :=
  ⟨by decide, by unfold banked; decide, by decide, by decide⟩

theorem witness_BranchExchangeResult :
    condPassed .al (core 0x1F#32 []).cpsr = true ∧ accessible (core 0x1F#32 []) 15 ∧ (31 : Nat) ≠ 5 :=
  ⟨by decide, accessible_low (by decide), by decide⟩

theorem witness_MrsResult :
    condPassed .al (core 0x93#32 []).cpsr = true ∧
    (if true then (core 0x93#32 []).currentSpsr = some 0#32 else 0#32 = (core 0x93#32 []).cpsr) ∧
    accessible (core 0x93#32 []) 15 ∧ (core 0x1F#32 []).currentSpsr = none ∧
    psrModeOf (core 0x17#32 []).cpsr = some .abort :=
  ⟨by decide, by decide, accessible_low (by decide), by decide, by decide⟩

/-- MSR CPSR_fc, r0 in User mode with every bit of r0 set, and MSR CPSR_c, #0 from System mode. -/
theorem witness_MsrCpsrResult :
    (let s := core 0x10#32 [(0, 0xFFFFFFFF#32)]
     condPassed .al s.cpsr = true ∧
     isMsr false (.msrReg .al ⟨false, 0b1001#4, 0⟩) .al 0b1001#4 0xFFFFFFFF#32 s ∧
     mergedBits s.cpsr 0xFFFFFFFF#32 0xF0000010#32 0b1001#4
       (fun k => 28 ≤ k ∨ (psrModeOf s.cpsr ≠ some .user ∧ k < 8 ∧ k ≠ 5)) ∧
     (psrModeOf 0xF0000010#32).isSome = true) ∧
    (let s := core 0x1F#32 []
     isMsr false (.msrImm .al ⟨false, 0b0001#4, 0#4, 0#8⟩) .al 0b0001#4 0#32 s ∧
     mergedBits s.cpsr 0#32 0#32 0b0001#4
       (fun k => 28 ≤ k ∨ (psrModeOf s.cpsr ≠ some .user ∧ k < 8 ∧ k ≠ 5)) ∧
     psrModeOf 0#32 = none) := by
  refine ⟨⟨by decide, .inl ⟨0, rfl, accessible_low (by decide), by decide⟩, ?_, by decide⟩,
    .inr ⟨0#4, 0#8, rfl, by decide⟩, ?_, by decide⟩ <;> unfold mergedBits <;> decide

/-- MSR SPSR_fsxc, r0 in Supervisor mode, and System mode, which has no SPSR. -/
theorem witness_MsrSpsrResult :
    (let s := core 0x93#32 [(0, 0xFFFFFFFF#32)]
     condPassed .al s.cpsr = true ∧
     isMsr true (.msrReg .al ⟨true, 0b1111#4, 0⟩) .al 0b1111#4 0xFFFFFFFF#32 s ∧
     s.currentSpsr = some 0#32 ∧
     mergedBits 0#32 0xFFFFFFFF#32 0xF00000FF#32 0b1111#4 (fun k => 28 ≤ k ∨ k < 8)) ∧
    (core 0x1F#32 []).currentSpsr = none := by
  refine ⟨⟨by decide, .inl ⟨0, rfl, accessible_low (by decide), by decide⟩, by decide, ?_⟩, by decide⟩
  unfold mergedBits; decide

theorem witness_HaltingInstructions : condPassed .al (core 0x1F#32 []).cpsr = true := by decide

theorem witness_SwiPutcResult :
    condPassed .al (core 0x10#32 []).cpsr = true ∧ (core 0x10#32 []).params.swiPutc ≠ 0x11#24 := by decide

/-- A line that leaves room for the carriage return, up to the last byte of the RAM, and a full line. -/
theorem witness_SwiReadlineResult :
    (let s := { core 0x1F#32 [(1, 0x7FFC#32), (2, 8#32)] with inputLines := [[0x68#8, 0x69#8]] }
     condPassed .al s.cpsr = true ∧ ParamsWf s.params ∧ s.inputLines = [0x68#8, 0x69#8] :: [] ∧
     2 ≤ (s.regs[s.params.readlineMaxReg]).toNat ∧
     (s.regs[s.params.readlineAddrReg]).toNat + 4 ≤ s.params.memSize) ∧
    (let s := { core 0x1F#32 [(1, 0x7FFD#32), (2, 2#32)] with inputLines := [[0x68#8, 0x69#8]] }
     2 ≤ (s.regs[s.params.readlineMaxReg]).toNat ∧
     (s.regs[s.params.readlineAddrReg]).toNat + 3 ≤ s.params.memSize) := by decide

/-- No line; a line one byte too long; a buffer one byte too long for the RAM. -/
theorem witness_SwiReadlineStops :
    (let s := core 0x1F#32 []
     condPassed .al s.cpsr = true ∧ ParamsWf s.params ∧ s.inputLines = []) ∧
    (let s := { core 0x1F#32 [(1, 0x2000#32), (2, 1#32)] with inputLines := [[0x68#8, 0x69#8]] }
     condPassed .al s.cpsr = true ∧ ParamsWf s.params ∧ s.inputLines = [0x68#8, 0x69#8] :: [] ∧
     (s.regs[s.params.readlineMaxReg]).toNat < 2) ∧
    (let s := { core 0x1F#32 [(1, 0x7FFE#32), (2, 2#32)] with inputLines := [[0x68#8, 0x69#8]] }
     2 ≤ (s.regs[s.params.readlineMaxReg]).toNat ∧
     s.params.memSize < (s.regs[s.params.readlineAddrReg]).toNat + 3 ∧ s.params.memSize < 2 ^ 32) := by decide

theorem witness_NoOpsOnlyAdvance :
    doesNothing (.nopDoubleWord .nv) (core 0x1F#32 []) ∧ doesNothing (.swi .al 0x12#24) (core 0x1F#32 []) :=
  ⟨.inl ⟨.nv, by simp⟩, .inr ⟨.al, 0x12#24, rfl, by decide, by decide, by decide⟩⟩

/-- r13 as the base of a load in FIQ mode, r14 in the list of an STM under an invalid code, r14 of an empty LDM. -/
theorem witness_UnbankedRegisterFaults :
    (13 ∈ namedRegs (.ldrImm .al ⟨true, true, false, 13, 0, 0#12⟩) ∧
      condPassed .al (core 0x11#32 []).cpsr = true ∧ ¬ banked (core 0x11#32 [])) ∧
    (14 ∈ namedRegs (.stm .al ⟨true, false, false, true, 0, 0x4001#16⟩) ∧ ¬ banked (core 0#32 [])) ∧
    14 ∈ namedRegs (.ldm .al ⟨true, false, false, true, 14, 0#16⟩) := by
  unfold banked; decide

theorem witness_EmptyListFaults :
    condPassed .al (core 0x11#32 []).cpsr = true ∧ (BlockArgs.mk true true true true 13 0#16).list = 0#16 := by
  decide

/-- Each clause of the bank map: r12, r15, and a status word of each group of modes. -/
theorem witness_BankMap :
    (12 : Reg).val < 13 ∧ (15 : Reg) = 15 ∧ psrMode 0x1F#32 = 0b11111#5 ∧ psrMode 0x93#32 = 0b10011#5 ∧
    psrMode 0x92#32 = 0b10010#5 ∧ psrMode 0x17#32 = 0b10111#5 ∧
    psrMode 0x1E#32 ∉ [0b10000#5, 0b10001#5, 0b10010#5, 0b10011#5, 0b10111#5, 0b11011#5, 0b11111#5] := by
  decide

/-- r13 written in Supervisor mode, seen from System mode. -/
theorem witness_BanksUndisturbed :
    writeReg ((core 0x1F#32 []).setCpsr 0x93#32) 13 0x6000#32 =
      .ok { (core 0x1F#32 []).setCpsr 0x93#32 with r13Svc := 0x6000#32 } ∧
    slot 13 (psrMode 0x1F#32) ≠ slot 13 (psrMode 0x93#32) := ⟨rfl, by decide⟩

theorem witness_RegisterFrame :
    (∃ t, exec (.addImm .al ⟨true, 1, 0, 0#4, 1#8⟩) (core 0x1F#32 []) = .next t) ∧
    ∃ t, exec (.swi .al 0#24) (core 0x1F#32 []) = .next t := ⟨⟨_, rfl⟩, ⟨_, rfl⟩⟩

theorem witness_StatusFrame :
    (∃ t, exec (.msrReg .al ⟨true, 0b1111#4, 0⟩) (core 0x92#32 []) = .next t) ∧
    psrModeOf (core 0x92#32 []).cpsr ≠ some .supervisor ∧ psrModeOf (core 0x93#32 []).cpsr ≠ some .irq :=
  ⟨⟨_, rfl⟩, by decide, by decide⟩

/-- A store, a load, a block store, a line input and an instruction that stores nothing, each at a next state. -/
theorem witness_MemoryFrame :
    (∃ t, exec (.strImm .al ⟨true, true, true, 1, 0, 4#12⟩) (core 0x1F#32 [(1, 0x7FF8#32)]) = .next t) ∧
    transferAddress ⟨true, true, true⟩ 1 (.imm 4#32) (core 0x1F#32 [(1, 0x7FF8#32)]) =
      .ok ⟨0x7FFC#32, 0x7FFC#32, true⟩ ∧
    (∃ t, exec (.ldrhReg .al ⟨true, true, true, 1, 0, 2⟩) (core 0x1F#32 []) = .next t) ∧
    (∃ t, exec (.stm .al blockX) blockS = .next t) ∧ ¬ inStm blockX blockS 0x7FF7 ∧
    (∃ t, exec (.swi .al 0#24) (core 0x1F#32 []) = .next t) ∧
    (∃ t, exec (.mrs .al false 0) (core 0x1F#32 []) = .next t) := by
  refine ⟨⟨_, rfl⟩, by decide, ⟨_, rfl⟩, ⟨_, rfl⟩, ?_, ⟨_, rfl⟩, ⟨_, rfl⟩⟩
  rintro ⟨k, hk, h, -⟩
  have : ∀ k, k < rank blockX.list 16 → ¬ (blockWord blockX blockS k).toNat ≤ 0x7FF7 := by decide
  exact this k hk h

/-- `MOV r0, #1` in the RAM at F, in either byte order. -/
def stepS (cpsr : Word) (e : Endian) : State := poke { core cpsr [] with endian := e } 0x1000#32 .word 0xE3A00001#32

theorem witness_StepRunsDecodedInstruction :
    ∀ e ∈ [Endian.little, .big],
      let s := stepS 0x1F#32 e
      s.waitingLine = false ∧ s.inRam s.execAddr .word ∧ s.execAddr.toNat % 4 = 0 ∧
      s.isBreakpoint s.execAddr = false ∧
      decodeBytes s.endian [s.byteAt s.execAddr.toNat, s.byteAt (s.execAddr.toNat + 1),
        s.byteAt (s.execAddr.toNat + 2), s.byteAt (s.execAddr.toNat + 3)] =
        .ok (.movImm .al ⟨false, 0, 0, 0#4, 1#8⟩, []) := by decide

/-- A core that waits with no line; a breakpoint at F; a fetch three bytes before the end of the RAM; a misaligned
fetch; the word 0. -/
theorem witness_StepStopsBeforeDecode :
    (waitingS.waitingLine = true ∧ waitingS.inputLines = []) ∧
    (let s := (core 0x1F#32 []).addBreakpoint 0x1000#32
     s.waitingLine = false ∧ s.execAddr ∈ s.breakpoints) ∧
    (let s := { core 0x1F#32 [] with r15 := 0x8005#32 }
     s.waitingLine = false ∧ s.execAddr ∉ s.breakpoints ∧ s.params.memSize < s.execAddr.toNat + 4) ∧
    (let s := { core 0x1F#32 [] with r15 := 0x100A#32 }
     s.waitingLine = false ∧ s.execAddr ∉ s.breakpoints ∧ s.execAddr.toNat + 4 ≤ s.params.memSize ∧
     s.execAddr.toNat % 4 ≠ 0) ∧
    (let s := { core 0x1F#32 [] with r15 := 0x8004#32 }
     s.execAddr.toNat + 4 ≤ s.params.memSize ∧ ∀ k, k < 4 → s.byteAt (s.execAddr.toNat + k) = 0#8) := by decide

/-- A pending IRQ that is let in, one that is masked, and none. -/
theorem witness_IrqAtEndOfStep :
    ∃ (u v : State), exec (decode 0xE3A00001#32) { stepS 0x1F#32 .little with pendingIrq := true } = .next u ∧
      exec (decode 0xE3A00001#32) { stepS 0x9F#32 .little with pendingIrq := true } = .next v ∧
      (stepS 0x1F#32 .little).waitingLine = false ∧ (stepS 0x1F#32 .little).isBreakpoint 0x1000#32 = false ∧
      memRead (stepS 0x1F#32 .little) 0x1000#32 .word = .ok 0xE3A00001#32 ∧
      (u.running = true ∧ u.pendingIrq = true ∧ psrI u.cpsr = false) ∧ psrI v.cpsr = true :=
  ⟨_, _, rfl, rfl, by decide, by decide, by decide, by decide, by decide⟩

theorem witness_NoUnmaskedIrqLeft :
    ∃ t, step { stepS 0x9F#32 .little with pendingIrq := true } = .next t ∧ t.running = true ∧
      t.pendingIrq = true := ⟨_, rfl, by decide, by decide⟩

theorem witness_ExceptionRoundTrip :
    let s := core 0x6000001F#32 []
    let h := takeException .irq 0x1004#32 s
    (psrModeOf s.cpsr).isSome = true ∧ psrModeOf h.cpsr = some (Exception.mode .irq) ∧
    readReg h 14 = .ok 0x1004#32 ∧ h.currentSpsr = some s.cpsr := by decide

/-- A User-mode step that stays, one that enters Supervisor mode, one that enters IRQ mode. -/
theorem witness_UserModeLeft :
    psrModeOf (stepS 0x10#32 .little).cpsr = some .user ∧
    (∃ t, step (stepS 0x10#32 .little) = .next t ∧ psrModeOf t.cpsr = some .user) ∧
    (∃ t, step (poke (core 0x10#32 []) 0x1000#32 .word 0xEF000000#32) = .next t ∧
      psrModeOf t.cpsr = some .supervisor) ∧
    ∃ t, step { stepS 0x10#32 .little with pendingIrq := true } = .next t ∧ psrModeOf t.cpsr = some .irq :=
  ⟨by decide, ⟨_, rfl, by decide⟩, ⟨_, rfl, by decide⟩, ⟨_, rfl, by decide⟩⟩

theorem witness_UserKeepsPrivileged :
    ∃ t, psrModeOf (stepS 0x10#32 .little).cpsr = some .user ∧ step (stepS 0x10#32 .little) = .next t ∧
      psrModeOf t.cpsr = some .user := ⟨_, by decide, rfl, by decide⟩

theorem witness_StepKeepsInv : (stepS 0x1F#32 .little).Inv ∧ ∃ t, step (stepS 0x1F#32 .little) = .next t :=
  ⟨⟨by decide, by decide, by decide, by decide, by decide, by decide, by decide, by decide, by decide⟩, _, rfl⟩

theorem witness_ResetAndLoadInv :
    ParamsWf testParams ∧ loadable testParams ⟨[⟨0x7FFE#32, [1#8], 2, .big⟩], 0x1000#32, .big⟩ = true := by
  decide

theorem witness_StepKeepsFixed : ∃ t, step (stepS 0x1F#32 .little) = .next t := ⟨_, rfl⟩

/-- Each clause at the last address it holds for. -/
theorem witness_AccessRules :
    let s := core 0x1F#32 []
    s.params.memSize < (0x7FFD#32 : Word).toNat + Width.word.bytes ∧
    ((0x7FFB#32 : Word).toNat + Width.word.bytes ≤ s.params.memSize ∧ (0x7FFB#32 : Word).toNat % Width.word.bytes ≠ 0) ∧
    (0x7FFF#32 : Word).toNat + 1 ≤ s.params.memSize ∧
    ((0x7FFE#32 : Word).toNat + 2 ≤ s.params.memSize ∧ (0x7FFE#32 : Word).toNat % 2 = 0) ∧
    ((0x7FFC#32 : Word).toNat + 4 ≤ s.params.memSize ∧ (0x7FFC#32 : Word).toNat % 4 = 0) := by decide

theorem witness_ReadAfterWrite :
    (∃ t, memWrite (core 0x1F#32 []) 0x7FFE#32 .half 0x12345678#32 = .ok t) ∧
    (0x7FFE#32 : Word).toNat % Width.half.bytes = 0 ∧ Memory.wf (core 0x1F#32 []).mem :=
  ⟨⟨_, rfl⟩, by decide, by decide⟩

theorem witness_MixedWidth :
    (∃ t, writeWord (core 0x1F#32 []) 0x7FFC#32 0x12345678#32 = .ok t) ∧ (0x7FFC#32 : Word).toNat % 4 = 0 :=
  ⟨⟨_, rfl⟩, by decide⟩

theorem witness_ChecksumOfRam :
    (∃ t, writeByte (core 0x1F#32 []) 0x7FFF#32 0x1FF#32 = .ok t) ∧
    (core 0x1F#32 []).params.memSize = 32768 ∧ (core 0x1F#32 []).mem = [] := ⟨⟨_, rfl⟩, rfl, rfl⟩

theorem witness_ResetState : testParams.memSize < 0xFFFFFFFC := by decide

/-- An image of two overlapping segments, a byte only the first covers, one both cover, one neither covers; and
an image that does not fit. -/
theorem witness_LoadContract :
    let img : Image := ⟨[⟨0x1000#32, [1#8, 2#8], 4, .big⟩, ⟨0x1001#32, [3#8], 1, .big⟩], 0x1000#32, .big⟩
    let bad : Image := ⟨[⟨0x7FFF#32, [], 2, .big⟩], 0x1000#32, .big⟩
    (∀ g ∈ img.segments, g.paddr.toNat + g.size ≤ State.reset.params.memSize ∧ g.endian = img.endian) ∧
    (∀ g ∈ img.segments, ¬ (g.paddr.toNat ≤ 0x1004 ∧ 0x1004 < g.paddr.toNat + g.size)) ∧
    (img.segments = [] ++ ⟨0x1000#32, [1#8, 2#8], 4, .big⟩ :: [⟨0x1001#32, [3#8], 1, .big⟩] ∧
      ((0x1000#32 : Word).toNat ≤ 0x1003 ∧ 0x1003 < (0x1000#32 : Word).toNat + 4) ∧
      ¬ ((0x1001#32 : Word).toNat ≤ 0x1003 ∧ 0x1003 < (0x1001#32 : Word).toNat + 1)) ∧
    State.reset.cpsr = 0#32 ∧
    ¬ (∀ g ∈ bad.segments, g.paddr.toNat + g.size ≤ State.reset.params.memSize ∧ g.endian = bad.endian) := by
  decide

/-- The flag clear; a step that halts; a step that runs on; a step that faults. -/
theorem witness_RunReadsFlag :
    (let s := (core 0x1F#32 []).setKeepRunning false
     s.waitingLine = false ∧ s.keepRunning = false) ∧ (core 0x1F#32 []).keepRunning = true ∧
    (waitingS.waitingLine = true ∧ waitingS.keepRunning = false ∧ waitingS.inputLines = []) ∧
    (∃ t, step (core 0x1F#32 []) = .next t ∧ t.halted.isSome = true) ∧
    (∃ t, step (waitingS.supplyLine [0x68#8]) = .next t ∧ t.halted = none) ∧
    (∃ f, step State.reset = .fault f) ∧
    ∃ t, run 1 ((core 0x1F#32 []).setKeepRunning false) = .next t ∧ t.halted = some .stopped :=
  ⟨⟨rfl, rfl⟩, rfl, by decide, ⟨_, rfl, by decide⟩, ⟨_, rfl, by decide⟩, ⟨_, rfl⟩, ⟨_, rfl, by decide⟩⟩

end Sys2Proof.Tests
end

section
/-! The line-input SWI that does not complete (60_exceptions.md R165, R166): the entry, the service by the state of
the host's line queue, and the steps and runs of a core that waits for a line. -/

namespace Sys2Proof.Machine

/-! ## The SWI entry (60_exceptions.md R165) -/

@[simp] theorem swiEntry_params (s : State) : (swiEntry s).params = s.params := by simp [swiEntry]
@[simp] theorem swiEntry_regs (s : State) : (swiEntry s).regs = s.regs := by simp [swiEntry]
@[simp] theorem swiEntry_r14Svc (s : State) : (swiEntry s).r14Svc = s.execAddr + 4#32 := rfl
@[simp] theorem swiEntry_cpsr (s : State) : (swiEntry s).cpsr = entryStatus s.cpsr .supervisor := by simp [swiEntry]
@[simp] theorem swiEntry_mem (s : State) : (swiEntry s).mem = s.mem := by simp [swiEntry]
@[simp] theorem swiEntry_halted (s : State) : (swiEntry s).halted = none := by simp [swiEntry]
@[simp] theorem swiEntry_output (s : State) : (swiEntry s).output = s.output := by simp [swiEntry]
@[simp] theorem swiEntry_inputLines (s : State) : (swiEntry s).inputLines = s.inputLines := by simp [swiEntry]

/-- The entry keeps every physical register but r15 and the link register of Supervisor mode. -/
theorem getSlot_swiEntry (s : State) {sl : Slot} (h15 : sl ≠ .r15) (h14 : sl ≠ .r14Svc) :
    (swiEntry s).getSlot sl = s.getSlot sl := by
  cases sl <;> simp_all [swiEntry, State.getSlot]

/-- The entry leaves what the claims say of it. -/
theorem swiEntered_swiEntry (s : State) : swiEntered s (swiEntry s) := by
  refine ⟨swiEntry_r14Svc s, ?_, ?_, rfl, fun _ => getSlot_swiEntry s, ?_⟩
  · simp [swiEntry]
  · simpa using enteredStatus_entryStatus s.cpsr .supervisor
  · simp [swiEntry]

/-- The entry writes nothing to the RAM or the output. -/
theorem nothingStored_swiEntry (s : State) : nothingStored s (swiEntry s) :=
  ⟨fun a => by simp [State.byteAt], swiEntry_output s⟩

/-- Advance-PC and Trace do not read the line queue. -/
theorem State.advance_supplyLine (s : State) (line : List Byte) (n : Option Word) (tr : Bool) :
    (s.supplyLine line).advance n tr = (s.advance n tr).supplyLine line := by
  cases n <;> cases tr <;> rfl

/-- Nor does the entry: the host may answer before it or after it. -/
theorem swiEntry_supplyLine (s : State) (line : List Byte) :
    swiEntry (s.supplyLine line) = (swiEntry s).supplyLine line := by
  unfold swiEntry
  rw [State.advance_supplyLine]
  rfl

/-! ## The line-input service (60_exceptions.md R166) -/

/-- The bytes of a line as the claims write them: the carriage return only where room remains. -/
theorem lineBytes_eq (max : Nat) (line : List Byte) :
    lineBytes max line = if line.length < max then line ++ [0x0D#8, 0x00#8] else line ++ [0x00#8] := by
  unfold lineBytes
  split <;> simp

section
variable {e : State} {f : Word}

/-- With an empty queue the service waits (00_scope.md R11). -/
theorem serviceReadline_of_no_line (h : e.inputLines = []) :
    serviceReadline e f = .next { e with waitingLine := true } := by
  unfold serviceReadline
  rw [h]

/-- The service does not ask whether the core has waited before. -/
theorem serviceReadline_waiting (e : State) (f : Word) (waiting : Bool) :
    serviceReadline { e with waitingLine := waiting } f = serviceReadline e f := by
  unfold serviceReadline
  cases e.inputLines <;> rfl

variable {line : List Byte} {rest : List (List Byte)}

/-- A line longer than the buffer is refused (93_implementation_defined.md B7). -/
theorem serviceReadline_of_long (h : e.inputLines = line :: rest)
    (hl : (e.regs[e.params.readlineMaxReg]).toNat < line.length) :
    serviceReadline e f = .refused .hostLineTooLong := by
  unfold serviceReadline
  rw [h]
  exact if_pos hl

/-- A line whose bytes leave the RAM is fatal (20_memory.md R43). -/
theorem serviceReadline_outside (h : e.inputLines = line :: rest)
    (hl : line.length ≤ (e.regs[e.params.readlineMaxReg]).toNat)
    (hout : e.params.memSize < (e.regs[e.params.readlineAddrReg]).toNat +
      (lineBytes (e.regs[e.params.readlineMaxReg]).toNat line).length)
    (hm : e.params.memSize < 2 ^ 32) :
    serviceReadline e f = .fault (.memBounds f) := by
  have hw := writeLine_outside (s := { e with inputLines := rest, waitingLine := false }) hout hm
    (by simp [lineBytes])
  unfold serviceReadline
  simp only [h, if_neg (Nat.not_lt.2 hl), hw]
  rfl

/-- The service keeps the status. -/
theorem serviceReadline_cpsr {t : State} (h : serviceReadline e f = .next t) : t.cpsr = e.cpsr := by
  rcases serviceReadline_next h with ⟨_, rfl⟩ | ⟨_, _, _, _, _, hw⟩
  · rfl
  · rw [(writeLine_ok hw).2]

end

/-- The line-input SWI, its condition passed, is the entry and then the service (48_software_interrupt.md R160). -/
theorem exec_swi_readline {c : Cond} {s : State} (hc : condPassed c s.cpsr = true) (hp : ParamsWf s.params) :
    exec (.swi c s.params.swiReadline) s = serviceReadline (swiEntry s) s.execAddr := by
  obtain ⟨-, -, hexit, hputc⟩ := hp
  show execSwi c _ s = _
  unfold execSwi swiOutcome swiService
  rw [if_pos hc, if_neg hexit, if_pos (.inr rfl)]
  exact if_neg hputc.symm

/-! ## The step and the run of a waiting core (00_scope.md R11, 40_execution_cycle.md R105) -/

/-- A masked IRQ is not taken (60_exceptions.md R168). -/
theorem State.takeIrq_of_masked {s : State} (h : psrI s.cpsr = true) : s.takeIrq = s := by
  simp [State.takeIrq, h]

/-- A step ends in the outcome of its instruction when that masks IRQ. -/
theorem endOfStep_of_masked {o : Host.Outcome State Fault Refusal} (h : ∀ t, o = .next t → psrI t.cpsr = true) :
    endOfStep o = o := by
  cases o with
  | next t => rw [endOfStep_next, State.takeIrq_of_masked (h t rfl), ite_self]
  | fault r => rfl
  | refused r => rfl

/-- In the entered state, where IRQ is masked, a step of a waiting core is the service alone. -/
theorem step_of_waiting_masked {s : State} (hw : s.waitingLine = true) (hi : psrI s.cpsr = true) :
    step s = serviceReadline s (s.r14Svc - 4#32) := by
  rw [step_of_waiting hw]
  exact endOfStep_of_masked fun t ht => by rw [serviceReadline_cpsr ht, hi]

/-- Without a line the waiting core stays as it is. -/
theorem step_of_waiting_no_line {s : State} (hw : s.waitingLine = true) (hl : s.inputLines = []) :
    step s = .next s := by
  have hself : { s with waitingLine := true } = s := by rw [← hw]
  have hrun : s.running = false := by simp [State.running, hw]
  rw [step_of_waiting hw, resumeReadline, serviceReadline_of_no_line hl, hself, endOfStep_next, hrun]
  rfl

/-- No run ends the wait, whatever `keep_running` says. -/
theorem run_of_waiting_no_line {s : State} (hw : s.waitingLine = true) (hl : s.inputLines = []) (n : Nat) :
    run n s = .next s := by
  induction n with
  | zero => rfl
  | succ n ih =>
    have hstep : driverStep s = .next s := step_of_waiting_no_line hw hl
    simp [run, hw, hstep, ih]

/-- The step that finds the line ends as the SWI ends that finds it at once. -/
theorem step_supplyLine_of_entered (s : State) (line : List Byte) :
    step ({ swiEntry s with waitingLine := true }.supplyLine line) =
      serviceReadline (swiEntry (s.supplyLine line)) s.execAddr := by
  rw [step_of_waiting_masked rfl (by simp [State.supplyLine]), swiEntry_supplyLine]
  show serviceReadline { (swiEntry s).supplyLine line with waitingLine := true } (s.execAddr + 4#32 - 4#32) = _
  rw [serviceReadline_waiting, BitVec.add_sub_cancel]

/-- Settles O35: with no line the entered state waits, step after step, until one comes (R11, R166); a line too long
is refused (B7); a line that leaves the RAM is fatal (R43). -/
theorem swiReadlineStops : Obligations.SwiReadlineStops := by
  unfold Obligations.SwiReadlineStops
  intro c s hc hp
  have hexec := exec_swi_readline hc hp
  refine ⟨fun hnone => ?_, fun line rest hline => ⟨fun hlong => ?_, fun hfits hout hm => ?_⟩⟩
  · have hempty : (swiEntry s).inputLines = [] := by rw [swiEntry_inputLines, hnone]
    refine ⟨{ swiEntry s with waitingLine := true }, hexec.trans (serviceReadline_of_no_line hempty),
      swiEntered_swiEntry s, nothingStored_swiEntry s, hempty, swiEntry_halted s, rfl,
      step_of_waiting_no_line rfl hempty, run_of_waiting_no_line rfl hempty, fun line => ?_⟩
    rw [step_supplyLine_of_entered]
    exact (exec_swi_readline (s := s.supplyLine line) hc hp).symm
  · rw [hexec, serviceReadline_of_long (by simpa using hline) (by simpa using hlong)]
  · rw [hexec, serviceReadline_outside (by simpa using hline) (by simpa using hfits)
      (by simpa [lineBytes_eq] using hout) (by simpa using hm)]

end Sys2Proof.Machine
end

section
/-! The bank map (10_state.md R15, R16): reads and writes by the slot it answers, the modes without r13 and r14, and
values across a mode switch. -/

namespace Sys2Proof.Machine

/-! ## A read and a write are what the bank map answers -/

section
variable {s : State} {i : Reg} {sl : Slot} {r : Reason}

theorem readReg_of_slot (h : slot i (psrMode s.cpsr) = .ok sl) : readReg s i = .ok (s.getSlot sl) :=
  readReg_ok.2 ⟨sl, h, rfl⟩

theorem writeReg_of_slot (h : slot i (psrMode s.cpsr) = .ok sl) (v : Word) : writeReg s i v = .ok (s.setSlot sl v) :=
  writeReg_ok.2 ⟨sl, h, rfl⟩

theorem readReg_of_slot_error (h : slot i (psrMode s.cpsr) = .error r) : readReg s i = .error r := by
  rw [readReg, h]

theorem writeReg_of_slot_error (h : slot i (psrMode s.cpsr) = .error r) (v : Word) : writeReg s i v = .error r := by
  rw [writeReg, h]

/-- The pair of r13 and r14 that a mode names. -/
theorem bankPair_of_slots {sl13 sl14 : Slot} (h13 : slot 13 (psrMode s.cpsr) = .ok sl13)
    (h14 : slot 14 (psrMode s.cpsr) = .ok sl14) (v : Word) :
    readReg s 13 = .ok (s.getSlot sl13) ∧ writeReg s 13 v = .ok (s.setSlot sl13 v) ∧
    readReg s 14 = .ok (s.getSlot sl14) ∧ writeReg s 14 v = .ok (s.setSlot sl14 v) :=
  ⟨readReg_of_slot h13, writeReg_of_slot h13 v, readReg_of_slot h14, writeReg_of_slot h14 v⟩

end

/-- The codes of 10_state.md R23 are the only valid ones. -/
theorem Mode.ofBits_eq_none {m : BitVec 5}
    (h : m ∉ [0b10000#5, 0b10001#5, 0b10010#5, 0b10011#5, 0b10111#5, 0b11011#5, 0b11111#5]) :
    Mode.ofBits m = none := by
  revert m; decide

/-! ## Modes without r13 and r14 -/

/-- Why r13 and r14 cannot be named in a mode without them (10_state.md R15). -/
def unbankedReason (s : State) : Reason :=
  if psrModeOf s.cpsr = none then .invalidMode else .unbankedMode

/-- In FIQ, Abort and Undefined mode and under an invalid code the bank map has no r13 and no r14. -/
theorem slot_of_not_banked {s : State} {j : Reg} (hb : ¬ banked s) (hj : j = 13 ∨ j = 14) :
    slot j (psrMode s.cpsr) = .error (unbankedReason s) := by
  unfold banked at hb
  unfold unbankedReason
  unfold psrModeOf at *
  cases hm : Mode.ofBits (psrMode s.cpsr) with
  | none => rcases hj with rfl | rfl <;> simp [slot_thirteen, slot_fourteen, hm]
  | some m =>
    cases m with
    | user => exact absurd (.inl hm) hb
    | system => exact absurd (.inr (.inl hm)) hb
    | supervisor => exact absurd (.inr (.inr (.inl hm))) hb
    | irq => exact absurd (.inr (.inr (.inr hm))) hb
    | fiq | abort | undefined => rcases hj with rfl | rfl <;> simp [slot_thirteen, slot_fourteen, hm]

/-- Settles O39: the bank map is read and written slot by slot, and an entry writes the link register of the mode it
enters (R15). -/
theorem bankMap : Obligations.BankMap := by
  unfold Obligations.BankMap
  intro s i v
  refine ⟨fun h => ?_, ?_, ?_, fun hm => ?_, fun hm => ?_, fun hm j hj => ?_, fun hm j hj => ?_, fun k => ?_⟩
  · have hs := slot_low h (psrMode s.cpsr)
    exact ⟨readReg_of_slot hs, writeReg_of_slot hs v⟩
  · rintro rfl
    exact ⟨readReg_fifteen s, writeReg_of_slot (slot_fifteen _) v⟩
  · rintro (hm | hm)
    · exact bankPair_of_slots (sl13 := .r13Usr) (sl14 := .r14Usr) (by rw [hm]; rfl) (by rw [hm]; rfl) v
    · exact bankPair_of_slots (sl13 := .r13Usr) (sl14 := .r14Usr) (by rw [hm]; rfl) (by rw [hm]; rfl) v
  · exact bankPair_of_slots (sl13 := .r13Svc) (sl14 := .r14Svc) (by rw [hm]; rfl) (by rw [hm]; rfl) v
  · exact bankPair_of_slots (sl13 := .r13Irq) (sl14 := .r14Irq) (by rw [hm]; rfl) (by rw [hm]; rfl) v
  · have hs : slot j (psrMode s.cpsr) = .error .unbankedMode := by
      rcases hj with rfl | rfl <;> rcases hm with hm | hm | hm <;> rw [hm] <;> rfl
    exact ⟨readReg_of_slot_error hs, writeReg_of_slot_error hs v⟩
  · have hs : slot j (psrMode s.cpsr) = .error .invalidMode := by
      rcases hj with rfl | rfl
      · rw [slot_thirteen, Mode.ofBits_eq_none hm]
      · rw [slot_fourteen, Mode.ofBits_eq_none hm]
    exact ⟨readReg_of_slot_error hs, writeReg_of_slot_error hs v⟩
  · cases k with
    | swi => exact ⟨readReg_of_slot (sl := .r14Svc) (by rw [takeException_swi_cpsr, psrMode_entryStatus]; rfl), rfl⟩
    | irq => exact ⟨readReg_of_slot (sl := .r14Irq) (by rw [takeException_irq_cpsr, psrMode_entryStatus]; rfl), rfl⟩

/-- Settles O40: the mode code chooses a slot and moves no word, and a write changes one slot alone (R16). -/
theorem banksUndisturbed : Obligations.BanksUndisturbed := by
  unfold Obligations.BanksUndisturbed
  intro s t p q i v hw
  obtain ⟨sl, hs, rfl⟩ := writeReg_ok.1 hw
  rw [State.setCpsr_cpsr] at hs
  refine ⟨readReg_ok.2 ⟨sl, hs, by simp⟩, fun j hne => readReg_congr rfl fun sl' hs' => ?_⟩
  rw [State.setCpsr_cpsr] at hs'
  have hother : sl' ≠ sl := by
    rintro rfl
    exact hne (hs'.trans hs.symm)
  simp [State.getSlot_setSlot_of_ne _ _ hother]

end Sys2Proof.Machine
end

section
/-! Every instruction with a condition but SWI runs one of fifteen handlers: the form of an instruction, with the
registers it names. A statement about all instructions is proved form by form. -/

namespace Sys2Proof.Machine

/-- What an instruction runs under its condition: a handler with its arguments. -/
inductive Form where
  | dp (op : DpOp) (sbit : Bool) (rn rd : Reg) (o : Operand)
  | multiply (accumulate : Bool) (a : MulArgs)
  | loadSingle (n : Width) (ix : Indexing) (rn rd : Reg) (o : Offset)
  | storeSingle (n : Width) (ix : Indexing) (rn rd : Reg) (o : Offset)
  | loadHalf (n : Width) (x : Extend) (ix : Indexing) (rn rd : Reg) (o : Offset)
  | storeHalf (ix : Indexing) (rn rd : Reg) (o : Offset)
  | loadMultiple (a : BlockArgs)
  | storeMultiple (a : BlockArgs)
  | branch (off : BitVec 24)
  | branchLink (off : BitVec 24)
  | branchExchange (rm : Reg)
  | fromStatus (spsr : Bool) (rd : Reg)
  | toStatusReg (a : MsrRegArgs)
  | toStatusImm (a : MsrImmArgs)
  | nop

/-- The handler of a form. -/
def Form.handler : Form → State → Except Reason Work
  | .dp op sbit rn rd o => dataProcessing op sbit rn rd o
  | .multiply accumulate a => Machine.multiply accumulate a
  | .loadSingle n ix rn rd o => Machine.loadSingle n ix rn rd o
  | .storeSingle n ix rn rd o => Machine.storeSingle n ix rn rd o
  | .loadHalf n x ix rn rd o => Machine.loadHalf n x ix rn rd o
  | .storeHalf ix rn rd o => Machine.storeHalf ix rn rd o
  | .loadMultiple a => Machine.loadMultiple a
  | .storeMultiple a => Machine.storeMultiple a
  | .branch off => Machine.branch off
  | .branchLink off => Machine.branchLink off
  | .branchExchange rm => Machine.branchExchange rm
  | .fromStatus spsr rd => moveFromStatus spsr rd
  | .toStatusReg a => moveToStatusReg a
  | .toStatusImm a => moveToStatusImm a
  | .nop => noOperation

/-- The registers an operand 2 reads. -/
def Operand.regs : Operand → List Reg
  | .imm _ _ => []
  | .shiftedImm rm _ _ => [rm]
  | .shiftedReg rm _ rs => [rm, rs]

/-- The register an offset reads. -/
def Offset.regs : Offset → List Reg
  | .imm _ => []
  | .reg rm | .scaled rm _ _ => [rm]

/-- The registers a form names, in the order its handler reaches them. -/
def Form.regs : Form → List Reg
  | .dp op _ rn rd o => o.regs ++ ((if opReadsRn op then [rn] else []) ++ if opWritesRd op then [rd] else [])
  | .multiply accumulate a => [a.rm] ++ ([a.rs] ++ ((if accumulate then [a.rn] else []) ++ [a.rd]))
  | .loadSingle _ _ rn rd o | .storeSingle _ _ rn rd o | .loadHalf _ _ _ rn rd o | .storeHalf _ rn rd o =>
    ([rn] ++ o.regs) ++ [rd]
  | .loadMultiple a | .storeMultiple a => [a.rn] ++ listedRegs a.list
  | .branchLink _ => [14]
  | .branchExchange rm => [rm]
  | .fromStatus spsr rd => if spsr then [] else [rd]
  | .toStatusReg a => [a.rm]
  | .branch _ | .toStatusImm _ | .nop => []

/-- The forms that may access the RAM before they have reached all of their registers. -/
def Form.accessesFirst : Form → Bool
  | .loadSingle .. | .loadHalf .. | .loadMultiple _ | .storeMultiple _ => true
  | _ => false

/-- A block transfer without a register to transfer (45_block_transfer.md R149). -/
def Form.emptyList : Form → Prop
  | .loadMultiple a | .storeMultiple a => a.list = 0#16
  | _ => False

/-- Instruction `i` runs form `f` under condition `c`. -/
structure Runs (i : Instr) (c : Cond) (f : Form) : Prop where
  cond : i.cond? = some c
  exec : ∀ s, Machine.exec i s = runHandler c f.handler s
  regs : namedRegs i = f.regs
  accessesFirst : Machine.accessesFirst i = f.accessesFirst
  emptyList : f.emptyList → ∃ x, (i = .ldm c x ∨ i = .stm c x) ∧ x.list = 0#16

/-- EVERY INSTRUCTION is the word 0, an SWI, or runs a form. -/
theorem zeroWord_or_swi_or_runs (i : Instr) : i = .zeroWord ∨ (∃ c n, i = .swi c n) ∨ ∃ c f, Runs i c f := by
  cases i with
  | zeroWord => exact .inl rfl
  | swi c n => exact .inr (.inl ⟨c, n, rfl⟩)
  | mul c a => exact .inr (.inr ⟨c, .multiply false a, rfl, fun _ => rfl, rfl, rfl, False.elim⟩)
  | mla c a => exact .inr (.inr ⟨c, .multiply true a, rfl, fun _ => rfl, rfl, rfl, False.elim⟩)
  | ldrImm c | ldrbImm c | ldrReg c | ldrbReg c | ldrScaled c | ldrbScaled c =>
    exact .inr (.inr ⟨c, .loadSingle _ _ _ _ _, rfl, fun _ => rfl, rfl, rfl, False.elim⟩)
  | strImm c | strbImm c | strReg c | strbReg c | strScaled c | strbScaled c =>
    exact .inr (.inr ⟨c, .storeSingle _ _ _ _ _, rfl, fun _ => rfl, rfl, rfl, False.elim⟩)
  | ldrhImm c | ldrsbImm c | ldrshImm c | ldrhReg c | ldrsbReg c | ldrshReg c =>
    exact .inr (.inr ⟨c, .loadHalf _ _ _ _ _ _, rfl, fun _ => rfl, rfl, rfl, False.elim⟩)
  | strhImm c | strhReg c =>
    exact .inr (.inr ⟨c, .storeHalf _ _ _ _, rfl, fun _ => rfl, rfl, rfl, False.elim⟩)
  | ldm c a => exact .inr (.inr ⟨c, .loadMultiple a, rfl, fun _ => rfl, rfl, rfl, fun h => ⟨a, .inl rfl, h⟩⟩)
  | stm c a => exact .inr (.inr ⟨c, .storeMultiple a, rfl, fun _ => rfl, rfl, rfl, fun h => ⟨a, .inr rfl, h⟩⟩)
  | b c off => exact .inr (.inr ⟨c, .branch off, rfl, fun _ => rfl, rfl, rfl, False.elim⟩)
  | bl c off => exact .inr (.inr ⟨c, .branchLink off, rfl, fun _ => rfl, rfl, rfl, False.elim⟩)
  | bx c rm => exact .inr (.inr ⟨c, .branchExchange rm, rfl, fun _ => rfl, rfl, rfl, False.elim⟩)
  | mrs c spsr rd => exact .inr (.inr ⟨c, .fromStatus spsr rd, rfl, fun _ => rfl, rfl, rfl, False.elim⟩)
  | msrReg c a => exact .inr (.inr ⟨c, .toStatusReg a, rfl, fun _ => rfl, rfl, rfl, False.elim⟩)
  | msrImm c a => exact .inr (.inr ⟨c, .toStatusImm a, rfl, fun _ => rfl, rfl, rfl, False.elim⟩)
  | nopCoprocessor c | nopUndefined c | nopCompareImm c | nopMultiplySpace c | nopDoubleWord c | nopCompareReg c =>
    exact .inr (.inr ⟨c, .nop, rfl, fun _ => rfl, rfl, rfl, False.elim⟩)
  | _ c => exact .inr (.inr ⟨c, .dp _ _ _ _ _, rfl, fun _ => rfl, rfl, rfl, False.elim⟩)

end Sys2Proof.Machine
end

section
/-! Where an instruction stops that names r13 or r14 in a mode without them (10_state.md R15): each handler is followed
from register to register. -/

namespace Sys2Proof.Machine

section
variable {s t : State} {mem : Bool} {A B : Type}

/-- The computation reaches all of the registers `rs`, none of them r13 or r14, or it stops: by the reason of the mode
or, where it accesses the RAM (`mem`), by the bounds. -/
def Reaches (s : State) (mem : Bool) (rs : List Reg) (x : Except Reason A) : Prop :=
  ((∃ v, x = .ok v) ∧ ∀ j ∈ rs, ¬ (j = 13 ∨ j = 14)) ∨ x = .error (unbankedReason s) ∨
    (mem = true ∧ x = .error .memBounds)

/-- The computation stops so when one of the registers `rs` is r13 or r14. -/
def StopsAt (s : State) (mem : Bool) (rs : List Reg) (x : Except Reason A) : Prop :=
  ∀ j ∈ rs, j = 13 ∨ j = 14 → x = .error (unbankedReason s) ∨ (mem = true ∧ x = .error .memBounds)

/-! ## Composition -/

theorem Reaches.of_ok {x : Except Reason A} {v : A} (h : x = .ok v) : Reaches s mem [] x :=
  .inl ⟨⟨v, h⟩, nofun⟩

theorem Reaches.bind {x : Except Reason A} {k : A → Except Reason B} {rs qs : List Reg} (hx : Reaches s mem rs x)
    (hk : ∀ v, x = .ok v → Reaches s mem qs (k v)) : Reaches s mem (rs ++ qs) (x >>= k) := by
  rcases hx with ⟨⟨v, rfl⟩, hrs⟩ | rfl | ⟨hm, rfl⟩
  · rcases hk v rfl with ⟨hv, hqs⟩ | hstop
    · exact .inl ⟨hv, fun j hj => (List.mem_append.1 hj).elim (hrs j) (hqs j)⟩
    · exact .inr hstop
  · exact .inr (.inl rfl)
  · exact .inr (.inr ⟨hm, rfl⟩)

theorem Reaches.stopsAt {x : Except Reason A} {rs : List Reg} (hx : Reaches s mem rs x) : StopsAt s mem rs x :=
  fun j hj hbank => hx.resolve_left fun h => h.2 j hj hbank

theorem StopsAt.nil (x : Except Reason A) : StopsAt s mem [] x := nofun

theorem StopsAt.bind {x : Except Reason A} {k : A → Except Reason B} {rs qs : List Reg} (hx : Reaches s mem rs x)
    (hk : ∀ v, x = .ok v → StopsAt s mem qs (k v)) : StopsAt s mem (rs ++ qs) (x >>= k) := by
  rcases hx with ⟨⟨v, rfl⟩, hrs⟩ | rfl | ⟨hm, rfl⟩
  · exact fun j hj hbank => hk v rfl j ((List.mem_append.1 hj).resolve_left fun h => hrs j h hbank) hbank
  · exact fun _ _ _ => .inl rfl
  · exact fun _ _ _ => .inr ⟨hm, rfl⟩

/-- What follows the last of the registers does not matter. -/
theorem StopsAt.bind_of_reaches {x : Except Reason A} {k : A → Except Reason B} {rs : List Reg}
    (hx : Reaches s mem rs x) : StopsAt s mem rs (x >>= k) := by
  rw [← List.append_nil rs]
  exact .bind hx fun v _ => .nil _

/-! ## Accesses to the RAM -/

theorem Reaches.memRead (t : State) (addr : Word) (n : Width) : Reaches s true [] (memRead t addr n) := by
  rcases memRead_cases t addr n with ⟨_, e⟩ | ⟨_, _, e⟩ | ⟨_, _, e⟩
  · exact .inr (.inr ⟨rfl, e⟩)
  · exact .of_ok e
  · exact .of_ok e

theorem Reaches.memWrite (t : State) (addr : Word) (n : Width) (v : Word) :
    Reaches s true [] (memWrite t addr n v) := by
  rcases memWrite_cases t addr n v with ⟨_, e⟩ | ⟨_, _, e⟩ | ⟨_, _, e⟩
  · exact .inr (.inr ⟨rfl, e⟩)
  · exact .of_ok e
  · exact .of_ok e

theorem Reaches.singleLoad (t : State) (addr : Word) (n : Width) : Reaches s true [] (singleLoad t addr n) := by
  by_cases h : addr = t.params.kbdAddr
  · exact .of_ok (singleLoad_kbd h n)
  · rw [singleLoad_ram h]
    exact .memRead t addr n

/-! ## Register reads and writes in the mode -/

section
variable (hb : ¬ banked s)
include hb

theorem Reaches.readReg (i : Reg) (ht : t.cpsr = s.cpsr) : Reaches s mem [i] (readReg t i) := by
  by_cases hi : i = 13 ∨ i = 14
  · exact .inr (.inl (readReg_of_slot_error (by rw [ht]; exact slot_of_not_banked hb hi)))
  · exact .inl ⟨⟨_, readReg_accessible (.inl (not_or.1 hi))⟩, by simpa using hi⟩

theorem Reaches.setReg {w : Work} (i : Reg) (v : Word) (hw : w.st.cpsr = s.cpsr) :
    Reaches s mem [i] (w.setReg i v) := by
  by_cases hi : i = 13 ∨ i = 14
  · have h15 : i ≠ 15 := by rcases hi with rfl | rfl <;> decide
    have herr := writeReg_of_slot_error (s := w.st) (by rw [hw]; exact slot_of_not_banked hb hi) v
    exact .inr (.inl (by rw [Work.setReg, if_neg h15, herr]))
  · obtain ⟨w', hw', -⟩ := setReg_accessible w v (.inl (not_or.1 hi))
    exact .inl ⟨⟨w', hw'⟩, by simpa using hi⟩

/-! ## Operands and addresses -/

theorem Reaches.operand2 (o : Operand) : Reaches s mem o.regs (operand2 o s) := by
  cases o with
  | imm rot imm8 => exact .of_ok rfl
  | shiftedImm rm sh n => exact (Reaches.readReg hb rm rfl).bind fun _ _ => .of_ok rfl
  | shiftedReg rm sh rs =>
    exact (Reaches.readReg hb rm rfl).bind (qs := [rs]) fun _ _ =>
      (Reaches.readReg hb rs rfl).bind fun _ _ => .of_ok rfl

theorem Reaches.dpFirst (op : DpOp) (rn : Reg) :
    Reaches s mem (if opReadsRn op then [rn] else []) (dpFirst op rn s) := by
  unfold Machine.dpFirst
  split
  · exact .readReg hb rn rfl
  · exact .of_ok rfl

theorem Reaches.dpResult (op : DpOp) (rd : Reg) (r : AluResult) :
    Reaches s mem (if opWritesRd op then [rd] else []) (dpResult op rd r s) := by
  unfold Machine.dpResult
  split
  · exact .setReg hb rd _ rfl
  · exact .of_ok rfl

theorem Reaches.mulAccumulator (accumulate : Bool) (rn : Reg) :
    Reaches s mem (if accumulate then [rn] else []) (mulAccumulator accumulate rn s) := by
  unfold Machine.mulAccumulator
  split
  · exact .readReg hb rn rfl
  · exact .of_ok rfl

theorem Reaches.offsetValue (o : Offset) : Reaches s mem o.regs (offsetValue o s) := by
  cases o with
  | imm v => exact .of_ok rfl
  | reg rm => exact .readReg hb rm rfl
  | scaled rm sh n => exact (Reaches.readReg hb rm rfl).bind fun _ _ => .of_ok rfl

theorem Reaches.transferAddress (ix : Indexing) (rn : Reg) (o : Offset) :
    Reaches s mem ([rn] ++ o.regs) (transferAddress ix rn o s) := by
  refine (Reaches.readReg hb rn rfl).bind fun _ _ => ?_
  rw [← List.append_nil o.regs]
  exact (Reaches.offsetValue hb o).bind fun _ _ => .of_ok rfl

/-! ## The loops of the block transfers -/

theorem Reaches.loadRegs (is : List Reg) {addr : Word} {w : Work} (hw : w.st.cpsr = s.cpsr) :
    Reaches s true is (loadRegs is addr w) := by
  induction is generalizing addr w with
  | nil => exact .of_ok rfl
  | cons i is ih =>
    exact (Reaches.memRead w.st addr .word).bind fun v _ => (Reaches.setReg hb i _ hw).bind fun w' hw' =>
      ih ((setReg_keeps hw').1.trans hw)

theorem Reaches.storeRegs (is : List Reg) {addr : Word} (ht : t.cpsr = s.cpsr) :
    Reaches s true is (storeRegs is addr t) := by
  induction is generalizing addr t with
  | nil => exact .of_ok rfl
  | cons i is ih =>
    refine (Reaches.readReg hb i ht).bind fun v _ => (Reaches.memWrite t addr .word v).bind fun u hu => ih ?_
    rw [(memWrite_ok hu).2.1]
    exact ht

/-! ## The handlers -/

theorem StopsAt.dataProcessing (op : DpOp) (sbit : Bool) (rn rd : Reg) (o : Operand) :
    StopsAt s mem (o.regs ++ ((if opReadsRn op then [rn] else []) ++ if opWritesRd op then [rd] else []))
      (dataProcessing op sbit rn rd o s) :=
  .bind (.operand2 hb o) fun _ _ => .bind (.dpFirst hb op rn) fun _ _ => .bind_of_reaches (.dpResult hb op rd _)

theorem StopsAt.multiply (accumulate : Bool) (a : MulArgs) :
    StopsAt s mem ([a.rm] ++ ([a.rs] ++ ((if accumulate then [a.rn] else []) ++ [a.rd])))
      (multiply accumulate a s) :=
  .bind (.readReg hb a.rm rfl) fun _ _ => .bind (.readReg hb a.rs rfl) fun _ _ =>
    .bind (.mulAccumulator hb accumulate a.rn) fun _ _ => .bind_of_reaches (.setReg hb a.rd _ rfl)

/-- The writeback comes between the access and Rd (43_load_store.md R136), and keeps the mode. -/
theorem StopsAt.finishLoad (rn rd : Reg) (ad : Address) (v : Word) :
    StopsAt s mem [rd] (finishLoad rn rd ad v s) := by
  unfold Machine.finishLoad Work.writeback
  split
  · have hboth : StopsAt s mem ([rn] ++ [rd])
        ((Work.start s).setReg rn ad.offaddr >>= fun w => w.setReg rd v) :=
      .bind (.setReg hb rn _ rfl) fun w hw => (Reaches.setReg hb rd v (setReg_keeps hw).1).stopsAt
    exact fun j hj => hboth j (List.mem_append_right _ hj)
  · exact (Reaches.setReg hb rd v rfl).stopsAt

theorem StopsAt.loadSingle (n : Width) (ix : Indexing) (rn rd : Reg) (o : Offset) :
    StopsAt s true (([rn] ++ o.regs) ++ [rd]) (loadSingle n ix rn rd o s) :=
  .bind (.transferAddress hb ix rn o) fun ad _ => .bind (.singleLoad s ad.addr n) fun v _ => .finishLoad hb rn rd ad v

theorem StopsAt.loadHalf (n : Width) (x : Extend) (ix : Indexing) (rn rd : Reg) (o : Offset) :
    StopsAt s true (([rn] ++ o.regs) ++ [rd]) (loadHalf n x ix rn rd o s) :=
  .bind (.transferAddress hb ix rn o) fun ad _ => .bind (.memRead s ad.addr n) fun _ _ => .finishLoad hb rn rd ad _

/-- A store reads all of its registers before the access. -/
theorem StopsAt.storeSingle (n : Width) (ix : Indexing) (rn rd : Reg) (o : Offset) :
    StopsAt s mem (([rn] ++ o.regs) ++ [rd]) (storeSingle n ix rn rd o s) :=
  .bind (.transferAddress hb ix rn o) fun _ _ => .bind_of_reaches (.readReg hb rd rfl)

theorem StopsAt.storeHalf (ix : Indexing) (rn rd : Reg) (o : Offset) :
    StopsAt s mem (([rn] ++ o.regs) ++ [rd]) (storeHalf ix rn rd o s) :=
  .bind (.transferAddress hb ix rn o) fun _ _ => .bind_of_reaches (.readReg hb rd rfl)

theorem StopsAt.loadMultiple {a : BlockArgs} (hne : a.list ≠ 0#16) :
    StopsAt s true ([a.rn] ++ listedRegs a.list) (loadMultiple a s) := by
  unfold Machine.loadMultiple
  rw [if_neg hne]
  exact .bind (.readReg hb a.rn rfl) fun _ _ => .bind_of_reaches (.loadRegs hb _ rfl)

theorem StopsAt.storeMultiple {a : BlockArgs} (hne : a.list ≠ 0#16) :
    StopsAt s true ([a.rn] ++ listedRegs a.list) (storeMultiple a s) := by
  unfold Machine.storeMultiple
  rw [if_neg hne]
  exact .bind (.readReg hb a.rn rfl) fun _ _ => .bind_of_reaches (.storeRegs hb _ rfl)

/-- MRS of an SPSR names no register here: it has a rule of its own (47_status_register.md R156). -/
theorem StopsAt.moveFromStatus (spsr : Bool) (rd : Reg) :
    StopsAt s mem (if spsr then [] else [rd]) (moveFromStatus spsr rd s) := by
  cases spsr with
  | true => exact .nil _
  | false => exact (Reaches.setReg hb rd s.cpsr rfl).stopsAt

/-- EVERY FORM stops at a register the mode lacks; an empty list comes first (45_block_transfer.md R149). -/
theorem Form.stopsAt (f : Form) (hne : ¬ f.emptyList) : StopsAt s f.accessesFirst f.regs (f.handler s) := by
  cases f with
  | dp op sbit rn rd o => exact .dataProcessing hb op sbit rn rd o
  | multiply accumulate a => exact .multiply hb accumulate a
  | loadSingle n ix rn rd o => exact .loadSingle hb n ix rn rd o
  | storeSingle n ix rn rd o => exact .storeSingle hb n ix rn rd o
  | loadHalf n x ix rn rd o => exact .loadHalf hb n x ix rn rd o
  | storeHalf ix rn rd o => exact .storeHalf hb ix rn rd o
  | loadMultiple a => exact .loadMultiple hb hne
  | storeMultiple a => exact .storeMultiple hb hne
  | branchLink off => exact .bind_of_reaches (.setReg hb 14 _ rfl)
  | branchExchange rm => exact .bind_of_reaches (.readReg hb rm rfl)
  | fromStatus spsr rd => exact .moveFromStatus hb spsr rd
  | toStatusReg a => exact .bind_of_reaches (.readReg hb a.rm rfl)
  | branch off | toStatusImm a | nop => exact .nil _

end

/-- An empty list stops before the base register (45_block_transfer.md R149; log entry 15). -/
theorem Form.handler_of_emptyList {f : Form} (h : f.emptyList) : f.handler s = .error .emptyRegList := by
  cases f with
  | loadMultiple a => exact if_pos h
  | storeMultiple a => exact if_pos h
  | _ => exact h.elim

end

theorem unbankedReason_at (s : State) (f : Word) :
    (unbankedReason s).at f = if psrModeOf s.cpsr = none then .invalidMode f else .unbankedMode f :=
  apply_ite (Reason.at · f) ..

/-- Settles O37, form by form: the first unbanked register a handler reaches stops it, unless an empty list or an
access outside the RAM came before (R15, R149). -/
theorem unbankedRegisterFaults : Obligations.UnbankedRegisterFaults := by
  unfold Obligations.UnbankedRegisterFaults
  intro i c s j hcond hc hj hbank hb
  rcases zeroWord_or_swi_or_runs i with rfl | ⟨_, _, rfl⟩ | ⟨c', f, hf⟩
  · cases hcond
  · cases hj
  · obtain rfl : c' = c := Option.some.inj (hf.cond.symm.trans hcond)
    rw [hf.regs] at hj
    rw [hf.exec, hf.accessesFirst, ← unbankedReason_at]
    by_cases he : f.emptyList
    · obtain ⟨x, hx, hlist⟩ := hf.emptyList he
      exact .inr (.inr ⟨x, hx, hlist, runHandler_of_error hc (f.handler_of_emptyList he)⟩)
    · rcases f.stopsAt hb he j hj hbank with h | ⟨hfirst, h⟩
      · exact .inl (runHandler_of_error hc h)
      · exact .inr (.inl ⟨hfirst, runHandler_of_error hc h⟩)

end Sys2Proof.Machine
end

section
/-! What a step keeps whatever it does (10_state.md R32 to R36, 60_exceptions.md R167): the fields of the host and the
loader, the IRQ latch but for an entry, and the output but for one byte. -/

namespace Sys2Proof.Machine

/-! ## The output of the handlers -/

theorem output_memWrite {s t : State} {addr : Word} {n : Width} {v : Word} (h : memWrite s addr n v = .ok t) :
    t.output = s.output := by rw [(memWrite_ok h).2.1]

theorem output_setReg {w w' : Work} {i : Reg} {v : Word} (h : w.setReg i v = .ok w') :
    w'.st.output = w.st.output := by
  obtain ⟨-, -, -, -, ho⟩ := setReg_keeps h
  exact ho

theorem output_writeback {w w' : Work} {rn : Reg} {ad : Address} (h : w.writeback rn ad = .ok w') :
    w'.st.output = w.st.output := by
  unfold Work.writeback at h
  split at h
  · exact output_setReg h
  · cases h; rfl

theorem output_msrWrite {s t : State} {spsr : Bool} {fm : BitVec 4} {v : Word} (h : msrWrite s spsr fm v = .ok t) :
    t.output = s.output := by
  rcases msrWrite_ok.1 h with ⟨-, _, -, rfl⟩ | ⟨-, -, rfl⟩
  · exact State.setCurrentSpsr_output _ _
  · rfl

theorem output_dpFinish {op : DpOp} {sbit : Bool} {rd : Reg} {r : AluResult} {w w' : Work}
    (h : dpFinish op sbit rd r w = .ok w') : w'.st.output = w.st.output := by
  unfold dpFinish dpStatus at h
  split at h
  · split at h
    · split at h
      · obtain ⟨-, rfl⟩ := restoreCpsr_ok.1 h; rfl
      · cases h; rfl
    · cases h; rfl
  · cases h; rfl

theorem output_dataProcessing {op : DpOp} {sbit : Bool} {rn rd : Reg} {o : Operand} {s : State} {w : Work}
    (h : dataProcessing op sbit rn rd o s = .ok w) : w.st.output = s.output := by
  obtain ⟨b, -, h⟩ := bind_eq_ok.1 h
  obtain ⟨a, -, h⟩ := bind_eq_ok.1 h
  obtain ⟨w₁, hw, h⟩ := bind_eq_ok.1 h
  refine (output_dpFinish h).trans ?_
  unfold dpResult at hw
  split at hw
  · exact output_setReg hw
  · cases hw; rfl

theorem output_multiply {accumulate : Bool} {a : MulArgs} {s : State} {w : Work}
    (h : multiply accumulate a s = .ok w) : w.st.output = s.output := by
  obtain ⟨x, -, h⟩ := bind_eq_ok.1 h
  obtain ⟨y, -, h⟩ := bind_eq_ok.1 h
  obtain ⟨z, -, h⟩ := bind_eq_ok.1 h
  obtain ⟨w₁, hw, h⟩ := bind_eq_ok.1 h
  rw [pure_eq_ok] at h
  subst h
  split <;> exact output_setReg hw

theorem output_finishLoad {rn rd : Reg} {ad : Address} {v : Word} {s : State} {w : Work}
    (h : finishLoad rn rd ad v s = .ok w) : w.st.output = s.output := by
  obtain ⟨w₁, hw, h⟩ := bind_eq_ok.1 h
  exact (output_setReg h).trans (output_writeback hw)

theorem output_loadSingle {n : Width} {ix : Indexing} {rn rd : Reg} {o : Offset} {s : State} {w : Work}
    (h : loadSingle n ix rn rd o s = .ok w) : w.st.output = s.output := by
  obtain ⟨ad, -, h⟩ := bind_eq_ok.1 h
  obtain ⟨v, -, h⟩ := bind_eq_ok.1 h
  exact output_finishLoad h

theorem output_loadHalf {n : Width} {x : Extend} {ix : Indexing} {rn rd : Reg} {o : Offset} {s : State} {w : Work}
    (h : loadHalf n x ix rn rd o s = .ok w) : w.st.output = s.output := by
  obtain ⟨ad, -, h⟩ := bind_eq_ok.1 h
  obtain ⟨v, -, h⟩ := bind_eq_ok.1 h
  exact output_finishLoad h

theorem output_storeHalf {ix : Indexing} {rn rd : Reg} {o : Offset} {s : State} {w : Work}
    (h : storeHalf ix rn rd o s = .ok w) : w.st.output = s.output := by
  obtain ⟨ad, -, h⟩ := bind_eq_ok.1 h
  obtain ⟨v, -, h⟩ := bind_eq_ok.1 h
  obtain ⟨t, ht, h⟩ := bind_eq_ok.1 h
  exact (output_writeback h).trans (output_memWrite ht)

theorem output_loadRegs (is : List Reg) {addr : Word} {w w' : Work} (h : loadRegs is addr w = .ok w') :
    w'.st.output = w.st.output := by
  induction is generalizing addr w with
  | nil => cases h; rfl
  | cons i is ih =>
    obtain ⟨v, -, h⟩ := bind_eq_ok.1 h
    obtain ⟨w₁, hw, h⟩ := bind_eq_ok.1 h
    exact (ih h).trans (output_setReg hw)

theorem output_storeRegs (is : List Reg) {addr : Word} {s t : State} (h : storeRegs is addr s = .ok t) :
    t.output = s.output := by
  induction is generalizing addr s with
  | nil => cases h; rfl
  | cons i is ih =>
    obtain ⟨v, -, h⟩ := bind_eq_ok.1 h
    obtain ⟨u, hu, h⟩ := bind_eq_ok.1 h
    exact (ih h).trans (output_memWrite hu)

theorem output_blockWriteback {a : BlockArgs} {v : Word} {w w' : Work} (h : blockWriteback a v w = .ok w') :
    w'.st.output = w.st.output := by
  unfold blockWriteback at h
  split at h
  · exact output_setReg h
  · cases h; rfl

theorem output_loadMultiple {a : BlockArgs} {s : State} {w : Work} (h : loadMultiple a s = .ok w) :
    w.st.output = s.output := by
  unfold loadMultiple at h
  split at h
  · cases h
  · obtain ⟨base, -, h⟩ := bind_eq_ok.1 h
    obtain ⟨w₁, hw, h⟩ := bind_eq_ok.1 h
    exact (output_blockWriteback h).trans (output_loadRegs _ hw)

theorem output_storeMultiple {a : BlockArgs} {s : State} {w : Work} (h : storeMultiple a s = .ok w) :
    w.st.output = s.output := by
  unfold storeMultiple at h
  split at h
  · cases h
  · obtain ⟨base, -, h⟩ := bind_eq_ok.1 h
    obtain ⟨t, ht, h⟩ := bind_eq_ok.1 h
    exact (output_blockWriteback h).trans (output_storeRegs _ ht)

theorem output_branchLink {off : BitVec 24} {s : State} {w : Work} (h : branchLink off s = .ok w) :
    w.st.output = s.output := by
  obtain ⟨w₁, hw, h⟩ := bind_eq_ok.1 h
  rw [pure_eq_ok] at h
  subst h
  exact output_setReg hw

theorem output_branchExchange {rm : Reg} {s : State} {w : Work} (h : branchExchange rm s = .ok w) :
    w.st.output = s.output := by
  obtain ⟨v, -, h⟩ := bind_eq_ok.1 h
  rw [pure_eq_ok] at h
  subst h
  rfl

theorem output_moveFromStatus {spsr : Bool} {rd : Reg} {s : State} {w : Work}
    (h : moveFromStatus spsr rd s = .ok w) : w.st.output = s.output := by
  obtain ⟨v, -, h⟩ := bind_eq_ok.1 h
  exact output_setReg h

theorem output_moveToStatusReg {a : MsrRegArgs} {s : State} {w : Work} (h : moveToStatusReg a s = .ok w) :
    w.st.output = s.output := by
  obtain ⟨v, -, h⟩ := bind_eq_ok.1 h
  obtain ⟨t, ht, h⟩ := bind_eq_ok.1 h
  rw [pure_eq_ok] at h
  subst h
  exact output_msrWrite ht

theorem output_moveToStatusImm {a : MsrImmArgs} {s : State} {w : Work} (h : moveToStatusImm a s = .ok w) :
    w.st.output = s.output := by
  obtain ⟨t, ht, h⟩ := bind_eq_ok.1 h
  rw [pure_eq_ok] at h
  subst h
  exact output_msrWrite ht

/-! ## One byte at most -/

/-- The output of `s` is kept, or one byte follows it. -/
def OneByteOut (s t : State) : Prop := t.output = s.output ∨ ∃ b, t.output = s.output ++ [b]

theorem OneByteOut.congr {s u t : State} (h : OneByteOut s u) (ht : t.output = u.output) : OneByteOut s t := by
  rwa [OneByteOut, ht]

/-- The one store that can reach the display (20_memory.md R52). -/
theorem OneByteOut.storeSingle {n : Width} {ix : Indexing} {rn rd : Reg} {o : Offset} {s : State} {w : Work}
    (h : storeSingle n ix rn rd o s = .ok w) : OneByteOut s w.st := by
  obtain ⟨ad, -, h⟩ := bind_eq_ok.1 h
  obtain ⟨v, -, h⟩ := bind_eq_ok.1 h
  obtain ⟨t, ht, h⟩ := bind_eq_ok.1 h
  refine .congr ?_ (output_writeback h)
  rcases singleStore_ok.1 ht with ⟨-, rfl⟩ | ⟨-, ht⟩
  · exact .inr ⟨_, rfl⟩
  · exact .inl (output_memWrite ht)

/-- EVERY FORM outputs at most one byte. -/
theorem Form.oneByteOut {f : Form} {s : State} {w : Work} (h : f.handler s = .ok w) : OneByteOut s w.st := by
  cases f with
  | storeSingle n ix rn rd o => exact .storeSingle h
  | dp op sbit rn rd o => exact .inl (output_dataProcessing h)
  | multiply accumulate a => exact .inl (output_multiply h)
  | loadSingle n ix rn rd o => exact .inl (output_loadSingle h)
  | loadHalf n x ix rn rd o => exact .inl (output_loadHalf h)
  | storeHalf ix rn rd o => exact .inl (output_storeHalf h)
  | loadMultiple a => exact .inl (output_loadMultiple h)
  | storeMultiple a => exact .inl (output_storeMultiple h)
  | branchLink off => exact .inl (output_branchLink h)
  | branchExchange rm => exact .inl (output_branchExchange h)
  | fromStatus spsr rd => exact .inl (output_moveFromStatus h)
  | toStatusReg a => exact .inl (output_moveToStatusReg h)
  | toStatusImm a => exact .inl (output_moveToStatusImm h)
  | branch off | nop => cases h; exact .inl rfl

/-! ## The line-input service and SWI -/

theorem pendingIrq_serviceReadline {e t : State} {f : Word} (h : serviceReadline e f = .next t) :
    t.pendingIrq = e.pendingIrq := by
  rcases serviceReadline_next h with ⟨-, rfl⟩ | ⟨_, _, _, _, -, hw⟩
  · rfl
  · exact (writeLine_ok hw).1.pendingIrq

theorem output_serviceReadline {e t : State} {f : Word} (h : serviceReadline e f = .next t) :
    t.output = e.output := by
  rcases serviceReadline_next h with ⟨-, rfl⟩ | ⟨_, _, _, _, -, hw⟩
  · rfl
  · rw [(writeLine_ok hw).2]

/-- What a step keeps up to its IRQ test. -/
structure KeptByStep (s u : State) : Prop where
  fixed : Fixed s u
  pendingIrq : u.pendingIrq = s.pendingIrq
  output : OneByteOut s u

theorem KeptByStep.halt (s : State) (r : HaltReason) : KeptByStep s (s.halt r) :=
  ⟨⟨rfl, rfl, rfl, rfl, rfl, rfl, rfl⟩, rfl, .inl rfl⟩

theorem KeptByStep.resumeReadline {s u : State} (h : resumeReadline s = .next u) : KeptByStep s u :=
  ⟨.serviceReadline h, pendingIrq_serviceReadline h, .inl (output_serviceReadline h)⟩

@[simp] theorem swiEntry_pendingIrq (s : State) : (swiEntry s).pendingIrq = s.pendingIrq := by simp [swiEntry]

theorem KeptByStep.execSwi {c : Cond} {n : BitVec 24} {s u : State} (h : execSwi c n s = .next u) :
    KeptByStep s u := by
  have hfixed := Fixed.execSwi h
  rcases execSwi_next h with rfl | ⟨-, rfl⟩ | ⟨-, rfl⟩ | ⟨-, hr⟩
  · exact ⟨hfixed, by simp, .inl (by simp)⟩
  · exact ⟨hfixed, by simp [exitHalt], .inl (by simp [exitHalt])⟩
  · exact ⟨hfixed, by simp [servicePutc], .inr ⟨_, by rw [servicePutc, State.emit_output, swiEntry_output]⟩⟩
  · exact ⟨hfixed, (pendingIrq_serviceReadline hr).trans (swiEntry_pendingIrq s),
      .inl ((output_serviceReadline hr).trans (swiEntry_output s))⟩

/-- EVERY INSTRUCTION outputs at most one byte. -/
theorem OneByteOut.exec {i : Instr} {s u : State} (h : exec i s = .next u) : OneByteOut s u := by
  rcases zeroWord_or_swi_or_runs i with rfl | ⟨c, n, rfl⟩ | ⟨c, f, hf⟩
  · cases h; exact .inl rfl
  · exact (KeptByStep.execSwi h).output
  · rw [hf.exec] at h
    rcases runHandler_next.1 h with ⟨-, rfl⟩ | ⟨-, w, hw, rfl⟩
    · exact .inl (State.advance_output ..)
    · exact (Form.oneByteOut hw).congr (State.advance_output ..)

theorem KeptByStep.exec {i : Instr} {s u : State} (h : exec i s = .next u) : KeptByStep s u := by
  rcases exec_next h with ⟨-, rfl⟩ | ⟨c, n, -, hswi⟩ | ⟨v, n, e, rfl⟩
  · exact .halt s _
  · exact .execSwi hswi
  · exact ⟨e.fixed.trans (.advance v n _), by simpa using e.pendingIrq, .exec h⟩

/-! ## The IRQ test and the step -/

/-- The test keeps the latch, or enters IRQ mode at 0x18 and clears it (60_exceptions.md R167, R169). -/
theorem State.takeIrq_pendingIrq (s : State) :
    s.takeIrq.pendingIrq = s.pendingIrq ∨
      (s.pendingIrq = true ∧ s.takeIrq.pendingIrq = false ∧ psrModeOf s.takeIrq.cpsr = some .irq ∧
        s.takeIrq.r15 = 0x20#32) := by
  rcases s.takeIrq_cases with ⟨hp, -, e⟩ | ⟨-, e⟩ <;> rw [e]
  · exact .inr ⟨hp, rfl, psrModeOf_entryStatus _ _, rfl⟩
  · exact .inl rfl

theorem State.takeIrq_output (s : State) : s.takeIrq.output = s.output := by
  rcases s.takeIrq_cases with ⟨-, -, e⟩ | ⟨-, e⟩ <;> rw [e]
  rfl

/-- A step is what keeps these fields, and then the IRQ test or nothing. -/
theorem step_kept {s t : State} (h : step s = .next t) : ∃ u, KeptByStep s u ∧ (t = u ∨ t = u.takeIrq) := by
  rcases step_next h with ⟨-, u, hu, hend⟩ | ⟨-, -, rfl⟩ | ⟨-, -, raw, u, -, hu, hend⟩
  · exact ⟨u, .resumeReadline hu, hend.imp And.right And.right⟩
  · exact ⟨_, .halt s _, .inl rfl⟩
  · exact ⟨u, .exec hu, hend.imp And.right And.right⟩

/-- Settles O53: the instruction, the service and the halt keep these fields and the latch, and the IRQ test clears
the latch by an entry alone (R32 to R34, R47, R167). -/
theorem stepKeepsFixed : Obligations.StepKeepsFixed := by
  unfold Obligations.StepKeepsFixed
  intro s t h
  obtain ⟨u, ⟨hfixed, hpend, hout⟩, hend⟩ := step_kept h
  have hst : Fixed s t := by
    rcases hend with rfl | rfl
    · exact hfixed
    · exact hfixed.trans (.takeIrq u)
  refine ⟨hst.params, hst.endian, hst.lastChar, hst.breakpoints, hst.loaded, hst.keepRunning, hst.traceEnabled, ?_⟩
  rw [← hpend]
  rcases hend with rfl | rfl
  · exact ⟨.inl rfl, hout⟩
  · exact ⟨u.takeIrq_pendingIrq, hout.congr u.takeIrq_output⟩

end Sys2Proof.Machine
end

section
/-! Every step keeps the machine's invariant (20_memory.md R41, 10_state.md R25, R28): it is carried through each part
of a step — the instruction, the halt, the advance, the exception entry and the line-input service. -/

namespace Sys2Proof.Machine

/-- What a handler may do at most keeps the invariant. -/
theorem State.Inv.effect {s t : State} (h : s.Inv) (e : Effect s t) : t.Inv := by
  obtain ⟨hcpsr, hsvc, hirq⟩ := e.reserved h.cpsrReserved h.spsrSvcReserved h.spsrIrqReserved
  exact {
    params := e.params ▸ h.params
    memory := e.memory h.memory
    ram := e.params ▸ e.ram h.ram
    mode := fun hl => e.mode (h.mode (e.loaded ▸ hl))
    cpsrReserved := hcpsr
    spsrSvcReserved := hsvc
    spsrIrqReserved := hirq
    breakpoints := e.breakpoints ▸ h.breakpoints
    oneMark := by rw [e.halted, e.waitingLine]; exact h.oneMark }

theorem State.Inv.halt {s : State} (h : s.Inv) (r : HaltReason) : (s.halt r).Inv :=
  { h with oneMark := .inr rfl }

theorem State.Inv.decPc {s : State} (h : s.Inv) : s.decPc.Inv := { h with }

theorem State.Inv.advance {s : State} (h : s.Inv) (n : Option Word) (tr : Bool) : (s.advance n tr).Inv := by
  rw [State.advance_eq]
  exact { h with oneMark := .inl rfl }

/-- An entry saves a CPSR whose reserved bits are 0 and enters a valid mode. -/
theorem State.Inv.takeException {s : State} (h : s.Inv) (k : Exception) (ret : Word) : (takeException k ret s).Inv := by
  have hmode : (psrModeOf (entryStatus s.cpsr k.mode)).isSome = true := by rw [psrModeOf_entryStatus]; rfl
  have hreserved : psrReserved (entryStatus s.cpsr k.mode) = 0#20 :=
    (psrReserved_entryStatus _ _).trans h.cpsrReserved
  cases k with
  | swi => exact { h with mode := fun _ => hmode, cpsrReserved := hreserved, spsrSvcReserved := h.cpsrReserved }
  | irq => exact { h with mode := fun _ => hmode, cpsrReserved := hreserved, spsrIrqReserved := h.cpsrReserved }

theorem State.Inv.takeIrq {s : State} (h : s.Inv) : s.takeIrq.Inv := by
  rcases s.takeIrq_cases with ⟨-, -, e⟩ | ⟨-, e⟩ <;> rw [e]
  · exact h.takeException .irq _
  · exact h

theorem State.Inv.swiEntry {s : State} (h : s.Inv) : (swiEntry s).Inv :=
  (h.advance none _).takeException .swi _

/-- The service may begin to wait, so it asks for a core that is not halted. -/
theorem State.Inv.serviceReadline {e t : State} {f : Word} (h : e.Inv) (hrun : e.halted = none)
    (ht : serviceReadline e f = .next t) : t.Inv := by
  rcases serviceReadline_next ht with ⟨-, rfl⟩ | ⟨line, rest, addr, bs, -, hw⟩
  · exact { h with oneMark := .inl hrun }
  · have hline : State.Inv { e with inputLines := rest, waitingLine := false } := { h with oneMark := .inr rfl }
    exact hline.effect (writeLine_ok hw).1

theorem State.Inv.execSwi {c : Cond} {n : BitVec 24} {s t : State} (h : s.Inv) (ht : execSwi c n s = .next t) :
    t.Inv := by
  rcases execSwi_next ht with rfl | ⟨-, rfl⟩ | ⟨-, rfl⟩ | ⟨-, hr⟩
  · exact h.advance none _
  · exact (h.advance none _).decPc.halt .exit
  · exact h.swiEntry.effect (.emit _ _)
  · exact h.swiEntry.serviceReadline (swiEntry_halted s) hr

/-- EVERY INSTRUCTION keeps the invariant. -/
theorem State.Inv.exec {i : Instr} {s t : State} (h : s.Inv) (ht : exec i s = .next t) : t.Inv := by
  rcases exec_next ht with ⟨-, rfl⟩ | ⟨c, n, -, hswi⟩ | ⟨u, n, e, rfl⟩
  · exact h.halt .zeroWord
  · exact h.execSwi hswi
  · exact (h.effect e).advance n _

/-- A core that waits for a line is not halted (00_scope.md R10, R11). -/
theorem State.Inv.halted_of_waiting {s : State} (h : s.Inv) (hw : s.waitingLine = true) : s.halted = none :=
  h.oneMark.resolve_right (by rw [hw]; decide)

theorem State.Inv.ended {u t : State} (h : u.Inv) (he : Ended u t) : t.Inv := by
  rcases he with ⟨-, rfl⟩ | ⟨-, rfl⟩
  · exact h
  · exact h.takeIrq

/-- Settles O51: the service going on, the breakpoint halt and the instruction keep the invariant, and so does the IRQ
test after them (R41, R25, R28, R11). -/
theorem stepKeepsInv : Obligations.StepKeepsInv := by
  unfold Obligations.StepKeepsInv
  intro s t h ht
  rcases step_next ht with ⟨hw, u, hu, hend⟩ | ⟨-, -, rfl⟩ | ⟨-, -, raw, u, -, hu, hend⟩
  · exact (h.serviceReadline (h.halted_of_waiting hw) hu).ended hend
  · exact h.halt .breakpoint
  · exact (h.exec hu).ended hend

end Sys2Proof.Machine
end

section
/-! The RAM's accesses by address (20_memory.md R43 to R48): where they fault or do nothing, what a read assembles, and
what it gives after a write. -/

namespace Sys2Proof.Machine

section
variable {s t : State} {addr v : Word} {n : Width}

/-! ## Bounds, then alignment (20_memory.md R43, R44, R45) -/

theorem memRead_outside (h : ¬ s.inRam addr n) : memRead s addr n = .error .memBounds := by
  rw [memRead, if_pos h]

theorem memWrite_outside (h : ¬ s.inRam addr n) : memWrite s addr n v = .error .memBounds := by
  rw [memWrite, if_pos h]

theorem memRead_misaligned (hb : s.inRam addr n) (ha : ¬ aligned addr n) : memRead s addr n = .ok 0#32 := by
  rw [memRead, if_neg (not_not.2 hb), if_pos ha]

theorem memWrite_misaligned (hb : s.inRam addr n) (ha : ¬ aligned addr n) : memWrite s addr n v = .ok s := by
  rw [memWrite, if_neg (not_not.2 hb), if_pos ha]

theorem memRead_aligned (hb : s.inRam addr n) (ha : aligned addr n) :
    memRead s addr n = .ok (assemble s.endian n fun k => s.byteAt (addr.toNat + k)) := by
  rw [memRead, if_neg (not_not.2 hb), if_neg (not_not.2 ha)]

/-! ## Reading what was written (20_memory.md R46) -/

/-- A width keeps the value modulo 2^(8n). -/
theorem lowPart_eq_mod (n : Width) (v : Word) : lowPart n v = BitVec.ofNat 32 (v.toNat % 2 ^ (8 * n.bytes)) := by
  apply BitVec.eq_of_toNat_eq
  have hmask : (2 ^ (8 * n.bytes) - 1) % 2 ^ 32 = 2 ^ (8 * n.bytes) - 1 := by cases n <;> rfl
  have hlt : v.toNat % 2 ^ (8 * n.bytes) < 2 ^ 32 := (Nat.mod_le _ _).trans_lt v.isLt
  rw [lowPart, BitVec.toNat_and, BitVec.toNat_ofNat, hmask, Nat.and_two_pow_sub_one_eq_mod, BitVec.toNat_ofNat,
    Nat.mod_eq_of_lt hlt]

/-- A write leaves every byte outside its own alone. -/
theorem sameBytesOutside_memWrite (h : memWrite s addr n v = .ok t) :
    sameBytesOutside s t addr.toNat n.bytes := fun a ha => by
  obtain ⟨-, -, -, -, hbyte⟩ := memWrite_ok h
  exact (hbyte a).trans (if_neg (by omega))

/-- The two orders store the same bytes, the one from the low end and the other from the high end. -/
theorem splitBytes_big (n : Width) (v : Word) : splitBytes .big n v = (splitBytes .little n v).reverse := by
  cases n <;> rfl

/-- An aligned read of a part of what an aligned write stored assembles the written value's own bytes. -/
theorem memRead_within_memWrite {part : Word} {m : Width} (ha : aligned addr n) (hm : aligned part m)
    (hlo : addr.toNat ≤ part.toNat) (hhi : part.toNat + m.bytes ≤ addr.toNat + n.bytes)
    (h : memWrite s addr n v = .ok t) :
    memRead t part m = .ok (assemble s.endian m fun k => splitByte s.endian n v (part.toNat - addr.toNat + k)) := by
  obtain ⟨hb, ht, -, -, hbyte⟩ := memWrite_ok h
  have hin : t.inRam part m := by rw [State.inRam, ht]; exact hhi.trans hb
  have hstored : ∀ k < m.bytes,
      t.byteAt (part.toNat + k) = splitByte s.endian n v (part.toNat - addr.toNat + k) := fun k hk => by
    rw [hbyte, if_pos ⟨ha, by omega, by omega⟩, Nat.sub_add_comm hlo]
  rw [memRead_aligned hin hm, show t.endian = s.endian by rw [ht], assemble_congr _ hstored]

end

/-- Settles O55: the read gives back the low part of the value, and the write keeps the rest (R46). -/
theorem readAfterWrite : Obligations.ReadAfterWrite := by
  unfold Obligations.ReadAfterWrite
  refine ⟨fun s t addr v n ha h => ?_, splitBytes_big⟩
  obtain ⟨-, ht, hwf, -, -⟩ := memWrite_ok h
  exact ⟨(memRead_memWrite_same ha h).trans (congrArg Except.ok (lowPart_eq_mod n v)), sameBytesOutside_memWrite h, ht,
    hwf⟩

/-- Settles O56: both reads lie within the written word, and its bytes stand in the RAM's order (R48). -/
theorem mixedWidth : Obligations.MixedWidth := by
  unfold Obligations.MixedWidth
  intro s t addr ha h
  have hhalf : (addr + 2#32).toNat = addr.toNat + 2 := by
    have := addr.isLt
    bv_omega
  constructor
  · have hr := memRead_within_memWrite (part := addr) (m := .byte) ha (Nat.mod_one _) le_rfl
      (by simp only [Width.bytes]; omega) h
    rw [Nat.sub_self] at hr
    refine hr.trans ?_
    cases s.endian <;> rfl
  · have hr := memRead_within_memWrite (part := addr + 2#32) (m := .half) ha
      (by simp only [aligned, hhalf, Width.bytes]; omega) (by omega) (by simp only [hhalf, Width.bytes]; omega) h
    rw [hhalf, Nat.add_sub_cancel_left] at hr
    refine hr.trans ?_
    cases s.endian <;> rfl

/-- Settles O54: clause by clause what an access answers outside the RAM, misaligned, and aligned at each width
(R43, R44, R45). -/
theorem accessRules : Obligations.AccessRules := by
  unfold Obligations.AccessRules
  intro s addr v
  refine ⟨fun n h => ?_, fun n hb ha => ⟨memRead_misaligned hb ha, memWrite_misaligned hb ha⟩, fun hb => ?_,
    fun hb ha => ?_, fun hb ha => ?_⟩
  · have hout : ¬ s.inRam addr n := not_le.2 h
    exact ⟨memRead_outside hout, memWrite_outside hout⟩
  · exact memRead_aligned (n := .byte) hb (Nat.mod_one _)
  · refine (memRead_aligned (n := .half) hb ha).trans ?_
    cases s.endian <;> rfl
  · refine (memRead_aligned (n := .word) hb ha).trans ?_
    cases s.endian <;> rfl

end Sys2Proof.Machine
end

section
/-! The checksum of the RAM (20_memory.md R53): as a sum, under a byte write, and the source's vector. -/

namespace Sys2Proof.Machine

theorem checksumBelow_eq_sum (m : List Host.Cell) (n : Nat) :
    checksumBelow m n = ∑ a ∈ Finset.range n, checksumTerm (readCell m a) a := by
  induction n with
  | zero => rfl
  | succ n ih => rw [Finset.sum_range_succ, ← ih]; rfl

/-- A byte's term, modulo 2^32, at an address that is a word. -/
theorem ofNat_checksumTerm (b : Byte) (addr : Word) :
    BitVec.ofNat 32 (checksumTerm b addr.toNat) = b.setWidth 32 ^^^ addr := by
  rw [checksumTerm, BitVec.ofNat_toNat, BitVec.ofNat_toNat, BitVec.setWidth_eq, BitVec.setWidth_eq]

/-- The stored byte of a word, as the word under its mask. -/
theorem setWidth_lowByte (v : Word) : ((v.extractLsb' 0 8).setWidth 32 : Word) = v &&& 0xFF#32 :=
  assemble_splitByte .little .byte v

/-- A byte write moves the checksum by the difference of that byte's terms. -/
theorem checksum_writeByte {s t : State} {addr v : Word} (h : writeByte s addr v = .ok t) :
    checksum t = checksum s - ((s.byteAt addr.toNat).setWidth 32 ^^^ addr) + ((v &&& 0xFF#32) ^^^ addr) := by
  have hb : s.inRam addr .byte := (memWrite_ok h).1
  have hlt : addr.toNat < s.params.memSize := hb
  rw [writeByte, memWrite_byte hb] at h
  cases h
  have hsum := congrArg (BitVec.ofNat 32)
    (checksumBelow_writeCell s.mem addr.toNat s.params.memSize (v.extractLsb' 0 8))
  rw [if_pos hlt, if_pos hlt, BitVec.ofNat_add, BitVec.ofNat_add, ofNat_checksumTerm, ofNat_checksumTerm,
    setWidth_lowByte] at hsum
  rw [sub_add_eq_add_sub, eq_sub_iff_add_eq]
  exact hsum

/-- Bytes written to successive addresses put their terms in the place of those that stood there. -/
theorem checksumBelow_writeCells {bs : List Byte} {m : List Host.Cell} {a n : Nat} (h : a + bs.length ≤ n) :
    checksumBelow (writeCells m a bs) n + ∑ k ∈ Finset.range bs.length, checksumTerm (readCell m (a + k)) (a + k) =
      checksumBelow m n + ∑ k ∈ Finset.range bs.length, checksumTerm (bs.getD k unwritten) (a + k) := by
  induction bs generalizing m a with
  | nil => rfl
  | cons v bs ih =>
    rw [List.length_cons] at h
    have hfirst := checksumBelow_writeCell m a n v
    rw [if_pos (by omega), if_pos (by omega)] at hfirst
    have hrest := ih (m := writeCell m a v) (a := a + 1) (by omega)
    have hnext : ∀ k, a + 1 + k = a + (k + 1) := fun k => by omega
    have hkept : ∀ k, readCell (writeCell m a v) (a + (k + 1)) = readCell m (a + (k + 1)) := fun k => by
      rw [readCell_writeCell, if_neg (by omega)]
    simp only [hnext, hkept] at hrest
    simp only [writeCells, List.length_cons, Finset.sum_range_succ', List.getD_cons_succ, List.getD_cons_zero,
      Nat.add_zero]
    omega

/-- The source's vector (95_test_vectors.md): four bytes at the start of an empty RAM of 32768. -/
theorem checksumBelow_vector :
    checksumBelow (writeCells [] 0 [0x01#8, 0x82#8, 0x03#8, 0x84#8]) 32768 = 536854790 := by
  have hempty : 2 * checksumBelow [] 32768 = 32768 * 32767 := checksumBelow_empty (by decide)
  have hwritten := checksumBelow_writeCells (bs := [0x01#8, 0x82#8, 0x03#8, 0x84#8]) (m := []) (a := 0) (n := 32768)
    (by decide)
  have hold : ∑ k ∈ Finset.range 4, checksumTerm unwritten k = 0 + 1 + 2 + 3 := by decide
  have hnew : ∑ k ∈ Finset.range 4, checksumTerm ([0x01#8, 0x82#8, 0x03#8, 0x84#8].getD k unwritten) k =
      0x01 + 0x83 + 0x01 + 0x87 := by decide
  simp only [readCell, List.length_cons, List.length_nil, Nat.zero_add, Nat.reduceAdd, hold, hnew] at hwritten
  omega

/-- Settles O57: the sum, the move by a byte write and the source's vector (R53). -/
theorem checksumOfRam : Obligations.ChecksumOfRam := by
  unfold Obligations.ChecksumOfRam
  refine ⟨fun s => congrArg _ (checksumBelow_eq_sum s.mem s.params.memSize), fun s t addr v => checksum_writeByte,
    fun s hsize hmem => ?_⟩
  simp only [checksum, hsize, hmem, checksumBelow_vector]

end Sys2Proof.Machine
end

section
/-! Words field by field: a field by its parts, and each layout of 30_encoding.md R64 to R79 as the
fields of the word it packs. -/

namespace Sys2Proof

/-! ## A field by its parts -/

/-- Two packed parts are a third word's when that word's high and low fields are the parts. -/
theorem field_eq_append_iff (w : Word) (lo : Nat) {m n : Nat} {x : BitVec m} {y : BitVec n} :
    field w lo (m + n) = x ++ y ↔ field w (lo + n) m = x ∧ field w lo n = y := by
  rw [← field_append_field]
  constructor
  · intro h
    have high := congrArg (·.extractLsb' n m) h
    have low := congrArg (·.extractLsb' 0 n) h
    simp only [extract_append_high le_rfl, extract_append_low (Nat.zero_add n).le, Nat.sub_self,
      BitVec.extractLsb'_eq_self] at high low
    exact ⟨high, low⟩
  · rintro ⟨rfl, rfl⟩
    rfl

/-- Two adjacent fields joined. -/
theorem field_join {w : Word} {lo m n : Nat} {x : BitVec m} {y : BitVec n} (high : field w (lo + n) m = x)
    (low : field w lo n = y) : field w lo (m + n) = x ++ y :=
  (field_eq_append_iff w lo).2 ⟨high, low⟩

/-- A part of a field. -/
theorem field_part {w : Word} {lo n : Nat} {v : BitVec n} (h : field w lo n = v) (k m : Nat)
    (hk : k + m ≤ n := by decide) : field w (lo + k) m = v.extractLsb' k m := by
  subst h
  refine BitVec.eq_of_getLsbD_eq fun i hi => ?_
  simp [hi, show k + i < n by omega, Nat.add_assoc]

/-- A bit of a field. -/
theorem flag_part {w : Word} {lo n : Nat} {v : BitVec n} (h : field w lo n = v) (k : Nat)
    (hk : k < n := by decide) : flag w (lo + k) = v.getLsbD k := by
  subst h
  simp [hk]

/-- The same of a whole word, whatever way its 32 bits are written as a sum. -/
theorem word_eq_append_iff {w p : Word} {m n : Nat} {x : BitVec m} {y : BitVec n} (h32 : m + n = 32)
    (hp : p.toNat = (x ++ y).toNat) : w = p ↔ field w n m = x ∧ field w 0 n = y := by
  have hwhole : w.toNat = (field w 0 (m + n)).toNat := by rw [h32, field_whole]
  rw [← BitVec.toNat_inj, hp, hwhole, BitVec.toNat_inj, field_eq_append_iff, Nat.zero_add]

/-! ## A field as what it codes -/

theorem field_eq_bit_iff {w : Word} {i : Nat} {b : Bool} : field w i 1 = bit1 b ↔ flag w i = b := by
  rw [← bit1_flag]
  exact ⟨fun h => by simpa using congrArg (·.getLsbD 0) h, congrArg bit1⟩

theorem field_eq_one_iff {w : Word} {i : Nat} : field w i 1 = 0b1#1 ↔ flag w i = true :=
  field_eq_bit_iff (b := true)

theorem field_eq_zero_iff {w : Word} {i : Nat} : field w i 1 = 0b0#1 ↔ flag w i = false :=
  field_eq_bit_iff (b := false)

theorem eq_condBits_iff {w : Word} {c : Cond} : field w 28 4 = c.toBits ↔ condOf w = c :=
  ⟨fun h => by rw [condOf, h, Cond.ofBits_toBits], fun h => by rw [← h, condOf, Cond.toBits_ofBits]⟩

theorem eq_regBits_iff {b : BitVec 4} {r : Reg} : b = r.toBits ↔ Reg.ofBits b = r :=
  ⟨fun h => h ▸ rfl, fun h => h ▸ rfl⟩

theorem eq_shiftBits_iff {b : BitVec 2} {t : ShiftType} : b = t.toBits ↔ ShiftType.ofBits b = t :=
  ⟨fun h => by rw [h, ShiftType.ofBits_toBits], fun h => by rw [← h, ShiftType.toBits_ofBits]⟩

/-! ## The layouts -/

section
variable {w : Word} {c : Cond}

theorem DpImmArgs.eq_toWord_iff {op : DpOp} {a : DpImmArgs} :
    w = a.toWord c op ↔ condOf w = c ∧ field w 25 3 = 0b001#3 ∧ field w 21 4 = op.toBits ∧ ofWord w = a := by
  obtain ⟨⟩ := a
  refine (word_eq_append_iff rfl rfl).trans ?_
  simp only [field_eq_append_iff, field_eq_bit_iff, ofWord, mk.injEq]
  simp only [Nat.reduceAdd, eq_condBits_iff, eq_regBits_iff, and_assoc]

theorem DpShiftArgs.eq_toWord_iff {op : DpOp} {a : DpShiftArgs} :
    w = a.toWord c op ↔ condOf w = c ∧ field w 25 3 = 0b000#3 ∧ field w 21 4 = op.toBits ∧ flag w 4 = false ∧
      ofWord w = a := by
  obtain ⟨⟩ := a
  refine (word_eq_append_iff rfl rfl).trans ?_
  simp only [field_eq_append_iff, field_eq_bit_iff, field_eq_zero_iff, ofWord, mk.injEq]
  simp only [Nat.reduceAdd, eq_condBits_iff, eq_regBits_iff, eq_shiftBits_iff, and_assoc]
  tauto

theorem DpRegArgs.eq_toWord_iff {op : DpOp} {a : DpRegArgs} :
    w = a.toWord c op ↔ condOf w = c ∧ field w 25 3 = 0b000#3 ∧ field w 21 4 = op.toBits ∧ flag w 7 = false ∧
      flag w 4 = true ∧ ofWord w = a := by
  obtain ⟨⟩ := a
  refine (word_eq_append_iff rfl rfl).trans ?_
  simp only [field_eq_append_iff, field_eq_bit_iff, field_eq_zero_iff, field_eq_one_iff, ofWord, mk.injEq]
  simp only [Nat.reduceAdd, eq_condBits_iff, eq_regBits_iff, eq_shiftBits_iff, and_assoc]
  tauto

theorem MulArgs.eq_toWord_iff {acc : Bool} {a : MulArgs} :
    w = a.toWord c acc ↔ condOf w = c ∧ field w 22 6 = 0b000000#6 ∧ flag w 21 = acc ∧ field w 4 4 = 0b1001#4 ∧
      ofWord w = a := by
  obtain ⟨⟩ := a
  refine (word_eq_append_iff rfl rfl).trans ?_
  simp only [field_eq_append_iff, field_eq_bit_iff, ofWord, mk.injEq]
  simp only [Nat.reduceAdd, eq_condBits_iff, eq_regBits_iff, and_assoc]
  tauto

theorem LsImmArgs.eq_toWord_iff {byte load : Bool} {a : LsImmArgs} :
    w = a.toWord c byte load ↔ condOf w = c ∧ field w 25 3 = 0b010#3 ∧ flag w 22 = byte ∧ flag w 20 = load ∧
      ofWord w = a := by
  obtain ⟨⟩ := a
  refine (word_eq_append_iff rfl rfl).trans ?_
  simp only [field_eq_append_iff, field_eq_bit_iff, ofWord, mk.injEq]
  simp only [Nat.reduceAdd, eq_condBits_iff, eq_regBits_iff, and_assoc]
  tauto

theorem LsRegArgs.eq_toWord_iff {byte load : Bool} {a : LsRegArgs} :
    w = a.toWord c byte load ↔ condOf w = c ∧ field w 25 3 = 0b011#3 ∧ flag w 22 = byte ∧ flag w 20 = load ∧
      field w 4 8 = 0#8 ∧ ofWord w = a := by
  obtain ⟨⟩ := a
  refine (word_eq_append_iff rfl rfl).trans ?_
  simp only [field_eq_append_iff, field_eq_bit_iff, ofWord, mk.injEq]
  simp only [Nat.reduceAdd, eq_condBits_iff, eq_regBits_iff, and_assoc]
  tauto

theorem LsScaledArgs.eq_toWord_iff {byte load : Bool} {a : LsScaledArgs} :
    w = a.toWord c byte load ↔ condOf w = c ∧ field w 25 3 = 0b011#3 ∧ flag w 22 = byte ∧ flag w 20 = load ∧
      flag w 4 = false ∧ ofWord w = a := by
  obtain ⟨⟩ := a
  refine (word_eq_append_iff rfl rfl).trans ?_
  simp only [field_eq_append_iff, field_eq_bit_iff, field_eq_zero_iff, ofWord, mk.injEq]
  simp only [Nat.reduceAdd, eq_condBits_iff, eq_regBits_iff, eq_shiftBits_iff, and_assoc]
  tauto

theorem HwImmArgs.eq_toWord_iff {load : Bool} {sh : BitVec 2} {a : HwImmArgs} :
    w = a.toWord c load sh ↔ condOf w = c ∧ field w 25 3 = 0b000#3 ∧ flag w 22 = true ∧ flag w 20 = load ∧
      flag w 7 = true ∧ field w 5 2 = sh ∧ flag w 4 = true ∧ ofWord w = a := by
  obtain ⟨⟩ := a
  refine (word_eq_append_iff rfl rfl).trans ?_
  simp only [field_eq_append_iff, field_eq_bit_iff, field_eq_one_iff, ofWord, mk.injEq]
  simp only [Nat.reduceAdd, eq_condBits_iff, eq_regBits_iff, and_assoc]
  tauto

/-- The encoder writes 0 in bits 11:8 (R72). -/
theorem HwRegArgs.eq_toWord_iff {load : Bool} {sh : BitVec 2} {a : HwRegArgs} :
    w = a.toWord c load sh ↔ condOf w = c ∧ field w 25 3 = 0b000#3 ∧ flag w 22 = false ∧ flag w 20 = load ∧
      field w 8 4 = 0#4 ∧ flag w 7 = true ∧ field w 5 2 = sh ∧ flag w 4 = true ∧ ofWord w = a := by
  obtain ⟨⟩ := a
  refine (word_eq_append_iff rfl rfl).trans ?_
  simp only [field_eq_append_iff, field_eq_bit_iff, field_eq_zero_iff, field_eq_one_iff, ofWord, mk.injEq]
  simp only [Nat.reduceAdd, eq_condBits_iff, eq_regBits_iff, and_assoc]
  tauto

theorem BlockArgs.eq_toWord_iff {load : Bool} {a : BlockArgs} :
    w = a.toWord c load ↔ condOf w = c ∧ field w 25 3 = 0b100#3 ∧ flag w 20 = load ∧ ofWord w = a := by
  obtain ⟨⟩ := a
  refine (word_eq_append_iff rfl rfl).trans ?_
  simp only [field_eq_append_iff, field_eq_bit_iff, ofWord, mk.injEq]
  simp only [Nat.reduceAdd, eq_condBits_iff, eq_regBits_iff, and_assoc]
  tauto

theorem MsrRegArgs.eq_toWord_iff {a : MsrRegArgs} :
    w = a.toWord c ↔ condOf w = c ∧ field w 23 5 = 0b00010#5 ∧ field w 20 2 = 0b10#2 ∧ field w 12 4 = 0b1111#4 ∧
      field w 4 8 = 0#8 ∧ ofWord w = a := by
  obtain ⟨⟩ := a
  refine (word_eq_append_iff rfl rfl).trans ?_
  simp only [field_eq_append_iff, field_eq_bit_iff, ofWord, mk.injEq]
  simp only [Nat.reduceAdd, eq_condBits_iff, eq_regBits_iff, and_assoc]
  tauto

theorem MsrImmArgs.eq_toWord_iff {a : MsrImmArgs} :
    w = a.toWord c ↔ condOf w = c ∧ field w 23 5 = 0b00110#5 ∧ field w 20 2 = 0b10#2 ∧ field w 12 4 = 0b1111#4 ∧
      ofWord w = a := by
  obtain ⟨⟩ := a
  refine (word_eq_append_iff rfl rfl).trans ?_
  simp only [field_eq_append_iff, field_eq_bit_iff, ofWord, mk.injEq]
  simp only [Nat.reduceAdd, eq_condBits_iff, and_assoc]
  tauto

theorem eq_encode_mrs_iff {spsr : Bool} {rd : Reg} :
    w = encode (.mrs c spsr rd) ↔ condOf w = c ∧ field w 23 5 = 0b00010#5 ∧ field w 20 2 = 0b00#2 ∧
      field w 16 4 = 0b1111#4 ∧ field w 0 12 = 0#12 ∧ flag w 22 = spsr ∧ Reg.ofBits (field w 12 4) = rd := by
  refine (word_eq_append_iff rfl rfl).trans ?_
  simp only [field_eq_append_iff, field_eq_bit_iff]
  simp only [Nat.reduceAdd, eq_condBits_iff, eq_regBits_iff, and_assoc]
  tauto

theorem eq_encode_bx_iff {rm : Reg} :
    w = encode (.bx c rm) ↔ condOf w = c ∧ field w 20 8 = 0b00010010#8 ∧ field w 8 12 = 0xFFF#12 ∧
      field w 4 4 = 0b0001#4 ∧ Reg.ofBits (field w 0 4) = rm := by
  refine (word_eq_append_iff rfl rfl).trans ?_
  simp only [field_eq_append_iff]
  simp only [Nat.reduceAdd, eq_condBits_iff, eq_regBits_iff, and_assoc]

theorem eq_encode_swi_iff {n : BitVec 24} :
    w = encode (.swi c n) ↔ condOf w = c ∧ field w 24 4 = 0b1111#4 ∧ field w 0 24 = n := by
  refine (word_eq_append_iff rfl rfl).trans ?_
  simp only [field_eq_append_iff]
  simp only [Nat.reduceAdd, eq_condBits_iff, and_assoc]

/-- B and BL: bit 24 is the link bit (R74). -/
theorem eq_branchWord_iff {link : Bool} {off : BitVec 24} :
    w = c.toBits ++ 0b101#3 ++ bit1 link ++ off ↔
      condOf w = c ∧ field w 25 3 = 0b101#3 ∧ flag w 24 = link ∧ field w 0 24 = off := by
  refine (word_eq_append_iff rfl rfl).trans ?_
  simp only [field_eq_append_iff, field_eq_bit_iff]
  simp only [Nat.reduceAdd, eq_condBits_iff, and_assoc]

end

end Sys2Proof
end

section
/-! The rows of the decoder (30_encoding.md R64 to R79, R85, R88): the fixed fields that a word has to have for an
instruction. The decoder's tests are walked through here once, in both directions; the statements about the decoder
are case analyses over rows. -/

namespace Sys2Proof
open Machine

/-! ## Rows of one layout -/

/-- The half-word and signed transfers (R71). -/
inductive HalfOp where
  | strh | ldrh | ldrsb | ldrsh

/-- L. -/
def HalfOp.load : HalfOp → Bool
  | .strh => false
  | .ldrh | .ldrsb | .ldrsh => true

/-- SH. -/
def HalfOp.sh : HalfOp → BitVec 2
  | .strh | .ldrh => 0b01#2
  | .ldrsb => 0b10#2
  | .ldrsh => 0b11#2

def Instr.branch (link : Bool) (c : Cond) (off : BitVec 24) : Instr := if link then .bl c off else .b c off

def Instr.block (load : Bool) (c : Cond) (a : BlockArgs) : Instr := if load then .ldm c a else .stm c a

def Instr.multiply (acc : Bool) (c : Cond) (a : MulArgs) : Instr := if acc then .mla c a else .mul c a

def Instr.lsImm (byte load : Bool) (c : Cond) (a : LsImmArgs) : Instr :=
  match load, byte with
  | false, false => .strImm c a
  | true, false => .ldrImm c a
  | false, true => .strbImm c a
  | true, true => .ldrbImm c a

def Instr.lsReg (byte load : Bool) (c : Cond) (a : LsRegArgs) : Instr :=
  match load, byte with
  | false, false => .strReg c a
  | true, false => .ldrReg c a
  | false, true => .strbReg c a
  | true, true => .ldrbReg c a

def Instr.lsScaled (byte load : Bool) (c : Cond) (a : LsScaledArgs) : Instr :=
  match load, byte with
  | false, false => .strScaled c a
  | true, false => .ldrScaled c a
  | false, true => .strbScaled c a
  | true, true => .ldrbScaled c a

def Instr.hwImm (k : HalfOp) (c : Cond) (a : HwImmArgs) : Instr :=
  match k with
  | .strh => .strhImm c a
  | .ldrh => .ldrhImm c a
  | .ldrsb => .ldrsbImm c a
  | .ldrsh => .ldrshImm c a

def Instr.hwReg (k : HalfOp) (c : Cond) (a : HwRegArgs) : Instr :=
  match k with
  | .strh => .strhReg c a
  | .ldrh => .ldrhReg c a
  | .ldrsb => .ldrsbReg c a
  | .ldrsh => .ldrshReg c a

/-- A comparison has S = 1 (R85). -/
def opEncodable (op : DpOp) (s : Bool) : Prop := opWritesRd op = true ∨ s = true

/-- Word `w` is of the row of the instruction: it has the fixed fields of that row, and the instruction has the
word's other fields. -/
inductive Coded (w : Word) : Instr → Prop where
  | swi (h24 : field w 24 4 = 0b1111#4) : Coded w (.swi (condOf w) (field w 0 24))
  | branch (link : Bool) (h25 : field w 25 3 = 0b101#3) (h24 : flag w 24 = link) :
    Coded w (.branch link (condOf w) (field w 0 24))
  | block (load : Bool) (h25 : field w 25 3 = 0b100#3) (h20 : flag w 20 = load) :
    Coded w (.block load (condOf w) (.ofWord w))
  | nopCoprocessor (h26 : field w 26 2 = 0b11#2) (h24 : field w 24 4 ≠ 0b1111#4) :
    Coded w (.nopCoprocessor (condOf w))
  | nopUndefined (h25 : field w 25 3 = 0b011#3) (h4 : flag w 4 = true) : Coded w (.nopUndefined (condOf w))
  | lsImm (byte load : Bool) (h25 : field w 25 3 = 0b010#3) (h22 : flag w 22 = byte) (h20 : flag w 20 = load) :
    Coded w (.lsImm byte load (condOf w) (.ofWord w))
  | lsReg (byte load : Bool) (h25 : field w 25 3 = 0b011#3) (h22 : flag w 22 = byte) (h20 : flag w 20 = load)
    (h4 : field w 4 8 = 0#8) : Coded w (.lsReg byte load (condOf w) (.ofWord w))
  | lsScaled (byte load : Bool) (h25 : field w 25 3 = 0b011#3) (h22 : flag w 22 = byte) (h20 : flag w 20 = load)
    (h4 : flag w 4 = false) (hwf : (LsScaledArgs.ofWord w).check = none) :
    Coded w (.lsScaled byte load (condOf w) (.ofWord w))
  | msrImm (h23 : field w 23 5 = 0b00110#5) (h20 : field w 20 2 = 0b10#2) (h12 : field w 12 4 = 0b1111#4) :
    Coded w (.msrImm (condOf w) (.ofWord w))
  | nopCompareImm (h25 : field w 25 3 = 0b001#3) (h23 : field w 23 2 = 0b10#2) (h20 : flag w 20 = false)
    (hmsr : ¬ (flag w 21 = true ∧ field w 12 4 = 0b1111#4)) : Coded w (.nopCompareImm (condOf w))
  | dpImm (op : DpOp) (h25 : field w 25 3 = 0b001#3) (h21 : field w 21 4 = op.toBits)
    (hwf : opEncodable op (flag w 20)) : Coded w (.dpImm op (condOf w) (.ofWord w))
  | multiply (acc : Bool) (h22 : field w 22 6 = 0b000000#6) (h21 : flag w 21 = acc) (h4 : field w 4 4 = 0b1001#4) :
    Coded w (.multiply acc (condOf w) (.ofWord w))
  | nopMultiplySpace (h25 : field w 25 3 = 0b000#3) (h4 : field w 4 4 = 0b1001#4) (h22 : field w 22 6 ≠ 0#6) :
    Coded w (.nopMultiplySpace (condOf w))
  | nopDoubleWord (h25 : field w 25 3 = 0b000#3) (h20 : flag w 20 = false)
    (h4 : field w 4 4 = 0b1101#4 ∨ field w 4 4 = 0b1111#4) : Coded w (.nopDoubleWord (condOf w))
  | hwImm (k : HalfOp) (h25 : field w 25 3 = 0b000#3) (h22 : flag w 22 = true) (h20 : flag w 20 = k.load)
    (h7 : flag w 7 = true) (h5 : field w 5 2 = k.sh) (h4 : flag w 4 = true) :
    Coded w (.hwImm k (condOf w) (.ofWord w))
  | hwReg (k : HalfOp) (h25 : field w 25 3 = 0b000#3) (h22 : flag w 22 = false) (h20 : flag w 20 = k.load)
    (h7 : flag w 7 = true) (h5 : field w 5 2 = k.sh) (h4 : flag w 4 = true) :
    Coded w (.hwReg k (condOf w) (.ofWord w))
  | mrs (h23 : field w 23 5 = 0b00010#5) (h20 : field w 20 2 = 0b00#2) (h16 : field w 16 4 = 0b1111#4)
    (h0 : field w 0 12 = 0#12) : Coded w (.mrs (condOf w) (flag w 22) (Reg.ofBits (field w 12 4)))
  | bx (h20 : field w 20 8 = 0b00010010#8) (h8 : field w 8 12 = 0xFFF#12) (h4 : field w 4 4 = 0b0001#4) :
    Coded w (.bx (condOf w) (Reg.ofBits (field w 0 4)))
  | msrReg (h23 : field w 23 5 = 0b00010#5) (h20 : field w 20 2 = 0b10#2) (h12 : field w 12 4 = 0b1111#4)
    (h4 : field w 4 8 = 0#8) : Coded w (.msrReg (condOf w) (.ofWord w))
  | nopCompareReg (h25 : field w 25 3 = 0b000#3) (h74 : ¬ (flag w 7 = true ∧ flag w 4 = true))
    (h23 : field w 23 2 = 0b10#2) (h20 : flag w 20 = false)
    (hmrs : ¬ (flag w 21 = false ∧ field w 16 4 = 0b1111#4 ∧ field w 0 12 = 0#12))
    (hbx : ¬ (field w 21 2 = 0b01#2 ∧ field w 8 12 = 0xFFF#12 ∧ field w 4 4 = 0b0001#4))
    (hmsr : ¬ (flag w 21 = true ∧ field w 12 4 = 0b1111#4 ∧ field w 4 8 = 0#8)) : Coded w (.nopCompareReg (condOf w))
  | dpShift (op : DpOp) (h25 : field w 25 3 = 0b000#3) (h21 : field w 21 4 = op.toBits) (h4 : flag w 4 = false)
    (hwf : opEncodable op (flag w 20)) : Coded w (.dpShift op (condOf w) (.ofWord w))
  | dpRegShift (op : DpOp) (h25 : field w 25 3 = 0b000#3) (h21 : field w 21 4 = op.toBits) (h7 : flag w 7 = false)
    (h4 : flag w 4 = true) (hwf : opEncodable op (flag w 20)) : Coded w (.dpRegShift op (condOf w) (.ofWord w))

section
variable {w : Word}

/-! ## The decoder's tests -/

/-- The test for a comparison with S = 0 is a test of the opcode field and S. -/
theorem inCompareSpace_eq_false_iff {op : DpOp} (h21 : field w 21 4 = op.toBits) :
    inCompareSpace w = false ↔ opEncodable op (flag w 20) := by
  have h23 : field w 23 2 = op.toBits.extractLsb' 2 2 := field_part h21 2 2
  rw [inCompareSpace, h23, opEncodable]
  cases op <;> cases flag w 20 <;> decide

theorem inCompareSpace_iff : inCompareSpace w = true ↔ field w 23 2 = 0b10#2 ∧ flag w 20 = false := by
  simp only [inCompareSpace, Bool.and_eq_true, decide_eq_true_eq, Bool.not_eq_true']

/-- A scaled offset is well formed when it is not the plain one (R70). -/
theorem check_ofWord_iff (h4 : flag w 4 = false) : (LsScaledArgs.ofWord w).check = none ↔ field w 4 8 ≠ 0#8 := by
  have hplain : field w 4 8 = 0#8 ↔ field w 7 5 = 0#5 ∧ ShiftType.ofBits (field w 5 2) = .lsl := by
    constructor
    · intro h
      exact ⟨field_part h 3 5, eq_shiftBits_iff.1 (field_part h 1 2)⟩
    · rintro ⟨h7, h5⟩
      exact field_join h7 (field_join (eq_shiftBits_iff.2 h5) (field_eq_zero_iff.2 h4))
  rw [Ne, hplain, LsScaledArgs.check, ite_eq_right_iff, LsScaledArgs.ofWord]
  simp

/-- The decoder's first test, with bits 27:25 known. -/
theorem field_class {v : BitVec 3} (h25 : field w 25 3 = v) : field w 24 4 = v ++ bit1 (flag w 24) :=
  field_join h25 (field_eq_bit_iff.2 rfl)

theorem decodeShape_branch (h25 : field w 25 3 = 0b101#3) :
    decodeShape w = .branch (flag w 24) (condOf w) (field w 0 24) := by
  rw [decodeShape, field_class h25, h25]
  cases flag w 24 <;> rfl

theorem decodeShape_block (h25 : field w 25 3 = 0b100#3) :
    decodeShape w = .block (flag w 20) (condOf w) (.ofWord w) := by
  rw [decodeShape, field_class h25, h25]
  cases flag w 24 <;> rfl

theorem decodeShape_single (h26 : field w 26 2 = 0b01#2) : decodeShape w = decodeSingle (condOf w) w := by
  have h25 : field w 25 3 = 0b01#2 ++ bit1 (flag w 25) := field_join h26 (field_eq_bit_iff.2 rfl)
  rw [decodeShape, field_class h25, h25, h26]
  cases flag w 24 <;> cases flag w 25 <;> rfl

theorem decodeShape_immediate (h25 : field w 25 3 = 0b001#3) : decodeShape w = decodeImmediate (condOf w) w := by
  rw [decodeShape, field_class h25, (field_part h25 1 2 : field w 26 2 = _), h25]
  cases flag w 24 <;> rfl

theorem decodeShape_register (h25 : field w 25 3 = 0b000#3) : decodeShape w = decodeRegister (condOf w) w := by
  rw [decodeShape, field_class h25, (field_part h25 1 2 : field w 26 2 = _), h25]
  cases flag w 24 <;> rfl

theorem decodeRegister_extra {c : Cond} (h7 : flag w 7 = true) (h4 : flag w 4 = true) :
    decodeRegister c w = decodeExtra c w := by
  rw [decodeRegister, h7, h4]
  rfl

theorem decodeRegister_status {c : Cond} (h74 : ¬ (flag w 7 = true ∧ flag w 4 = true))
    (h23 : field w 23 2 = 0b10#2) (h20 : flag w 20 = false) : decodeRegister c w = decodeStatus c w := by
  rw [decodeRegister, if_neg (by simpa using h74), if_pos (inCompareSpace_iff.2 ⟨h23, h20⟩)]

theorem decodeExtra_half {c : Cond} (k : HalfOp) (h20 : flag w 20 = k.load) (h5 : field w 5 2 = k.sh) :
    decodeExtra c w = if flag w 22 then .hwImm k c (.ofWord w) else .hwReg k c (.ofWord w) := by
  rw [decodeExtra, h5, h20, (flag_part h5 0 : flag w 5 = _), (flag_part h5 1 : flag w 6 = _)]
  cases k <;> rfl

/-- Past the tests for the multiply and double-word spaces L and SH are those of a half-word transfer. -/
theorem exists_halfOp : ∀ l b6 b5 : Bool, bit1 b6 ++ bit1 b5 ≠ 0b00#2 → ¬ (l = false ∧ b6 = true) →
    ∃ k : HalfOp, l = k.load ∧ bit1 b6 ++ bit1 b5 = k.sh
  | _, false, false, hmul, _ => absurd rfl hmul
  | false, true, _, _, hdouble => absurd ⟨rfl, rfl⟩ hdouble
  | false, false, true, _, _ => ⟨.strh, rfl, rfl⟩
  | true, false, true, _, _ => ⟨.ldrh, rfl, rfl⟩
  | true, true, false, _, _ => ⟨.ldrsb, rfl, rfl⟩
  | true, true, true, _, _ => ⟨.ldrsh, rfl, rfl⟩

/-! ## Every word is of the row it decodes to -/

theorem coded_decodeSingle (h26 : field w 26 2 = 0b01#2) : Coded w (decodeSingle (condOf w) w) := by
  unfold decodeSingle
  split_ifs with hundef himm hplain
  · rw [Bool.and_eq_true] at hundef
    exact .nopUndefined (field_join h26 (field_eq_one_iff.2 hundef.1)) hundef.2
  · exact .lsImm (flag w 22) (flag w 20) (field_join h26 (field_eq_zero_iff.2 (by simpa using himm))) rfl rfl
  · exact .lsReg (flag w 22) (flag w 20) (field_join h26 (field_eq_one_iff.2 (by simpa using himm))) rfl rfl hplain
  · have h25 : flag w 25 = true := by simpa using himm
    have h4 : flag w 4 = false := by simpa [h25] using hundef
    exact .lsScaled (flag w 22) (flag w 20) (field_join h26 (field_eq_one_iff.2 h25)) rfl rfl h4
      ((check_ofWord_iff h4).2 hplain)

theorem coded_decodeImmediate (h25 : field w 25 3 = 0b001#3) : Coded w (decodeImmediate (condOf w) w) := by
  unfold decodeImmediate
  split_ifs with hs hmsr
  · obtain ⟨h23, h20⟩ := inCompareSpace_iff.1 hs
    obtain ⟨h21, h12⟩ : flag w 21 = true ∧ field w 12 4 = 0b1111#4 := by simpa using hmsr
    exact .msrImm (field_join h25 h23) (field_join (field_eq_one_iff.2 h21) (field_eq_zero_iff.2 h20)) h12
  · obtain ⟨h23, h20⟩ := inCompareSpace_iff.1 hs
    exact .nopCompareImm h25 h23 h20 (by simpa using hmsr)
  · have h21 := (DpOp.toBits_ofBits (field w 21 4)).symm
    exact .dpImm _ h25 h21 ((inCompareSpace_eq_false_iff h21).1 (by simpa using hs))

theorem coded_decodeExtra (h25 : field w 25 3 = 0b000#3) (h7 : flag w 7 = true) (h4 : flag w 4 = true) :
    Coded w (decodeExtra (condOf w) w) := by
  have h44 {v : BitVec 2} (h5 : field w 5 2 = v) : field w 4 4 = 0b1#1 ++ v ++ 0b1#1 :=
    field_join (field_join (field_eq_one_iff.2 h7) h5) (field_eq_one_iff.2 h4)
  by_cases hmul : field w 5 2 = 0b00#2
  · rw [decodeExtra, if_pos hmul]
    split_ifs with h22 h21
    · exact .multiply true h22 h21 (h44 hmul)
    · exact .multiply false h22 (by simpa using h21) (h44 hmul)
    · exact .nopMultiplySpace h25 (h44 hmul) h22
  by_cases hdouble : flag w 20 = false ∧ flag w 6 = true
  · rw [decodeExtra, if_neg hmul, if_pos (by simpa using hdouble)]
    obtain ⟨h20, h6⟩ := hdouble
    refine .nopDoubleWord h25 h20 ?_
    cases hb : flag w 5 with
    | false => exact .inl (h44 (field_join (field_eq_one_iff.2 h6) (field_eq_zero_iff.2 hb)))
    | true => exact .inr (h44 (field_join (field_eq_one_iff.2 h6) (field_eq_one_iff.2 hb)))
  · have h5 : field w 5 2 = bit1 (flag w 6) ++ bit1 (flag w 5) :=
      field_join (field_eq_bit_iff.2 rfl) (field_eq_bit_iff.2 rfl)
    obtain ⟨k, h20, hsh⟩ := exists_halfOp _ _ _ (h5 ▸ hmul) hdouble
    have h5 := h5.trans hsh
    rw [decodeExtra_half k h20 h5]
    split_ifs with h22
    · exact .hwImm k h25 h22 h20 h7 h5 h4
    · exact .hwReg k h25 (by simpa using h22) h20 h7 h5 h4

theorem coded_decodeStatus (h25 : field w 25 3 = 0b000#3) (h74 : ¬ (flag w 7 = true ∧ flag w 4 = true))
    (h23 : field w 23 2 = 0b10#2) (h20 : flag w 20 = false) : Coded w (decodeStatus (condOf w) w) := by
  have h235 : field w 23 5 = 0b00010#5 := field_join h25 h23
  have h202 {b21 : Bool} (h21 : flag w 21 = b21) : field w 20 2 = bit1 b21 ++ 0b0#1 :=
    field_join (field_eq_bit_iff.2 h21) (field_eq_zero_iff.2 h20)
  unfold decodeStatus
  simp only [Bool.and_eq_true, Bool.not_eq_true', decide_eq_true_eq, and_assoc]
  split_ifs with hmrs hbx hmsr
  · obtain ⟨h21, h16, h0⟩ := hmrs
    exact .mrs h235 (h202 h21) h16 h0
  · obtain ⟨h21, h8, h4⟩ := hbx
    exact .bx (field_join h235 (field_join h21 (field_eq_zero_iff.2 h20))) h8 h4
  · obtain ⟨h21, h12, h4⟩ := hmsr
    exact .msrReg h235 (h202 h21) h12 h4
  · exact .nopCompareReg h25 h74 h23 h20 hmrs hbx hmsr

theorem coded_decodeRegister (h25 : field w 25 3 = 0b000#3) : Coded w (decodeRegister (condOf w) w) := by
  have h21 := (DpOp.toBits_ofBits (field w 21 4)).symm
  unfold decodeRegister
  split_ifs with h74 hs h4
  · rw [Bool.and_eq_true] at h74
    exact coded_decodeExtra h25 h74.1 h74.2
  · obtain ⟨h23, h20⟩ := inCompareSpace_iff.1 hs
    exact coded_decodeStatus h25 (by simpa using h74) h23 h20
  · exact .dpShift _ h25 h21 (by simpa using h4) ((inCompareSpace_eq_false_iff h21).1 (by simpa using hs))
  · have h4 : flag w 4 = true := by simpa using h4
    exact .dpRegShift _ h25 h21 (by simpa [h4] using h74) h4 ((inCompareSpace_eq_false_iff h21).1 (by simpa using hs))

/-- Bits 27:25 of a word that meets none of the decoder's tests. -/
theorem class_of_no_test : ∀ v : BitVec 3, v ≠ 0b101#3 → v ≠ 0b100#3 → v.extractLsb' 1 2 ≠ 0b11#2 →
    v.extractLsb' 1 2 ≠ 0b01#2 → v ≠ 0b001#3 → v = 0b000#3 := by
  decide

/-- EVERY WORD is of the row of the instruction that R85's decoder gives. -/
theorem coded_decodeShape (w : Word) : Coded w (decodeShape w) := by
  unfold decodeShape
  dsimp only
  split_ifs with hswi hb h24 hblock h20 hcop hsingle himm
  · exact .swi hswi
  · exact .branch true hb h24
  · exact .branch false hb (by simpa using h24)
  · exact .block true hblock h20
  · exact .block false hblock (by simpa using h20)
  · exact .nopCoprocessor hcop hswi
  · exact coded_decodeSingle hsingle
  · exact coded_decodeImmediate himm
  · have h26 : field w 26 2 = (field w 25 3).extractLsb' 1 2 := field_part rfl 1 2
    rw [h26] at hcop hsingle
    exact coded_decodeRegister (class_of_no_test _ hb hblock hcop hsingle himm)

/-! ## A word of a row decodes to the row's instruction -/

theorem Coded.decodeShape_eq {i : Instr} (h : Coded w i) : decodeShape w = i := by
  cases h with
  | swi h24 => rw [decodeShape, if_pos h24]
  | branch link h25 h24 => rw [decodeShape_branch h25, h24]
  | block load h25 h20 => rw [decodeShape_block h25, h20]
  | nopCoprocessor h26 h24 =>
    have h25 : field w 25 3 = 0b11#2 ++ bit1 (flag w 25) := field_join h26 (field_eq_bit_iff.2 rfl)
    rw [decodeShape, if_neg h24, h25, h26]
    cases flag w 25 <;> rfl
  | nopUndefined h25 h4 =>
    rw [decodeShape_single (field_part h25 1 2), decodeSingle, (flag_part h25 0 : flag w 25 = _), h4]
    rfl
  | lsImm byte load h25 h22 h20 =>
    rw [decodeShape_single (field_part h25 1 2), decodeSingle, (flag_part h25 0 : flag w 25 = _), h22, h20]
    rfl
  | lsReg byte load h25 h22 h20 h4 =>
    have h4' : flag w 4 = false := flag_part h4 0
    rw [decodeShape_single (field_part h25 1 2), decodeSingle, (flag_part h25 0 : flag w 25 = _), h4', h22, h20,
      if_neg (by decide), if_neg (by decide), if_pos h4]
    rfl
  | lsScaled byte load h25 h22 h20 h4 hwf =>
    rw [decodeShape_single (field_part h25 1 2), decodeSingle, (flag_part h25 0 : flag w 25 = _), h4, h22, h20,
      if_neg (by decide), if_neg (by decide), if_neg ((check_ofWord_iff h4).1 hwf)]
    rfl
  | msrImm h23 h20 h12 =>
    have hs : inCompareSpace w = true := inCompareSpace_iff.2 ⟨field_part h23 0 2, flag_part h20 0⟩
    rw [decodeShape_immediate (field_part h23 2 3), decodeImmediate, if_pos hs,
      (flag_part h20 1 : flag w 21 = _), h12]
    rfl
  | nopCompareImm h25 h23 h20 hmsr =>
    rw [decodeShape_immediate h25, decodeImmediate, if_pos (inCompareSpace_iff.2 ⟨h23, h20⟩),
      if_neg (by simpa using hmsr)]
  | dpImm op h25 h21 hwf =>
    rw [decodeShape_immediate h25, decodeImmediate, (inCompareSpace_eq_false_iff h21).2 hwf, h21, DpOp.ofBits_toBits]
    rfl
  | multiply acc h22 h21 h4 =>
    have h5 : field w 5 2 = 0b00#2 := field_part h4 1 2
    rw [decodeShape_register (field_part h22 3 3), decodeRegister_extra (flag_part h4 3) (flag_part h4 0),
      decodeExtra, if_pos h5, if_pos h22, h21]
    rfl
  | nopMultiplySpace h25 h4 h22 =>
    have h5 : field w 5 2 = 0b00#2 := field_part h4 1 2
    rw [decodeShape_register h25, decodeRegister_extra (flag_part h4 3) (flag_part h4 0), decodeExtra,
      if_pos h5, if_neg h22]
  | nopDoubleWord h25 h20 h4 =>
    have h6 : field w 6 2 = 0b11#2 := h4.elim (field_part · 2 2) (field_part · 2 2)
    have h4 : flag w 4 = true := h4.elim (flag_part · 0) (flag_part · 0)
    have hmul : field w 5 2 ≠ 0b00#2 := fun h => Bool.eq_false_iff.1 (flag_part h 1) (flag_part h6 0)
    rw [decodeShape_register h25, decodeRegister_extra (flag_part h6 1) h4, decodeExtra, if_neg hmul, h20,
      (flag_part h6 0 : flag w 6 = _)]
    rfl
  | hwImm k h25 h22 h20 h7 h5 h4 =>
    rw [decodeShape_register h25, decodeRegister_extra h7 h4, decodeExtra_half k h20 h5, if_pos h22]
  | hwReg k h25 h22 h20 h7 h5 h4 =>
    rw [decodeShape_register h25, decodeRegister_extra h7 h4, decodeExtra_half k h20 h5, h22]
    rfl
  | mrs h23 h20 h16 h0 =>
    have h74 : ¬ (flag w 7 = true ∧ flag w 4 = true) := fun h => Bool.eq_false_iff.1 (flag_part h0 4) h.2
    rw [decodeShape_register (field_part h23 2 3), decodeRegister_status h74 (field_part h23 0 2) (flag_part h20 0),
      decodeStatus, (flag_part h20 1 : flag w 21 = _), h16, h0]
    rfl
  | bx h20 h8 h4 =>
    have h74 : ¬ (flag w 7 = true ∧ flag w 4 = true) := fun h => Bool.eq_false_iff.1 (flag_part h4 3) h.1
    rw [decodeShape_register (field_part h20 5 3), decodeRegister_status h74 (field_part h20 3 2) (flag_part h20 0),
      decodeStatus, (flag_part h20 1 : flag w 21 = _), (field_part h20 1 2 : field w 21 2 = _), h8, h4]
    rfl
  | msrReg h23 h20 h12 h4 =>
    have h4' : flag w 4 = false := flag_part h4 0
    have h74 : ¬ (flag w 7 = true ∧ flag w 4 = true) := fun h => Bool.eq_false_iff.1 h4' h.2
    have hbx : field w 4 4 ≠ 0b0001#4 := fun h => Bool.eq_false_iff.1 h4' (flag_part h 0)
    rw [decodeShape_register (field_part h23 2 3), decodeRegister_status h74 (field_part h23 0 2) (flag_part h20 0),
      decodeStatus, (flag_part h20 1 : flag w 21 = _), h12, h4, decide_eq_false hbx, Bool.and_false]
    rfl
  | nopCompareReg h25 h74 h23 h20 hmrs hbx hmsr =>
    rw [decodeShape_register h25, decodeRegister_status h74 h23 h20, decodeStatus, if_neg (by simpa using hmrs),
      if_neg (by simpa using hbx), if_neg (by simpa using hmsr)]
  | dpShift op h25 h21 h4 hwf =>
    rw [decodeShape_register h25, decodeRegister, h4, (inCompareSpace_eq_false_iff h21).2 hwf, h21, DpOp.ofBits_toBits,
      Bool.and_false]
    rfl
  | dpRegShift op h25 h21 h7 h4 hwf =>
    rw [decodeShape_register h25, decodeRegister, h7, h4, (inCompareSpace_eq_false_iff h21).2 hwf, h21,
      DpOp.ofBits_toBits]
    rfl

end

end Sys2Proof
end

section
/-! What a decoded instruction keeps of its word (30_encoding.md R86, R90): the condition, the word that the encoder
packs, the row of opcode_table.json. -/

namespace Sys2Proof
open Machine

/-! ## Rows of opcode_table.json as fixed fields -/

/-- The mask and the match of a fixed field. -/
def fieldRow (lo : Nat) {n : Nat} (v : BitVec n) : Word × Word :=
  ((BitVec.allOnes n).setWidth 32 <<< lo, v.setWidth 32 <<< lo)

/-- The mask and the match of a fixed bit. -/
def bitRow (i : Nat) (b : Bool) : Word × Word := fieldRow i (bit1 b)

/-- Both rows' fixed fields. -/
def bothRows (r q : Word × Word) : Word × Word := (r.1 ||| q.1, r.2 ||| q.2)

/-- The fixed field of S where the operation is a comparison. -/
def compareRow (op : DpOp) : Word × Word := if opWritesRd op then (0#32, 0#32) else bitRow 20 true

/-- The word has the row's fixed fields (R90). -/
def Matches (w : Word) (r : Word × Word) : Prop := w &&& r.1 = r.2

section
variable {w : Word}

theorem matches_fieldRow {lo n : Nat} {v : BitVec n} (h : field w lo n = v) : Matches w (fieldRow lo v) := by
  subst h
  refine BitVec.eq_of_getLsbD_eq fun i hi => ?_
  by_cases hlo : i < lo
  · simp [fieldRow, hlo]
  · simp [fieldRow, hlo, hi, show lo + (i - lo) = i by omega, Bool.and_comm]

theorem matches_bitRow {i : Nat} {b : Bool} (h : flag w i = b) : Matches w (bitRow i b) :=
  matches_fieldRow (field_eq_bit_iff.2 h)

theorem Matches.both {r q : Word × Word} (hr : Matches w r) (hq : Matches w q) : Matches w (bothRows r q) := by
  unfold Matches bothRows at *
  rw [BitVec.and_or_distrib_left, hr, hq]

theorem matches_compareRow {op : DpOp} (h : opEncodable op (flag w 20)) : Matches w (compareRow op) := by
  unfold compareRow
  split
  · exact BitVec.and_zero
  next hop => exact matches_bitRow (h.resolve_left hop)

end

/-! ## What the model says of the instructions of a layout -/

/-- The instruction has the condition and the row, is packed as word `p` without the bits `dropped`, and is well formed
when `wf` holds. -/
structure Packed (i : Instr) (c : Cond) (p dropped : Word) (row : Word × Word) (wf : Prop) : Prop where
  cond : i.cond? = some c
  encode : Sys2Proof.encode i = p
  dropped : droppedBits i = dropped
  row : tableRow i = row
  wellFormed : wf → i.WellFormed

theorem checkCompare_eq_none {s : Bool} : checkCompare s = none ↔ s = true := by
  cases s <;> decide

section
variable {c : Cond}

theorem packed_dpImm (op : DpOp) (a : DpImmArgs) : Packed (.dpImm op c a) c (a.toWord c op) 0#32
    (bothRows (fieldRow 25 0b001#3) (bothRows (fieldRow 21 op.toBits) (compareRow op))) (opEncodable op a.s) := by
  cases op with
  | tst | teq | cmp | cmn => exact ⟨rfl, rfl, rfl, rfl, fun h => checkCompare_eq_none.2 (h.resolve_left nofun)⟩
  | _ => exact ⟨rfl, rfl, rfl, rfl, fun _ => rfl⟩

theorem packed_dpShift (op : DpOp) (a : DpShiftArgs) : Packed (.dpShift op c a) c (a.toWord c op) 0#32
    (bothRows (fieldRow 25 0b000#3) (bothRows (fieldRow 21 op.toBits) (bothRows (bitRow 4 false) (compareRow op))))
    (opEncodable op a.s ∧ ¬ (op = .and ∧ c = .eq ∧ a = .zero)) := by
  cases op with
  | tst | teq | cmp | cmn => exact ⟨rfl, rfl, rfl, rfl, fun h => checkCompare_eq_none.2 (h.1.resolve_left nofun)⟩
  | and => exact ⟨rfl, rfl, rfl, rfl, fun h => if_neg fun hzero => h.2 ⟨rfl, hzero⟩⟩
  | _ => exact ⟨rfl, rfl, rfl, rfl, fun _ => rfl⟩

theorem packed_dpRegShift (op : DpOp) (a : DpRegArgs) : Packed (.dpRegShift op c a) c (a.toWord c op) 0#32
    (bothRows (fieldRow 25 0b000#3) (bothRows (fieldRow 21 op.toBits) (bothRows (bitRow 7 false)
      (bothRows (bitRow 4 true) (compareRow op))))) (opEncodable op a.s) := by
  cases op with
  | tst | teq | cmp | cmn => exact ⟨rfl, rfl, rfl, rfl, fun h => checkCompare_eq_none.2 (h.resolve_left nofun)⟩
  | _ => exact ⟨rfl, rfl, rfl, rfl, fun _ => rfl⟩

theorem packed_multiply (acc : Bool) (a : MulArgs) : Packed (.multiply acc c a) c (a.toWord c acc) 0#32
    (bothRows (fieldRow 22 0b000000#6) (bothRows (bitRow 21 acc) (fieldRow 4 0b1001#4))) True := by
  cases acc <;> exact ⟨rfl, rfl, rfl, rfl, fun _ => rfl⟩

theorem packed_lsImm (byte load : Bool) (a : LsImmArgs) : Packed (.lsImm byte load c a) c (a.toWord c byte load) 0#32
    (bothRows (fieldRow 25 0b010#3) (bothRows (bitRow 22 byte) (bitRow 20 load))) True := by
  cases byte <;> cases load <;> exact ⟨rfl, rfl, rfl, rfl, fun _ => rfl⟩

theorem packed_lsReg (byte load : Bool) (a : LsRegArgs) : Packed (.lsReg byte load c a) c (a.toWord c byte load) 0#32
    (bothRows (fieldRow 25 0b011#3) (bothRows (bitRow 22 byte) (bothRows (bitRow 20 load) (fieldRow 4 0#8)))) True := by
  cases byte <;> cases load <;> exact ⟨rfl, rfl, rfl, rfl, fun _ => rfl⟩

theorem packed_lsScaled (byte load : Bool) (a : LsScaledArgs) :
    Packed (.lsScaled byte load c a) c (a.toWord c byte load) 0#32
      (bothRows (fieldRow 25 0b011#3) (bothRows (bitRow 22 byte) (bothRows (bitRow 20 load) (bitRow 4 false))))
      (a.check = none) := by
  cases byte <;> cases load <;> exact ⟨rfl, rfl, rfl, rfl, fun h => h⟩

theorem packed_hwImm (k : HalfOp) (a : HwImmArgs) : Packed (.hwImm k c a) c (a.toWord c k.load k.sh) 0#32
    (bothRows (fieldRow 25 0b000#3) (bothRows (bitRow 22 true) (bothRows (bitRow 20 k.load)
      (bothRows (bitRow 7 true) (bothRows (fieldRow 5 k.sh) (bitRow 4 true)))))) True := by
  cases k <;> exact ⟨rfl, rfl, rfl, rfl, fun _ => rfl⟩

theorem packed_hwReg (k : HalfOp) (a : HwRegArgs) : Packed (.hwReg k c a) c (a.toWord c k.load k.sh) 0x00000F00#32
    (bothRows (fieldRow 25 0b000#3) (bothRows (bitRow 22 false) (bothRows (bitRow 20 k.load)
      (bothRows (bitRow 7 true) (bothRows (fieldRow 5 k.sh) (bitRow 4 true)))))) True := by
  cases k <;> exact ⟨rfl, rfl, rfl, rfl, fun _ => rfl⟩

theorem packed_block (load : Bool) (a : BlockArgs) : Packed (.block load c a) c (a.toWord c load) 0#32
    (bothRows (fieldRow 25 0b100#3) (bitRow 20 load)) True := by
  cases load <;> exact ⟨rfl, rfl, rfl, rfl, fun _ => rfl⟩

theorem packed_branch (link : Bool) (off : BitVec 24) :
    Packed (.branch link c off) c (c.toBits ++ 0b101#3 ++ bit1 link ++ off) 0#32
      (bothRows (fieldRow 25 0b101#3) (bitRow 24 link)) True := by
  cases link <;> exact ⟨rfl, rfl, rfl, rfl, fun _ => rfl⟩

end

/-! ## A word of a row -/

/-- What a decoded instruction keeps of its word. -/
structure Faithful (w : Word) (i : Instr) : Prop where
  cond : i.cond? = some (condOf w)
  encode : isNop i = false → Sys2Proof.encode i = w &&& ~~~droppedBits i
  row : Matches w (tableRow i)
  wellFormed : w ≠ 0#32 → i.WellFormed

section
variable {w : Word} {i : Instr} {p : Word} {row : Word × Word} {wf : Prop}

theorem Packed.faithful_dropped {dropped : Word} (hi : Packed i (condOf w) p dropped row wf)
    (hp : w &&& ~~~dropped = p) (hrow : Matches w row) (hwf : w ≠ 0#32 → wf) : Faithful w i where
  cond := hi.cond
  encode _ := by rw [hi.encode, hi.dropped, hp]
  row := hi.row ▸ hrow
  wellFormed hw := hi.wellFormed (hwf hw)

theorem Packed.faithful (hi : Packed i (condOf w) p 0#32 row wf) (hp : w = p) (hrow : Matches w row)
    (hwf : w ≠ 0#32 → wf) : Faithful w i :=
  hi.faithful_dropped (by rw [BitVec.not_zero, BitVec.and_allOnes, hp]) hrow hwf

/-- A field that a mask keeps. -/
theorem field_and_of_ones {m : Word} {lo n : Nat} (hm : field m lo n = BitVec.allOnes n) :
    field (w &&& m) lo n = field w lo n := by
  simp only [BitVec.extractLsb'_and, hm, BitVec.and_allOnes]

theorem flag_and_of_one {m : Word} {i : Nat} (hm : flag m i = true) : flag (w &&& m) i = flag w i := by
  simp only [BitVec.getLsbD_and, hm, Bool.and_true]

/-- Bits 11:8 dropped, a half-word transfer with a register offset is the word that the encoder packs (R72). -/
theorem HwRegArgs.dropped_eq_toWord {load : Bool} {sh : BitVec 2} (h25 : field w 25 3 = 0b000#3)
    (h22 : flag w 22 = false) (h20 : flag w 20 = load) (h7 : flag w 7 = true) (h5 : field w 5 2 = sh)
    (h4 : flag w 4 = true) : w &&& ~~~0x00000F00#32 = (ofWord w).toWord (condOf w) load sh := by
  have h8 : field (w &&& ~~~0x00000F00#32) 8 4 = 0#4 := by
    simp only [BitVec.extractLsb'_and]
    exact BitVec.and_zero
  simp (disch := decide) only [eq_toWord_iff, h8, condOf, ofWord, field_and_of_ones, flag_and_of_one, h25, h22, h20, h7,
    h5, h4, and_self]

/-- EVERY ROW keeps its word. -/
theorem Coded.faithful (h : Coded w i) : Faithful w i := by
  cases h with
  | swi h24 =>
    exact Packed.faithful ⟨rfl, rfl, rfl, (rfl : _ = fieldRow 24 0b1111#4), fun _ => rfl⟩
      (eq_encode_swi_iff.2 ⟨rfl, h24, rfl⟩) (matches_fieldRow h24) fun _ => trivial
  | branch link h25 h24 =>
    exact (packed_branch link _).faithful (eq_branchWord_iff.2 ⟨rfl, h25, h24, rfl⟩)
      ((matches_fieldRow h25).both (matches_bitRow h24)) fun _ => trivial
  | block load h25 h20 =>
    exact (packed_block load _).faithful (BlockArgs.eq_toWord_iff.2 ⟨rfl, h25, h20, rfl⟩)
      ((matches_fieldRow h25).both (matches_bitRow h20)) fun _ => trivial
  | nopCoprocessor h26 h24 => exact ⟨rfl, nofun, matches_fieldRow h26, fun _ => rfl⟩
  | nopUndefined h25 h4 => exact ⟨rfl, nofun, (matches_fieldRow h25).both (matches_bitRow h4), fun _ => rfl⟩
  | lsImm byte load h25 h22 h20 =>
    exact (packed_lsImm byte load _).faithful (LsImmArgs.eq_toWord_iff.2 ⟨rfl, h25, h22, h20, rfl⟩)
      ((matches_fieldRow h25).both ((matches_bitRow h22).both (matches_bitRow h20))) fun _ => trivial
  | lsReg byte load h25 h22 h20 h4 =>
    exact (packed_lsReg byte load _).faithful (LsRegArgs.eq_toWord_iff.2 ⟨rfl, h25, h22, h20, h4, rfl⟩)
      ((matches_fieldRow h25).both ((matches_bitRow h22).both ((matches_bitRow h20).both (matches_fieldRow h4))))
      fun _ => trivial
  | lsScaled byte load h25 h22 h20 h4 hwf =>
    exact (packed_lsScaled byte load _).faithful (LsScaledArgs.eq_toWord_iff.2 ⟨rfl, h25, h22, h20, h4, rfl⟩)
      ((matches_fieldRow h25).both ((matches_bitRow h22).both ((matches_bitRow h20).both (matches_bitRow h4))))
      fun _ => hwf
  | msrImm h23 h20 h12 =>
    exact Packed.faithful ⟨rfl, rfl, rfl, rfl, fun _ => rfl⟩ (MsrImmArgs.eq_toWord_iff.2 ⟨rfl, h23, h20, h12, rfl⟩)
      ((matches_fieldRow h23).both ((matches_fieldRow h20).both (matches_fieldRow h12))) fun _ => trivial
  | nopCompareImm h25 h23 h20 hmsr =>
    exact ⟨rfl, nofun, (matches_fieldRow h25).both ((matches_fieldRow h23).both (matches_bitRow h20)), fun _ => rfl⟩
  | dpImm op h25 h21 hwf =>
    exact (packed_dpImm op _).faithful (DpImmArgs.eq_toWord_iff.2 ⟨rfl, h25, h21, rfl⟩)
      ((matches_fieldRow h25).both ((matches_fieldRow h21).both (matches_compareRow hwf))) fun _ => hwf
  | multiply acc h22 h21 h4 =>
    exact (packed_multiply acc _).faithful (MulArgs.eq_toWord_iff.2 ⟨rfl, h22, h21, h4, rfl⟩)
      ((matches_fieldRow h22).both ((matches_bitRow h21).both (matches_fieldRow h4))) fun _ => trivial
  | nopMultiplySpace h25 h4 h22 =>
    exact ⟨rfl, nofun, (matches_fieldRow h25).both (matches_fieldRow h4), fun _ => rfl⟩
  | nopDoubleWord h25 h20 h4 =>
    have h6 : field w 6 2 = 0b11#2 := h4.elim (field_part · 2 2) (field_part · 2 2)
    have h4 : flag w 4 = true := h4.elim (flag_part · 0) (flag_part · 0)
    exact ⟨rfl, nofun, (matches_fieldRow h25).both ((matches_bitRow h20).both ((matches_fieldRow h6).both
      (matches_bitRow h4))), fun _ => rfl⟩
  | hwImm k h25 h22 h20 h7 h5 h4 =>
    exact (packed_hwImm k _).faithful (HwImmArgs.eq_toWord_iff.2 ⟨rfl, h25, h22, h20, h7, h5, h4, rfl⟩)
      ((matches_fieldRow h25).both ((matches_bitRow h22).both ((matches_bitRow h20).both ((matches_bitRow h7).both
        ((matches_fieldRow h5).both (matches_bitRow h4)))))) fun _ => trivial
  | hwReg k h25 h22 h20 h7 h5 h4 =>
    exact (packed_hwReg k _).faithful_dropped (HwRegArgs.dropped_eq_toWord h25 h22 h20 h7 h5 h4)
      ((matches_fieldRow h25).both ((matches_bitRow h22).both ((matches_bitRow h20).both ((matches_bitRow h7).both
        ((matches_fieldRow h5).both (matches_bitRow h4)))))) fun _ => trivial
  | mrs h23 h20 h16 h0 =>
    exact Packed.faithful ⟨rfl, rfl, rfl, rfl, fun _ => rfl⟩ (eq_encode_mrs_iff.2 ⟨rfl, h23, h20, h16, h0, rfl, rfl⟩)
      ((matches_fieldRow h23).both ((matches_fieldRow h20).both ((matches_fieldRow h16).both (matches_fieldRow h0))))
      fun _ => trivial
  | bx h20 h8 h4 =>
    exact Packed.faithful ⟨rfl, rfl, rfl, rfl, fun _ => rfl⟩ (eq_encode_bx_iff.2 ⟨rfl, h20, h8, h4, rfl⟩)
      ((matches_fieldRow h20).both ((matches_fieldRow h8).both (matches_fieldRow h4))) fun _ => trivial
  | msrReg h23 h20 h12 h4 =>
    exact Packed.faithful ⟨rfl, rfl, rfl, rfl, fun _ => rfl⟩ (MsrRegArgs.eq_toWord_iff.2 ⟨rfl, h23, h20, h12, h4, rfl⟩)
      ((matches_fieldRow h23).both ((matches_fieldRow h20).both ((matches_fieldRow h12).both (matches_fieldRow h4))))
      fun _ => trivial
  | nopCompareReg h25 h74 h23 h20 hmrs hbx hmsr =>
    exact ⟨rfl, nofun, (matches_fieldRow h25).both ((matches_fieldRow h23).both (matches_bitRow h20)), fun _ => rfl⟩
  | dpShift op h25 h21 h4 hwf =>
    have hp := DpShiftArgs.eq_toWord_iff.2 ⟨rfl, h25, h21, h4, rfl⟩
    refine (packed_dpShift op _).faithful hp ((matches_fieldRow h25).both ((matches_fieldRow h21).both
      ((matches_bitRow h4).both (matches_compareRow hwf)))) fun hw => ⟨hwf, ?_⟩
    rintro ⟨rfl, hc, ha⟩
    rw [hc, ha] at hp
    exact hw hp
  | dpRegShift op h25 h21 h7 h4 hwf =>
    exact (packed_dpRegShift op _).faithful (DpRegArgs.eq_toWord_iff.2 ⟨rfl, h25, h21, h7, h4, rfl⟩)
      ((matches_fieldRow h25).both ((matches_fieldRow h21).both ((matches_bitRow h7).both ((matches_bitRow h4).both
        (matches_compareRow hwf))))) fun _ => hwf

end

/-! ## The decoder by the table -/

theorem decode_of_ne {w : Word} (hw : w ≠ 0#32) : decode w = decodeShape w := if_neg hw

/-- Settles O2: a decoded instruction keeps its word (R85, R86). -/
theorem encodeOfDecode : Obligations.EncodeOfDecode := by
  unfold Obligations.EncodeOfDecode
  intro w
  by_cases hw : w = 0#32
  · subst hw
    exact ⟨rfl, fun h => absurd rfl h, fun _ => rfl⟩
  · rw [decode_of_ne hw]
    have h := (coded_decodeShape w).faithful
    exact ⟨h.wellFormed hw, fun _ => h.cond, h.encode⟩

/-- Settles O5: a word has the fixed fields of its row (R90). -/
theorem decodedRowMatches : Obligations.DecodedRowMatches := by
  unfold Obligations.DecodedRowMatches
  intro w
  by_cases hw : w = 0#32
  · subst hw
    rfl
  · rw [decode_of_ne hw]
    exact (coded_decodeShape w).faithful.row

end Sys2Proof
end

section
/-! The no-op spaces (30_encoding.md R85, R87, R88). -/

namespace Sys2Proof
open Machine

/-- The spaces whose words decode to a no-op (R88). -/
inductive NopSpace where
  | coprocessor | undefined | multiply | doubleWord | compareImm | compareReg

/-- The no-op of a space. -/
def NopSpace.instr (c : Cond) : NopSpace → Instr
  | .coprocessor => .nopCoprocessor c
  | .undefined => .nopUndefined c
  | .multiply => .nopMultiplySpace c
  | .doubleWord => .nopDoubleWord c
  | .compareImm => .nopCompareImm c
  | .compareReg => .nopCompareReg c

/-- The words of a space. -/
def NopSpace.holds (w : Word) : NopSpace → Prop
  | .coprocessor => field w 26 2 = 0b11#2 ∧ field w 24 4 ≠ 0b1111#4
  | .undefined => field w 25 3 = 0b011#3 ∧ flag w 4 = true
  | .multiply => field w 25 3 = 0b000#3 ∧ field w 4 4 = 0b1001#4 ∧ field w 22 6 ≠ 0#6
  | .doubleWord =>
    field w 25 3 = 0b000#3 ∧ flag w 20 = false ∧ (field w 4 4 = 0b1101#4 ∨ field w 4 4 = 0b1111#4)
  | .compareImm =>
    field w 25 3 = 0b001#3 ∧ field w 23 2 = 0b10#2 ∧ flag w 20 = false ∧
      ¬ (flag w 21 = true ∧ field w 12 4 = 0b1111#4)
  | .compareReg =>
    field w 25 3 = 0b000#3 ∧ ¬ (flag w 7 = true ∧ flag w 4 = true) ∧ field w 23 2 = 0b10#2 ∧ flag w 20 = false ∧
      ¬ (flag w 21 = false ∧ field w 16 4 = 0b1111#4 ∧ field w 0 12 = 0#12) ∧
      ¬ (field w 21 2 = 0b01#2 ∧ field w 8 12 = 0xFFF#12 ∧ field w 4 4 = 0b0001#4) ∧
      ¬ (flag w 21 = true ∧ field w 12 4 = 0b1111#4 ∧ field w 4 8 = 0#8)

theorem NopSpace.instr_injective (c : Cond) : Function.Injective (NopSpace.instr c) := by
  intro sp sp' h
  cases sp <;> cases sp' <;> simp [instr] at h ⊢

theorem NopSpace.isNop_instr (c : Cond) (sp : NopSpace) : isNop (sp.instr c) = true := by
  cases sp <;> rfl

section
variable {w : Word}

/-- A word of a space is of the row of its no-op. -/
theorem NopSpace.coded {sp : NopSpace} (h : sp.holds w) : Coded w (sp.instr (condOf w)) := by
  cases sp with
  | coprocessor => exact .nopCoprocessor h.1 h.2
  | undefined => exact .nopUndefined h.1 h.2
  | multiply =>
    obtain ⟨h25, h4, h22⟩ := h
    exact .nopMultiplySpace h25 h4 h22
  | doubleWord =>
    obtain ⟨h25, h20, h4⟩ := h
    exact .nopDoubleWord h25 h20 h4
  | compareImm =>
    obtain ⟨h25, h23, h20, hmsr⟩ := h
    exact .nopCompareImm h25 h23 h20 hmsr
  | compareReg =>
    obtain ⟨h25, h74, h23, h20, hmrs, hbx, hmsr⟩ := h
    exact .nopCompareReg h25 h74 h23 h20 hmrs hbx hmsr

/-- A word of a no-op's row is of its space. -/
theorem Coded.exists_nopSpace {i : Instr} (h : Coded w i) (hn : isNop i = true) :
    ∃ sp : NopSpace, sp.holds w ∧ i = sp.instr (condOf w) := by
  cases h with
  | nopCoprocessor h26 h24 => exact ⟨.coprocessor, ⟨h26, h24⟩, rfl⟩
  | nopUndefined h25 h4 => exact ⟨.undefined, ⟨h25, h4⟩, rfl⟩
  | nopMultiplySpace h25 h4 h22 => exact ⟨.multiply, ⟨h25, h4, h22⟩, rfl⟩
  | nopDoubleWord h25 h20 h4 => exact ⟨.doubleWord, ⟨h25, h20, h4⟩, rfl⟩
  | nopCompareImm h25 h23 h20 hmsr => exact ⟨.compareImm, ⟨h25, h23, h20, hmsr⟩, rfl⟩
  | nopCompareReg h25 h74 h23 h20 hmrs hbx hmsr => exact ⟨.compareReg, ⟨h25, h74, h23, h20, hmrs, hbx, hmsr⟩, rfl⟩
  | swi | msrImm | mrs | bx | msrReg => nomatch hn
  | branch b | block b | multiply b => cases b <;> nomatch hn
  | lsImm b l | lsReg b l | lsScaled b l => cases b <;> cases l <;> nomatch hn
  | hwImm k | hwReg k => cases k <;> nomatch hn
  | dpImm op | dpShift op | dpRegShift op => cases op <;> nomatch hn

theorem decode_eq_nop_iff (hw : w ≠ 0#32) (sp : NopSpace) : decode w = sp.instr (condOf w) ↔ sp.holds w := by
  rw [decode_of_ne hw]
  constructor
  · intro h
    obtain ⟨sp', hsp, hi⟩ := (coded_decodeShape w).exists_nopSpace (h ▸ sp.isNop_instr _)
    rwa [NopSpace.instr_injective _ (h.symm.trans hi)]
  · exact fun h => (NopSpace.coded h).decodeShape_eq

end

/-- Settles O3: a word decodes to the no-op of a space exactly when it is of that space (R88). -/
theorem noOpSpaces : Obligations.NoOpSpaces := by
  unfold Obligations.NoOpSpaces
  intro w hw
  refine ⟨decode_eq_nop_iff hw .coprocessor, decode_eq_nop_iff hw .undefined, decode_eq_nop_iff hw .multiply,
    decode_eq_nop_iff hw .doubleWord, decode_eq_nop_iff hw .compareImm, decode_eq_nop_iff hw .compareReg, fun hn => ?_⟩
  rw [decode_of_ne hw] at hn ⊢
  obtain ⟨sp, -, hi⟩ := (coded_decodeShape w).exists_nopSpace hn
  cases sp with
  | coprocessor => exact .inl hi
  | undefined => exact .inr (.inl hi)
  | multiply => exact .inr (.inr (.inl hi))
  | doubleWord => exact .inr (.inr (.inr (.inl hi)))
  | compareImm => exact .inr (.inr (.inr (.inr (.inl hi))))
  | compareReg => exact .inr (.inr (.inr (.inr (.inr hi))))

end Sys2Proof
end

section
/-! The round trip from an instruction to its word and back (30_encoding.md R86). -/

namespace Sys2Proof
open Machine

/-! ## The word of an instruction is of its row -/

section
variable {w : Word} {c : Cond}

theorem coded_dpImm {op : DpOp} {a : DpImmArgs} (hw : w = a.toWord c op) (hwf : opEncodable op a.s) :
    Coded w (.dpImm op c a) := by
  obtain ⟨rfl, h25, h21, rfl⟩ := DpImmArgs.eq_toWord_iff.1 hw
  exact .dpImm op h25 h21 hwf

theorem coded_dpShift {op : DpOp} {a : DpShiftArgs} (hw : w = a.toWord c op) (hwf : opEncodable op a.s) :
    Coded w (.dpShift op c a) := by
  obtain ⟨rfl, h25, h21, h4, rfl⟩ := DpShiftArgs.eq_toWord_iff.1 hw
  exact .dpShift op h25 h21 h4 hwf

theorem coded_dpRegShift {op : DpOp} {a : DpRegArgs} (hw : w = a.toWord c op) (hwf : opEncodable op a.s) :
    Coded w (.dpRegShift op c a) := by
  obtain ⟨rfl, h25, h21, h7, h4, rfl⟩ := DpRegArgs.eq_toWord_iff.1 hw
  exact .dpRegShift op h25 h21 h7 h4 hwf

theorem coded_multiply {acc : Bool} {a : MulArgs} (hw : w = a.toWord c acc) : Coded w (.multiply acc c a) := by
  obtain ⟨rfl, h22, h21, h4, rfl⟩ := MulArgs.eq_toWord_iff.1 hw
  exact .multiply acc h22 h21 h4

theorem coded_lsImm {byte load : Bool} {a : LsImmArgs} (hw : w = a.toWord c byte load) :
    Coded w (.lsImm byte load c a) := by
  obtain ⟨rfl, h25, h22, h20, rfl⟩ := LsImmArgs.eq_toWord_iff.1 hw
  exact .lsImm byte load h25 h22 h20

theorem coded_lsReg {byte load : Bool} {a : LsRegArgs} (hw : w = a.toWord c byte load) :
    Coded w (.lsReg byte load c a) := by
  obtain ⟨rfl, h25, h22, h20, h4, rfl⟩ := LsRegArgs.eq_toWord_iff.1 hw
  exact .lsReg byte load h25 h22 h20 h4

theorem coded_lsScaled {byte load : Bool} {a : LsScaledArgs} (hw : w = a.toWord c byte load) (hwf : a.check = none) :
    Coded w (.lsScaled byte load c a) := by
  obtain ⟨rfl, h25, h22, h20, h4, rfl⟩ := LsScaledArgs.eq_toWord_iff.1 hw
  exact .lsScaled byte load h25 h22 h20 h4 hwf

theorem coded_hwImm {k : HalfOp} {a : HwImmArgs} (hw : w = a.toWord c k.load k.sh) : Coded w (.hwImm k c a) := by
  obtain ⟨rfl, h25, h22, h20, h7, h5, h4, rfl⟩ := HwImmArgs.eq_toWord_iff.1 hw
  exact .hwImm k h25 h22 h20 h7 h5 h4

theorem coded_hwReg {k : HalfOp} {a : HwRegArgs} (hw : w = a.toWord c k.load k.sh) : Coded w (.hwReg k c a) := by
  obtain ⟨rfl, h25, h22, h20, -, h7, h5, h4, rfl⟩ := HwRegArgs.eq_toWord_iff.1 hw
  exact .hwReg k h25 h22 h20 h7 h5 h4

theorem coded_block {load : Bool} {a : BlockArgs} (hw : w = a.toWord c load) : Coded w (.block load c a) := by
  obtain ⟨rfl, h25, h20, rfl⟩ := BlockArgs.eq_toWord_iff.1 hw
  exact .block load h25 h20

theorem coded_branch {link : Bool} {off : BitVec 24} (hw : w = c.toBits ++ 0b101#3 ++ bit1 link ++ off) :
    Coded w (.branch link c off) := by
  obtain ⟨rfl, h25, h24, rfl⟩ := eq_branchWord_iff.1 hw
  exact .branch link h25 h24

theorem coded_swi {n : BitVec 24} (hw : w = encode (.swi c n)) : Coded w (.swi c n) := by
  obtain ⟨rfl, h24, rfl⟩ := eq_encode_swi_iff.1 hw
  exact .swi h24

theorem coded_mrs {spsr : Bool} {rd : Reg} (hw : w = encode (.mrs c spsr rd)) : Coded w (.mrs c spsr rd) := by
  obtain ⟨rfl, h23, h20, h16, h0, rfl, rfl⟩ := eq_encode_mrs_iff.1 hw
  exact .mrs h23 h20 h16 h0

theorem coded_bx {rm : Reg} (hw : w = encode (.bx c rm)) : Coded w (.bx c rm) := by
  obtain ⟨rfl, h20, h8, h4, rfl⟩ := eq_encode_bx_iff.1 hw
  exact .bx h20 h8 h4

theorem coded_msrReg {a : MsrRegArgs} (hw : w = a.toWord c) : Coded w (.msrReg c a) := by
  obtain ⟨rfl, h23, h20, h12, h4, rfl⟩ := MsrRegArgs.eq_toWord_iff.1 hw
  exact .msrReg h23 h20 h12 h4

theorem coded_msrImm {a : MsrImmArgs} (hw : w = a.toWord c) : Coded w (.msrImm c a) := by
  obtain ⟨rfl, h23, h20, h12, rfl⟩ := MsrImmArgs.eq_toWord_iff.1 hw
  exact .msrImm h23 h20 h12

/-- The word that the encoder picks of a no-op space is of that space. -/
theorem NopSpace.coded_append {bits : BitVec 28} (sp : NopSpace) (hw : w = c.toBits ++ bits) (h : sp.holds w) :
    Coded w (sp.instr c) := by
  obtain ⟨hc, -⟩ := (word_eq_append_iff rfl rfl).1 hw
  rw [← eq_condBits_iff.1 hc]
  exact NopSpace.coded h

end

/-- The fields of a no-op's word lie below its condition. -/
theorem NopSpace.holds_encode (c : Cond) (sp : NopSpace) : sp.holds (encode (sp.instr c)) := by
  cases sp <;> simp (disch := decide) only [holds, instr, encode, extract_append_low, bit_append_low] <;> decide

/-- EVERY INSTRUCTION but the word 0's is encoded in a word of its row. -/
theorem coded_encode {i : Instr} (hwf : i.WellFormed) (hzero : i ≠ .zeroWord) : Coded (encode i) i := by
  cases i with
  | zeroWord => exact absurd rfl hzero
  | swi c n => exact coded_swi rfl
  | b c off => exact coded_branch (link := false) rfl
  | bl c off => exact coded_branch (link := true) rfl
  | stm c a => exact coded_block (load := false) rfl
  | ldm c a => exact coded_block (load := true) rfl
  | nopCoprocessor c => exact NopSpace.coprocessor.coded_append rfl (NopSpace.holds_encode c .coprocessor)
  | nopUndefined c => exact NopSpace.undefined.coded_append rfl (NopSpace.holds_encode c .undefined)
  | nopCompareImm c => exact NopSpace.compareImm.coded_append rfl (NopSpace.holds_encode c .compareImm)
  | nopMultiplySpace c => exact NopSpace.multiply.coded_append rfl (NopSpace.holds_encode c .multiply)
  | nopDoubleWord c => exact NopSpace.doubleWord.coded_append rfl (NopSpace.holds_encode c .doubleWord)
  | nopCompareReg c => exact NopSpace.compareReg.coded_append rfl (NopSpace.holds_encode c .compareReg)
  | strImm | ldrImm | strbImm | ldrbImm => exact coded_lsImm rfl
  | strReg | ldrReg | strbReg | ldrbReg => exact coded_lsReg rfl
  | strScaled | ldrScaled | strbScaled | ldrbScaled => exact coded_lsScaled rfl hwf
  | strhImm => exact coded_hwImm (k := .strh) rfl
  | ldrhImm => exact coded_hwImm (k := .ldrh) rfl
  | ldrsbImm => exact coded_hwImm (k := .ldrsb) rfl
  | ldrshImm => exact coded_hwImm (k := .ldrsh) rfl
  | strhReg => exact coded_hwReg (k := .strh) rfl
  | ldrhReg => exact coded_hwReg (k := .ldrh) rfl
  | ldrsbReg => exact coded_hwReg (k := .ldrsb) rfl
  | ldrshReg => exact coded_hwReg (k := .ldrsh) rfl
  | mul | mla => exact coded_multiply rfl
  | mrs => exact coded_mrs rfl
  | bx => exact coded_bx rfl
  | msrReg => exact coded_msrReg rfl
  | msrImm => exact coded_msrImm rfl
  | tstImm | teqImm | cmpImm | cmnImm => exact coded_dpImm rfl (.inr (checkCompare_eq_none.1 hwf))
  | tstShift | teqShift | cmpShift | cmnShift => exact coded_dpShift rfl (.inr (checkCompare_eq_none.1 hwf))
  | tstRegShift | teqRegShift | cmpRegShift | cmnRegShift =>
    exact coded_dpRegShift rfl (.inr (checkCompare_eq_none.1 hwf))
  | andImm | eorImm | subImm | rsbImm | addImm | adcImm | sbcImm | rscImm | orrImm | movImm | bicImm | mvnImm =>
    exact coded_dpImm rfl (.inl rfl)
  | andShift | eorShift | subShift | rsbShift | addShift | adcShift | sbcShift | rscShift | orrShift | movShift
  | bicShift | mvnShift =>
    exact coded_dpShift rfl (.inl rfl)
  | andRegShift | eorRegShift | subRegShift | rsbRegShift | addRegShift | adcRegShift | sbcRegShift | rscRegShift
  | orrRegShift | movRegShift | bicRegShift | mvnRegShift =>
    exact coded_dpRegShift rfl (.inl rfl)

/-! ## The round trip -/

/-- The decoder's AND of the word 0 is not well formed (R89), so no other instruction's word is 0. -/
theorem decode_encode {i : Instr} (hwf : i.WellFormed) : decode (encode i) = i := by
  by_cases hzero : i = .zeroWord
  · rw [hzero]
    rfl
  have hshape : decodeShape (encode i) = i := (coded_encode hwf hzero).decodeShape_eq
  have hne : encode i ≠ 0#32 := by
    intro h
    have hand : i = .andShift .eq DpShiftArgs.zero := by rw [← hshape, h]; rfl
    rw [hand] at hwf
    exact absurd hwf (by decide)
  rw [decode_of_ne hne, hshape]

/-- The bytes of a word in either order are read back as the word, and no byte after them is read. -/
theorem decodeBytes_bytesOfWord (e : Endian) (w : Word) (rest : List Byte) :
    decodeBytes e (bytesOfWord e w ++ rest) = .ok (decode w, rest) := by
  have h16 : field w 24 8 ++ field w 16 8 = field w 16 16 := field_append_field w 16 8 8
  have h8 : field w 16 16 ++ field w 8 8 = field w 8 24 := field_append_field w 8 8 16
  have h0 : field w 8 24 ++ field w 0 8 = field w 0 32 := field_append_field w 0 8 24
  have hw : wordOfBytes .big (field w 24 8) (field w 16 8) (field w 8 8) (field w 0 8) = w := by
    rw [wordOfBytes, h16, h8, h0, field_whole]
  cases e with
  | little => exact congrArg (fun v => Except.ok (decode v, rest)) hw
  | big => exact congrArg (fun v => Except.ok (decode v, rest)) hw

/-- Settles O1: the encoder's word is of the instruction's row, and the decoder reads the row's fields back (R86). -/
theorem decodeOfEncode : Obligations.DecodeOfEncode := by
  unfold Obligations.DecodeOfEncode
  intro i hwf
  refine ⟨decode_encode hwf, fun e rest => ?_⟩
  rw [encodeBytes, decodeBytes_bytesOfWord, decode_encode hwf]

end Sys2Proof
end

section
/-! The rotated immediate (30_encoding.md R80, 41_data_processing.md R108). -/

namespace Sys2Proof.Machine

/-- A rotation to the right as arithmetic: the low bits come in at the top. -/
theorem toNat_rotateRight_eq (v : Word) {k : Nat} (hk : k < 32) :
    (v.rotateRight k).toNat = v.toNat / 2 ^ k + v.toNat % 2 ^ k * 2 ^ (32 - k) := by
  have hpow : 2 ^ 32 = 2 ^ k * 2 ^ (32 - k) := by rw [← pow_add, Nat.add_sub_cancel' hk.le]
  have hlow : v.toNat / 2 ^ k < 2 ^ (32 - k) := by
    rw [Nat.div_lt_iff_lt_mul (by positivity), mul_comm, ← hpow]
    exact v.isLt
  have htop : v.toNat <<< (32 - k) % 2 ^ 32 = (v.toNat % 2 ^ k) <<< (32 - k) := by
    rw [Nat.shiftLeft_eq, Nat.shiftLeft_eq, hpow, Nat.mul_mod_mul_right]
  rw [BitVec.toNat_rotateRight, Nat.mod_eq_of_lt hk, htop, Nat.shiftRight_eq_div_pow, Nat.or_comm,
    ← Nat.shiftLeft_add_eq_or_of_lt hlow, Nat.shiftLeft_eq, Nat.add_comm]

theorem getLsbD_eq_bitOf (v : Word) (k : Nat) : v.getLsbD k = bitOf v.toNat k := by
  rw [bitOf, BitVec.getLsbD, Nat.testBit_eq_decide_div_mod_eq]

/-- Settles O11: the rotated immediate and its carry-out as arithmetic (R80, R108). -/
theorem rotatedImmediate : Obligations.RotatedImmediate := by
  unfold Obligations.RotatedImmediate
  intro rot imm8 c
  refine ⟨?_, fun h => if_pos h, fun h => ?_⟩
  · have hwidth : (imm8.setWidth 32).toNat = imm8.toNat := BitVec.toNat_setWidth_of_le (by decide)
    rw [rotatedImm, toNat_rotateRight_eq _ (by omega), hwidth]
  · rw [rotatedCarry, if_neg h, getLsbD_eq_bitOf]

end Sys2Proof.Machine
end

section
/-! Conditions (40_execution_cycle.md R98, R99): the table by field value, and what the comparing conditions say of the
operands after CMP (41_data_processing.md R110, R113, R126). -/

namespace Sys2Proof.Machine

/-! ## The flags an ALU result sets (41_data_processing.md R112, R113) -/

@[simp] theorem psrN_flagsOf (p : Word) (r : AluResult) : psrN (flagsOf p r) = r.value.msb := by
  rw [psrN, getLsbD_flagsOf, if_pos rfl]

@[simp] theorem psrZ_flagsOf (p : Word) (r : AluResult) : psrZ (flagsOf p r) = decide (r.value = 0#32) := by
  rw [psrZ, getLsbD_flagsOf, if_neg (by decide), if_pos rfl]

@[simp] theorem psrC_flagsOf (p : Word) (r : AluResult) : psrC (flagsOf p r) = r.carry := by
  rw [psrC, getLsbD_flagsOf, if_neg (by decide), if_neg (by decide), if_pos rfl]

@[simp] theorem psrV_flagsOf (p : Word) (r : AluResult) : psrV (flagsOf p r) = r.overflow.getD (psrV p) := by
  rw [psrV, getLsbD_flagsOf, if_neg (by decide), if_neg (by decide), if_neg (by decide), if_pos rfl, psrV]

/-! ## A subtraction is AddWithCarry(a, NOT b, 1) (41_data_processing.md R110) -/

section
variable (a b : Word)

@[simp] theorem addWithCarry_not_value : (addWithCarry a (~~~b) true).value = a - b := by
  refine BitVec.eq_of_toNat_eq ?_
  have hb := b.isLt
  simp only [addWithCarry, BitVec.toNat_ofNat, BitVec.toNat_not, BitVec.toNat_sub, Bool.toNat_true]
  omega

/-- The carry is NOT borrow. -/
@[simp] theorem addWithCarry_not_carry : (addWithCarry a (~~~b) true).carry = decide (b.toNat ≤ a.toNat) := by
  have hb := b.isLt
  simp only [addWithCarry, BitVec.toNat_not, Bool.toNat_true]
  exact decide_eq_decide.2 (by omega)

@[simp] theorem addWithCarry_not_overflow :
    (addWithCarry a (~~~b) true).overflow = some (a.msb != b.msb && (a - b).msb != a.msb) := by
  rw [← addWithCarry_not_value]
  cases hb : b.msb <;> simp [addWithCarry, hb]

/-- The sign of the difference, corrected by the overflow, is the signed order: by the signs of the operands. -/
theorem sign_eq_overflow_iff : (a - b).msb = (a.msb != b.msb && (a - b).msb != a.msb) ↔ b.toInt ≤ a.toInt := by
  have hdiff : (a - b).msb = decide (2 ^ 31 ≤ (2 ^ 32 - b.toNat + a.toNat) % 2 ^ 32) := by
    rw [BitVec.msb_eq_decide, BitVec.toNat_sub]
  have ha := a.isLt
  have hb := b.isLt
  rw [BitVec.toInt_eq_msb_cond, BitVec.toInt_eq_msb_cond]
  cases hma : a.msb <;> cases hmb : b.msb
  all_goals
    simp only [BitVec.msb_eq_true_iff_two_mul_ge, BitVec.msb_eq_false_iff_two_mul_lt] at hma hmb
    simp [hdiff]
    omega

end

/-! ## The flags of CMP (41_data_processing.md R126) -/

section
variable (p a b : Word) (sc cin : Bool)

theorem psrZ_cmp : psrZ (flagsOf p (alu .cmp a b sc cin)) = decide (a = b) := by
  rw [psrZ_flagsOf, alu, addWithCarry_not_value]
  exact decide_eq_decide.2 sub_eq_zero

theorem psrC_cmp : psrC (flagsOf p (alu .cmp a b sc cin)) = decide (b.toNat ≤ a.toNat) := by
  rw [psrC_flagsOf, alu, addWithCarry_not_carry]

theorem psrN_beq_psrV_cmp :
    (psrN (flagsOf p (alu .cmp a b sc cin)) == psrV (flagsOf p (alu .cmp a b sc cin))) =
      decide (b.toInt ≤ a.toInt) := by
  rw [psrN_flagsOf, psrV_flagsOf, alu, addWithCarry_not_value, addWithCarry_not_overflow]
  exact decide_eq_decide.2 (sign_eq_overflow_iff a b)

theorem psrN_bne_psrV_cmp :
    (psrN (flagsOf p (alu .cmp a b sc cin)) != psrV (flagsOf p (alu .cmp a b sc cin))) =
      decide (a.toInt < b.toInt) := by
  rw [bne, psrN_beq_psrV_cmp, ← decide_not, decide_eq_decide, not_le]

end

/-- Settles O13: Z is equality, C the unsigned order and N = V the signed one; the strict conditions take equality out
(R98, R110, R113, R126). -/
theorem conditionsAfterCompare : Obligations.ConditionsAfterCompare := by
  unfold Obligations.ConditionsAfterCompare
  intro p a b sc cin
  have hnat : a = b ↔ a.toNat = b.toNat := BitVec.toNat_inj.symm
  have hint : a = b ↔ a.toInt = b.toInt := BitVec.toInt_inj.symm
  simp only [condPassed, psrZ_cmp, psrC_cmp, psrN_beq_psrV_cmp, psrN_bne_psrV_cmp, ← decide_not, ← Bool.decide_and,
    ← Bool.decide_or, decide_eq_decide, true_and]
  refine ⟨not_le, ?_, ?_, ?_, ?_⟩
  · rw [hnat]; omega
  · rw [hnat]; omega
  · rw [hint]; omega
  · rw [hint]; omega

/-- Settles O12: a field is the code of its condition, whose formula is the table's (R98, R99). -/
theorem conditionTable : Obligations.ConditionTable := by
  unfold Obligations.ConditionTable
  intro f p
  obtain ⟨c, rfl⟩ : ∃ c : Cond, f = c.toBits := ⟨Cond.ofBits f, (Cond.toBits_ofBits f).symm⟩
  rw [Cond.ofBits_toBits]
  cases c <;> simp [condPassed, Cond.toBits, psrN, psrZ, psrC, psrV]

end Sys2Proof.Machine
end

section
/-! The execution cycle (40_execution_cycle.md R93 to R105): a skipped instruction, the halts, the step of a core that
does not wait, and the run. -/

namespace Sys2Proof.Machine

/-! ## The end of a step (60_exceptions.md R168) -/

@[simp] theorem State.advance_running (s : State) (n : Option Word) (tr : Bool) : (s.advance n tr).running = true := by
  simp [State.running]

@[simp] theorem State.halt_running (s : State) (r : HaltReason) : (s.halt r).running = false := by
  simp [State.running]

theorem endOfStep_advance (s : State) (n : Option Word) (tr : Bool) :
    endOfStep (.next (s.advance n tr)) = .next (s.advance n tr).takeIrq := by
  rw [endOfStep_next, State.advance_running, if_pos rfl]

theorem endOfStep_halt (s : State) (r : HaltReason) : endOfStep (.next (s.halt r)) = .next (s.halt r) := by
  rw [endOfStep_next, State.halt_running, if_neg Bool.false_ne_true]

/-- Settles O14: the skip is the advance alone (R97), which leaves the core running, so that the test for an IRQ
follows (R168). -/
theorem failedConditionSkips : Obligations.FailedConditionSkips := by
  unfold Obligations.FailedConditionSkips
  intro i c s hi hc
  have hexec := exec_of_failed hi hc
  refine ⟨s.advance none s.traced, hexec, onlyR15_advance s, fun raw hw hb hr hd => ?_⟩
  rw [step_of_fetch hw hb hr, hd, hexec, endOfStep_advance]

/-! ## The halting instructions (40_execution_cycle.md R94, R96) -/

/-- The exit halt as one record update: r15 is F + 8, where it was. -/
theorem exitHalt_eq (s : State) : exitHalt s = { s with
    r15 := s.execAddr + 8#32, halted := some .exit, waitingLine := false,
    trace := (exitHalt s).trace, traceCount := (exitHalt s).traceCount } := by
  have hr15 : s.r15 + 4#32 - 4#32 = s.execAddr + 8#32 := by
    rw [State.execAddr, BitVec.add_sub_cancel, BitVec.sub_add_cancel]
  rw [← hr15]
  unfold exitHalt State.decPc State.halt
  conv => lhs; rw [State.advance_eq]
  rfl

theorem execAddr_exitHalt (s : State) : (exitHalt s).execAddr = s.execAddr := by
  rw [exitHalt_eq, State.execAddr, BitVec.add_sub_cancel]

theorem exec_swi_exit {c : Cond} {s : State} (hc : condPassed c s.cpsr = true) :
    exec (.swi c swiExit) s = .next (exitHalt s) := by
  show execSwi c swiExit s = _
  rw [execSwi, if_pos hc, swiOutcome, if_pos rfl]

/-- Settles O32: the exit SWI takes the advance of r15 back (R96), and the word 0 never advances (R94). -/
theorem haltingInstructions : Obligations.HaltingInstructions := by
  unfold Obligations.HaltingInstructions
  exact ⟨fun c s hc => ⟨exitHalt s, exec_swi_exit hc, execAddr_exitHalt s, rfl, exitHalt_eq s⟩, fun s => rfl⟩

/-! ## The step of a core that does not wait (40_execution_cycle.md R93) -/

/-- The decoder and the RAM put the four bytes of a word together alike (20_memory.md R45). -/
theorem assemble_word (e : Endian) (b : Nat → Byte) : assemble e .word b = wordOfBytes e (b 0) (b 1) (b 2) (b 3) := by
  cases e <;> rfl

/-- Four bytes that decode to an instruction are the word a fetch reads. -/
theorem memRead_of_decodeBytes {s : State} {a : Word} {i : Instr} (hb : s.inRam a .word) (ha : aligned a .word)
    (hd : decodeBytes s.endian [s.byteAt a.toNat, s.byteAt (a.toNat + 1), s.byteAt (a.toNat + 2),
      s.byteAt (a.toNat + 3)] = .ok (i, [])) :
    ∃ raw, memRead s a .word = .ok raw ∧ decode raw = i := by
  refine ⟨_, memRead_aligned hb ha, ?_⟩
  rw [assemble_word]
  cases hd
  rfl

/-- Settles O44: the word fetched is the one its four bytes decode as (R45, R93), and the end of the step adds the IRQ
test to a next state alone (R168). -/
theorem stepRunsDecodedInstruction : Obligations.StepRunsDecodedInstruction := by
  unfold Obligations.StepRunsDecodedInstruction
  intro s i hw hin ha hb hd
  obtain ⟨raw, hr, rfl⟩ := memRead_of_decodeBytes hin ha hd
  rw [step_of_fetch hw hb hr]
  refine ⟨fun t ht => ?_, fun f hf => ?_, fun r hx => ?_⟩
  · rw [ht, endOfStep_next]
  · rw [hf]; rfl
  · rw [hx]; rfl

/-! ## What stops a step before it decodes (40_execution_cycle.md R94, R103) -/

theorem isBreakpoint_eq_true {s : State} {a : Word} : s.isBreakpoint a = true ↔ a ∈ s.breakpoints := List.contains_iff_mem

theorem isBreakpoint_eq_false {s : State} {a : Word} : s.isBreakpoint a = false ↔ a ∉ s.breakpoints := by
  rw [← isBreakpoint_eq_true, Bool.not_eq_true]

section
variable {s : State} (hw : s.waitingLine = false)
include hw

theorem step_of_breakpoint (hb : s.isBreakpoint s.execAddr = true) : step s = .next (s.halt .breakpoint) := by
  rw [step, driverStep, if_neg (by simp [hw]), if_pos hb]

theorem step_of_fetch_error {r : Reason} (hb : s.isBreakpoint s.execAddr = false)
    (hr : memRead s s.execAddr .word = .error r) : step s = .fault (r.at s.execAddr) := by
  rw [step, driverStep, if_neg (by simp [hw]), if_neg (by simp [hb]), hr]

theorem step_of_zero_word (hb : s.isBreakpoint s.execAddr = false)
    (hr : memRead s s.execAddr .word = .ok 0#32) : step s = .next (s.halt .zeroWord) :=
  (step_of_fetch hw hb hr).trans (endOfStep_halt s .zeroWord)

end

/-- A misaligned word reads as 0 (20_memory.md R44), and so do four zero bytes. -/
theorem memRead_word_eq_zero {s : State} {a : Word} (hb : s.inRam a .word)
    (h : a.toNat % 4 ≠ 0 ∨ ∀ k, k < 4 → s.byteAt (a.toNat + k) = 0#8) : memRead s a .word = .ok 0#32 := by
  by_cases ha : aligned a .word
  · have hzero := h.resolve_left (not_not.2 ha)
    rw [memRead_aligned hb ha, assemble_congr s.endian (n := .word) (b' := fun _ => 0#8) hzero]
    cases s.endian <;> rfl
  · exact memRead_misaligned hb ha

/-- Settles O45: the breakpoint comes before the fetch (R103), the bounds before the alignment (R43), and a word read as
0 halts (R94); a waiting core only goes on waiting (R11). -/
theorem stepStopsBeforeDecode : Obligations.StepStopsBeforeDecode := by
  unfold Obligations.StepStopsBeforeDecode
  refine fun s => ⟨step_of_waiting_no_line, fun hw hb => step_of_breakpoint hw (isBreakpoint_eq_true.2 hb),
    fun hw hb hout => ?_, fun hw hb hin hzero => ?_⟩
  · exact step_of_fetch_error hw (isBreakpoint_eq_false.2 hb) (memRead_outside (not_le.2 hout))
  · exact step_of_zero_word hw (isBreakpoint_eq_false.2 hb) (memRead_word_eq_zero hin hzero)

/-! ## The run (40_execution_cycle.md R102) -/

@[simp] theorem State.takeIrq_halted (s : State) : s.takeIrq.halted = s.halted := by
  rcases s.takeIrq_cases with ⟨-, -, e⟩ | ⟨-, e⟩ <;> rw [e]
  rfl

theorem halted_of_ended {u t : State} (h : Ended u t) : t.halted = u.halted := by
  rcases h with ⟨-, rfl⟩ | ⟨-, rfl⟩
  · rfl
  · exact u.takeIrq_halted

theorem halted_serviceReadline {e t : State} {f : Word} (h : serviceReadline e f = .next t) : t.halted = e.halted := by
  rcases serviceReadline_next h with ⟨-, rfl⟩ | ⟨_, _, _, _, -, hw⟩
  · rfl
  · exact (writeLine_ok hw).1.halted

theorem halted_execSwi {c : Cond} {n : BitVec 24} {s t : State} (h : execSwi c n s = .next t) :
    t.halted = none ∨ t.halted = some .exit := by
  rcases execSwi_next h with rfl | ⟨-, rfl⟩ | ⟨-, rfl⟩ | ⟨-, hr⟩
  · exact .inl (State.advance_halted ..)
  · exact .inr rfl
  · exact .inl (swiEntry_halted s)
  · exact .inl ((halted_serviceReadline hr).trans (swiEntry_halted s))

/-- An instruction leaves a running core or halts it for one of its two reasons (R94, R96). -/
theorem halted_exec {i : Instr} {s t : State} (h : exec i s = .next t) :
    t.halted = none ∨ t.halted = some .zeroWord ∨ t.halted = some .exit := by
  rcases exec_next h with ⟨-, rfl⟩ | ⟨c, n, -, hswi⟩ | ⟨u, n, -, rfl⟩
  · exact .inr (.inl rfl)
  · exact (halted_execSwi hswi).imp_right .inr
  · exact .inl (State.advance_halted ..)

/-- No step writes the stopped mark: it can only stand there from before a wait. -/
theorem stopped_of_step {s t : State} (h : step s = .next t) (ht : t.halted = some .stopped) :
    s.halted = some .stopped ∧ s.waitingLine = true := by
  rcases step_next h with ⟨hw, u, hu, hend⟩ | ⟨-, -, rfl⟩ | ⟨-, -, raw, u, -, hu, hend⟩
  · exact ⟨by rw [← ht, halted_of_ended hend, halted_serviceReadline hu], hw⟩
  · cases ht
  · rw [halted_of_ended hend] at ht
    rcases halted_exec hu with h | h | h <;> rw [h] at ht <;> cases ht

theorem keepRunning_of_step {s t : State} (h : step s = .next t) : t.keepRunning = s.keepRunning := by
  obtain ⟨-, -, -, -, -, hkeep, -⟩ := stepKeepsFixed s t h
  exact hkeep

section
variable {s : State} {n : Nat}

/-- A clear flag stops the run before the step. -/
theorem run_succ_of_stopped (hw : s.waitingLine = false) (hk : s.keepRunning = false) :
    run (n + 1) s = .next (s.halt .stopped) := by
  simp [run, hw, hk]

section
variable (hgo : s.waitingLine = true ∨ s.keepRunning = true)
include hgo

theorem run_succ_of_next {t : State} (h : step s = .next t) :
    run (n + 1) s = if t.halted.isSome then .next t else run n t := by
  have hdriver : driverStep s = .next t := h
  rw [run, if_pos ((Bool.or_eq_true ..).mpr hgo), hdriver]

theorem run_succ_of_fault {f : Fault} (h : step s = .fault f) : run (n + 1) s = .fault f := by
  have hdriver : driverStep s = .fault f := h
  rw [run, if_pos ((Bool.or_eq_true ..).mpr hgo), hdriver]

theorem run_succ_of_refused {r : Refusal} (h : step s = .refused r) : run (n + 1) s = .refused r := by
  have hdriver : driverStep s = .refused r := h
  rw [run, if_pos ((Bool.or_eq_true ..).mpr hgo), hdriver]

end

/-- Everything a run of one more step answers with a next state. -/
theorem run_succ_next {t : State} (h : run (n + 1) s = .next t) :
    (s.waitingLine = false ∧ s.keepRunning = false ∧ t = s.halt .stopped) ∨
    step s = .next t ∨ ∃ u, step s = .next u ∧ u.halted = none ∧ run n u = .next t := by
  by_cases hgo : s.waitingLine = true ∨ s.keepRunning = true
  · right
    cases hs : step s with
    | next u =>
      rw [run_succ_of_next hgo hs] at h
      cases hu : u.halted with
      | some r => rw [hu] at h; exact .inl h
      | none => rw [hu] at h; exact .inr ⟨u, rfl, hu, h⟩
    | fault f => rw [run_succ_of_fault hgo hs] at h; cases h
    | refused r => rw [run_succ_of_refused hgo hs] at h; cases h
  · rw [not_or, Bool.not_eq_true, Bool.not_eq_true] at hgo
    obtain ⟨hw, hk⟩ := hgo
    rw [run_succ_of_stopped hw hk] at h
    cases h
    exact .inl ⟨hw, hk, rfl⟩

end

theorem keepRunning_of_run {n : Nat} {s t : State} (h : run n s = .next t) : t.keepRunning = s.keepRunning := by
  induction n generalizing s with
  | zero => cases h; rfl
  | succ n ih =>
    rcases run_succ_next h with ⟨-, -, rfl⟩ | hs | ⟨u, hs, -, hrun⟩
    · rfl
    · exact keepRunning_of_step hs
    · exact (ih hrun).trans (keepRunning_of_step hs)

/-- A run ends stopped by the flag, or in a stopped mark that stood there when it began. -/
theorem stopped_of_run {n : Nat} {s t : State} (h : run n s = .next t) (ht : t.halted = some .stopped) :
    s.keepRunning = false ∨ s.halted = some .stopped ∧ (n = 0 ∨ s.waitingLine = true) := by
  induction n generalizing s with
  | zero => cases h; exact .inr ⟨ht, .inl rfl⟩
  | succ n ih =>
    rcases run_succ_next h with ⟨-, hk, -⟩ | hs | ⟨u, hs, hu, hrun⟩
    · exact .inl hk
    · exact .inr ((stopped_of_step hs ht).imp_right .inr)
    · rcases ih hrun with hk | ⟨hmark, -⟩
      · exact .inl ((keepRunning_of_step hs).symm.trans hk)
      · rw [hu] at hmark; cases hmark

/-- Settles O60: the flag is read before each step alone (R102), never inside a wait (R11), no step writes it or the
stopped mark, and so a run keeps the flag and ends stopped by it alone. -/
theorem runReadsFlag : Obligations.RunReadsFlag := by
  unfold Obligations.RunReadsFlag
  intro n s
  refine ⟨run_succ_of_stopped, fun hgo => ⟨fun t hs hhalt => ?_, fun t hs hrun => ?_, fun f => run_succ_of_fault hgo⟩,
    fun hw hl => run_of_waiting_no_line hw hl n, fun t h => ⟨keepRunning_of_run h, stopped_of_run h⟩⟩
  · rw [run_succ_of_next hgo hs, if_pos hhalt]
  · rw [run_succ_of_next hgo hs, hrun]; rfl

end Sys2Proof.Machine
end

section
/-! The ALU (41_data_processing.md R110 to R113): the arithmetic opcodes as integer arithmetic, the logical ones bit by
bit, and the flags a result sets. -/

namespace Sys2Proof.Machine

/-! ## AddWithCarry as integer arithmetic (41_data_processing.md R110) -/

section
variable (a b : Word) (cin : Bool)

theorem addWithCarry_value : (addWithCarry a b cin).value = a + b + BitVec.ofNat 32 cin.toNat := by
  simp only [addWithCarry, BitVec.ofNat_add, BitVec.ofNat_toNat, BitVec.setWidth_eq]

theorem addWithCarry_carry :
    (addWithCarry a b cin).carry = decide (2 ^ 32 ≤ a.toNat + b.toNat + cin.toNat) := rfl

/-- The sign rule of the overflow says that the exact signed sum does not fit: by the signs of the operands. -/
theorem addWithCarry_overflow : (addWithCarry a b cin).overflow =
    some (decide ((addWithCarry a b cin).value.toInt ≠ a.toInt + b.toInt + cin.toNat)) := by
  have hres : (addWithCarry a b cin).value.toNat = (a.toNat + b.toNat + cin.toNat) % 2 ^ 32 :=
    BitVec.toNat_ofNat _ _
  have hc : cin.toNat ≤ 1 := cin.toNat_le
  show some (a.msb == b.msb && (addWithCarry a b cin).value.msb != a.msb) = _
  generalize (addWithCarry a b cin).value = res at *
  have ha := a.isLt
  have hb := b.isLt
  rw [BitVec.toInt_eq_msb_cond, BitVec.toInt_eq_msb_cond, BitVec.toInt_eq_msb_cond]
  cases hma : a.msb <;> cases hmb : b.msb <;> cases hmr : res.msb
  all_goals
    simp only [BitVec.msb_eq_true_iff_two_mul_ge, BitVec.msb_eq_false_iff_two_mul_lt] at hma hmb hmr
    simp
    omega

theorem addWithCarry_eq : addWithCarry a b cin =
    ⟨a + b + BitVec.ofNat 32 cin.toNat, decide (2 ^ 32 ≤ a.toNat + b.toNat + cin.toNat),
      some (decide ((a + b + BitVec.ofNat 32 cin.toNat).toInt ≠ a.toInt + b.toInt + cin.toNat))⟩ := by
  rw [← addWithCarry_value, ← addWithCarry_carry, ← addWithCarry_overflow]

/-- A subtraction adds the complement: it takes one more away when the carry in is 0, and its carry is NOT borrow. -/
theorem addWithCarry_not_eq : addWithCarry a (~~~b) cin =
    ⟨a - b - BitVec.ofNat 32 (1 - cin.toNat), decide (b.toNat + (1 - cin.toNat) ≤ a.toNat),
      some (decide ((a - b - BitVec.ofNat 32 (1 - cin.toNat)).toInt ≠
        a.toInt - b.toInt - (1 - cin.toNat : Nat)))⟩ := by
  have hb := b.isLt
  have hnot : (~~~b).toNat = 2 ^ 32 - 1 - b.toNat := BitVec.toNat_not
  have hint : (~~~b).toInt = -b.toInt - 1 := by
    rw [BitVec.toInt_eq_toNat_cond, BitVec.toInt_eq_toNat_cond, hnot]
    omega
  have hvalue : a + ~~~b + BitVec.ofNat 32 cin.toNat = a - b - BitVec.ofNat 32 (1 - cin.toNat) := by
    cases cin <;> simp only [Bool.toNat_true, Bool.toNat_false] <;> bv_omega
  rw [addWithCarry_eq, hvalue, hnot, hint]
  congr 2
  · cases cin <;> simp <;> omega
  · cases cin <;> simp <;> omega

end

/-- Settles O6: both directions of AddWithCarry with their carry in, 0 or 1 for ADD and SUB and C for the others
(R110). -/
theorem arithmeticOpcodes : Obligations.ArithmeticOpcodes := by
  unfold Obligations.ArithmeticOpcodes
  intro a b sc c
  refine ⟨?_, rfl, addWithCarry_eq a b c, ?_, rfl, addWithCarry_not_eq a b c, rfl, rfl⟩
  · simpa [alu] using addWithCarry_eq a b false
  · simpa [alu] using addWithCarry_not_eq a b true

/-! ## The logical opcodes (41_data_processing.md R112, R116, R117, R124, R125, R128 to R131) -/

theorem logical_of_mem {op : DpOp} {a b : Word} {sc c : Bool}
    (h : op ∈ [DpOp.and, .eor, .tst, .teq, .orr, .mov, .bic, .mvn]) :
    (alu op a b sc c).carry = sc ∧ (alu op a b sc c).overflow = none := by
  cases op
  case and | eor | tst | teq | orr | mov | bic | mvn => exact ⟨rfl, rfl⟩
  case sub | rsb | add | adc | sbc | rsc | cmp | cmn => exact absurd h (by decide)

/-- Settles O7: the bitwise operations bit by bit, and `logical` takes the shifter's carry and no overflow. -/
theorem logicalOpcodes : Obligations.LogicalOpcodes := by
  unfold Obligations.LogicalOpcodes
  intro a b sc c k hk
  have hnot : (~~~b).getLsbD k = !b.getLsbD k := by rw [BitVec.getLsbD_not, decide_eq_true hk, Bool.true_and]
  refine ⟨BitVec.getLsbD_and, BitVec.getLsbD_xor, BitVec.getLsbD_or, ?_, rfl, hnot, rfl, rfl, fun op hop => ?_⟩
  · exact BitVec.getLsbD_and.trans (by rw [hnot])
  · exact logical_of_mem hop

/-! ## The flags (41_data_processing.md R112, R113) -/

/-- Settles O8: each flag as it reads after the update, and no bit below them is written. -/
theorem flagUpdate : Obligations.FlagUpdate := by
  unfold Obligations.FlagUpdate
  intro p r
  refine ⟨?_, psrZ_flagsOf p r, psrC_flagsOf p r, fun h => ?_, fun v h => ?_, fun k hk => ?_⟩
  · rw [psrN_flagsOf, BitVec.msb_eq_getLsbD_last]
  · rw [psrV_flagsOf, h, Option.getD_none]
  · rw [psrV_flagsOf, h, Option.getD_some]
  · rw [getLsbD_flagsOf, if_neg (by omega), if_neg (by omega), if_neg (by omega), if_neg (by omega)]

end Sys2Proof.Machine
end

section
/-! The barrel shifter (41_data_processing.md R106, R107) as integer arithmetic: each kind of shift once, then the two
tables row by row. -/

namespace Sys2Proof.Machine

/-! ## The shifts -/

section
variable (v : Word) {k : Nat}

theorem shiftLeft_eq_ofNat (k : Nat) : v <<< k = BitVec.ofNat 32 (v.toNat * 2 ^ k) := by
  apply BitVec.eq_of_toNat_eq
  rw [BitVec.toNat_shiftLeft, BitVec.toNat_ofNat, Nat.shiftLeft_eq]

theorem ushiftRight_eq_ofNat (k : Nat) : v >>> k = BitVec.ofNat 32 (v.toNat / 2 ^ k) := by
  rw [← Nat.shiftRight_eq_div_pow, ← BitVec.toNat_ushiftRight, BitVec.ofNat_toNat, BitVec.setWidth_eq]

theorem sshiftRight_eq_ofInt (k : Nat) : v.sshiftRight k = BitVec.ofInt 32 (v.toInt / 2 ^ k) := by
  rw [BitVec.sshiftRight, Int.shiftRight_eq_div_pow]
  norm_cast

theorem rotateRight_eq_ofNat (hk : k < 32) :
    v.rotateRight k = BitVec.ofNat 32 (v.toNat / 2 ^ k + v.toNat % 2 ^ k * 2 ^ (32 - k)) := by
  rw [← toNat_rotateRight_eq v hk, BitVec.ofNat_toNat, BitVec.setWidth_eq]

/-- RRX: the carry comes in at bit 31. -/
theorem rrx_eq_ofNat (c : Bool) : ((BitVec.ofBool c).setWidth 32 <<< 31) ||| (v >>> 1) =
    BitVec.ofNat 32 (c.toNat * 2 ^ 31 + v.toNat / 2) := by
  have hhigh : ((BitVec.ofBool c).setWidth 32 <<< 31 : Word).toNat = c.toNat <<< 31 := by cases c <;> rfl
  have hlow : v.toNat / 2 < 2 ^ 31 := by have := v.isLt; omega
  have hc := c.toNat_le
  apply BitVec.eq_of_toNat_eq
  rw [BitVec.toNat_or, BitVec.toNat_ushiftRight, hhigh, Nat.shiftRight_one, ← Nat.shiftLeft_add_eq_or_of_lt hlow,
    Nat.shiftLeft_eq, BitVec.toNat_ofNat, Nat.mod_eq_of_lt (by omega)]

theorem signFill_eq : signFill v = if v.toInt < 0 then 0xFFFFFFFF#32 else 0#32 := by
  simp only [signFill, BitVec.msb_eq_toInt, decide_eq_true_eq]

end

/-- Settles O9: by the kind of shift, with the special meaning of amount 0 (R106). -/
theorem shiftImmediateTable : Obligations.ShiftImmediateTable := by
  unfold Obligations.ShiftImmediateTable
  intro v n c
  dsimp only
  simp only [← getLsbD_eq_bitOf, ← shiftLeft_eq_ofNat, ← ushiftRight_eq_ofNat, ← sshiftRight_eq_ofInt,
    ← rotateRight_eq_ofNat v n.isLt, ← rrx_eq_ofNat, ← signFill_eq]
  refine ⟨fun h => ?_, fun h => ?_⟩
  · simp only [shiftImm, h, if_true, and_self]
  · simp only [shiftImm, h, if_false, and_self]

/-- Settles O10: by the kind of shift and the amount, the amounts from 32 on in their own rows (R107). -/
theorem shiftRegisterTable : Obligations.ShiftRegisterTable := by
  unfold Obligations.ShiftRegisterTable
  intro v n c
  dsimp only
  have hmod : n.toNat % 32 < 32 := Nat.mod_lt _ (by decide)
  simp only [← getLsbD_eq_bitOf, ← shiftLeft_eq_ofNat, ← ushiftRight_eq_ofNat, ← sshiftRight_eq_ofInt,
    ← rotateRight_eq_ofNat v hmod, ← signFill_eq]
  refine ⟨fun h sh => ?_, fun h1 h31 => ?_, fun h => ?_, fun h => ?_, fun h => ?_, fun h0 h => ?_, fun h => ?_⟩
  · exact if_pos h
  · simp (disch := omega) only [shiftReg, if_pos, if_neg, and_self]
  · simp (disch := omega) only [shiftReg, if_pos, if_neg, and_self]
  · simp (disch := omega) only [shiftReg, if_neg, and_self]
  · simp (disch := omega) only [shiftReg, if_neg]
  · simp only [shiftReg, h0, h, if_true, if_false]
  · simp (disch := omega) only [shiftReg, h, if_neg, if_false]

end Sys2Proof.Machine
end

section
/-! Data processing (41_data_processing.md R111 to R115): what the one handler of the three operand forms leaves, with
its result part, its status part, and the return by MOVS pc. -/

namespace Sys2Proof.Machine

/-! ## Operands -/

/-- MOV and MVN do not depend on the first operand (30_encoding.md R67). -/
theorem alu_of_not_readsRn {op : DpOp} (h : opReadsRn op = false) (a a' b : Word) (sc cin : Bool) :
    alu op a b sc cin = alu op a' b sc cin := by
  cases op
  case mov | mvn => rfl
  all_goals cases h

/-- What the ALU is given as first operand, as far as it depends on it. -/
theorem dpFirst_accessible {op : DpOp} {rn : Reg} {s : State} (h : opReadsRn op = true → accessible s rn) :
    ∃ a, dpFirst op rn s = .ok a ∧ ∀ b sc cin, alu op a b sc cin = alu op (reg s rn) b sc cin := by
  unfold dpFirst
  cases hr : opReadsRn op with
  | true => exact ⟨reg s rn, readReg_accessible (h hr), fun _ _ _ => rfl⟩
  | false => exact ⟨0#32, rfl, alu_of_not_readsRn hr _ _⟩

theorem operand2_imm (s : State) (rot : BitVec 4) (imm8 : Byte) :
    operand2 (.imm rot imm8) s = .ok (rotatedImm rot imm8, rotatedCarry rot imm8 (psrC s.cpsr)) := rfl

theorem operand2_shiftedImm {s : State} {rm : Reg} (h : accessible s rm) (sh : ShiftType) (n : BitVec 5) :
    operand2 (.shiftedImm rm sh n) s = .ok (shiftImm (reg s rm) sh n (psrC s.cpsr)) := by
  rw [operand2, readReg_accessible h]; rfl

theorem operand2_shiftedReg {s : State} {rm rs : Reg} (hm : accessible s rm) (hs : accessible s rs) (sh : ShiftType) :
    operand2 (.shiftedReg rm sh rs) s =
      .ok (shiftReg (reg s rm) sh ((reg s rs).extractLsb' 0 8) (psrC s.cpsr)) := by
  rw [operand2, readReg_accessible hm, readReg_accessible hs]; rfl

/-! ## The result part -/

/-- What the result part of an instruction leaves: the destination, and what it keeps. -/
structure ResultWritten (op : DpOp) (rd : Reg) (v : Word) (s : State) (w : Work) : Prop where
  cpsr : w.st.cpsr = s.cpsr
  spsrs : spsrsKept s w.st
  stored : nothingStored s w.st
  registers : registersBut s w.st (if opWritesRd op then [rd] else [])
  written : opWritesRd op = true → (Work.start s).setReg rd v = .ok w
  nextPc : opWritesRd op = false ∨ rd ≠ 15 → w.nextPc = none

theorem nextPc_setReg_of_ne {w w' : Work} {i : Reg} {v : Word} (hi : i ≠ 15) (h : w.setReg i v = .ok w') :
    w'.nextPc = w.nextPc := by
  rcases Work.setReg_ok.1 h with ⟨h15, -⟩ | ⟨-, _, -, rfl⟩
  · exact absurd h15 hi
  · rfl

/-- Everything the result part does (41_data_processing.md R111). -/
theorem dpResult_ok {op : DpOp} {rd : Reg} {r : AluResult} {s : State} {w : Work} (h : dpResult op rd r s = .ok w) :
    ResultWritten op rd r.value s w := by
  unfold dpResult at h
  cases hop : opWritesRd op with
  | false =>
    rw [hop] at h
    cases h
    exact ⟨rfl, ⟨rfl, rfl⟩, ⟨fun _ => rfl, rfl⟩, registersBut_refl _ _, fun h => by simp [hop] at h,
      fun _ => rfl⟩
  | true =>
    rw [hop, if_pos rfl] at h
    obtain ⟨hcpsr, hsvc, hirq, hmem, hout⟩ := setReg_keeps h
    refine ⟨hcpsr, ⟨hsvc, hirq⟩, ⟨fun a => by rw [State.byteAt, hmem]; rfl, hout⟩, ?_,
      fun _ => h, fun hpc => nextPc_setReg_of_ne (hpc.resolve_left (by simp [hop])) h⟩
    rw [hop]
    exact registersBut_setReg h

theorem dpResult_accessible {op : DpOp} {rd : Reg} {r : AluResult} {s : State}
    (h : opWritesRd op = true → accessible s rd) : ∃ w, dpResult op rd r s = .ok w := by
  unfold dpResult
  split
  · next hop =>
    obtain ⟨w, hw, -⟩ := setReg_accessible (.start s) r.value (h hop)
    exact ⟨w, hw⟩
  · exact ⟨_, rfl⟩

/-- The SPSR of the mode depends on the status registers alone. -/
theorem State.currentSpsr_congr {s t : State} (hc : t.cpsr = s.cpsr) (hs : spsrsKept s t) :
    t.currentSpsr = s.currentSpsr := by
  obtain ⟨hsvc, hirq⟩ := hs
  unfold State.currentSpsr
  rw [hc, hsvc, hirq]

/-! ## The status part (41_data_processing.md R112 to R115) -/

/-- The CPSR of an instruction that sets the flags when S = 1. -/
def flagged (sbit : Bool) (p : Word) (r : AluResult) : Word := if sbit then flagsOf p r else p

@[simp] theorem psrMode_flagged (sbit : Bool) (p : Word) (r : AluResult) : psrMode (flagged sbit p r) = psrMode p := by
  cases sbit with
  | false => rfl
  | true => exact psrMode_flagsOf p r

section
variable {op : DpOp} {sbit : Bool} {rd : Reg} {r : AluResult} {w : Work}

theorem dpFinish_of_not_restores (h : ¬ restores w.st op sbit rd) :
    dpFinish op sbit rd r w = .ok { w with st := w.st.setCpsr (flagged sbit w.st.cpsr r) } := by
  unfold dpFinish dpStatus
  cases sbit with
  | false => rfl
  | true =>
    by_cases hmov : rd = 15 ∧ op = .mov
    · have hnone : w.st.currentSpsr = none := by
        simpa [restores, hmov] using h
      simp only [hmov, hnone]
      rfl
    · exact (if_pos rfl).trans (if_neg hmov)

theorem dpFinish_of_restores {saved : Word} (h : w.st.currentSpsr = some saved) :
    dpFinish .mov true 15 r w = restoreCpsr w saved := by
  simp [dpFinish, dpStatus, h]

end

/-! ## The whole instruction -/

/-- A register written last reads as written when the status was set after it, in the same mode. -/
theorem written_setCpsr_advance {w w' : Work} {i : Reg} {v q : Word} (h : w.setReg i v = .ok w')
    (hq : psrMode q = psrMode w.st.cpsr) (tr : Bool) : written ((w'.st.setCpsr q).advance w'.nextPc tr) i v := by
  rcases Work.setReg_ok.1 h with ⟨hi, rfl⟩ | ⟨hi, sl, hs, rfl⟩
  · simp [written, hi]
  · rw [written, if_neg hi]
    refine readReg_ok.2 ⟨sl, by simpa [hq] using hs, ?_⟩
    rw [State.getSlot_advance _ _ _ (slot_ne_r15 hi hs), State.getSlot_setCpsr, State.getSlot_setSlot_self]

/-- The advance writes nothing to the RAM or the output. -/
theorem nothingStored_advance {s u : State} (h : nothingStored s u) (n : Option Word) (tr : Bool) :
    nothingStored s (u.advance n tr) := by
  obtain ⟨hbytes, hout⟩ := h
  exact ⟨fun a => by rw [State.byteAt, State.advance_mem]; exact hbytes a, by rw [State.advance_output, hout]⟩

theorem spsrsKept_advance {s u : State} (h : spsrsKept s u) (n : Option Word) (tr : Bool) :
    spsrsKept s (u.advance n tr) := by
  obtain ⟨hsvc, hirq⟩ := h
  exact ⟨by rw [State.advance_spsrSvc, hsvc], by rw [State.advance_spsrIrq, hirq]⟩

/-- r15 is no register of the frame. -/
theorem registersBut_fifteen {s t : State} (h : registersBut s t [15]) : registersBut s t [] := fun sl hsl _ =>
  h sl hsl fun i hi hs => by
    obtain rfl := List.mem_singleton.1 hi
    exact hsl (Except.ok.inj hs).symm

/-- What the instruction keeps: the result part, the new status and the advance write nothing else. -/
theorem ResultWritten.kept {op : DpOp} {rd : Reg} {v q : Word} {s : State} {w : Work} (h : ResultWritten op rd v s w)
    (he : Effect s (w.st.setCpsr q)) (tr : Bool) :
    let t := (w.st.setCpsr q).advance w.nextPc tr
    registersBut s t (if opWritesRd op then [rd] else []) ∧ spsrsKept s t ∧ nothingStored s t ∧ RestKept s t :=
  ⟨registersBut_advance (fun sl hsl hd => (State.getSlot_setCpsr ..).trans (h.registers sl hsl hd)) _ _,
    spsrsKept_advance (u := w.st.setCpsr q) h.spsrs _ _, nothingStored_advance (u := w.st.setCpsr q) h.stored _ _,
    .advance he _ _⟩

section
variable {op : DpOp} {sbit : Bool} {rn rd : Reg} {o : Operand} {b : Word × Bool} {i : Instr} {c : Cond} {s : State}

theorem dataProcessing_of_not_restores (ho : operand2 o s = .ok b) (hn : opReadsRn op = true → accessible s rn)
    (hd : opWritesRd op = true → accessible s rd) (hr : ¬ restores s op sbit rd) :
    ∃ w, dataProcessing op sbit rn rd o s = .ok w ∧
      ∀ tr, dpOutcome op sbit rd (reg s rn) b.1 b.2 s (w.st.advance w.nextPc tr) := by
  obtain ⟨a, ha, halu⟩ := dpFirst_accessible hn
  obtain ⟨w, hw⟩ := dpResult_accessible (r := alu op a b.1 b.2 (psrC s.cpsr)) hd
  have hres := dpResult_ok hw
  have hr' : ¬ restores w.st op sbit rd := by
    rwa [restores, State.currentSpsr_congr hres.cpsr hres.spsrs]
  have hrun : dataProcessing op sbit rn rd o s = .ok _ :=
    bind_eq_ok.2 ⟨b, ho, bind_eq_ok.2 ⟨a, ha, bind_eq_ok.2 ⟨w, hw, dpFinish_of_not_restores hr'⟩⟩⟩
  have he := Effect.dataProcessing hrun
  refine ⟨_, hrun, fun tr => ?_⟩
  rw [dpOutcome, ← halu]
  refine ⟨fun hop => ?_, fun hpc => ?_, ?_, hres.kept he tr⟩
  · exact written_setCpsr_advance (hres.written hop) (by rw [psrMode_flagged, hres.cpsr]; rfl) tr
  · rw [hres.nextPc hpc]
    exact nextInstruction_advance he.r15
  · rw [State.advance_cpsr, State.setCpsr_cpsr, hres.cpsr, flagged]

/-- MOVS pc writes its result to r15 and leaves the rest to the status part. -/
theorem dataProcessing_movsPc (ho : operand2 o s = .ok b) :
    dataProcessing .mov true rn 15 o s = dpFinish .mov true 15 ⟨b.1, b.2, none⟩ ((Work.start s).setPc b.1) := by
  unfold dataProcessing
  rw [ho]
  rfl

/-- An instruction that runs data processing completes with its outcome. -/
theorem exec_dataProcessing (hexec : exec i s = runHandler c (dataProcessing op sbit rn rd o) s)
    (hc : condPassed c s.cpsr = true) (ho : operand2 o s = .ok b) (hn : opReadsRn op = true → accessible s rn)
    (hd : opWritesRd op = true → accessible s rd) (hr : ¬ restores s op sbit rd) :
    ∃ t, exec i s = .next t ∧ dpOutcome op sbit rd (reg s rn) b.1 b.2 s t := by
  obtain ⟨w, hw, hout⟩ := dataProcessing_of_not_restores ho hn hd hr
  exact ⟨_, hexec.trans (runHandler_of_ok hc hw), hout _⟩

/-- The three ways of MOVS pc: by the mode's SPSR and its mode code (41_data_processing.md R114). -/
theorem movsPcOutcome_of_operand (hexec : exec i s = runHandler c (dataProcessing .mov true rn 15 o) s)
    (hc : condPassed c s.cpsr = true) (ho : operand2 o s = .ok b) : movsPcOutcome i s b.1 b.2 := by
  have hrun := dataProcessing_movsPc (rn := rn) ho
  refine ⟨fun saved hs hv => ?_, fun saved hs hv => ?_, fun hs => ?_⟩
  · rw [dpFinish_of_restores hs, restoreCpsr_ok.2 ⟨hv, rfl⟩] at hrun
    have hres : ResultWritten .mov 15 b.1 s ((Work.start s).setPc b.1) := dpResult_ok (r := ⟨b.1, b.2, none⟩) rfl
    have he : Effect s (s.setCpsr saved) := Effect.dataProcessing hrun
    obtain ⟨hregs, hkept⟩ := hres.kept he s.traced
    exact ⟨_, hexec.trans (runHandler_of_ok hc hrun), by simp, by simp, registersBut_fifteen hregs, hkept⟩
  · have herr : restoreCpsr ((Work.start s).setPc b.1) saved = .error .invalidMode := by rw [restoreCpsr, hv]
    rw [dpFinish_of_restores hs, herr] at hrun
    exact hexec.trans (runHandler_of_error hc hrun)
  · obtain ⟨t, ht, hpc, -, hcpsr, hregs, hkept⟩ :=
      exec_dataProcessing hexec hc ho nofun (fun _ => .inl (by decide)) (by simp [restores, hs])
    exact ⟨t, ht, hpc rfl, hcpsr, registersBut_fifteen hregs, hkept⟩

end

/-! ## The forms (30_encoding.md R64, R65, R66) -/

theorem exec_dpImm (op : DpOp) (c : Cond) (x : DpImmArgs) (s : State) :
    exec (Instr.dpImm op c x) s = runHandler c (dpImmForm op x) s := by
  cases op <;> rfl

theorem exec_dpShift (op : DpOp) (c : Cond) (x : DpShiftArgs) (s : State) :
    exec (Instr.dpShift op c x) s = runHandler c (dpShiftForm op x) s := by
  cases op <;> rfl

theorem exec_dpRegShift (op : DpOp) (c : Cond) (x : DpRegArgs) (s : State) :
    exec (Instr.dpRegShift op c x) s = runHandler c (dpRegForm op x) s := by
  cases op <;> rfl

/-- Settles O15: the operand is the rotated immediate, and the handler is the one of all forms (R111 to R115). -/
theorem dpImmediateResult : Obligations.DpImmediateResult := by
  unfold Obligations.DpImmediateResult
  exact fun op c x s hc hn hd hr =>
    exec_dataProcessing (b := (rotatedImm x.rot x.imm8, _)) (exec_dpImm op c x s) hc
      (operand2_imm s x.rot x.imm8) hn hd hr

/-- Settles O16: the operand is the shifted register (R106), and the handler is the one of all forms (R111 to R115). -/
theorem dpShiftResult : Obligations.DpShiftResult := by
  unfold Obligations.DpShiftResult
  exact fun op c x s hc hm hn hd hr =>
    exec_dataProcessing (exec_dpShift op c x s) hc (operand2_shiftedImm hm x.sh x.shiftImm) hn hd hr

/-- Settles O17: the operand is the register shifted by a register (R107), and the handler is the one of all forms
(R111 to R115). -/
theorem dpRegShiftResult : Obligations.DpRegShiftResult := by
  unfold Obligations.DpRegShiftResult
  exact fun op c x s hc hm hs hn hd hr =>
    exec_dataProcessing (exec_dpRegShift op c x s) hc (operand2_shiftedReg hm hs x.sh) hn hd hr

/-- Settles O18: the three forms differ in their operand alone (R114, R25, R30). -/
theorem movsPcRestores : Obligations.MovsPcRestores := by
  unfold Obligations.MovsPcRestores
  intro c s rn hc
  refine ⟨fun rot imm8 => ?_, fun rm sh n hm => ?_, fun rm sh rs hm hs => ?_⟩
  · exact movsPcOutcome_of_operand (b := (rotatedImm rot imm8, _)) (exec_dpImm .mov c _ s) hc (operand2_imm s rot imm8)
  · exact movsPcOutcome_of_operand (exec_dpShift .mov c _ s) hc (operand2_shiftedImm hm sh n)
  · exact movsPcOutcome_of_operand (exec_dpRegShift .mov c _ s) hc (operand2_shiftedReg hm hs sh)

end Sys2Proof.Machine
end

section
/-! The frames of all instructions (41_data_processing.md R111 to R114 and the rules of the other shapes): the registers
and the status bits that each form writes, proved form by form. -/

namespace Sys2Proof.Machine

/-! ## What a form may write -/

/-- The CPSR bits a data-processing operation with S = 1 writes (41_data_processing.md R112 to R114). -/
def dpBits (op : DpOp) (rd : Reg) (s : State) : Word :=
  match op with
  | .and | .eor | .tst | .teq | .orr | .bic | .mvn => 0xE0000000#32
  | .sub | .rsb | .add | .adc | .sbc | .rsc | .cmp | .cmn => 0xF0000000#32
  | .mov => if rd = 15 ∧ s.currentSpsr.isSome then 0xFFFFFFFF#32 else 0xE0000000#32

/-- The registers a form writes. -/
def Form.dests : Form → List Reg
  | .dp op _ _ rd _ => if opWritesRd op then [rd] else []
  | .multiply _ a => [a.rd]
  | .loadSingle _ ix rn rd _ | .loadHalf _ _ ix rn rd _ => rd :: basesOf ix.p ix.w rn
  | .storeSingle _ ix rn _ _ | .storeHalf ix rn _ _ => basesOf ix.p ix.w rn
  | .loadMultiple a => if a.w then a.rn :: listedRegs a.list else listedRegs a.list
  | .storeMultiple a => if a.w then [a.rn] else []
  | .branchLink _ => [14]
  | .fromStatus _ rd => [rd]
  | .branch _ | .branchExchange _ | .toStatusReg _ | .toStatusImm _ | .nop => []

/-- The CPSR bits a form writes. -/
def Form.bits (s : State) : Form → Word
  | .dp op sbit _ rd _ => whenS sbit (dpBits op rd s)
  | .multiply _ a => whenS a.s 0xC0000000#32
  | .branchExchange _ => 0x00000020#32
  | .toStatusReg a => if a.spsr then 0#32 else msrBits a.mask s
  | .toStatusImm a => if a.spsr then 0#32 else msrBits a.mask s
  | _ => 0#32

/-- The form writes the SPSR of the mode. -/
def Form.writesSpsr : Form → Bool
  | .toStatusReg a => a.spsr
  | .toStatusImm a => a.spsr
  | _ => false

/-- An MSR to the SPSR of the mode. -/
def isMsrSpsr (i : Instr) : Prop :=
  (∃ c a, i = .msrReg c a ∧ a.spsr = true) ∨ ∃ c a, i = .msrImm c a ∧ a.spsr = true

/-- Instruction `i` runs form `f`, and its rule names what the form writes. -/
structure RunsWriting (i : Instr) (c : Cond) (f : Form) : Prop where
  exec : ∀ s, Machine.exec i s = runHandler c f.handler s
  dests : destRegs i = f.dests
  bits : ∀ s, statusBits i s = f.bits s
  spsr : f.writesSpsr = true → isMsrSpsr i

/-- EVERY INSTRUCTION is the word 0, an SWI, or runs a form that writes what its rule names. -/
theorem zeroWord_or_swi_or_runsWriting (i : Instr) :
    i = .zeroWord ∨ (∃ c n, i = .swi c n) ∨ ∃ c f, RunsWriting i c f := by
  cases i with
  | zeroWord => exact .inl rfl
  | swi c n => exact .inr (.inl ⟨c, n, rfl⟩)
  | mul c a => exact .inr (.inr ⟨c, .multiply false a, fun _ => rfl, rfl, fun _ => rfl, nofun⟩)
  | mla c a => exact .inr (.inr ⟨c, .multiply true a, fun _ => rfl, rfl, fun _ => rfl, nofun⟩)
  | ldrImm c | ldrbImm c | ldrReg c | ldrbReg c | ldrScaled c | ldrbScaled c =>
    exact .inr (.inr ⟨c, .loadSingle _ _ _ _ _, fun _ => rfl, rfl, fun _ => rfl, nofun⟩)
  | strImm c | strbImm c | strReg c | strbReg c | strScaled c | strbScaled c =>
    exact .inr (.inr ⟨c, .storeSingle _ _ _ _ _, fun _ => rfl, rfl, fun _ => rfl, nofun⟩)
  | ldrhImm c | ldrsbImm c | ldrshImm c | ldrhReg c | ldrsbReg c | ldrshReg c =>
    exact .inr (.inr ⟨c, .loadHalf _ _ _ _ _ _, fun _ => rfl, rfl, fun _ => rfl, nofun⟩)
  | strhImm c | strhReg c => exact .inr (.inr ⟨c, .storeHalf _ _ _ _, fun _ => rfl, rfl, fun _ => rfl, nofun⟩)
  | ldm c a => exact .inr (.inr ⟨c, .loadMultiple a, fun _ => rfl, rfl, fun _ => rfl, nofun⟩)
  | stm c a => exact .inr (.inr ⟨c, .storeMultiple a, fun _ => rfl, rfl, fun _ => rfl, nofun⟩)
  | b c off => exact .inr (.inr ⟨c, .branch off, fun _ => rfl, rfl, fun _ => rfl, nofun⟩)
  | bl c off => exact .inr (.inr ⟨c, .branchLink off, fun _ => rfl, rfl, fun _ => rfl, nofun⟩)
  | bx c rm => exact .inr (.inr ⟨c, .branchExchange rm, fun _ => rfl, rfl, fun _ => rfl, nofun⟩)
  | mrs c spsr rd => exact .inr (.inr ⟨c, .fromStatus spsr rd, fun _ => rfl, rfl, fun _ => rfl, nofun⟩)
  | msrReg c a => exact .inr (.inr ⟨c, .toStatusReg a, fun _ => rfl, rfl, fun _ => rfl, fun h => .inl ⟨c, a, rfl, h⟩⟩)
  | msrImm c a => exact .inr (.inr ⟨c, .toStatusImm a, fun _ => rfl, rfl, fun _ => rfl, fun h => .inr ⟨c, a, rfl, h⟩⟩)
  | nopCoprocessor c | nopUndefined c | nopCompareImm c | nopMultiplySpace c | nopDoubleWord c | nopCompareReg c =>
    exact .inr (.inr ⟨c, .nop, fun _ => rfl, rfl, fun _ => rfl, nofun⟩)
  | _ c => exact .inr (.inr ⟨c, .dp _ _ _ _ _, fun _ => rfl, rfl, fun _ => rfl, nofun⟩)

/-! ## Registers alone -/

/-- The registers `ds` at most are written, and the status registers are kept. -/
structure RegsFramed (s t : State) (ds : List Reg) : Prop where
  regs : registersBut s t ds
  cpsr : t.cpsr = s.cpsr
  spsrs : spsrsKept s t

section
variable {s t u : State} {w w' : Work} {ds es is : List Reg} {i rn rd : Reg} {v addr : Word} {n : Width}
  {ix : Indexing} {o : Offset} {ad : Address} {a : BlockArgs}

theorem RegsFramed.refl (s : State) (ds : List Reg) : RegsFramed s s ds := ⟨registersBut_refl s ds, rfl, rfl, rfl⟩

theorem RegsFramed.mono (h : RegsFramed s t ds) (hsub : ∀ i ∈ ds, i ∈ es) : RegsFramed s t es :=
  ⟨registersBut_mono h.regs hsub, h.cpsr, h.spsrs⟩

theorem RegsFramed.trans (h : RegsFramed s t ds) (k : RegsFramed t u ds) : RegsFramed s u ds := by
  obtain ⟨hsvc, hirq⟩ := h.spsrs
  obtain ⟨ksvc, kirq⟩ := k.spsrs
  exact ⟨registersBut_trans h.regs (by rw [h.cpsr]) k.regs, k.cpsr.trans h.cpsr, ksvc.trans hsvc, kirq.trans hirq⟩

/-- One write after another: the lists follow one another. -/
theorem RegsFramed.append (h : RegsFramed s t ds) (k : RegsFramed t u es) : RegsFramed s u (ds ++ es) :=
  (h.mono fun _ => List.mem_append_left _).trans (k.mono fun _ => List.mem_append_right _)

theorem RegsFramed.setReg (h : w.setReg i v = .ok w') : RegsFramed w.st w'.st [i] := by
  obtain ⟨hcpsr, hsvc, hirq, -, -⟩ := setReg_keeps h
  exact ⟨registersBut_setReg h, hcpsr, hsvc, hirq⟩

theorem RegsFramed.memWrite (h : memWrite s addr n v = .ok t) : RegsFramed s t [] := by
  obtain ⟨hregs, hcpsr, hspsrs, -⟩ := keeps_of_mem (memWrite_ok h).2.1
  exact ⟨hregs, hcpsr, hspsrs⟩

theorem RegsFramed.singleStore (h : singleStore s addr n v = .ok t) : RegsFramed s t [] := by
  rcases singleStore_ok.1 h with ⟨-, rfl⟩ | ⟨-, h⟩
  · exact ⟨fun _ _ _ => State.getSlot_emit .., rfl, rfl, rfl⟩
  · exact .memWrite h

/-- A base is written back as the indexing bits say (43_load_store.md R135). -/
theorem RegsFramed.writeback (had : transferAddress ix rn o s = .ok ad) (h : w.writeback rn ad = .ok w') :
    RegsFramed w.st w'.st (basesOf ix.p ix.w rn) := by
  obtain ⟨base, -, had⟩ := bind_eq_ok.1 had
  obtain ⟨off, -, had⟩ := bind_eq_ok.1 had
  have hwb : ad.wb = (!ix.p || ix.w) := by cases had; rfl
  unfold Work.writeback at h
  rw [basesOf, ← hwb]
  split at h
  · next hb => rw [if_pos hb]; exact .setReg h
  · cases h; exact .refl _ _

theorem RegsFramed.finishLoad (had : transferAddress ix rn o s = .ok ad) (h : finishLoad rn rd ad v s = .ok w) :
    RegsFramed s w.st (rd :: basesOf ix.p ix.w rn) := by
  obtain ⟨w₁, hw, h⟩ := bind_eq_ok.1 h
  exact ((RegsFramed.writeback had hw).append (.setReg h)).mono fun j hj => by
    simpa [or_comm] using hj

theorem RegsFramed.loadSingle (h : loadSingle n ix rn rd o s = .ok w) :
    RegsFramed s w.st (rd :: basesOf ix.p ix.w rn) := by
  obtain ⟨ad, had, h⟩ := bind_eq_ok.1 h
  obtain ⟨_, -, h⟩ := bind_eq_ok.1 h
  exact .finishLoad had h

theorem RegsFramed.loadHalf {x : Extend} (h : loadHalf n x ix rn rd o s = .ok w) :
    RegsFramed s w.st (rd :: basesOf ix.p ix.w rn) := by
  obtain ⟨ad, had, h⟩ := bind_eq_ok.1 h
  obtain ⟨_, -, h⟩ := bind_eq_ok.1 h
  exact .finishLoad had h

theorem RegsFramed.storeSingle (h : storeSingle n ix rn rd o s = .ok w) :
    RegsFramed s w.st (basesOf ix.p ix.w rn) := by
  obtain ⟨ad, had, h⟩ := bind_eq_ok.1 h
  obtain ⟨_, -, h⟩ := bind_eq_ok.1 h
  obtain ⟨t, ht, h⟩ := bind_eq_ok.1 h
  exact (RegsFramed.singleStore ht).append (.writeback had h)

theorem RegsFramed.storeHalf (h : storeHalf ix rn rd o s = .ok w) :
    RegsFramed s w.st (basesOf ix.p ix.w rn) := by
  obtain ⟨ad, had, h⟩ := bind_eq_ok.1 h
  obtain ⟨_, -, h⟩ := bind_eq_ok.1 h
  obtain ⟨t, ht, h⟩ := bind_eq_ok.1 h
  exact (RegsFramed.memWrite ht).append (.writeback had h)

theorem RegsFramed.loadRegs (h : loadRegs is addr w = .ok w') : RegsFramed w.st w'.st is := by
  induction is generalizing addr w with
  | nil => cases h; exact .refl _ _
  | cons j is ih =>
    obtain ⟨_, -, h⟩ := bind_eq_ok.1 h
    obtain ⟨w₁, hw, h⟩ := bind_eq_ok.1 h
    exact (RegsFramed.setReg hw).append (ih h)

theorem RegsFramed.storeRegs (h : storeRegs is addr s = .ok t) : RegsFramed s t [] := by
  induction is generalizing addr s with
  | nil => cases h; exact .refl _ _
  | cons j is ih =>
    obtain ⟨_, -, h⟩ := bind_eq_ok.1 h
    obtain ⟨u, hu, h⟩ := bind_eq_ok.1 h
    exact (RegsFramed.memWrite hu).trans (ih h)

theorem RegsFramed.blockWriteback (h : blockWriteback a v w = .ok w') :
    RegsFramed w.st w'.st (if a.w then [a.rn] else []) := by
  unfold Machine.blockWriteback at h
  split at h
  · next hb => rw [if_pos hb]; exact .setReg h
  · cases h; exact .refl _ _

theorem RegsFramed.loadMultiple (h : loadMultiple a s = .ok w) :
    RegsFramed s w.st (if a.w then a.rn :: listedRegs a.list else listedRegs a.list) := by
  unfold Machine.loadMultiple at h
  split at h
  · cases h
  · obtain ⟨_, -, h⟩ := bind_eq_ok.1 h
    obtain ⟨w₁, hw, h⟩ := bind_eq_ok.1 h
    refine ((RegsFramed.loadRegs hw).append (.blockWriteback h)).mono fun j hj => ?_
    cases hb : a.w <;> simpa [hb, or_comm] using hj

theorem RegsFramed.storeMultiple (h : storeMultiple a s = .ok w) :
    RegsFramed s w.st (if a.w then [a.rn] else []) := by
  unfold Machine.storeMultiple at h
  split at h
  · cases h
  · obtain ⟨_, -, h⟩ := bind_eq_ok.1 h
    obtain ⟨t, ht, h⟩ := bind_eq_ok.1 h
    exact (RegsFramed.storeRegs ht).append (.blockWriteback h)

theorem RegsFramed.branchLink {off : BitVec 24} (h : branchLink off s = .ok w) : RegsFramed s w.st [14] := by
  obtain ⟨w₁, hw, h⟩ := bind_eq_ok.1 h
  rw [pure_eq_ok] at h
  subst h
  exact .setReg hw

theorem RegsFramed.moveFromStatus {spsr : Bool} (h : moveFromStatus spsr rd s = .ok w) :
    RegsFramed s w.st [rd] := by
  obtain ⟨_, -, h⟩ := bind_eq_ok.1 h
  exact .setReg h

end

/-! ## Status bits -/

/-- The bits of a word outside a mask are kept when every bit is kept that the mask leaves out. -/
theorem and_not_congr {p q bits : Word} (h : ∀ k, bits.getLsbD k = false → q.getLsbD k = p.getLsbD k) :
    q &&& ~~~bits = p &&& ~~~bits := by
  apply BitVec.eq_of_getLsbD_eq
  intro k hk
  simp only [BitVec.getLsbD_and, BitVec.getLsbD_not]
  cases hb : bits.getLsbD k with
  | true => simp
  | false => rw [h k hb]

theorem flagsNZ_outside (p res : Word) : flagsNZ p res &&& ~~~0xC0000000#32 = p &&& ~~~0xC0000000#32 :=
  and_not_congr fun k hk => by
    rw [getLsbD_flagsNZ, if_neg, if_neg]
    · rintro rfl; revert hk; decide
    · rintro rfl; revert hk; decide

theorem merge_outside (old v mask : Word) : merge old v mask &&& ~~~mask = old &&& ~~~mask :=
  and_not_congr fun k hk => by simp [getLsbD_merge, hk]

theorem withT_outside (p : Word) (b : Bool) : withT p b &&& ~~~0x00000020#32 = p &&& ~~~0x00000020#32 :=
  and_not_congr fun k hk => by
    rw [withT, getLsbD_setBit _ (by decide), if_neg]
    rintro rfl; revert hk; decide

theorem entryStatus_outside (p : Word) (m : Mode) : entryStatus p m &&& ~~~0x000000BF#32 = p &&& ~~~0x000000BF#32 :=
  and_not_congr fun k hk => by
    rw [getLsbD_entryStatus, if_neg, if_neg, if_neg]
    · rintro rfl; revert hk; decide
    · rintro rfl; revert hk; decide
    · intro h; interval_cases k <;> revert hk <;> decide

theorem flagsOf_outside (p : Word) (r : AluResult) : flagsOf p r &&& ~~~0xF0000000#32 = p &&& ~~~0xF0000000#32 :=
  and_not_congr fun k hk => by
    rw [getLsbD_flagsOf, if_neg, if_neg, if_neg, if_neg]
    all_goals rintro rfl; revert hk; decide

/-- A result without an overflow leaves V alone (41_data_processing.md R112). -/
theorem flagsOf_outside_of_logical (p : Word) {r : AluResult} (h : r.overflow = none) :
    flagsOf p r &&& ~~~0xE0000000#32 = p &&& ~~~0xE0000000#32 :=
  and_not_congr fun k hk => by
    rw [getLsbD_flagsOf, h, Option.getD_none, if_neg, if_neg, if_neg]
    · exact ite_eq_right_iff.2 fun h28 => by rw [h28]
    all_goals rintro rfl; revert hk; decide

/-- An operation sets the flags its kind names, unless it restores the CPSR. -/
theorem flagsOf_alu_outside {op : DpOp} {rd : Reg} {s : State} (h : ¬ restores s op true rd) (a b : Word) (sc : Bool) :
    flagsOf s.cpsr (alu op a b sc (psrC s.cpsr)) &&& ~~~dpBits op rd s = s.cpsr &&& ~~~dpBits op rd s := by
  cases op
  case sub | rsb | add | adc | sbc | rsc | cmp | cmn => exact flagsOf_outside _ _
  case and | eor | tst | teq | orr | bic | mvn => exact flagsOf_outside_of_logical _ rfl
  case mov =>
    have hmask : dpBits .mov rd s = 0xE0000000#32 := if_neg fun hmov => h ⟨rfl, rfl, hmov⟩
    rw [hmask]
    exact flagsOf_outside_of_logical _ rfl

/-! ## The frame of a form -/

/-- The registers `ds` and the CPSR bits `bits` at most are written and, with `spsr`, the SPSR of the mode. -/
structure Framed (s t : State) (ds : List Reg) (bits : Word) (spsr : Bool) : Prop where
  regs : registersBut s t ds
  cpsr : t.cpsr &&& ~~~bits = s.cpsr &&& ~~~bits
  spsrs : spsr = false → spsrsKept s t
  spsrSvc : psrModeOf s.cpsr ≠ some .supervisor → t.spsrSvc = s.spsrSvc
  spsrIrq : psrModeOf s.cpsr ≠ some .irq → t.spsrIrq = s.spsrIrq

section
variable {s t u : State} {ds : List Reg} {bits : Word} {spsr : Bool} {w : Work}

/-- A status write after the register writes. -/
theorem RegsFramed.setCpsr {q : Word} (h : RegsFramed s u ds) (hq : q &&& ~~~bits = s.cpsr &&& ~~~bits) :
    Framed s (u.setCpsr q) ds bits spsr :=
  ⟨fun sl hsl hd => (State.getSlot_setCpsr ..).trans (h.regs sl hsl hd), hq, fun _ => h.spsrs, fun _ => h.spsrs.1,
    fun _ => h.spsrs.2⟩

theorem RegsFramed.framed (h : RegsFramed s t ds) : Framed s t ds bits spsr :=
  h.setCpsr (q := t.cpsr) (by rw [h.cpsr])

theorem Framed.advance (h : Framed s u ds bits spsr) (n : Option Word) (tr : Bool) :
    Framed s (u.advance n tr) ds bits spsr :=
  ⟨registersBut_advance h.regs n tr, by rw [State.advance_cpsr, h.cpsr],
    fun hs => spsrsKept_advance (h.spsrs hs) n tr,
    fun hm => by rw [State.advance_spsrSvc, h.spsrSvc hm], fun hm => by rw [State.advance_spsrIrq, h.spsrIrq hm]⟩

/-- The SPSR write touches the SPSR of the mode alone (10_state.md R29). -/
theorem Framed.setCurrentSpsr (s : State) (v : Word) : Framed s (s.setCurrentSpsr v) ds bits true := by
  refine ⟨fun _ _ _ => State.getSlot_setCurrentSpsr .., by rw [State.setCurrentSpsr_cpsr], nofun, fun hm => ?_,
    fun hm => ?_⟩
  · unfold State.setCurrentSpsr
    split
    · next h => exact absurd h hm
    · rfl
    all_goals rfl
  · unfold State.setCurrentSpsr
    split
    · rfl
    · next h => exact absurd h hm
    all_goals rfl

theorem msrBits_eq (fm : BitVec 4) (s : State) : msrBits fm s = lanes fm &&& allowedBits false s.cpsr := by
  unfold msrBits allowedBits privileged
  by_cases h : psrModeOf s.cpsr = some .user <;> simp [h]

theorem Framed.msrWrite {fm : BitVec 4} {v : Word} (h : msrWrite s spsr fm v = .ok t) :
    Framed s t ds (if spsr then 0#32 else msrBits fm s) spsr := by
  rcases msrWrite_ok.1 h with ⟨rfl, old, -, rfl⟩ | ⟨rfl, -, rfl⟩
  · exact .setCurrentSpsr s _
  · refine (RegsFramed.refl s ds).setCpsr ?_
    rw [if_neg Bool.false_ne_true, msrBits_eq]
    exact merge_outside ..

theorem Framed.dataProcessing {op : DpOp} {sbit : Bool} {rn rd : Reg} {o : Operand}
    (h : dataProcessing op sbit rn rd o s = .ok w) :
    Framed s w.st (if opWritesRd op then [rd] else []) (whenS sbit (dpBits op rd s)) spsr := by
  obtain ⟨b, -, h⟩ := bind_eq_ok.1 h
  obtain ⟨a, -, h⟩ := bind_eq_ok.1 h
  obtain ⟨w₁, hw, h⟩ := bind_eq_ok.1 h
  have hres := dpResult_ok hw
  have hregs : RegsFramed s w₁.st _ := ⟨hres.registers, hres.cpsr, hres.spsrs⟩
  have hspsr : w₁.st.currentSpsr = s.currentSpsr := State.currentSpsr_congr hres.cpsr hres.spsrs
  by_cases hr : restores s op sbit rd
  · obtain ⟨rfl, rfl, rfl, hsome⟩ := hr
    obtain ⟨saved, hs⟩ := Option.isSome_iff_exists.1 hsome
    rw [dpFinish_of_restores (hspsr.trans hs)] at h
    obtain ⟨-, rfl⟩ := restoreCpsr_ok.1 h
    refine hregs.setCpsr ?_
    have hall : ~~~whenS true (dpBits .mov 15 s) = 0#32 := by simp [whenS, dpBits, hsome]
    rw [hall, BitVec.and_zero, BitVec.and_zero]
  · rw [dpFinish_of_not_restores (by rwa [restores, hspsr])] at h
    cases h
    refine hregs.setCpsr ?_
    rw [hres.cpsr]
    cases sbit with
    | false => rfl
    | true => exact flagsOf_alu_outside hr ..

theorem Framed.multiply {accumulate : Bool} {a : MulArgs} (h : multiply accumulate a s = .ok w) :
    Framed s w.st [a.rd] (whenS a.s 0xC0000000#32) spsr := by
  obtain ⟨x, -, h⟩ := bind_eq_ok.1 h
  obtain ⟨y, -, h⟩ := bind_eq_ok.1 h
  obtain ⟨z, -, h⟩ := bind_eq_ok.1 h
  obtain ⟨w₁, hw, h⟩ := bind_eq_ok.1 h
  rw [pure_eq_ok] at h
  subst h
  have hregs : RegsFramed s w₁.st [a.rd] := .setReg hw
  cases a.s with
  | false => exact hregs.framed
  | true =>
    refine hregs.setCpsr ?_
    rw [hregs.cpsr]
    exact flagsNZ_outside ..

theorem Framed.branchExchange {rm : Reg} (h : branchExchange rm s = .ok w) : Framed s w.st ds 0x00000020#32 spsr := by
  obtain ⟨v, -, h⟩ := bind_eq_ok.1 h
  rw [pure_eq_ok] at h
  subst h
  exact (RegsFramed.refl s ds).setCpsr (withT_outside ..)

theorem Framed.moveToStatusReg {a : MsrRegArgs} (h : moveToStatusReg a s = .ok w) :
    Framed s w.st ds (if a.spsr then 0#32 else msrBits a.mask s) a.spsr := by
  obtain ⟨v, -, h⟩ := bind_eq_ok.1 h
  obtain ⟨t, ht, h⟩ := bind_eq_ok.1 h
  rw [pure_eq_ok] at h
  subst h
  exact .msrWrite ht

theorem Framed.moveToStatusImm {a : MsrImmArgs} (h : moveToStatusImm a s = .ok w) :
    Framed s w.st ds (if a.spsr then 0#32 else msrBits a.mask s) a.spsr := by
  obtain ⟨t, ht, h⟩ := bind_eq_ok.1 h
  rw [pure_eq_ok] at h
  subst h
  exact .msrWrite ht

/-- EVERY FORM writes at most its registers and its status bits. -/
theorem Form.framed {f : Form} (h : f.handler s = .ok w) : Framed s w.st f.dests (f.bits s) f.writesSpsr := by
  cases f with
  | dp op sbit rn rd o => exact .dataProcessing h
  | multiply accumulate a => exact .multiply h
  | loadSingle n ix rn rd o => exact (RegsFramed.loadSingle h).framed
  | storeSingle n ix rn rd o => exact (RegsFramed.storeSingle h).framed
  | loadHalf n x ix rn rd o => exact (RegsFramed.loadHalf h).framed
  | storeHalf ix rn rd o => exact (RegsFramed.storeHalf h).framed
  | loadMultiple a => exact (RegsFramed.loadMultiple h).framed
  | storeMultiple a => exact (RegsFramed.storeMultiple h).framed
  | branchLink off => exact (RegsFramed.branchLink h).framed
  | branchExchange rm => exact .branchExchange h
  | fromStatus spsr rd => exact (RegsFramed.moveFromStatus h).framed
  | toStatusReg a => exact .moveToStatusReg h
  | toStatusImm a => exact .moveToStatusImm h
  | branch off | nop => cases h; exact (RegsFramed.refl _ _).framed

end

/-! ## SWI -/

/-- What an SWI writes at most of the registers, the CPSR and the SPSR of IRQ mode (60_exceptions.md R165). -/
structure SwiFramed (s t : State) : Prop where
  slots : ∀ sl, sl ≠ .r15 → sl ≠ .r14Svc → t.getSlot sl = s.getSlot sl
  cpsr : t.cpsr &&& ~~~0x000000BF#32 = s.cpsr &&& ~~~0x000000BF#32
  spsrIrq : t.spsrIrq = s.spsrIrq

section
variable {s t u : State}

theorem SwiFramed.advance (s : State) (n : Option Word) (tr : Bool) : SwiFramed s (s.advance n tr) :=
  ⟨fun _ h15 _ => State.getSlot_advance s n tr h15, by rw [State.advance_cpsr], State.advance_spsrIrq ..⟩

theorem SwiFramed.exitHalt (s : State) : SwiFramed s (exitHalt s) :=
  ⟨fun _ h15 _ => State.getSlot_congr (by simp [Machine.exitHalt]) h15, by simp [Machine.exitHalt],
    by simp [Machine.exitHalt]⟩

theorem SwiFramed.swiEntry (s : State) : SwiFramed s (swiEntry s) :=
  ⟨fun _ h15 h14 => getSlot_swiEntry s h15 h14, by rw [swiEntry_cpsr]; exact entryStatus_outside .., by
    simp [Machine.swiEntry]⟩

/-- Both services leave the registers and the status to the entry (60_exceptions.md R166). -/
theorem SwiFramed.congr (h : SwiFramed s u) (hk : RegsFramed u t []) : SwiFramed s t :=
  ⟨fun sl h15 h14 => (hk.regs sl h15 nofun).trans (h.slots sl h15 h14), by rw [hk.cpsr, h.cpsr],
    hk.spsrs.2.trans h.spsrIrq⟩

theorem RegsFramed.servicePutc (e : State) : RegsFramed e (servicePutc e) [] :=
  ⟨fun _ _ _ => State.getSlot_emit .., rfl, rfl, rfl⟩

theorem RegsFramed.serviceReadline {e : State} {f : Word} (h : serviceReadline e f = .next t) :
    RegsFramed e t [] := by
  rcases serviceReadline_next h with ⟨-, rfl⟩ | ⟨_, _, _, _, -, hw⟩
  · exact ⟨fun _ h15 _ => State.getSlot_congr ⟨rfl, rfl, rfl, rfl, rfl, rfl, rfl⟩ h15, rfl, rfl, rfl⟩
  · obtain ⟨hregs, hcpsr, ⟨hsvc, hirq⟩, -⟩ := keeps_of_mem (writeLine_ok hw).2
    exact ⟨fun sl h15 hd => (hregs sl h15 hd).trans (by cases sl <;> rfl), hcpsr, hsvc, hirq⟩

theorem SwiFramed.execSwi {c : Cond} {n : BitVec 24} (h : execSwi c n s = .next t) : SwiFramed s t := by
  rcases execSwi_next h with rfl | ⟨-, rfl⟩ | ⟨-, rfl⟩ | ⟨-, hr⟩
  · exact .advance s none _
  · exact .exitHalt s
  · exact (SwiFramed.swiEntry s).congr (.servicePutc _)
  · exact (SwiFramed.swiEntry s).congr (.serviceReadline hr)

end

/-! ## Every instruction -/

theorem Framed.halt (s : State) (r : HaltReason) (ds : List Reg) (bits : Word) (spsr : Bool) :
    Framed s (s.halt r) ds bits spsr :=
  ⟨fun sl _ _ => by cases sl <;> rfl, rfl, fun _ => ⟨rfl, rfl⟩, fun _ => rfl, fun _ => rfl⟩

/-- EVERY INSTRUCTION but SWI writes at most what its rule names. -/
theorem exec_framed {i : Instr} {s t : State} (hswi : ∀ c n, i ≠ .swi c n) (h : exec i s = .next t) :
    ∃ spsr, Framed s t (destRegs i) (statusBits i s) spsr ∧ (spsr = true → isMsrSpsr i) := by
  rcases zeroWord_or_swi_or_runsWriting i with rfl | ⟨c, n, rfl⟩ | ⟨c, f, hf⟩
  · cases h
    exact ⟨false, .halt .., nofun⟩
  · exact absurd rfl (hswi c n)
  · refine ⟨f.writesSpsr, ?_, hf.spsr⟩
    rw [hf.dests, hf.bits]
    rw [hf.exec] at h
    rcases runHandler_next.1 h with ⟨-, rfl⟩ | ⟨-, w, hw, rfl⟩
    · exact (RegsFramed.refl s _).framed.advance ..
    · exact (Form.framed hw).advance ..

/-- Settles O41: the registers of the frame of every form, and what the entry of SWI and its services leave (R111, R132,
R136, R142, R150, R151, R153, R156, R165). -/
theorem registerFrame : Obligations.RegisterFrame := by
  unfold Obligations.RegisterFrame
  refine ⟨fun i s t hswi h => ?_, fun c n s t h => (SwiFramed.execSwi h).slots⟩
  obtain ⟨_, hframe, -⟩ := exec_framed hswi h
  exact hframe.regs

/-- Settles O42: the status of the frame of every form, and the status that the entry of SWI leaves (R112 to R114, R132,
R154, R157, R165). -/
theorem statusFrame : Obligations.StatusFrame := by
  unfold Obligations.StatusFrame
  intro i s t h
  by_cases hi : ∃ c n, i = .swi c n
  · obtain ⟨c, n, rfl⟩ := hi
    have hframe := SwiFramed.execSwi h
    exact ⟨hframe.cpsr, fun hswi => absurd rfl (hswi c n), fun hswi => absurd rfl (hswi c n), fun _ => hframe.spsrIrq⟩
  · obtain ⟨spsr, hframe, hmsr⟩ := exec_framed (fun c n e => hi ⟨c, n, e⟩) h
    refine ⟨hframe.cpsr, fun _ hreg himm => hframe.spsrs ?_, fun _ => hframe.spsrSvc, hframe.spsrIrq⟩
    cases spsr with
    | false => rfl
    | true =>
      rcases hmsr rfl with ⟨c, a, e, ha⟩ | ⟨c, a, e, ha⟩
      · exact ha.symm.trans (hreg c a e)
      · exact ha.symm.trans (himm c a e)

end Sys2Proof.Machine
end

section
/-! Multiply (42_multiply.md R132 to R134): the product and accumulator, the two flags, and what the handler leaves. -/

namespace Sys2Proof.Machine

/-! ## The status part (42_multiply.md R132) -/

/-- The CPSR of an instruction that writes N and Z alone when S = 1. -/
def flaggedNZ (sbit : Bool) (p res : Word) : Word := if sbit then flagsNZ p res else p

@[simp] theorem psrMode_flaggedNZ (sbit : Bool) (p res : Word) : psrMode (flaggedNZ sbit p res) = psrMode p := by
  cases sbit with
  | false => rfl
  | true => exact psrMode_flagsNZ p res

theorem getLsbD_flaggedNZ (sbit : Bool) (p res : Word) (k : Nat) :
    (flaggedNZ sbit p res).getLsbD k =
      if sbit = true ∧ k = 31 then res.getLsbD 31
      else if sbit = true ∧ k = 30 then decide (res = 0#32) else p.getLsbD k := by
  cases sbit with
  | false => simp [flaggedNZ]
  | true => simp [flaggedNZ, getLsbD_flagsNZ, BitVec.msb_eq_getLsbD_last]

/-! ## The result part (42_multiply.md R133, R134) -/

theorem mulAccumulator_accessible {acc : Bool} {rn : Reg} {s : State} (h : acc = true → accessible s rn) :
    mulAccumulator acc rn s = .ok (if acc then reg s rn else 0#32) := by
  cases acc with
  | false => rfl
  | true => exact readReg_accessible (h rfl)

/-- The low word of the product, plus the accumulator for MLA. -/
def multiplied (acc : Bool) (a : MulArgs) (s : State) : Word :=
  BitVec.ofNat 32 ((reg s a.rm).toNat * (reg s a.rs).toNat + if acc then (reg s a.rn).toNat else 0)

theorem product_accumulator (acc : Bool) (a : MulArgs) (s : State) :
    product (reg s a.rm) (reg s a.rs) (if acc then reg s a.rn else 0#32) = multiplied acc a s := by
  cases acc <;> rfl

/-- The result part writes Rd, as that of MOV does. -/
theorem resultWritten_setReg {rd : Reg} {v : Word} {s : State} {w : Work} (h : (Work.start s).setReg rd v = .ok w) :
    ResultWritten .mov rd v s w := dpResult_ok (op := .mov) (r := ⟨v, false, none⟩) h

/-! ## The whole instruction -/

theorem exec_multiply (acc : Bool) (c : Cond) (a : MulArgs) (s : State) :
    exec (.multiply acc c a) s = runHandler c (multiply acc a) s := by
  cases acc <;> rfl

/-- The handler is its result part, then its status part. -/
theorem multiply_of_setReg {acc : Bool} {a : MulArgs} {s : State} {w : Work} (hm : accessible s a.rm)
    (hs : accessible s a.rs) (hn : acc = true → accessible s a.rn)
    (hw : (Work.start s).setReg a.rd (multiplied acc a s) = .ok w) :
    multiply acc a s = .ok { w with st := w.st.setCpsr (flaggedNZ a.s w.st.cpsr (multiplied acc a s)) } := by
  rw [← product_accumulator] at hw ⊢
  refine bind_eq_ok.2 ⟨_, readReg_accessible hm, bind_eq_ok.2 ⟨_, readReg_accessible hs,
    bind_eq_ok.2 ⟨_, mulAccumulator_accessible hn, bind_eq_ok.2 ⟨w, hw, pure_eq_ok.2 ?_⟩⟩⟩⟩
  cases a.s <;> rfl

/-- Settles O19: Rd takes the product, with S = 1 the status N and Z, and the advance keeps both (R132 to R134). -/
theorem multiplyResult : Obligations.MultiplyResult := by
  unfold Obligations.MultiplyResult
  intro acc c a s hc hd hm hs hn
  obtain ⟨w, hw, -⟩ := setReg_accessible (.start s) (multiplied acc a s) hd
  have hres := resultWritten_setReg hw
  have hrun := multiply_of_setReg hm hs hn hw
  have he := Effect.multiply hrun
  refine ⟨_, (exec_multiply acc c a s).trans (runHandler_of_ok hc hrun), ?_, fun hpc => ?_, fun k _ => ?_,
    hres.kept he _⟩
  · exact written_setCpsr_advance hw (by rw [psrMode_flaggedNZ, hres.cpsr]; rfl) _
  · rw [hres.nextPc (.inr hpc)]
    exact nextInstruction_advance he.r15
  · rw [State.advance_cpsr, State.setCpsr_cpsr, hres.cpsr]
    exact getLsbD_flaggedNZ ..

end Sys2Proof.Machine
end

section
/-! Single transfers (20_memory.md R52, 43_load_store.md R135 to R141): the writeback, and what a load and a store leave
after their access, whatever the access was. -/

namespace Sys2Proof.Machine

/-! ## The writeback (43_load_store.md R135, R136) -/

section
variable {w w' w₁ : Work} {rn i j : Reg} {ad : Address} {u v : Word}

/-- Everything a writeback does. -/
theorem Work.writeback_ok : w.writeback rn ad = .ok w' ↔
    (ad.wb = true ∧ w.setReg rn ad.offaddr = .ok w') ∨ (ad.wb = false ∧ w = w') := by
  unfold Work.writeback
  cases ad.wb <;> simp

theorem writeback_accessible (ad : Address) (h : accessible w.st rn) : ∃ w', w.writeback rn ad = .ok w' := by
  unfold Work.writeback
  split
  · obtain ⟨w', hw, -⟩ := setReg_accessible w ad.offaddr h
    exact ⟨w', hw⟩
  · exact ⟨w, rfl⟩

theorem nextPc_writeback (hpc : ¬ (ad.wb = true ∧ rn = 15)) (h : w.writeback rn ad = .ok w') :
    w'.nextPc = w.nextPc := by
  rcases Work.writeback_ok.1 h with ⟨hwb, h⟩ | ⟨-, rfl⟩
  · exact nextPc_setReg_of_ne (fun h15 => hpc ⟨hwb, h15⟩) h
  · rfl

/-- A register write stores nothing. -/
theorem nothingStored_setReg (h : w.setReg i v = .ok w') : nothingStored w.st w'.st := by
  obtain ⟨-, -, -, hmem, hout⟩ := setReg_keeps h
  exact ⟨fun a => by rw [State.byteAt, hmem]; rfl, hout⟩

theorem nothingStored_refl (s : State) : nothingStored s s := ⟨fun _ => rfl, rfl⟩

theorem nothingStored_trans {s t u : State} (h : nothingStored s t) (k : nothingStored t u) : nothingStored s u := by
  obtain ⟨hbytes, hout⟩ := h
  obtain ⟨kbytes, kout⟩ := k
  exact ⟨fun a => (kbytes a).trans (hbytes a), kout.trans hout⟩

theorem nothingStored_writeback (h : w.writeback rn ad = .ok w') : nothingStored w.st w'.st := by
  rcases Work.writeback_ok.1 h with ⟨-, h⟩ | ⟨-, rfl⟩
  · exact nothingStored_setReg h
  · exact nothingStored_refl _

/-- A register reads as written after a later write of another. -/
theorem written_setReg_other (hw : w.setReg i u = .ok w₁) (h : w₁.setReg j v = .ok w') (hij : i ≠ j) (tr : Bool) :
    written (w'.st.advance w'.nextPc tr) i u := by
  rcases Work.setReg_ok.1 hw with ⟨rfl, rfl⟩ | ⟨hi, sl, hs, rfl⟩
  · rw [nextPc_setReg_of_ne hij.symm h]
    simp [written]
  · obtain ⟨hcpsr, -⟩ := setReg_keeps h
    have hkept := registersBut_setReg h sl (slot_ne_r15 hi hs) fun k hk hsk => by
      obtain rfl := List.mem_singleton.1 hk
      exact hij (slot_injective hs (by simpa using hsk))
    rw [written, if_neg hi]
    refine readReg_ok.2 ⟨sl, by simpa [hcpsr] using hs, ?_⟩
    rw [State.getSlot_advance _ _ _ (slot_ne_r15 hi hs), hkept, State.getSlot_setSlot_self]

end

/-! ## After the access -/

/-- The registers of a load, by the writeback bit of its address (43_load_store.md R135). -/
theorem loadDests_eq_ite_wb (x : Transfer) (s : State) :
    x.rd :: basesOf x.ix.p x.ix.w x.rn = if (x.address s).wb then [x.rd, x.rn] else [x.rd] :=
  apply_ite (x.rd :: ·) _ _ _

section
variable {x : Transfer} {c : Cond} {s u : State} {v : Word} {w : Work} {handler : State → Except Reason Work}

theorem finishLoad_accessible (hx : x.accessible s) (v : Word) :
    ∃ w, finishLoad x.rn x.rd (x.address s) v s = .ok w := by
  have haddr := transferAddress_accessible hx
  obtain ⟨hn, hd, -⟩ := hx
  obtain ⟨w₁, hw₁⟩ := writeback_accessible (w := .start s) (x.address s) hn
  have hmode : psrMode w₁.st.cpsr = psrMode s.cpsr := by rw [(RegsFramed.writeback haddr hw₁).cpsr]; rfl
  obtain ⟨w, hw, -⟩ := setReg_accessible w₁ v ((accessible_congr hmode _).2 hd)
  exact ⟨w, bind_eq_ok.2 ⟨w₁, hw₁, hw⟩⟩

/-- Rd is written after the base, and nothing else of the state but r15 by the advance (43_load_store.md R136). -/
theorem loadOutcome_of_finishLoad (hx : x.accessible s) (h : finishLoad x.rn x.rd (x.address s) v s = .ok w)
    (tr : Bool) : loadOutcome x v s (w.st.advance w.nextPc tr) := by
  have he := Effect.finishLoad h
  have hframe := RegsFramed.finishLoad (transferAddress_accessible hx) h
  obtain ⟨w₁, hw₁, hw⟩ := bind_eq_ok.1 h
  refine ⟨written_advance hw tr, fun hwb hne => ?_, fun hd hn => ?_, ?_, ?_, spsrsKept_advance hframe.spsrs _ _,
    nothingStored_advance (nothingStored_trans (nothingStored_writeback hw₁) (nothingStored_setReg hw)) _ _,
    .advance he _ _⟩
  · rcases Work.writeback_ok.1 hw₁ with ⟨-, hw₁⟩ | ⟨hno, -⟩
    · exact written_setReg_other hw₁ hw hne tr
    · exact absurd hwb (by simp [hno])
  · rw [nextPc_setReg_of_ne hd hw, nextPc_writeback hn hw₁]
    exact nextInstruction_advance he.r15
  · rw [loadDests_eq_ite_wb x s] at hframe
    exact registersBut_advance hframe.regs _ _
  · rw [State.advance_cpsr, hframe.cpsr]

/-- A load completes once its access has answered a value. -/
theorem runHandler_load (hc : condPassed c s.cpsr = true) (hx : x.accessible s)
    (h : handler s = finishLoad x.rn x.rd (x.address s) v s) :
    ∃ t, runHandler c handler s = .next t ∧ loadOutcome x v s t := by
  obtain ⟨w, hw⟩ := finishLoad_accessible hx v
  exact ⟨_, runHandler_of_ok hc (h.trans hw), loadOutcome_of_finishLoad hx hw _⟩

/-- A store completes once its access has answered a state, and then stores nothing more. -/
theorem runHandler_store (hc : condPassed c s.cpsr = true) (hx : x.accessible s) (he : Effect s u)
    (hregs : RegsFramed s u []) (h : handler s = (Work.start u).writeback x.rn (x.address s)) :
    ∃ t, runHandler c handler s = .next t ∧ storeOutcome x s t ∧ nothingStored u t := by
  have hmode : psrMode u.cpsr = psrMode s.cpsr := by rw [hregs.cpsr]
  obtain ⟨w, hw⟩ := writeback_accessible (w := .start u) (x.address s) ((accessible_congr hmode _).2 hx.1)
  have hframe := hregs.append (.writeback (transferAddress_accessible hx) hw)
  have he' := he.writeback hw
  refine ⟨_, runHandler_of_ok hc (h.trans hw), ⟨fun hwb => ?_, fun hn => ?_, registersBut_advance hframe.regs _ _,
    by rw [State.advance_cpsr, hframe.cpsr], spsrsKept_advance hframe.spsrs _ _, .advance he' _ _⟩,
    nothingStored_advance (nothingStored_writeback hw) _ _⟩
  · rcases Work.writeback_ok.1 hw with ⟨-, hw⟩ | ⟨hno, -⟩
    · exact written_advance hw _
    · exact absurd hwb (by simp [hno])
  · rw [nextPc_writeback hn hw]
    exact nextInstruction_advance he'.r15

/-! ## The whole instruction -/

/-- A load is its access at the address, then the register writes. -/
theorem loadSingle_eq (hx : x.accessible s) : loadSingle x.n x.ix x.rn x.rd x.o s =
    singleLoad s (x.address s).addr x.n >>= fun v => finishLoad x.rn x.rd (x.address s) v s := by
  unfold loadSingle
  rw [transferAddress_accessible hx]
  rfl

/-- A store is the access of the old Rd at the address, then the writeback. -/
theorem storeSingle_eq (hx : x.accessible s) : storeSingle x.n x.ix x.rn x.rd x.o s =
    singleStore s (x.address s).addr x.n (reg s x.rd) >>= fun t => (Work.start t).writeback x.rn (x.address s) := by
  have ⟨_, hd, _⟩ := hx
  unfold storeSingle
  rw [transferAddress_accessible hx, readReg_accessible hd]
  rfl

/-- Bytes stored and then kept. -/
theorem storedAt_of_memWrite {t : State} {addr : Word} {n : Width} (h : memWrite s addr n v = .ok u)
    (k : nothingStored u t) : storedAt s t addr n v ∧ t.output = s.output := by
  obtain ⟨hbytes, hout⟩ := k
  obtain ⟨-, -, -, -, hstored⟩ := memWrite_ok h
  exact ⟨fun a => (hbytes a).trans (hstored a), hout.trans (output_memWrite h)⟩

end

/-- Settles O20: the three accesses by address, each followed by the register writes of every load (R136 to R138,
R140). -/
theorem loadSingleResult : Obligations.LoadSingleResult := by
  unfold Obligations.LoadSingleResult
  intro i c x s hi hl hc hx
  have hexec := exec_single_load hi hl s
  have hrun := loadSingle_eq hx
  rw [hexec]
  refine ⟨fun hkbd => ?_, fun hkbd hb => ?_, fun hkbd hb => ?_⟩
  · rw [singleLoad_kbd hkbd] at hrun
    exact runHandler_load hc hx hrun
  · rw [singleLoad_ram hkbd, memRead_ramWord hb] at hrun
    exact runHandler_load hc hx hrun
  · rw [singleLoad_ram hkbd, memRead_outside hb] at hrun
    exact runHandler_of_error hc hrun

/-- Settles O21: the three accesses by address, each followed by the writeback of every store (R136, R137, R139,
R141). -/
theorem storeSingleResult : Obligations.StoreSingleResult := by
  unfold Obligations.StoreSingleResult
  intro i c x s hi hl hc hx
  have hexec := exec_single_store hi hl s
  have hrun := storeSingle_eq hx
  rw [hexec]
  refine ⟨fun hdisp => ?_, fun hdisp hb => ?_, fun hdisp hb => ?_⟩
  · have hs := singleStore_display hdisp x.n (reg s x.rd)
    rw [hs] at hrun
    obtain ⟨t, ht, hout, hbytes, hemit⟩ := runHandler_store hc hx (.singleStore hs) (.singleStore hs) hrun
    exact ⟨t, ht, hout, hbytes, hemit⟩
  · obtain ⟨u, hu⟩ := memWrite_inRam (v := reg s x.rd) hb
    rw [singleStore_ram hdisp, hu] at hrun
    obtain ⟨t, ht, hout, hkept⟩ := runHandler_store hc hx (.memWrite hu) (.memWrite hu) hrun
    exact ⟨t, ht, hout, storedAt_of_memWrite hu hkept⟩
  · rw [singleStore_ram hdisp, memWrite_outside hb] at hrun
    exact runHandler_of_error hc hrun

end Sys2Proof.Machine
end

section
/-! The memory frame of every instruction (20_memory.md R43, R46, R49): what the accesses and the loops of a store keep,
the handlers that store nothing, and the bytes of a line (60_exceptions.md R166). -/

namespace Sys2Proof.Machine

/-! ## The handlers that store nothing -/

/-- A handler in flight that answers leaves the RAM and the output of `s`. -/
def StoresNothing (s : State) (got : Except Reason Work) : Prop := ∀ w, got = .ok w → nothingStored s w.st

section
variable {A : Type} {s : State} {w : Work}

theorem StoresNothing.bind {got : Except Reason A} {next : A → Except Reason Work}
    (h : ∀ v, got = .ok v → StoresNothing s (next v)) : StoresNothing s (got >>= next) := fun w hw => by
  obtain ⟨v, hv, hw⟩ := bind_eq_ok.1 hw
  exact h v hv w hw

theorem StoresNothing.ok (h : nothingStored s w.st) : StoresNothing s (.ok w) := fun w' hw => by
  cases hw
  exact h

theorem StoresNothing.setReg (h : nothingStored s w.st) (i : Reg) (v : Word) : StoresNothing s (w.setReg i v) :=
  fun _ hw => nothingStored_trans h (nothingStored_setReg hw)

theorem StoresNothing.dpStatus (h : nothingStored s w.st) (op : DpOp) (rd : Reg) (r : AluResult) :
    StoresNothing s (dpStatus op rd r w) := by
  unfold Machine.dpStatus
  split
  · split
    · intro w' hw
      obtain ⟨-, rfl⟩ := restoreCpsr_ok.1 hw
      exact h
    · exact .ok h
  · exact .ok h

theorem StoresNothing.dataProcessing (op : DpOp) (sbit : Bool) (rn rd : Reg) (o : Operand) :
    StoresNothing s (dataProcessing op sbit rn rd o s) :=
  .bind fun _ _ => .bind fun _ _ => .bind fun w hw => by
    have hres := dpResult_ok hw
    unfold dpFinish
    split
    · exact .dpStatus hres.stored op rd _
    · exact .ok hres.stored

theorem StoresNothing.multiply (accumulate : Bool) (a : MulArgs) : StoresNothing s (multiply accumulate a s) :=
  .bind fun _ _ => .bind fun _ _ => .bind fun _ _ => .bind fun w hw => by
    have hw := StoresNothing.setReg (nothingStored_refl s) _ _ w hw
    cases a.s <;> exact .ok hw

theorem StoresNothing.finishLoad (rn rd : Reg) (ad : Address) (v : Word) : StoresNothing s (finishLoad rn rd ad v s) :=
  .bind fun _ hw => .setReg (nothingStored_writeback hw) rd v

theorem StoresNothing.loadSingle (n : Width) (ix : Indexing) (rn rd : Reg) (o : Offset) :
    StoresNothing s (loadSingle n ix rn rd o s) := .bind fun _ _ => .bind fun _ _ => .finishLoad _ _ _ _

theorem StoresNothing.loadHalf (n : Width) (x : Extend) (ix : Indexing) (rn rd : Reg) (o : Offset) :
    StoresNothing s (loadHalf n x ix rn rd o s) := .bind fun _ _ => .bind fun _ _ => .finishLoad _ _ _ _

theorem StoresNothing.loadRegs (is : List Reg) (addr : Word) (h : nothingStored s w.st) :
    StoresNothing s (loadRegs is addr w) := by
  induction is generalizing addr w with
  | nil => exact .ok h
  | cons i is ih => exact .bind fun _ _ => .bind fun w' hw => ih _ (StoresNothing.setReg h _ _ w' hw)

theorem nothingStored_blockWriteback {a : BlockArgs} {v : Word} {w' : Work} (h : blockWriteback a v w = .ok w') :
    nothingStored w.st w'.st := by
  unfold blockWriteback at h
  split at h
  · exact nothingStored_setReg h
  · cases h; exact nothingStored_refl _

theorem StoresNothing.loadMultiple (a : BlockArgs) : StoresNothing s (loadMultiple a s) := by
  unfold Machine.loadMultiple
  split
  · intro w hw; cases hw
  · exact .bind fun _ _ => .bind fun w hw => fun w' hw' =>
      nothingStored_trans (StoresNothing.loadRegs _ _ (nothingStored_refl s) w hw) (nothingStored_blockWriteback hw')

theorem StoresNothing.branchLink (off : BitVec 24) : StoresNothing s (branchLink off s) :=
  .bind fun w hw => .ok (w := w.setPc _) (nothingStored_setReg hw)

theorem StoresNothing.branchExchange (rm : Reg) : StoresNothing s (branchExchange rm s) :=
  .bind fun _ _ => .ok ⟨fun _ => rfl, rfl⟩

theorem StoresNothing.moveFromStatus (spsr : Bool) (rd : Reg) : StoresNothing s (moveFromStatus spsr rd s) :=
  .bind fun _ _ => .setReg (nothingStored_refl s) _ _

theorem nothingStored_msrWrite {spsr : Bool} {fm : BitVec 4} {v : Word} {t : State} (h : msrWrite s spsr fm v = .ok t) :
    nothingStored s t := by
  rcases msrWrite_ok.1 h with ⟨-, old, -, rfl⟩ | ⟨-, -, rfl⟩
  · exact ⟨fun a => by rw [State.byteAt, State.setCurrentSpsr_mem]; rfl, State.setCurrentSpsr_output ..⟩
  · exact ⟨fun _ => rfl, rfl⟩

theorem StoresNothing.moveToStatusReg (a : MsrRegArgs) : StoresNothing s (moveToStatusReg a s) :=
  .bind fun _ _ => .bind fun _ ht => .ok (nothingStored_msrWrite ht)

theorem StoresNothing.moveToStatusImm (a : MsrImmArgs) : StoresNothing s (moveToStatusImm a s) :=
  .bind fun _ ht => .ok (nothingStored_msrWrite ht)

theorem StoresNothing.noOperation : StoresNothing s (noOperation s) := .ok (nothingStored_refl s)

/-- Neither the skip nor the advance stores. -/
theorem StoresNothing.runHandler {c : Cond} {handler : State → Except Reason Work} {t : State}
    (h : StoresNothing s (handler s)) (ht : runHandler c handler s = .next t) : nothingStored s t := by
  rcases runHandler_next.1 ht with ⟨-, rfl⟩ | ⟨-, w, hw, rfl⟩
  · exact nothingStored_advance (nothingStored_refl s) _ _
  · exact nothingStored_advance (h w hw) _ _

end

/-- EVERY INSTRUCTION but the transfers and SWI stores nothing. -/
theorem exec_nothingStored {i : Instr} {s t : State} (hsingle : Instr.single? i = none) (hhalf : Instr.half? i = none)
    (hstm : ∀ c a, i ≠ .stm c a) (hswi : ∀ c n, i ≠ .swi c n) (h : exec i s = .next t) : nothingStored s t := by
  cases i with
  | zeroWord => cases h; exact ⟨fun _ => rfl, rfl⟩
  | swi c n => exact absurd rfl (hswi c n)
  | stm c a => exact absurd rfl (hstm c a)
  | strImm | ldrImm | strbImm | ldrbImm | strReg | ldrReg | strbReg | ldrbReg | strScaled | ldrScaled | strbScaled
  | ldrbScaled => cases hsingle
  | strhImm | ldrhImm | ldrsbImm | ldrshImm | strhReg | ldrhReg | ldrsbReg | ldrshReg => cases hhalf
  | ldm c a => exact (StoresNothing.loadMultiple a).runHandler h
  | mul c a => exact (StoresNothing.multiply false a).runHandler h
  | mla c a => exact (StoresNothing.multiply true a).runHandler h
  | b c off => exact StoresNothing.runHandler (handler := branch off) (.ok (nothingStored_refl s)) h
  | bl c off => exact (StoresNothing.branchLink off).runHandler h
  | bx c rm => exact (StoresNothing.branchExchange rm).runHandler h
  | mrs c spsr rd => exact (StoresNothing.moveFromStatus spsr rd).runHandler h
  | msrReg c a => exact (StoresNothing.moveToStatusReg a).runHandler h
  | msrImm c a => exact (StoresNothing.moveToStatusImm a).runHandler h
  | nopCoprocessor c | nopUndefined c | nopCompareImm c | nopMultiplySpace c | nopDoubleWord c | nopCompareReg c =>
    exact StoresNothing.noOperation.runHandler (handler := noOperation) h
  | _ => exact StoresNothing.runHandler (StoresNothing.dataProcessing _ _ _ _ _) h

/-! ## The stores of a single and a half-word transfer -/

section
variable {s t : State} {addr v : Word} {n : Width} {ix : Indexing} {rn rd : Reg} {o : Offset} {ad : Address} {w : Work}

/-- The display takes no byte of the RAM (20_memory.md R52). -/
theorem sameBytesOutside_singleStore (h : singleStore s addr n v = .ok t) :
    sameBytesOutside s t addr.toNat n.bytes := by
  rcases singleStore_ok.1 h with ⟨-, rfl⟩ | ⟨-, h⟩
  · exact fun _ _ => rfl
  · exact sameBytesOutside_memWrite h

theorem sameBytesOutside_storeSingle (had : transferAddress ix rn o s = .ok ad)
    (h : storeSingle n ix rn rd o s = .ok w) : sameBytesOutside s w.st ad.addr.toNat n.bytes := by
  obtain ⟨ad', had', h⟩ := bind_eq_ok.1 h
  obtain rfl : ad = ad' := Except.ok.inj (had.symm.trans had')
  obtain ⟨v, -, h⟩ := bind_eq_ok.1 h
  obtain ⟨t, ht, h⟩ := bind_eq_ok.1 h
  exact fun a ha => ((nothingStored_writeback h).1 a).trans (sameBytesOutside_singleStore ht a ha)

theorem sameBytesOutside_storeHalf (had : transferAddress ix rn o s = .ok ad)
    (h : storeHalf ix rn rd o s = .ok w) : sameBytesOutside s w.st ad.addr.toNat Width.half.bytes := by
  obtain ⟨ad', had', h⟩ := bind_eq_ok.1 h
  obtain rfl : ad = ad' := Except.ok.inj (had.symm.trans had')
  obtain ⟨v, -, h⟩ := bind_eq_ok.1 h
  obtain ⟨t, ht, h⟩ := bind_eq_ok.1 h
  exact fun a ha => ((nothingStored_writeback h).1 a).trans (sameBytesOutside_memWrite ht a ha)

/-- What a handler keeps of a byte, the skip and the advance keep. -/
theorem byteAt_runHandler {c : Cond} {handler : State → Except Reason Work} {a : Nat}
    (h : ∀ w, handler s = .ok w → w.st.byteAt a = s.byteAt a) (ht : runHandler c handler s = .next t) :
    t.byteAt a = s.byteAt a := by
  rcases runHandler_next.1 ht with ⟨-, rfl⟩ | ⟨-, w, hw, rfl⟩
  · rw [State.byteAt, State.advance_mem]; rfl
  · rw [State.byteAt, State.advance_mem]; exact h w hw

theorem sameBytesOutside_store {i : Instr} {c : Cond} {x : Transfer}
    (hi : Instr.single? i = some (c, x) ∨ Instr.half? i = some (c, x)) (hl : x.load = false)
    (had : transferAddress x.ix x.rn x.o s = .ok ad) (h : exec i s = .next t) :
    sameBytesOutside s t ad.addr.toNat x.n.bytes := by
  intro a ha
  rcases hi with hi | hi
  · rw [exec_single_store hi hl] at h
    exact byteAt_runHandler (fun w hw => sameBytesOutside_storeSingle had hw a ha) h
  · obtain ⟨hn, hexec⟩ := exec_half_store hi hl s
    rw [hexec] at h
    exact byteAt_runHandler (fun w hw => sameBytesOutside_storeHalf had hw a (by rwa [hn] at ha)) h

theorem nothingStored_load {i : Instr} {c : Cond} {x : Transfer}
    (hi : Instr.single? i = some (c, x) ∨ Instr.half? i = some (c, x)) (hl : x.load = true)
    (h : exec i s = .next t) : nothingStored s t := by
  rcases hi with hi | hi
  · rw [exec_single_load hi hl] at h
    exact (StoresNothing.loadSingle _ _ _ _ _).runHandler h
  · rw [exec_half_load hi hl] at h
    exact (StoresNothing.loadHalf _ _ _ _ _ _).runHandler h

/-! ## STM (45_block_transfer.md R148, R151) -/

/-- The first word of a block transfer is the one the claims name. -/
theorem blockAddress_fst (a : BlockArgs) (s : State) :
    (blockAddress a.p a.u (reg s a.rn) (listCount a.list)).1 = blockStart a s := by
  unfold blockAddress blockStart
  rw [listCount_eq_rank]
  cases a.p <;> cases a.u <;> rfl

/-- The loop of STM keeps every byte outside its words. -/
theorem byteAt_storeRegs {is : List Reg} {a : Nat} (h : storeRegs is addr s = .ok t)
    (ha : ∀ k < is.length, ¬ ((addr + BitVec.ofNat 32 (4 * k)).toNat ≤ a ∧
      a < (addr + BitVec.ofNat 32 (4 * k)).toNat + 4)) : t.byteAt a = s.byteAt a := by
  induction is generalizing addr s with
  | nil => cases h; rfl
  | cons i is ih =>
    obtain ⟨v, -, h⟩ := bind_eq_ok.1 h
    obtain ⟨u, hu, h⟩ := bind_eq_ok.1 h
    have hfirst := ha 0 (Nat.zero_lt_succ _)
    rw [Nat.mul_zero, BitVec.add_zero] at hfirst
    refine (ih h fun k hk => ?_).trans (sameBytesOutside_memWrite hu a (by simp only [Width.bytes]; omega))
    rw [BitVec.add_assoc, ← BitVec.ofNat_add, Nat.add_comm 4, ← Nat.mul_succ]
    exact ha (k + 1) (Nat.succ_lt_succ hk)

theorem byteAt_storeMultiple {x : BlockArgs} {a : Nat} (h : storeMultiple x s = .ok w) (ha : ¬ inStm x s a) :
    w.st.byteAt a = s.byteAt a := by
  unfold storeMultiple at h
  split at h
  · cases h
  · obtain ⟨base, hbase, h⟩ := bind_eq_ok.1 h
    obtain ⟨u, hu, h⟩ := bind_eq_ok.1 h
    obtain rfl := reg_of_readReg hbase
    refine ((nothingStored_blockWriteback h).1 a).trans (byteAt_storeRegs hu fun k hk hin => ha ⟨k, ?_, ?_⟩)
    · rw [← listCount_eq_rank]; exact hk
    · rw [blockWord, ← blockAddress_fst]; exact hin

/-! ## SWI (60_exceptions.md R165, R166) -/

theorem length_lineBytes_le {max : Nat} {line : List Byte} (h : line.length ≤ max) :
    (lineBytes max line).length ≤ max + 1 := by
  unfold lineBytes
  split <;> simp <;> omega

/-- A line keeps every byte outside its own. -/
theorem byteAt_writeLine {bs : List Byte} {a : Nat} (h : writeLine s addr bs = .ok t)
    (ha : ∀ k < bs.length, a ≠ (addr + BitVec.ofNat 32 k).toNat) : t.byteAt a = s.byteAt a := by
  induction bs generalizing addr s with
  | nil => cases h; rfl
  | cons b bs ih =>
    obtain ⟨u, hu, h⟩ := bind_eq_ok.1 h
    have hfirst := ha 0 (Nat.zero_lt_succ _)
    rw [BitVec.add_zero] at hfirst
    refine (ih h fun k hk => ?_).trans (sameBytesOutside_memWrite hu a (by simp only [Width.bytes]; omega))
    rw [BitVec.add_assoc, ← BitVec.ofNat_add, Nat.add_comm 1]
    exact ha (k + 1) (Nat.succ_lt_succ hk)

/-- The service writes a line of at most `max` bytes and its terminators. -/
theorem byteAt_serviceReadline {e : State} {f : Word} {a : Nat} (h : serviceReadline e f = .next t)
    (ha : ∀ k ≤ (e.regs[e.params.readlineMaxReg]).toNat,
      a ≠ (e.regs[e.params.readlineAddrReg] + BitVec.ofNat 32 k).toNat) : t.byteAt a = e.byteAt a := by
  unfold serviceReadline at h
  split at h
  · cases h; rfl
  · next line rest _ =>
    dsimp only at h
    split at h
    · cases h
    · next hfits =>
      split at h
      · next u hu =>
        cases h
        have hlen := length_lineBytes_le (not_lt.1 hfits)
        have hline := byteAt_writeLine (a := a) hu fun k hk => ha k (by omega)
        exact hline
      · cases h

theorem byteAt_execSwi {c : Cond} {m : BitVec 24} {a : Nat} (h : execSwi c m s = .next t)
    (ha : ∀ k ≤ (s.regs[s.params.readlineMaxReg]).toNat,
      a ≠ (s.regs[s.params.readlineAddrReg] + BitVec.ofNat 32 k).toNat) : t.byteAt a = s.byteAt a := by
  have hentry := (nothingStored_swiEntry s).1 a
  rcases execSwi_next h with rfl | ⟨-, rfl⟩ | ⟨-, rfl⟩ | ⟨-, hr⟩
  · simp [State.byteAt]
  · simp [State.byteAt, exitHalt]
  · exact hentry
  · exact (byteAt_serviceReadline hr (by simpa using ha)).trans hentry

end

/-- Settles O43: the stores keep what lies outside their bytes, STM what lies outside its words, the line input what
lies outside its buffer, and the handlers of the rest store nothing (R49, R139, R141, R144, R151, R166). -/
theorem memoryFrame : Obligations.MemoryFrame := by
  unfold Obligations.MemoryFrame
  intro i s t h
  refine ⟨fun c x hi hl ad had => sameBytesOutside_store hi hl had h,
    fun c x hi hl => (nothingStored_load hi hl h).1, ?_, ?_,
    fun hsingle hhalf hstm hswi => exec_nothingStored hsingle hhalf hstm hswi h⟩
  · rintro c x rfl a ha
    exact byteAt_runHandler (fun w hw => byteAt_storeMultiple hw ha) h
  · rintro c n rfl a ha
    exact byteAt_execSwi h ha

end Sys2Proof.Machine
end

section
/-! Half-word and signed transfers (44_halfword_load_store.md R142 to R146): the extension of what the RAM holds, and
the accesses, which no sentinel intercepts. -/

namespace Sys2Proof.Machine

/-! ## The extension (44_halfword_load_store.md R143, R145, R146) -/

/-- A read of a width fills that width's low bits and no others (20_memory.md R44, R45). -/
theorem ramWord_eq_setWidth (s : State) (addr : Word) (n : Width) :
    ∃ b : BitVec (8 * n.bytes), ramWord s addr n = b.setWidth 32 := by
  unfold ramWord
  split
  · cases n <;> cases s.endian
    case word.little | word.big => exact ⟨_, (BitVec.setWidth_eq _).symm⟩
    all_goals exact ⟨_, rfl⟩
  · exact ⟨0#_, (BitVec.setWidth_zero ..).symm⟩

theorem extendFrom_ramWord (x : Extend) {n : Width} (hn : n = .byte ∨ n = .half) (s : State) (addr : Word) :
    extendFrom x n (ramWord s addr n) = extended x n (ramWord s addr n) := by
  obtain ⟨b, hb⟩ := ramWord_eq_setWidth s addr n
  rw [hb]
  cases x with
  | zero => rfl
  | sign =>
    rcases hn with rfl | rfl
    · exact extendFrom_sign_byte b
    · exact extendFrom_sign_half b

/-! ## The whole instruction -/

section
variable {x : Transfer} {s : State}

/-- A load is its access at the address, then the register writes. -/
theorem loadHalf_eq (hx : x.accessible s) : loadHalf x.n x.x x.ix x.rn x.rd x.o s =
    memRead s (x.address s).addr x.n >>= fun v => finishLoad x.rn x.rd (x.address s) (extendFrom x.x x.n v) s := by
  unfold loadHalf
  rw [transferAddress_accessible hx]
  rfl

/-- A store is the access of the old Rd at the address, then the writeback. -/
theorem storeHalf_eq (hx : x.accessible s) : storeHalf x.ix x.rn x.rd x.o s =
    memWrite s (x.address s).addr .half (reg s x.rd) >>= fun t => (Work.start t).writeback x.rn (x.address s) := by
  have ⟨_, hd, _⟩ := hx
  unfold storeHalf
  rw [transferAddress_accessible hx, readReg_accessible hd]
  rfl

end

/-- Settles O22: the RAM's value extended as R143, R145 and R146 say, then the register writes of every load (R136). -/
theorem loadHalfResult : Obligations.LoadHalfResult := by
  unfold Obligations.LoadHalfResult
  intro i c x s hi hl hc hx
  have hrun := loadHalf_eq hx
  rw [exec_half_load hi hl s]
  refine ⟨fun hb => ?_, fun hb => ?_⟩
  · rw [memRead_ramWord hb] at hrun
    rw [← extendFrom_ramWord x.x (half_width hi)]
    exact runHandler_load hc hx hrun
  · rw [memRead_outside hb] at hrun
    exact runHandler_of_error hc hrun

/-- Settles O23: the half-word write of the old Rd, then the writeback of every store (R136, R144). -/
theorem storeHalfResult : Obligations.StoreHalfResult := by
  unfold Obligations.StoreHalfResult
  intro i c x s hi hl hc hx
  obtain ⟨hn, hexec⟩ := exec_half_store hi hl s
  have hrun := storeHalf_eq hx
  rw [hexec, hn]
  refine ⟨fun hb => ?_, fun hb => ?_⟩
  · obtain ⟨u, hu⟩ := memWrite_inRam (v := reg s x.rd) hb
    rw [hu] at hrun
    obtain ⟨t, ht, hout, hkept⟩ := runHandler_store hc hx (.memWrite hu) (.memWrite hu) hrun
    exact ⟨t, ht, hout, storedAt_of_memWrite hu hkept⟩
  · rw [memWrite_outside hb] at hrun
    exact runHandler_of_error hc hrun

end Sys2Proof.Machine
end

section
/-! Block transfers (45_block_transfer.md R148 to R151): LDM and STM as a loop followed by a writeback, where the loops
leave the RAM, and what the registers in flight hold after them. -/

namespace Sys2Proof.Machine

/-! ## The addresses (45_block_transfer.md R148) -/

/-- The addresses of a block transfer, in the form of a single one's: the writeback is then the same operation. -/
def blockTransferAddress (x : BlockArgs) (s : State) : Address := ⟨blockStart x s, blockWbval x s, x.w⟩

/-- The writeback value is the one the claims name. -/
theorem blockAddress_snd (x : BlockArgs) (s : State) :
    (blockAddress x.p x.u (reg s x.rn) (listCount x.list)).2 = blockWbval x s := by
  unfold blockAddress blockWbval
  rw [listCount_eq_rank]
  cases x.p <;> cases x.u <;> rfl

theorem length_listedRegs (list : BitVec 16) : (listedRegs list).length = rank list 16 := listCount_eq_rank list

/-- The words from the second on. -/
theorem add_four_add_word (addr : Word) (k : Nat) :
    addr + 4#32 + BitVec.ofNat 32 (4 * k) = addr + BitVec.ofNat 32 (4 * (k + 1)) := by
  rw [BitVec.add_assoc, ← BitVec.ofNat_add, Nat.add_comm 4, ← Nat.mul_succ]

section
variable {x : BlockArgs} {s : State} {w w' : Work} {is : List Reg} {i j rn : Reg} {addr u v : Word} {ad : Address}
  {k : Nat}

/-- LDM is its loop, then the writeback. -/
theorem loadMultiple_eq (hne : x.list ≠ 0#16) (hn : accessible s x.rn) : loadMultiple x s =
    loadRegs (listedRegs x.list) (blockStart x s) (.start s) >>= fun w =>
      w.writeback x.rn (blockTransferAddress x s) := by
  unfold loadMultiple blockTransferAddress
  rw [if_neg hne, readReg_accessible hn, ← blockAddress_fst, ← blockAddress_snd]
  rfl

/-- STM is its loop, then the writeback. -/
theorem storeMultiple_eq (hne : x.list ≠ 0#16) (hn : accessible s x.rn) : storeMultiple x s =
    storeRegs (listedRegs x.list) (blockStart x s) s >>= fun t =>
      (Work.start t).writeback x.rn (blockTransferAddress x s) := by
  unfold storeMultiple blockTransferAddress
  rw [if_neg hne, readReg_accessible hn, ← blockAddress_fst, ← blockAddress_snd]
  rfl

/-! ## A word outside the RAM (20_memory.md R43) -/

/-- The loop of LDM stops at a word outside the RAM when no register stops it. -/
theorem loadRegs_outside (ha : ∀ i ∈ is, accessible w.st i) (hk : k < is.length)
    (hb : ¬ w.st.inRam (addr + BitVec.ofNat 32 (4 * k)) .word) : loadRegs is addr w = .error .memBounds := by
  induction is generalizing addr w k with
  | nil => exact absurd hk (Nat.not_lt_zero k)
  | cons i is ih =>
    unfold loadRegs
    by_cases hfirst : w.st.inRam addr .word
    · obtain ⟨w₁, hw, -⟩ := setReg_accessible w
        (if i = 15 then ramWord w.st addr .word &&& 0xFFFFFFFC#32 else ramWord w.st addr .word)
        (ha i List.mem_cons_self)
      have hcpsr := (RegsFramed.setReg hw).cpsr
      have hparams := ((Effect.refl w.st).setReg hw).params
      rw [memRead_ramWord hfirst]
      change (w.setReg i _ >>= loadRegs is (addr + 4#32)) = _
      rw [hw]
      cases k with
      | zero => exact absurd hfirst (by simpa using hb)
      | succ k =>
        refine ih (fun j hj => (accessible_congr (by rw [hcpsr]) j).2 (ha j (List.mem_cons_of_mem _ hj)))
          (Nat.lt_of_succ_lt_succ hk) ?_
        rwa [add_four_add_word, State.inRam, hparams]
    · rw [memRead_outside hfirst]
      rfl

/-- The loop of STM stops at a word outside the RAM when no register stops it. -/
theorem storeRegs_outside (ha : ∀ i ∈ is, accessible s i) (hk : k < is.length)
    (hb : ¬ s.inRam (addr + BitVec.ofNat 32 (4 * k)) .word) : storeRegs is addr s = .error .memBounds := by
  induction is generalizing addr s k with
  | nil => exact absurd hk (Nat.not_lt_zero k)
  | cons i is ih =>
    unfold storeRegs
    rw [readReg_accessible (ha i List.mem_cons_self)]
    change (memWrite s addr .word (reg s i) >>= storeRegs is (addr + 4#32)) = _
    by_cases hfirst : s.inRam addr .word
    · obtain ⟨u, hu⟩ := memWrite_inRam (v := reg s i) hfirst
      have hcpsr := (RegsFramed.memWrite hu).cpsr
      have hparams := (Effect.memWrite hu).params
      rw [hu]
      cases k with
      | zero => exact absurd hfirst (by simpa using hb)
      | succ k =>
        refine ih (fun j hj => (accessible_congr (by rw [hcpsr]) j).2 (ha j (List.mem_cons_of_mem _ hj)))
          (Nat.lt_of_succ_lt_succ hk) ?_
        rwa [add_four_add_word, State.inRam, hparams]
    · rw [memWrite_outside hfirst]
      rfl

/-! ## Registers in flight -/

/-- Register `i` was written `v` and not since: r15 by `pc <- v` (40_execution_cycle.md R101). -/
def Work.holds (w : Work) (i : Reg) (v : Word) : Prop :=
  if i = 15 then w.nextPc = some v else readReg w.st i = .ok v

theorem Work.holds.advance (h : w.holds i v) (tr : Bool) : written (w.st.advance w.nextPc tr) i v := by
  unfold Work.holds at h
  unfold written
  split at h
  · next h15 => rw [if_pos h15, h]; simp
  · next h15 =>
    obtain ⟨sl, hs, hv⟩ := readReg_ok.1 h
    rw [if_neg h15]
    refine readReg_ok.2 ⟨sl, by simpa using hs, ?_⟩
    rw [State.getSlot_advance _ _ _ (slot_ne_r15 h15 hs), hv]

/-- A write of another register leaves it. -/
theorem Work.holds.setReg_other (h : w.holds i v) (hw : w.setReg j u = .ok w') (hij : i ≠ j) : w'.holds i v := by
  unfold Work.holds at h ⊢
  rcases Work.setReg_ok.1 hw with ⟨rfl, rfl⟩ | ⟨hj, sl, hs, rfl⟩
  · rwa [if_neg hij] at h ⊢
  · rwa [readReg_writeReg_other (writeReg_ok.2 ⟨sl, hs, rfl⟩) hij]

theorem Work.holds.writeback (h : w.holds i v) (hw : w.writeback rn ad = .ok w') (hi : ¬ (ad.wb = true ∧ i = rn)) :
    w'.holds i v := by
  rcases Work.writeback_ok.1 hw with ⟨hwb, hw⟩ | ⟨-, rfl⟩
  · exact h.setReg_other hw fun hin => hi ⟨hwb, hin⟩
  · exact h

theorem written_writeback (hw : w.writeback rn ad = .ok w') (hwb : ad.wb = true) (tr : Bool) :
    written (w'.st.advance w'.nextPc tr) rn ad.offaddr := by
  rcases Work.writeback_ok.1 hw with ⟨-, hw⟩ | ⟨hno, -⟩
  · exact written_advance hw tr
  · exact absurd hwb (by simp [hno])

/-! ## The whole instruction -/

/-- The word LDM gives a listed register, with bits 1:0 cleared for r15 (45_block_transfer.md R150). -/
def blockLoaded (x : BlockArgs) (s : State) (i : Reg) : Word :=
  if i = 15 then ramWord s (blockWord x s (rank x.list 15)) .word &&& 0xFFFFFFFC#32
  else ramWord s (blockWord x s (rank x.list i.val)) .word

/-- The loop of LDM gives each listed register its word, and jumps for no other reason than r15. -/
theorem loadRegs_listed (hx : blockAccessible x s) (hb : ∀ k, k < rank x.list 16 → s.inRam (blockWord x s k) .word) :
    ∃ w, loadRegs (listedRegs x.list) (blockStart x s) (.start s) = .ok w ∧
      (∀ i, listed x.list i → w.holds i (blockLoaded x s i)) ∧ (¬ listed x.list 15 → w.nextPc = none) := by
  obtain ⟨w, hw, -, -, hpc, hval⟩ := loadRegs_ok (w := .start s) (addr := blockStart x s) (listedRegs_nodup x.list)
    (fun i hi => hx.2 i (mem_listedRegs.1 hi)) (fun k hk => hb k (by rwa [← length_listedRegs]))
  refine ⟨w, hw, fun i hi => ?_, fun h15 => hpc fun h => h15 (mem_listedRegs.1 h)⟩
  obtain ⟨hr, hat⟩ := listedRegs_rank hi
  obtain ⟨hjump, hread⟩ := hval (rank x.list i.val) hr
  rw [hat] at hjump hread
  unfold Work.holds blockLoaded
  split
  · next h15 => subst h15; exact hjump rfl
  · next h15 => exact hread h15

end

/-- Settles O38: both handlers test the list before anything else (R149). -/
theorem emptyListFaults : Obligations.EmptyListFaults := by
  unfold Obligations.EmptyListFaults
  intro c x s hc he
  exact ⟨runHandler_of_error hc (Form.handler_of_emptyList (f := .loadMultiple x) he),
    runHandler_of_error hc (Form.handler_of_emptyList (f := .storeMultiple x) he)⟩

/-- Settles O24: the loop gives the listed registers their words, and the writeback after it (R150) leaves all but the
base. -/
theorem ldmResult : Obligations.LdmResult := by
  unfold Obligations.LdmResult
  intro c x s hc hne hx
  have ⟨hn, hlist⟩ := hx
  have hrun := loadMultiple_eq hne hn
  refine ⟨fun k hk hb => ?_, fun hb => ?_⟩
  · rw [loadRegs_outside (fun i hi => hlist i (mem_listedRegs.1 hi)) (by rwa [length_listedRegs]) hb] at hrun
    exact runHandler_of_error hc hrun
  · obtain ⟨w₁, hw₁, hholds, hpc⟩ := loadRegs_listed hx hb
    have hmode : psrMode w₁.st.cpsr = psrMode s.cpsr := by rw [(RegsFramed.loadRegs hw₁).cpsr]; rfl
    obtain ⟨w, hw⟩ := writeback_accessible (blockTransferAddress x s) ((accessible_congr hmode _).2 hn)
    replace hrun : loadMultiple x s = .ok w := hrun.trans (bind_eq_ok.2 ⟨w₁, hw₁, hw⟩)
    have he := Effect.loadMultiple hrun
    have hframe := RegsFramed.loadMultiple hrun
    refine ⟨_, runHandler_of_ok hc hrun, fun i hi hbase => ((hholds i hi).writeback hw hbase).advance _,
      fun hwb => written_writeback hw hwb _, fun h15 hbase => ?_, registersBut_advance hframe.regs _ _,
      by rw [State.advance_cpsr, hframe.cpsr], spsrsKept_advance hframe.spsrs _ _,
      nothingStored_advance (StoresNothing.loadMultiple x w hrun) _ _, .advance he _ _⟩
    rw [nextPc_writeback hbase hw, hpc h15]
    exact nextInstruction_advance he.r15

/-- Settles O25: the loop stores the listed registers as they were, and the writeback comes after it (R151). -/
theorem stmResult : Obligations.StmResult := by
  unfold Obligations.StmResult
  intro c x s hc hne hx
  obtain ⟨hn, hlist⟩ := hx
  have hrun := storeMultiple_eq hne hn
  have hregs : ∀ i ∈ listedRegs x.list, accessible s i := fun i hi => hlist i (mem_listedRegs.1 hi)
  refine ⟨fun k hk hb => ?_, fun hb => ?_⟩
  · rw [storeRegs_outside hregs (by rwa [length_listedRegs]) hb] at hrun
    exact runHandler_of_error hc hrun
  · obtain ⟨u, hu, -, hmis, hstored, -⟩ := storeRegs_ok (addr := blockStart x s) (List.length_filter_le ..) hregs
      fun k hk => hb k (by rwa [← length_listedRegs])
    have hmode : psrMode u.cpsr = psrMode s.cpsr := by rw [(RegsFramed.storeRegs hu).cpsr]
    obtain ⟨w, hw⟩ := writeback_accessible (w := .start u) (blockTransferAddress x s) ((accessible_congr hmode _).2 hn)
    replace hrun : storeMultiple x s = .ok w := hrun.trans (bind_eq_ok.2 ⟨u, hu, hw⟩)
    have he := Effect.storeMultiple hrun
    have hframe := RegsFramed.storeMultiple hrun
    obtain ⟨hbytes, -⟩ := nothingStored_advance (nothingStored_writeback hw) w.nextPc s.traced
    refine ⟨_, runHandler_of_ok hc hrun, fun i hi hal k hk => ?_, fun a ha => ?_, fun hwb => written_writeback hw hwb _,
      fun hbase => ?_, registersBut_advance hframe.regs _ _, by rw [State.advance_cpsr, hframe.cpsr],
      spsrsKept_advance hframe.spsrs _ _, by rw [State.advance_output, output_storeMultiple hrun], .advance he _ _⟩
    · obtain ⟨hr, hat⟩ := listedRegs_rank hi
      have hword := hstored hal _ hr k hk
      rw [hat] at hword
      exact (hbytes _).trans hword
    · rw [hbytes]
      rcases ha with hal | hout
      · rw [hmis hal]; rfl
      · exact ((nothingStored_writeback hw).1 a).symm.trans (byteAt_storeMultiple hrun hout)
    · rw [nextPc_writeback hbase hw]
      exact nextInstruction_advance he.r15

end Sys2Proof.Machine
end

section
/-! Branches (46_branch.md R152 to R154): the targets as integers, and what each of the three handlers leaves. -/

namespace Sys2Proof.Machine

/-! ## After an r15 write (40_execution_cycle.md R95, R101) -/

/-- The address written to r15 is the next to fetch. -/
@[simp] theorem State.execAddr_advance_some (s : State) (v : Word) (tr : Bool) :
    (s.advance (some v) tr).execAddr = v := by
  rw [State.execAddr, State.advance_r15, nextR15_some, BitVec.add_sub_cancel]

/-- The advance alone changes r15 alone, after a jump too. -/
theorem onlyR15_advance_nextPc (s : State) (n : Option Word) (tr : Bool) :
    onlyR15 s (s.advance n tr) (s.advance n tr).r15 := by
  rw [State.advance_r15]
  exact State.advance_eq s n tr

/-! ## Targets -/

/-- The bit pattern of a branch target is that of the sum in the integers (R152). -/
theorem branchTarget_eq_ofInt (off : BitVec 24) (s : State) :
    branchTarget off s = BitVec.ofInt 32 (s.execAddr.toNat + 8 + 4 * off.toInt) := by
  have hoff : (off ++ 0b00#2).signExtend 32 = BitVec.ofInt 32 (4 * off.toInt) :=
    congrArg (BitVec.ofInt 32) BitVec.toInt_append_zero
  rw [branchTarget, hoff, BitVec.ofInt_add, BitVec.ofInt_add, BitVec.ofInt_natCast, BitVec.ofNat_toNat,
    BitVec.setWidth_eq, BitVec.ofInt_ofNat]

/-- The mask of BX takes away bit 0, the remainder modulo 2 (R154). -/
theorem and_clearBitZero_eq_sub (v : Word) : v &&& 0xFFFFFFFE#32 = v - BitVec.ofNat 32 (v.toNat % 2) := by
  have hlow : BitVec.ofNat 32 (v.toNat % 2) = v &&& 1#32 := by
    rw [← Nat.and_one_is_mod, BitVec.ofNat_and, BitVec.ofNat_toNat, BitVec.setWidth_eq]
  have hdisjoint : (v &&& ~~~1#32) &&& (v &&& 1#32) = 0#32 := by
    rw [BitVec.and_comm v 1#32, BitVec.and_assoc, ← BitVec.and_assoc (~~~1#32)]
    simp
  rw [show 0xFFFFFFFE#32 = ~~~1#32 from rfl, hlow, BitVec.eq_sub_iff_add_eq,
    BitVec.add_eq_or_of_and_eq_zero _ _ hdisjoint, ← BitVec.and_or_distrib_left, BitVec.not_or_self,
    BitVec.and_allOnes]

/-! ## The handlers -/

section
variable {c : Cond} {off : BitVec 24} {rm : Reg} {s : State}

/-- BL is a write of r14, then the jump (R153). -/
theorem branchLink_of_setReg {w : Work} (hw : (Work.start s).setReg 14 (s.execAddr + 4#32) = .ok w) :
    branchLink off s = .ok (w.setPc (branchTarget off s)) := bind_eq_ok.2 ⟨w, hw, rfl⟩

/-- Without r14 in the mode BL stops before the jump (10_state.md R15). -/
theorem exec_bl_of_not_banked (hc : condPassed c s.cpsr = true) (hb : ¬ banked s) :
    exec (.bl c off) s =
      .fault (if psrModeOf s.cpsr = none then .invalidMode s.execAddr else .unbankedMode s.execAddr) := by
  rw [← unbankedReason_at]
  exact runHandler_of_error hc
    ((Form.stopsAt hb (.branchLink off) id 14 (List.mem_singleton_self _) (.inr rfl)).resolve_right nofun)

/-- BX is a write of T, then the jump (R154). -/
theorem branchExchange_accessible (h : accessible s rm) : branchExchange rm s =
    .ok ((Work.start (s.setCpsr (withT s.cpsr ((reg s rm).getLsbD 0)))).setPc (reg s rm &&& 0xFFFFFFFE#32)) :=
  bind_eq_ok.2 ⟨_, readReg_accessible h, rfl⟩

end

/-! ## The whole instruction -/

/-- Settles O26: the handler writes the target to r15, and nothing else is left to change (R152). -/
theorem branchResult : Obligations.BranchResult := by
  unfold Obligations.BranchResult
  intro c off s hc
  refine ⟨_, runHandler_of_ok (h := branch off) hc rfl, ?_, onlyR15_advance_nextPc ..⟩
  rw [Work.setPc_nextPc, State.execAddr_advance_some, branchTarget_eq_ofInt]

/-- Settles O27: the jump keeps the r14 written before it, and a mode without r14 stops at that write (R153, R15). -/
theorem branchLinkResult : Obligations.BranchLinkResult := by
  unfold Obligations.BranchLinkResult
  intro c off s hc
  refine ⟨fun hb => ?_, fun hm => ?_, fun hm => ?_⟩
  · obtain ⟨w, hw, -⟩ := setReg_accessible (.start s) (i := 14) (s.execAddr + 4#32) (.inr hb)
    have hrun := branchLink_of_setReg (off := off) hw
    have hframe := RegsFramed.branchLink hrun
    refine ⟨_, runHandler_of_ok hc hrun, ?_, written_setReg_other hw (Work.setReg_fifteen ..) (by decide) _,
      registersBut_advance hframe.regs _ _, by rw [State.advance_cpsr, hframe.cpsr],
      spsrsKept_advance hframe.spsrs _ _, nothingStored_advance (StoresNothing.branchLink off _ hrun) _ _,
      .advance (.branchLink hrun) _ _⟩
    rw [Work.setPc_nextPc, State.execAddr_advance_some, branchTarget_eq_ofInt]
  · have hb : ¬ banked s := by rcases hm with hm | hm | hm <;> simp [banked, hm]
    have hvalid : psrModeOf s.cpsr ≠ none := by rcases hm with hm | hm | hm <;> simp [hm]
    rw [exec_bl_of_not_banked hc hb, if_neg hvalid]
  · have hb : ¬ banked s := by simp [banked, hm]
    rw [exec_bl_of_not_banked hc hb, if_pos hm]

/-- Settles O28: the handler writes one bit of the CPSR and jumps to the rest of Rm (R154). -/
theorem branchExchangeResult : Obligations.BranchExchangeResult := by
  unfold Obligations.BranchExchangeResult
  intro c rm s hc hm
  have hrun := branchExchange_accessible hm
  have hframe : Framed s _ [] _ false := .branchExchange hrun
  have hbit := getLsbD_setBit s.cpsr (k := 5) (by decide) ((reg s rm).getLsbD 0)
  refine ⟨_, runHandler_of_ok hc hrun, ?_, ?_, fun k hk => ?_, registersBut_advance hframe.regs _ _,
    spsrsKept_advance (hframe.spsrs rfl) _ _, nothingStored_advance (StoresNothing.branchExchange rm _ hrun) _ _,
    .advance (.branchExchange hrun) _ _⟩
  · rw [Work.setPc_nextPc, State.execAddr_advance_some, and_clearBitZero_eq_sub]
  · rw [State.advance_cpsr, ← getLsbD_eq_bitOf]
    exact hbit 5
  · rw [State.advance_cpsr]
    exact (hbit k).trans (if_neg hk)

end Sys2Proof.Machine
end

section
/-! What a step that starts in User mode can do (60_exceptions.md R174): it keeps every privileged register and the mode,
it enters an SWI service, or it takes an IRQ. -/

namespace Sys2Proof.Machine

section
variable {s t u : State}

/-! ## The instruction -/

theorem UserKept.advance (h : UserKept s u) (n : Option Word) (tr : Bool) : UserKept s (u.advance n tr) := by
  rw [State.advance_eq]
  exact { h with }

/-- The line-input service writes memory alone (60_exceptions.md R166). -/
theorem UserKept.serviceReadline {f : Word} (hm : psrModeOf s.cpsr = some .user)
    (h : serviceReadline s f = .next u) : UserKept s u := by
  rcases serviceReadline_next h with ⟨-, rfl⟩ | ⟨_, _, _, _, -, hw⟩
  · exact { UserKept.refl s with }
  · exact { (writeLine_ok hw).1.user hm with }

/-- The instruction is an SWI whose condition passes and whose number is a service's (48_software_interrupt.md R160). -/
def callsService (i : Instr) (s : State) : Prop :=
  ∃ c n, i = .swi c n ∧ condPassed c s.cpsr = true ∧ (n = s.params.swiPutc ∨ n = s.params.swiReadline)

/-- An SWI keeps the privileged state or has entered a service. -/
theorem execSwi_of_user {c : Cond} {n : BitVec 24} (h : execSwi c n s = .next u) :
    UserKept s u ∨ (callsService (.swi c n) s ∧ u.cpsr = entryStatus s.cpsr .supervisor) := by
  cases hc : condPassed c s.cpsr with
  | false =>
    cases (exec_of_failed (i := .swi c n) rfl hc).symm.trans h
    exact .inl ((UserKept.refl s).advance none _)
  | true =>
    rcases execSwi_next h with rfl | ⟨-, rfl⟩ | ⟨hn, rfl⟩ | ⟨hn, hr⟩
    · exact .inl ((UserKept.refl s).advance none _)
    · rw [exitHalt_eq]
      exact .inl { UserKept.refl s with }
    · exact .inr ⟨⟨c, n, rfl, hc, .inl hn⟩, swiEntry_cpsr s⟩
    · exact .inr ⟨⟨c, n, rfl, hc, .inr hn⟩, (serviceReadline_cpsr hr).trans (swiEntry_cpsr s)⟩

/-- EVERY INSTRUCTION run in User mode keeps the privileged state or has entered a service. -/
theorem exec_of_user {i : Instr} (hm : psrModeOf s.cpsr = some .user) (h : exec i s = .next u) :
    UserKept s u ∨ (callsService i s ∧ u.cpsr = entryStatus s.cpsr .supervisor) := by
  rcases exec_next h with ⟨-, rfl⟩ | ⟨c, n, rfl, hswi⟩ | ⟨v, n, e, rfl⟩
  · exact .inl { UserKept.refl s with }
  · exact execSwi_of_user hswi
  · exact .inl ((e.user hm).advance n _)

/-! ## The end of the step (60_exceptions.md R168) -/

/-- An IRQ that was pending and not masked when the step began is entered. -/
def irqTaken (s t : State) : Prop :=
  psrModeOf t.cpsr = some .irq ∧ s.pendingIrq = true ∧ psrI s.cpsr = false ∧ t.pendingIrq = false

/-- The IRQ test sees the latch and the mask as the step found them. -/
theorem UserKept.ended (h : UserKept s u) (hp : u.pendingIrq = s.pendingIrq) (he : Ended u t) :
    UserKept s t ∨ irqTaken s t := by
  have hmask : psrI u.cpsr = psrI s.cpsr := h.cpsr 7 (by decide) (by decide)
  rcases he with ⟨-, rfl⟩ | ⟨-, rfl⟩
  · exact .inl h
  · rcases u.takeIrq_cases with ⟨hpend, hi, e⟩ | ⟨-, e⟩ <;> rw [e]
    · exact .inr ⟨psrModeOf_entryStatus .., hp ▸ hpend, hmask ▸ hi, rfl⟩
    · exact .inl h

/-- A step that masks IRQ ends with the status it has. -/
theorem Ended.cpsr_of_masked (he : Ended u t) (hi : psrI u.cpsr = true) : t.cpsr = u.cpsr := by
  rcases he with ⟨-, rfl⟩ | ⟨-, rfl⟩
  · rfl
  · rw [State.takeIrq_of_masked hi]

/-- EVERYTHING A STEP DOES from User mode. -/
theorem step_of_user (hm : psrModeOf s.cpsr = some .user) (h : step s = .next t) :
    UserKept s t ∨
    (psrModeOf t.cpsr = some .supervisor ∧
      ∃ raw, memRead s s.execAddr .word = .ok raw ∧ callsService (decode raw) s) ∨
    irqTaken s t := by
  rcases step_next h with ⟨-, u, hu, hend⟩ | ⟨-, -, rfl⟩ | ⟨-, -, raw, u, hr, hu, hend⟩
  · exact ((UserKept.serviceReadline hm hu).ended (pendingIrq_serviceReadline hu) hend).imp_right .inr
  · exact .inl { UserKept.refl s with }
  · rcases exec_of_user hm hu with hkept | ⟨hcalls, hcpsr⟩
    · exact (hkept.ended (KeptByStep.exec hu).pendingIrq hend).imp_right .inr
    · have hentered := hend.cpsr_of_masked (by rw [hcpsr, psrI_entryStatus])
      exact .inr (.inl ⟨by rw [hentered, hcpsr, psrModeOf_entryStatus], raw, hr, hcalls⟩)

end

/-- Settles O49: a step that keeps the privileged state stays in User mode (R174). -/
theorem userModeLeft : Obligations.UserModeLeft := by
  unfold Obligations.UserModeLeft
  intro s t hm h
  rcases step_of_user hm h with hkept | ⟨hsvc, raw, hr, c, n, hd, hc, hn⟩ | hirq
  · exact .inl (hkept.mode.trans hm)
  · exact .inr (.inl ⟨hsvc, raw, c, n, hr, hd, hc, hn⟩)
  · exact .inr (.inr hirq)

/-- Settles O50: of the three things a step does from User mode, only the one that keeps the privileged state ends in
User mode (R157, R174, R15). -/
theorem userKeepsPrivileged : Obligations.UserKeepsPrivileged := by
  unfold Obligations.UserKeepsPrivileged
  intro s t hm h ht
  rcases step_of_user hm h with hkept | ⟨hsvc, -⟩ | ⟨hirq, -⟩
  · exact ⟨hkept.r13Svc, hkept.r14Svc, hkept.r13Irq, hkept.r14Irq, hkept.spsrSvc, hkept.spsrIrq, hkept.cpsr⟩
  · exact absurd (hsvc.symm.trans ht) (by decide)
  · exact absurd (hirq.symm.trans ht) (by decide)

end Sys2Proof.Machine
end

section
/-! Status-register transfer (47_status_register.md R156 to R159): the source of MRS, and what MSR writes and where it
stops. -/

namespace Sys2Proof.Machine

/-! ## MRS (47_status_register.md R156) -/

section
variable {c : Cond} {spsr : Bool} {rd : Reg} {s : State} {v : Word}

theorem statusSource_of_source (h : if spsr then s.currentSpsr = some v else v = s.cpsr) :
    statusSource spsr s = .ok v := by
  cases spsr with
  | false => exact congrArg Except.ok (Eq.symm h)
  | true =>
    have hsome : s.currentSpsr = some v := h
    rw [statusSource, if_pos rfl, hsome]

/-- In a mode without an SPSR there is none to copy (10_state.md R30). -/
theorem moveFromStatus_of_no_spsr (h : s.currentSpsr = none) : moveFromStatus true rd s = .error .noSpsr := by
  rw [moveFromStatus, statusSource, if_pos rfl, h]
  rfl

/-- MRS is the one register write of its source. -/
theorem moveFromStatus_of_setReg {w : Work} (hv : statusSource spsr s = .ok v) (hw : (Work.start s).setReg rd v = .ok w) :
    moveFromStatus spsr rd s = .ok w := bind_eq_ok.2 ⟨v, hv, hw⟩

end

/-- Settles O29: the source is read before Rd is written, and Rd alone is written (R156); without an SPSR the source
stops the instruction (R30), and without r13 or r14 the write (R15). -/
theorem mrsResult : Obligations.MrsResult := by
  unfold Obligations.MrsResult
  intro c spsr rd s hc
  refine ⟨fun v hv hd => ?_, ?_, ?_⟩
  · obtain ⟨w, hw, -⟩ := setReg_accessible (.start s) v hd
    have hrun := moveFromStatus_of_setReg (statusSource_of_source hv) hw
    have he := Effect.moveFromStatus hrun
    refine ⟨_, runHandler_of_ok hc hrun, written_advance hw _, fun h15 => ?_,
      registersBut_advance (registersBut_setReg hw) _ _, by rw [State.advance_cpsr, (RegsFramed.setReg hw).cpsr]; rfl,
      spsrsKept_advance (RegsFramed.setReg hw).spsrs _ _, nothingStored_advance (nothingStored_setReg hw) _ _,
      .advance he _ _⟩
    rw [nextPc_setReg_of_ne h15 hw]
    exact nextInstruction_advance he.r15
  · rintro rfl hnone
    exact runHandler_of_error hc (moveFromStatus_of_no_spsr hnone)
  · rintro rfl hrd hm
    have hb : ¬ banked s := by rcases hm with hm | hm | hm <;> simp [banked, hm]
    have hreason : unbankedReason s = .unbankedMode := by rcases hm with hm | hm | hm <;> simp [unbankedReason, hm]
    have hstop := (Form.stopsAt hb (.fromStatus false rd) id rd (List.mem_singleton_self rd) hrd).resolve_right nofun
    rw [hreason] at hstop
    exact runHandler_of_error hc hstop

/-! ## MSR (47_status_register.md R157 to R159) -/

section
variable {c : Cond} {i : Instr} {fm : BitVec 4} {v : Word} {s t : State} {spsr : Bool}

/-- An MSR whose write succeeds advances from the state written. -/
theorem exec_msr_of_ok (hc : condPassed c s.cpsr = true) (hi : isMsr spsr i c fm v s)
    (ht : msrWrite s spsr fm v = .ok t) : exec i s = .next (t.advance none s.traced) := by
  obtain ⟨handler, hexec, hrun, -⟩ := exec_msr hi
  rw [ht] at hrun
  exact hexec.trans (runHandler_of_ok hc hrun)

theorem exec_msr_of_error {r : Reason} (hc : condPassed c s.cpsr = true) (hi : isMsr spsr i c fm v s)
    (hr : msrWrite s spsr fm v = .error r) : exec i s = .fault (r.at s.execAddr) := by
  obtain ⟨handler, hexec, hrun, -⟩ := exec_msr hi
  rw [hr] at hrun
  exact hexec.trans (runHandler_of_error hc hrun)

/-- What every MSR leaves but for the status registers: r15 goes on and the rest is kept. -/
theorem msr_kept (ht : msrWrite s spsr fm v = .ok t) (tr : Bool) :
    let t' := t.advance none tr
    nextInstruction s t' ∧ registersBut s t' [] ∧ nothingStored s t' ∧ RestKept s t' :=
  ⟨nextInstruction_advance (Effect.msrWrite ht).r15,
    registersBut_advance (Framed.msrWrite (ds := []) ht).regs _ _, nothingStored_advance (nothingStored_msrWrite ht) _ _,
    .advance (.msrWrite ht) _ _⟩

/-- The bits of the CPSR that MSR may write (47_status_register.md R157). -/
theorem allowedBits_cpsr_iff (p : Word) {k : Nat} (hk : k < 32) : (allowedBits false p).getLsbD k = true ↔
    28 ≤ k ∨ (psrModeOf p ≠ some .user ∧ k < 8 ∧ k ≠ 5) := by
  rw [getLsbD_allowedBits _ _ hk]
  simp [privileged, and_left_comm]

/-- The bits of an SPSR that MSR may write, in any mode that has one. -/
theorem allowedBits_spsr_iff (p : Word) {k : Nat} (hk : k < 32) : (allowedBits true p).getLsbD k = true ↔
    28 ≤ k ∨ k < 8 := by
  rw [getLsbD_allowedBits _ _ hk]
  simp

theorem msrWrite_spsr {old : Word} (h : s.currentSpsr = some old) : msrWrite s true fm v =
    .ok (s.setCurrentSpsr (merge old v (lanes fm &&& allowedBits true s.cpsr))) :=
  msrWrite_ok.2 (.inl ⟨rfl, old, h, rfl⟩)

theorem msrWrite_spsr_of_none (h : s.currentSpsr = none) : msrWrite s true fm v = .error .noSpsr := by
  simp [msrWrite, h]

theorem msrWrite_cpsr_of_invalid (h : psrModeOf (merge s.cpsr v (lanes fm &&& allowedBits false s.cpsr)) = none) :
    msrWrite s false fm v = .error .invalidMode := by
  simp [msrWrite, h]

/-- The SPSR of the mode reads as it was written (10_state.md R29). -/
theorem currentSpsr_setCurrentSpsr {old : Word} (h : s.currentSpsr = some old) (new : Word) :
    (s.setCurrentSpsr new).currentSpsr = some new := by
  rcases State.currentSpsr_eq_some.1 h with ⟨hm, -⟩ | ⟨hm, -⟩
  · simp [State.setCurrentSpsr, State.currentSpsr, hm]
  · simp [State.setCurrentSpsr, State.currentSpsr, hm]

end

/-- Settles O30: the lane mask and the permitted bits are those of `MsrWrite` (R157), which the two forms run on their
value (R158, R159), and its test of the mode code comes before the write (R25). -/
theorem msrCpsrResult : Obligations.MsrCpsrResult := by
  unfold Obligations.MsrCpsrResult
  intro c i fm v new s hc hi hbits
  obtain rfl := merge_of_mergedBits (fun k hk => allowedBits_cpsr_iff s.cpsr hk) hbits
  refine ⟨fun hmode => ?_, fun hmode => exec_msr_of_error hc hi (msrWrite_cpsr_of_invalid hmode)⟩
  have hwrite := msrWrite_ok.2 (.inr ⟨rfl, hmode, rfl⟩)
  obtain ⟨hnext, hregs, hstored, hrest⟩ := msr_kept hwrite s.traced
  exact ⟨_, exec_msr_of_ok hc hi hwrite, State.advance_cpsr .., hnext, hregs, spsrsKept_advance ⟨rfl, rfl⟩ _ _, hstored,
    hrest⟩

/-- Settles O31: as for the CPSR, with no test of the mode code (R157) and only in a mode with an SPSR (R30), the one
that is written. -/
theorem msrSpsrResult : Obligations.MsrSpsrResult := by
  unfold Obligations.MsrSpsrResult
  intro c i fm v s hc hi
  refine ⟨fun old new hold hbits => ?_, fun hnone => exec_msr_of_error hc hi (msrWrite_spsr_of_none hnone)⟩
  have hwrite := msrWrite_spsr (fm := fm) (v := v) hold
  rw [merge_of_mergedBits (fun k hk => allowedBits_spsr_iff s.cpsr hk) hbits] at hwrite
  have hframe := (Framed.msrWrite (ds := []) hwrite).advance none s.traced
  have hspsr : ((s.setCurrentSpsr new).advance none s.traced).currentSpsr = _ :=
    State.currentSpsr_congr (State.advance_cpsr ..) (spsrsKept_advance ⟨rfl, rfl⟩ _ _)
  obtain ⟨hnext, hregs, hstored, hrest⟩ := msr_kept hwrite s.traced
  exact ⟨_, exec_msr_of_ok hc hi hwrite, hspsr.trans (currentSpsr_setCurrentSpsr hold new), by simp, hnext,
    hframe.spsrSvc, hframe.spsrIrq, hregs, hstored, hrest⟩

end Sys2Proof.Machine
end

section
/-! The SWI that completes (48_software_interrupt.md R160, R161, 60_exceptions.md R165, R166): the two services, and the
numbers and no-op spaces that only advance. -/

namespace Sys2Proof.Machine

/-! ## What only advances (48_software_interrupt.md R160, R161) -/

/-- The no-op advances, its condition passed or not. -/
theorem runHandler_noOperation (c : Cond) (s : State) : runHandler c noOperation s = .next (s.advance none s.traced) := by
  cases hc : condPassed c s.cpsr with
  | false => exact runHandler_of_failed hc
  | true => exact runHandler_of_ok (h := noOperation) hc rfl

/-- A number of no service and not the exit's advances, the condition passed or not. -/
theorem execSwi_of_other {n : BitVec 24} {s : State} (hexit : n ≠ swiExit) (hputc : n ≠ s.params.swiPutc)
    (hline : n ≠ s.params.swiReadline) (c : Cond) : execSwi c n s = .next (s.advance none s.traced) := by
  have hout : swiOutcome s.params n = .proceed := by
    rw [swiOutcome, if_neg hexit, if_neg (not_or.2 ⟨hputc, hline⟩)]
  rw [execSwi, hout, ite_self]

/-- Settles O36: the six no-op spaces run one handler (R161), and an SWI of any other number none (R160). -/
theorem noOpsOnlyAdvance : Obligations.NoOpsOnlyAdvance := by
  unfold Obligations.NoOpsOnlyAdvance
  intro i s h
  suffices hexec : exec i s = .next (s.advance none s.traced) from ⟨_, hexec, onlyR15_advance s⟩
  rcases h with ⟨c, hnop⟩ | ⟨c, n, rfl, hexit, hputc, hline⟩
  · rcases hnop with rfl | rfl | rfl | rfl | rfl | rfl <;> exact runHandler_noOperation c s
  · exact execSwi_of_other hexit hputc hline c

/-! ## The services after the entry (60_exceptions.md R165, R166) -/

@[simp] theorem swiEntry_waitingLine (s : State) : (swiEntry s).waitingLine = false := by simp [swiEntry]

/-- What the entry leaves stands whatever is then done to memory, the output, the line queue and the wait. -/
theorem swiEntered.congr {s u t : State} (h : swiEntered s u)
    (ht : t = { u with mem := t.mem, output := t.output, inputLines := t.inputLines, waitingLine := t.waitingLine }) :
    swiEntered s t := by
  obtain ⟨hlr, hspsr, hstatus, hpc, hslots, hrest⟩ := h
  have hsame : ∀ sl, t.getSlot sl = u.getSlot sl := fun sl => by rw [ht]; cases sl <;> rfl
  rw [ht] at hsame ⊢
  exact ⟨hlr, hspsr, hstatus, hpc, fun sl h15 h14 => (hsame sl).trans (hslots sl h15 h14), hrest⟩

/-- The character-output SWI, its condition passed, is the entry and then the service (48_software_interrupt.md R160). -/
theorem exec_swi_putc {c : Cond} {s : State} (hc : condPassed c s.cpsr = true) (hexit : s.params.swiPutc ≠ swiExit) :
    exec (.swi c s.params.swiPutc) s = .next (servicePutc (swiEntry s)) := by
  show execSwi c _ s = _
  rw [execSwi, if_pos hc, swiOutcome, if_neg hexit, if_pos (.inl rfl)]
  exact if_pos rfl

/-- Settles O33: the service appends one byte to the output of the entered state, whose argument register is the old
one (R165, R166, R36). -/
theorem swiPutcResult : Obligations.SwiPutcResult := by
  unfold Obligations.SwiPutcResult
  intro c s hc hexit
  refine ⟨_, exec_swi_putc hc hexit, (swiEntered_swiEntry s).congr rfl, ?_, (nothingStored_swiEntry s).1, ?_,
    swiEntry_inputLines s⟩
  · simp [State.running, servicePutc]
  · simp [servicePutc]

/-- A line within `max` whose bytes fit in the RAM is written at the buffer, and its place in the queue is free. -/
theorem serviceReadline_fits {e : State} {f : Word} {line : List Byte} {rest : List (List Byte)}
    (h : e.inputLines = line :: rest) (hl : line.length ≤ (e.regs[e.params.readlineMaxReg]).toNat)
    (hin : (e.regs[e.params.readlineAddrReg]).toNat +
      (lineBytes (e.regs[e.params.readlineMaxReg]).toNat line).length ≤ e.params.memSize)
    (hm : e.params.memSize ≤ 2 ^ 32) :
    serviceReadline e f = .next { e with
      inputLines := rest
      waitingLine := false
      mem := writeCells e.mem (e.regs[e.params.readlineAddrReg]).toNat
        (lineBytes (e.regs[e.params.readlineMaxReg]).toNat line) } := by
  have hw := writeLine_fits (s := { e with inputLines := rest, waitingLine := false }) hin hm
  unfold serviceReadline
  simp only [h, if_neg (Nat.not_lt.2 hl), hw]

/-- Settles O34: the service writes the line's bytes one after another in the entered state, whose buffer registers are
the old ones (R165, R166, R37). -/
theorem swiReadlineResult : Obligations.SwiReadlineResult := by
  unfold Obligations.SwiReadlineResult
  intro c s line rest hc hp hline
  simp only [← lineBytes_eq]
  intro hl hin
  have hrun := serviceReadline_fits (e := swiEntry s) (f := s.execAddr) (by simpa using hline) (by simpa using hl)
    (by simpa using hin) (by simpa using hp.1)
  refine ⟨_, (exec_swi_readline hc hp).trans hrun, (swiEntered_swiEntry s).congr rfl, ?_, fun a => ?_,
    swiEntry_output s, rfl⟩
  · simp [State.running]
  · simpa [State.byteAt] using readCell_writeCells ..

end Sys2Proof.Machine
end

section
/-! The IRQ test at the end of a step, and an exception entry with the return from it (60_exceptions.md R165 to R170). -/

namespace Sys2Proof.Machine

/-! ## The IRQ test (60_exceptions.md R168) -/

theorem State.takeIrq_of_pending {s : State} (hp : s.pendingIrq = true) (hi : psrI s.cpsr = false) :
    s.takeIrq = takeException .irq s.execAddr s := by
  simp [State.takeIrq, hp, hi, State.execAddr]

theorem State.takeIrq_of_not_taken {s : State} (h : s.pendingIrq = false ∨ psrI s.cpsr = true) : s.takeIrq = s := by
  rcases h with hp | hi
  · simp [State.takeIrq, hp]
  · exact State.takeIrq_of_masked hi

/-- Settles O46: after the instruction only a running core tests for an IRQ (R168), and the test is the whole entry
(R169) or nothing. -/
theorem irqAtEndOfStep : Obligations.IrqAtEndOfStep := by
  unfold Obligations.IrqAtEndOfStep
  intro s u raw hw hb hr hu
  have hstep : step s = .next (if u.running then u.takeIrq else u) := by
    rw [step_of_fetch hw hb hr, hu, endOfStep_next]
  refine ⟨fun hrun hp hi => ?_, fun h => ?_⟩
  · rw [hrun, if_pos rfl, State.takeIrq_of_pending hp hi] at hstep
    exact ⟨_, hstep, rfl, rfl, enteredStatus_entryStatus u.cpsr .irq, rfl, rfl, rfl⟩
  · rw [hstep]
    rcases h with hrun | h
    · rw [hrun, if_neg Bool.false_ne_true]
    · rw [State.takeIrq_of_not_taken h, ite_self]

/-- The test leaves no IRQ pending and unmasked. -/
theorem State.takeIrq_masks (s : State) (hp : s.takeIrq.pendingIrq = true) : psrI s.takeIrq.cpsr = true := by
  rcases s.takeIrq_cases with ⟨-, -, e⟩ | ⟨h, e⟩ <;> rw [e] at hp ⊢
  · cases hp
  · exact h.resolve_left (by simp [hp])

/-- Settles O47: a step that ends running ends in the IRQ test (R168), which leaves I set or nothing pending. -/
theorem noUnmaskedIrqLeft : Obligations.NoUnmaskedIrqLeft := by
  unfold Obligations.NoUnmaskedIrqLeft
  intro s t h hrun hp
  have hended : ∀ u, Ended u t → psrI t.cpsr = true := by
    rintro u (⟨hstop, rfl⟩ | ⟨-, rfl⟩)
    · exact absurd (hstop.symm.trans hrun) Bool.false_ne_true
    · exact u.takeIrq_masks hp
  rcases step_next h with ⟨-, u, -, hend⟩ | ⟨-, -, rfl⟩ | ⟨-, -, raw, u, -, -, hend⟩
  · exact hended u hend
  · exact absurd ((State.halt_running ..).symm.trans hrun) Bool.false_ne_true
  · exact hended u hend

/-! ## The entry and the return (60_exceptions.md R165, R169, R170) -/

/-- An entry leaves the handler its return address and the interrupted status. -/
theorem takeException_handler (k : Exception) (ret : Word) (s : State) :
    psrModeOf (takeException k ret s).cpsr = some k.mode ∧ readReg (takeException k ret s) 14 = .ok ret ∧
      (takeException k ret s).currentSpsr = some s.cpsr := by
  have hmode : psrModeOf (takeException k ret s).cpsr = some k.mode := by
    cases k <;> exact psrModeOf_entryStatus ..
  obtain ⟨-, -, -, -, -, -, -, hbank⟩ := bankMap s 14 ret
  obtain ⟨hlr, -⟩ := hbank k
  refine ⟨hmode, hlr, State.currentSpsr_eq_some.2 ?_⟩
  cases k with
  | swi => exact .inl ⟨hmode, rfl⟩
  | irq => exact .inr ⟨hmode, rfl⟩

/-- Both exceptions enter a mode with an r14 of its own (10_state.md R15). -/
theorem banked_of_exception {k : Exception} {h : State} (hm : psrModeOf h.cpsr = some k.mode) : banked h := by
  cases k with
  | swi => exact .inr (.inr (.inl hm))
  | irq => exact .inr (.inr (.inr hm))

/-- Settles O48: the entry by its mode (R165, R169), and the return as the `MOVS pc` of a mode with an SPSR (R114,
R170), whose operand is r14 unshifted. -/
theorem exceptionRoundTrip : Obligations.ExceptionRoundTrip := by
  unfold Obligations.ExceptionRoundTrip
  refine ⟨by decide, fun k ret s => ⟨takeException_handler k ret s, fun h hvalid hm hlr hspsr => ?_⟩⟩
  obtain ⟨-, hshift, -⟩ := movsPcRestores .al h 0 rfl
  obtain ⟨hrestore, -⟩ := hshift 14 .lsl 0#5 (.inr (banked_of_exception hm))
  obtain ⟨t, ht, hpc, hcpsr, hregs, hspsrs, hstored, -⟩ := hrestore s.cpsr hspsr hvalid
  refine ⟨t, ht, hcpsr, ?_, hregs, hspsrs, hstored⟩
  have hoperand : (shiftImm (reg h 14) .lsl 0#5 (psrC h.cpsr)).1 = ret := reg_of_readReg hlr
  rw [State.execAddr, hpc, BitVec.add_sub_cancel, hoperand]

end Sys2Proof.Machine
end

section
/-! Reset and the load contract (70_reset_and_hazards.md R180, R181): the reset core, the bytes of the segments, and the
invariant after a load. -/

namespace Sys2Proof.Machine

/-! ## Reset (70_reset_and_hazards.md R180) -/

/-- The first fetch of a reset core leaves a RAM that does not reach the top of the address space (10_state.md R25). -/
theorem step_hardReset {p : Params} (h : p.memSize < 0xFFFFFFFC) :
    step (hardReset p) = .fault (.memBounds 0xFFFFFFF8#32) := by
  have hout : ¬ (hardReset p).inRam (hardReset p).execAddr .word := by
    show ¬ 0xFFFFFFF8 + 4 ≤ p.memSize
    omega
  exact step_of_fetch_error rfl rfl (memRead_outside hout)

/-- Settles O58: every field of the reset core is its value (R180), and its first fetch is outside the RAM (R25). -/
theorem resetState : Obligations.ResetState := by
  unfold Obligations.ResetState
  refine ⟨rfl, fun p => ⟨rfl, fun sl => ?_, rfl, rfl, rfl, fun a => rfl, rfl, rfl, rfl, rfl, rfl, step_hardReset⟩⟩
  cases sl with
  | low i => exact Vector.getElem_replicate _
  | r13Usr | r14Usr | r13Svc | r14Svc | r13Irq | r14Irq | r15 => rfl

theorem psrReserved_zero : psrReserved 0#32 = 0#20 := by decide

theorem hardReset_inv {p : Params} (hp : ParamsWf p) : (hardReset p).Inv where
  params := hp
  memory := Memory.wf_reset
  ram := nofun
  mode := nofun
  cpsrReserved := psrReserved_zero
  spsrSvcReserved := psrReserved_zero
  spsrIrqReserved := psrReserved_zero
  breakpoints := .nil
  oneMark := .inl rfl

/-! ## The segments in the RAM (70_reset_and_hazards.md R181) -/

/-- The segment writes the byte at the address. -/
def Segment.covers (g : Segment) (a : Nat) : Prop := g.paddr.toNat ≤ a ∧ a < g.paddr.toNat + g.size

@[simp] theorem Segment.length_contents (g : Segment) : g.contents.length = g.size := by simp [Segment.contents]

/-- A segment's byte, 0 beyond the bytes it has. -/
theorem Segment.getD_contents (g : Segment) {k : Nat} (h : k < g.size) :
    g.contents.getD k unwritten = g.bytes.getD k 0#8 := by
  simp [Segment.contents, List.getD_eq_getElem?_getD, h]

section
variable {m : List Host.Cell} {gs : List Segment} {a : Nat}

theorem writeSegments_append (m : List Host.Cell) (gs hs : List Segment) :
    writeSegments m (gs ++ hs) = writeSegments (writeSegments m gs) hs := by
  induction gs generalizing m with
  | nil => rfl
  | cons g gs ih => exact ih _

theorem readCell_writeSegments_of_not_covered (h : ∀ g ∈ gs, ¬ g.covers a) :
    readCell (writeSegments m gs) a = readCell m a := by
  induction gs generalizing m with
  | nil => rfl
  | cons g gs ih =>
    have hg : ¬ (g.paddr.toNat ≤ a ∧ a < g.paddr.toNat + g.contents.length) := by
      rw [Segment.length_contents]
      exact h g List.mem_cons_self
    rw [writeSegments, ih fun g' hg' => h g' (List.mem_cons_of_mem g hg'), readCell_writeCells, if_neg hg]

/-- The last segment that covers an address gives its byte. -/
theorem readCell_writeSegments_of_last {pre post : List Segment} {g : Segment} (hg : g.covers a)
    (hpost : ∀ h ∈ post, ¬ h.covers a) :
    readCell (writeSegments m (pre ++ g :: post)) a = g.bytes.getD (a - g.paddr.toNat) 0#8 := by
  obtain ⟨hlo, hhi⟩ := hg
  rw [writeSegments_append, writeSegments, readCell_writeSegments_of_not_covered hpost, readCell_writeCells,
    Segment.length_contents, if_pos ⟨hlo, hhi⟩, Segment.getD_contents g (by omega)]

theorem Memory.wf_writeSegments (h : Memory.wf m) (gs : List Segment) : Memory.wf (writeSegments m gs) := by
  induction gs generalizing m with
  | nil => exact h
  | cons g gs ih => exact ih (Memory.wf_writeCells _ h _)

/-- A listed address after a load is covered by a segment or was listed before. -/
theorem mem_writeSegments {c : Host.Cell} (hc : c ∈ writeSegments m gs) : (∃ g ∈ gs, g.covers c.1) ∨ c ∈ m := by
  induction gs generalizing m with
  | nil => exact .inr hc
  | cons g gs ih =>
    rcases ih hc with ⟨g', hg', hcov⟩ | h
    · exact .inl ⟨g', List.mem_cons_of_mem g hg', hcov⟩
    · refine (mem_writeCells h).imp_left fun hcov => ⟨g, List.mem_cons_self, ?_⟩
      rwa [Segment.length_contents] at hcov

end

/-! ## The load (70_reset_and_hazards.md R181) -/

section
variable {s : State} {img : Image}

theorem loadable_iff {p : Params} : loadable p img = true ↔
    ∀ g ∈ img.segments, g.paddr.toNat + g.size ≤ p.memSize ∧ g.endian = img.endian := by
  simp [loadable]

theorem load_of_loadable (h : loadable s.params img = true) : s.load img =
    { s with endian := img.endian, mem := writeSegments s.mem img.segments }.loadRegisters img.entry := by
  rw [State.load, if_pos h]

/-- A failed load changes the loaded mark alone. -/
theorem load_of_not_loadable (h : ¬ loadable s.params img = true) : s.load img = { s with loaded := false } := by
  rw [State.load, if_neg h]

theorem psrModeOf_load (h : loadable s.params img = true) : psrModeOf (s.load img).cpsr = some .system := by
  rw [load_of_loadable h]
  exact psrModeOf_loadedStatus s.cpsr

/-- A load keeps the invariant: the segments lie in the RAM, and the status is one of System mode. -/
theorem State.Inv.load (h : s.Inv) (hl : loadable s.params img = true) : (s.load img).Inv := by
  rw [load_of_loadable hl]
  exact { h with
    memory := Memory.wf_writeSegments h.memory img.segments
    ram := fun c hc => by
      rcases mem_writeSegments hc with ⟨g, hg, -, hhi⟩ | hold
      · exact hhi.trans_le (loadable_iff.1 hl g hg).1
      · exact h.ram c hold
    mode := fun _ => by
      show (psrModeOf (loadedStatus s.cpsr)).isSome = true
      rw [psrModeOf_loadedStatus]
      rfl
    cpsrReserved := (psrReserved_loadedStatus s.cpsr).trans h.cpsrReserved }

end

/-- Settles O52: the reset core has the invariant (R180, R25), and a load keeps it (R181). -/
theorem resetAndLoadInv : Obligations.ResetAndLoadInv := by
  unfold Obligations.ResetAndLoadInv
  exact ⟨hardReset_inv (p := testParams) (by decide), fun p img hp hl =>
    ⟨(hardReset_inv hp).load hl, psrModeOf_load (s := hardReset p) hl⟩⟩

/-- Settles O59: the register part field by field, each byte by the last segment that covers it, and the failed load
(R181). -/
theorem loadContract : Obligations.LoadContract := by
  unfold Obligations.LoadContract
  intro s img
  rw [← loadable_iff]
  refine ⟨fun hl => ?_, load_of_not_loadable⟩
  have hflag : ∀ k, 28 ≤ k → (loadedStatus s.cpsr).getLsbD k = false := fun k hk => by
    rw [getLsbD_loadedStatus, if_neg (by omega), if_pos hk]
  rw [load_of_loadable hl]
  refine ⟨rfl, rfl, rfl, rfl, hflag 31 (by decide), hflag 30 (by decide), hflag 29 (by decide), hflag 28 (by decide),
    psrMode_loadedStatus s.cpsr, fun k h5 h28 => ?_, fun hzero => ?_,
    fun a ha => readCell_writeSegments_of_not_covered ha, fun pre g post a hsplit hg hpost => ?_, rfl⟩
  · exact (getLsbD_loadedStatus s.cpsr k).trans (by rw [if_neg (by omega), if_neg (by omega)])
  · show loadedStatus s.cpsr = _
    rw [hzero]
    decide
  · show readCell (writeSegments s.mem img.segments) a = _
    rw [hsplit]
    exact readCell_writeSegments_of_last hg hpost

end Sys2Proof.Machine
end

section
/-! Words that the spec writes out (30_encoding.md, 95_test_vectors.md). -/

namespace Sys2Proof.Machine

/-- Settles O4: the decoder evaluated on each of the sixteen words. -/
theorem writtenWordsDecode : Obligations.WrittenWordsDecode := by
  unfold Obligations.WrittenWordsDecode
  decide

end Sys2Proof.Machine
end
